-- ==== Sys2Proof/Word.lean ====
section
/-! DEFINITION. The word types of SWD-CORE and their plainest arithmetic (rule R11, rule R13). -/

namespace Sys2Proof

/-- A host register or a command word: 32 bits (rule R60, rule R120). -/
abbrev Word := BitVec 32

/-- A byte of a stream, of the window or of the lookahead: 8 bits (rule R11). -/
abbrev Byte := BitVec 8

end Sys2Proof
end

