-- ==== Sys2Proof/Config.lean ====
section
/-! DEFINITION. What is fixed for one SWD-CORE: the parameters of format 1 (rule R10), the answers the two ports
can give (rule R90, rule R91), and the values the spec leaves open, as constants with no body. -/

namespace Sys2Proof

/-- What the host's byte source answers to one `SrcRead()` (rule R90). -/
inductive SrcAnswer where
  /-- The next byte of the source. -/
  | byte (b : Byte)
  /-- The source has no more bytes. -/
  | eof
  /-- The source failed. -/
  | ioErr
deriving DecidableEq, Repr, Inhabited

/-- What the host's byte sink answers to one `SinkWrite(b)` (rule R91). -/
inductive SinkAnswer where
  /-- The byte is appended to the sink. -/
  | ok
  /-- The sink refuses the byte. -/
  | ioErr
deriving DecidableEq, Repr, Inhabited

namespace Config

/-- `W`, the dictionary capacity in bytes (rule R10). -/
abbrev windowSize : Nat := 4096
/-- `L`, the lookahead capacity in bytes (rule R10). -/
abbrev lookaheadSize : Nat := 60
/-- `MINLEN`, the minimum match length (rule R10). -/
abbrev minLen : Nat := 3
/-- `MAXLEN`, the maximum match length (rule R10). -/
abbrev maxLen : Nat := 60
/-- `KEY`, the index prefix length in bytes (rule R10). -/
abbrev keyLen : Nat := 3
/-- `NA`, the alphabet size of table A (rule R10). -/
abbrev symbolsA : Nat := 314
/-- `NB`, the alphabet size of table B (rule R10). -/
abbrev symbolsB : Nat := 64
/-- `DLOW`, the raw low bits of `distance - 1` after the class code (rule R10). -/
abbrev distLowBits : Nat := 6
/-- `MAX_FREQ`, the rebuild threshold on the root frequency (rule R10, rule R254). -/
abbrev maxFreq : Nat := 0x8000
/-- `HDR`, the number of header bytes (rule R10). -/
abbrev headerBytes : Nat := 4
/-- The width of table A's `son` and `prnt` entries (rule R50). -/
abbrev linkBitsA : Nat := 10
/-- The width of table B's `son` and `prnt` entries (rule R51). -/
abbrev linkBitsB : Nat := 8

/-- The constraints that rule R9 puts on the parameters: `W` a power of two and a multiple of `2^DLOW`, the lengths in
order, the alphabet sizes as they follow from the lengths and the classes, the threshold below the sentinel, and `KEY`
equal to `MINLEN`. -/
def parametersOk : Bool :=
  decide (windowSize = 2 ^ Nat.log2 windowSize) && decide (windowSize % 2 ^ distLowBits = 0) && decide (2 ≤ minLen) &&
    decide (minLen ≤ maxLen ∧ maxLen ≤ lookaheadSize) && decide (symbolsA = 256 + maxLen - minLen + 1) &&
    decide (symbolsB = windowSize >>> distLowBits) && decide (2 ≤ symbolsB) && decide (maxFreq < 0xFFFF) &&
    decide (keyLen = minLen)

/-- The parameter values of format 1 (rule R10) meet the constraints of rule R9. -/
theorem parametersOk_format1 : parametersOk = true := by decide

/-- The answer to source request number `n`, where the state holds no answer the host has lined up. The answer is the
host's choice (rule R90), so it is a FREE VALUE: no body, nothing constrains it. Log entry 1. -/
opaque sourceDraw : Nat → SrcAnswer

/-- The answer to sink request number `n`, where the state holds no answer the host has lined up: a FREE VALUE, as
`sourceDraw` (rule R91). Log entry 1. -/
opaque sinkDraw : Nat → SinkAnswer

/-- `SWD_BASE / 64`: the block's place in the host's address map is an OPEN platform parameter that must be a
multiple of 64 (rule R86). Log entry 9. -/
opaque windowBlock : Nat

end Config
end Sys2Proof
end

