-- ==== Sys2Proof/Machine/CodeTable.lean ====
section
/-! DEFINITION. One adaptive code table (rule R50 to rule R55) and what is done to it: the initial tree, the current
code of a symbol, the frequency update and the rebuild (`43_code_table.md`). In every rule `n` is the alphabet size,
`T = 2n - 1` the node count and `R = T - 1` the root. -/

namespace Sys2Proof.Machine

/-- A code table for `n` symbols whose links are `w` bits wide: `freq[0..T]` (entry `T` the sentinel), `son[0..T-1]` and
`prnt[0..T+n-1]` (rule R50, rule R51, rule R52). -/
structure CodeTable (n w : Nat) where
  freq : List (BitVec 16)
  son : List (BitVec w)
  prnt : List (BitVec w)
deriving DecidableEq, Repr

variable {n w : Nat}

/-- `T`, the number of nodes (rule R240). -/
abbrev nodeCount (n : Nat) : Nat := 2 * n - 1

/-- `R`, the root (rule R240). -/
abbrev rootNode (n : Nat) : Nat := 2 * n - 2

/-- `t.freq[i]`. -/
def CodeTable.freqAt (t : CodeTable n w) (i : Nat) : Nat := (t.freq.getD i 0).toNat
/-- `t.son[i]`. -/
def CodeTable.sonAt (t : CodeTable n w) (i : Nat) : Nat := (t.son.getD i 0).toNat
/-- `t.prnt[i]`. -/
def CodeTable.prntAt (t : CodeTable n w) (i : Nat) : Nat := (t.prnt.getD i 0).toNat

/-- `t.freq[i] <- v`, kept to the 16 bits of an entry (rule R50). -/
def CodeTable.setFreq (t : CodeTable n w) (i v : Nat) : CodeTable n w :=
  { t with freq := t.freq.set i (BitVec.ofNat 16 v) }
/-- `t.son[i] <- v`, kept to the width of a link. -/
def CodeTable.setSon (t : CodeTable n w) (i v : Nat) : CodeTable n w :=
  { t with son := t.son.set i (BitVec.ofNat w v) }
/-- `t.prnt[i] <- v`, kept to the width of a link. -/
def CodeTable.setPrnt (t : CodeTable n w) (i v : Nat) : CodeTable n w :=
  { t with prnt := t.prnt.set i (BitVec.ofNat w v) }

/-! ## The initial tree (rule R241) -/

/-- The frequencies of the next `k` internal nodes: each is the sum of the next pair of nodes in index order, and joins
the end of the nodes still to be paired (rule R241). -/
def pairSums : Nat → List Nat → List Nat
  | k + 1, x :: y :: rest => (x + y) :: pairSums k (rest ++ [x + y])
  | _, _ => []

/-- `TreeInit` (rule R241), each array written out: leaf `s` stands at node `s` with frequency 1, internal node `n + q`
has the children `2q` and `2q + 1`, the sentinel is 0xFFFF and `prnt[R]` is 0. -/
def treeInit (n w : Nat) : CodeTable n w where
  freq :=
    (List.replicate n 1 ++ pairSums (n - 1) (List.replicate n 1) ++ [0xFFFF]).map (BitVec.ofNat 16)
  son :=
    ((List.range n).map (fun s => s + nodeCount n) ++ (List.range (n - 1)).map (fun q => 2 * q)).map (BitVec.ofNat w)
  prnt :=
    ((List.range (rootNode n)).map (fun i => n + i / 2) ++ [0] ++ List.range n).map (BitVec.ofNat w)

/-! ## The current code of a symbol (rule R243) -/

/-- The walk of `Code` from node `k` up to the root, prepending the low bit of each node passed. At most `fuel` edges:
a code has at most `n - 1` bits (rule R249). -/
def CodeTable.codeFrom (t : CodeTable n w) : Nat → Nat → List Bool → List Bool
  | 0, _, bits => bits
  | fuel + 1, k, bits =>
    if k = rootNode n then bits else t.codeFrom fuel (t.prntAt k) (decide (k % 2 = 1) :: bits)

/-- `t.prnt[T + s]`: the node that holds symbol `s`'s leaf (rule R50). -/
def CodeTable.leafOf (t : CodeTable n w) (s : Nat) : Nat := t.prntAt (s + nodeCount n)

/-- `Code(t, s)`, the current code of symbol `s`, root edge first (rule R243). -/
def CodeTable.code (t : CodeTable n w) (s : Nat) : List Bool := t.codeFrom (nodeCount n) (t.leafOf s) []

/-- The walk of `DecodeSymbol` over a list of bits, from the link `c` of the node just entered (rule R247): the symbol
reached and the bits left, or nothing where the bits run out. -/
def CodeTable.walkBits (t : CodeTable n w) : Nat → List Bool → Option (Nat × List Bool)
  | c, [] => if c < nodeCount n then none else some (c - nodeCount n, [])
  | c, bit :: bits =>
    if c < nodeCount n then t.walkBits (t.sonAt (c + bit.toNat)) bits else some (c - nodeCount n, bit :: bits)

/-- The symbol at the front of a list of bits (rule R247). -/
def CodeTable.decodeBits (t : CodeTable n w) (bits : List Bool) : Option (Nat × List Bool) :=
  t.walkBits (t.sonAt (rootNode n)) bits

/-! ## Rebuild (rule R260) -/

/-- Step 1 of `Rebuild`: the leaves in node order, each with its frequency halved, a half rounded up. A node is
(frequency, son). -/
def CodeTable.gatherLeaves (t : CodeTable n w) : List (BitVec 16 × BitVec w) :=
  ((List.range (nodeCount n)).filter fun i => decide (nodeCount n ≤ t.sonAt i)).map fun i =>
    (BitVec.ofNat 16 ((t.freqAt i + 1) / 2), t.son.getD i 0)

/-- The frequency of node `i` of a node list. -/
def nodeFreq (nodes : List (BitVec 16 × BitVec w)) (i : Nat) : Nat := (nodes.getD i (0, 0)).1.toNat

/-- The insert position of step 2: one above the last of the first `k` nodes whose frequency is at most `f`. -/
def insertPos (nodes : List (BitVec 16 × BitVec w)) (f : Nat) : Nat → Nat
  | 0 => 0
  | k + 1 => if f < nodeFreq nodes k then insertPos nodes f k else k + 1

/-- Step 2 of `Rebuild`, for `m` more internal nodes from node `j` on: pair nodes `i` and `i + 1`, and put the internal
node with their sum where the order wants it, the nodes from there to `j - 1` moving up by one. -/
def buildInternals : Nat → Nat → Nat → List (BitVec 16 × BitVec w) → List (BitVec 16 × BitVec w)
  | 0, _, _, nodes => nodes
  | m + 1, j, i, nodes =>
    let f := nodeFreq nodes i + nodeFreq nodes (i + 1)
    let k := insertPos nodes f j
    buildInternals m (j + 1) (i + 2) ((nodes.eraseIdx j).insertIdx k (BitVec.ofNat 16 f, BitVec.ofNat w i))

/-- One turn of step 3 of `Rebuild`: the parent links below node `i`. -/
def CodeTable.linkNode (t : CodeTable n w) (i : Nat) : CodeTable n w :=
  if nodeCount n ≤ t.sonAt i then t.setPrnt (t.sonAt i) i
  else (t.setPrnt (t.sonAt i) i).setPrnt (t.sonAt i + 1) i

/-- `Rebuild(t)` (rule R260). The sentinel and `prnt[R]` are not written. Step 3 takes the nodes in index order; `son` has
one entry a node. -/
@[irreducible] def CodeTable.rebuild (t : CodeTable n w) : CodeTable n w :=
  let leaves := t.gatherLeaves
  let old := (t.freq.take (nodeCount n)).zip t.son
  let nodes := buildInternals (n - 1) n 0 (leaves ++ old.drop leaves.length)
  let t1 : CodeTable n w :=
    { t with freq := nodes.map Prod.fst ++ t.freq.drop (nodeCount n), son := nodes.map Prod.snd }
  (List.range t.son.length).foldl CodeTable.linkNode t1

/-! ## Frequency update (rule R250) -/

/-- The search of `Bump` for the highest node whose frequency is below `k`, from node `l` up; the sentinel stops it. -/
def CodeTable.lastBelow (t : CodeTable n w) (k : Nat) : Nat → Nat → Nat
  | 0, l => l
  | fuel + 1, l => if t.freqAt (l + 1) < k then t.lastBelow k fuel (l + 1) else l

/-- The links of the subtree whose `son` entry is `x` are turned to the position `p`: `prnt[x] <- p`, and
`prnt[x + 1] <- p` where `x` is a pair of children and not a leaf (rule R250). -/
def CodeTable.relink (t : CodeTable n w) (x p : Nat) : CodeTable n w :=
  if x < nodeCount n then (t.setPrnt x p).setPrnt (x + 1) p else t.setPrnt x p

/-- The exchange of the positions of nodes `c` and `l` (rule R250), `k` being the frequency `c` has reached. -/
def CodeTable.exchange (t : CodeTable n w) (c l k : Nat) : CodeTable n w :=
  let t1 := (t.setFreq c (t.freqAt l)).setFreq l k
  let i := t1.sonAt c
  let t2 := t1.relink i l
  let j := t2.sonAt l
  let t3 := (t2.setSon l i).relink j c
  t3.setSon c j

/-- One level of `Bump` at node `c`: the increment, the exchange where the order is broken, and the position the node
has then. -/
def CodeTable.bumpLevel (t : CodeTable n w) (c : Nat) : CodeTable n w × Nat :=
  let t1 := t.setFreq c (t.freqAt c + 1)
  let k := t1.freqAt c
  if t1.freqAt (c + 1) < k then
    let l := t1.lastBelow k (nodeCount n) (c + 1)
    (t1.exchange c l k, l)
  else (t1, c)

/-- The loop of `Bump` from node `c` to the root: it ends when the parent link read is 0 (rule R244). -/
def CodeTable.bumpFrom : Nat → CodeTable n w → Nat → CodeTable n w
  | 0, t, _ => t
  | fuel + 1, t, c =>
    let (t1, c1) := t.bumpLevel c
    let p := t1.prntAt c1
    if p = 0 then t1 else CodeTable.bumpFrom fuel t1 p

/-- `Bump(t, s)` (rule R250): a rebuild first where the root frequency has reached `MAX_FREQ` (rule R254), then one
increment along the path from the leaf of `s`. -/
@[irreducible] def CodeTable.bump (t : CodeTable n w) (s : Nat) : CodeTable n w :=
  let t0 := if Config.maxFreq ≤ t.freqAt (rootNode n) then t.rebuild else t
  CodeTable.bumpFrom (nodeCount n) t0 (t0.leafOf s)

/-! ## The invariants of rule R55 -/

/-- The arrays have the sizes of rule R50 and rule R51. -/
def CodeTable.sized (t : CodeTable n w) : Bool :=
  decide (t.freq.length = 2 * n) && decide (t.son.length = nodeCount n) && decide (t.prnt.length = 3 * n - 1)

/-- Rule R55(a): node frequencies do not fall as the index rises. -/
def CodeTable.ordered (t : CodeTable n w) : Bool :=
  (List.range (rootNode n)).all fun i => decide (t.freqAt i ≤ t.freqAt (i + 1))

/-- Rule R55(b): an internal node's frequency is the sum of its children's (rule R53). -/
def CodeTable.summed (t : CodeTable n w) : Bool :=
  (List.range (nodeCount n)).all fun k =>
    decide (nodeCount n ≤ t.sonAt k) || decide (t.freqAt k = t.freqAt (t.sonAt k) + t.freqAt (t.sonAt k + 1))

/-- Rule R55(c): an internal node's children are an even node and the next one, and both name it as their parent. -/
def CodeTable.paired (t : CodeTable n w) : Bool :=
  (List.range (nodeCount n)).all fun k =>
    decide (nodeCount n ≤ t.sonAt k) ||
      (decide (t.sonAt k % 2 = 0) && decide (t.prntAt (t.sonAt k) = k) && decide (t.prntAt (t.sonAt k + 1) = k))

/-- Rule R55(d): a leaf's symbol names it as the node that holds it. -/
def CodeTable.leavesLinked (t : CodeTable n w) : Bool :=
  (List.range (nodeCount n)).all fun k => decide (t.sonAt k < nodeCount n) || decide (t.prntAt (t.sonAt k) = k)

/-- Rule R55(e): every node's frequency lies in `1..MAX_FREQ`. -/
def CodeTable.positive (t : CodeTable n w) : Bool :=
  (List.range (nodeCount n)).all fun i => decide (1 ≤ t.freqAt i) && decide (t.freqAt i ≤ Config.maxFreq)

/-- The layout facts of rule R52 and rule R54: the sentinel is 0xFFFF, `prnt[R]` is 0, every `son` entry names a pair of
nodes or a symbol, and each symbol has its leaf. -/
def CodeTable.layout (t : CodeTable n w) : Bool :=
  decide (t.freqAt (nodeCount n) = 0xFFFF) && decide (t.prntAt (rootNode n) = 0) &&
    ((List.range (nodeCount n)).all fun k => decide (t.sonAt k < nodeCount n + n)) &&
    ((List.range n).all fun s =>
      decide (t.leafOf s < nodeCount n) && decide (t.sonAt (t.leafOf s) = s + nodeCount n))

/-- The invariants of rule R55, with the sizes of the arrays and the layout of rule R52 and rule R54. -/
def CodeTable.wf (t : CodeTable n w) : Bool :=
  t.sized && t.layout && t.ordered && t.summed && t.paired && t.leavesLinked && t.positive

end Sys2Proof.Machine
end

