-- ==== Sys2Proof/Machine/Memory.lean ====
section
/-! DEFINITION. The two byte RAMs of the block, `HIST` and `LA` (rule R40, rule R44): a list of (address, byte) pairs in
one canonical form, so that equal memories are equal data. -/

namespace Sys2Proof.Machine

/-- A byte RAM. The canonical form (`Memory.wf`): addresses strictly rising, and no entry equal to what an unlisted
address reads as. -/
structure Memory where
  cells : List Host.Cell
deriving DecidableEq, Repr

/-- What an address that is not listed reads as. The contents of `HIST` and `LA` after reset are unspecified, and 'A
model may hold any value there' (rule R40, rule R44). DESIGN CHOICE 0x00, log entry 2. -/
def unlistedByte : Byte := 0x00

/-- The memory that lists nothing. -/
def Memory.empty : Memory := ⟨[]⟩

/-- The byte a cell list holds at an address. -/
def cellsRead : List Host.Cell → Nat → Byte
  | [], _ => unlistedByte
  | (b, u) :: rest, a => if b = a then u else cellsRead rest a

/-- A cell list with one byte stored: the entry goes where its address belongs, and the byte an unlisted address reads as
is stored by removing the entry. -/
def cellsWrite : List Host.Cell → Nat → Byte → List Host.Cell
  | [], a, v => if v = unlistedByte then [] else [(a, v)]
  | (b, u) :: rest, a, v =>
    if b < a then (b, u) :: cellsWrite rest a v
    else
      let tail := if b = a then rest else (b, u) :: rest
      if v = unlistedByte then tail else (a, v) :: tail

/-- Whether a cell list is in canonical form with every address in `lo .. size - 1`. -/
def cellsWf (size : Nat) : Nat → List Host.Cell → Bool
  | _, [] => true
  | lo, (a, v) :: rest => decide (lo ≤ a) && decide (a < size) && decide (v ≠ unlistedByte) && cellsWf size (a + 1) rest

/-- Reading one byte. -/
def Memory.read (m : Memory) (a : Nat) : Byte := cellsRead m.cells a

/-- Storing one byte. -/
def Memory.write (m : Memory) (a : Nat) (v : Byte) : Memory := ⟨cellsWrite m.cells a v⟩

/-- The canonical form of a memory of `size` bytes. -/
def Memory.wf (size : Nat) (m : Memory) : Bool := cellsWf size 0 m.cells

/-- The lookahead's shift of rule R205, `for i in 0..n-2: LA[i] <- LA[i+1]`, for `1 ≤ n`: entries `1..n-1` move down
by one, and entry `n - 1` and those above it stay. -/
def Memory.shiftDown (m : Memory) (n : Nat) : Memory :=
  ⟨((m.cells.filter fun c => decide (1 ≤ c.1 ∧ c.1 < n)).map fun c => (c.1 - 1, c.2)) ++
    m.cells.filter fun c => decide (n ≤ c.1 + 1)⟩

end Sys2Proof.Machine
end

