-- ==== Sys2Proof/Syntax.lean ====
section
/-! DEFINITION. The instructions of SWD-CORE: one constructor per row of the opcode table, the 23 host commands
(rule R123) and the two stream tokens (rule R140). -/

namespace Sys2Proof

/-- Field `T` of a command: which code table it names (rule R120, rule R121). -/
inductive TableSel where
  /-- `T` = 0: table A, literals and match lengths. -/
  | a
  /-- `T` = 1: table B, match distance classes. -/
  | b
deriving DecidableEq, Repr, Inhabited

/-- The instructions. A command's operands are its fields of rule R123, each at the width the rule gives it. -/
inductive Instr where
  /-- `NOP` (rule R372). -/
  | nop
  /-- `RESET` (rule R371). -/
  | reset
  /-- `ENCODE` (rule R320). -/
  | encode
  /-- `DECODE` (rule R321). -/
  | decode
  /-- `ENCINIT` (rule R281). -/
  | encinit
  /-- `ENCSTEP` (rule R291). -/
  | encstep
  /-- `DECINIT` (rule R301). -/
  | decinit
  /-- `DECSTEP` (rule R313). -/
  | decstep
  /-- `WRBITS cnt, value` (rule R172). -/
  | wrbits (cnt : BitVec 5) (value : BitVec 20)
  /-- `RDBITS cnt` (rule R176). -/
  | rdbits (cnt : BitVec 5)
  /-- `FLUSH` (rule R178). -/
  | flush
  /-- `WADV byte` (rule R191). -/
  | wadv (byte : Byte)
  /-- `BYTEAT dist` (rule R195). -/
  | byteat (dist : BitVec 13)
  /-- `LAFILL` (rule R201). -/
  | lafill
  /-- `LAPEEK k` (rule R203). -/
  | lapeek (k : BitVec 6)
  /-- `LACONS k` (rule R206). -/
  | lacons (k : BitVec 6)
  /-- `FINDM` (rule R224). -/
  | findm
  /-- `ENCSYM t, sym` (rule R246). -/
  | encsym (t : TableSel) (sym : BitVec 9)
  /-- `DECSYM t` (rule R248). -/
  | decsym (t : TableSel)
  /-- `BUMP t, sym` (rule R252). -/
  | bump (t : TableSel) (sym : BitVec 9)
  /-- `REBUILD t` (rule R262). -/
  | rebuild (t : TableSel)
  /-- `RDNODE t, node` (rule R270). -/
  | rdnode (t : TableSel) (node : BitVec 10)
  /-- `RDLEAF t, sym` (rule R271). -/
  | rdleaf (t : TableSel) (sym : BitVec 9)
  /-- The stream token `LIT b` (rule R315). -/
  | lit (b : Byte)
  /-- The stream token `MATCH len, dist` (rule R316). -/
  | matchCopy (len : BitVec 6) (dist : BitVec 13)
deriving DecidableEq, Repr

end Sys2Proof
end

