-- ==== Sys2Proof/Machine/State.lean ====
section
/-! DEFINITION. All the state of SWD-CORE as plain data, in the groups of rule R30, the model's own record of what the
host does at the block's interfaces, the reasons a step can stop, and the state after reset (rule R76). -/

namespace Sys2Proof.Machine

/-- The driver states (rule R64). Values 9..15 are never held and cannot be written here. -/
inductive Fsm where
  | idle | filling | searching | emitting | header | reading | reconstructing | done | failed
deriving DecidableEq, Repr

/-- The error codes (rule R330). Codes 7..15 are never held and cannot be written here (rule R337). -/
inductive ErrCode where
  | none | sourceIo | sinkIo | corruptStream | invariant | illegalCmd | sequence
deriving DecidableEq, Repr

/-- `MODE`: which transform started last (rule R66). -/
inductive Mode where
  /-- `MODE` = 0. -/
  | encode
  /-- `MODE` = 1. -/
  | decode
deriving DecidableEq, Repr

/-- The Bit Channel's state (rule R32 to rule R35). -/
structure BitChannel where
  obuf : BitVec 8
  obits : BitVec 3
  ibuf : BitVec 8
  ibits : BitVec 4
deriving DecidableEq, Repr

/-- The Sliding Window's state (rule R40 to rule R45). The Match Index `IDX` is no part of it: it is not visible, and a
model may leave it out (rule R47). -/
structure Window where
  hist : Memory
  wcur : BitVec 12
  wfill : BitVec 13
  la : Memory
  lacnt : BitVec 6
deriving DecidableEq, Repr

/-- The width of a host access (rule R85). -/
inductive AccessWidth where
  | byte | half | word
deriving DecidableEq, Repr

/-- One thing the host does at the register window, or the platform at the reset input. `off` is the low 6 bits of the
host address, all the block decodes (rule R72). -/
inductive HostOp where
  /-- A write of `data` at offset `off`. -/
  | write (width : AccessWidth) (off : BitVec 6) (data : Word)
  /-- A read of offset `off`. -/
  | read (width : AccessWidth) (off : BitVec 6)
  /-- The host makes no access while the block takes one step. -/
  | idle
  /-- The platform asserts the block's reset (rule R370). -/
  | powerOnReset
deriving DecidableEq, Repr

/-- The host's side of the two ports (rule R90, rule R91): the answers the host has lined up, oldest first, the number of
requests made so far, and the bytes the sink has accepted, in order. `srcSilentAt` holds the numbers of the source requests that
the host never answers, and `sinkSilentAt` those of the sink (rule R92). The model's own fields, log entries 1 and 3. -/
structure Ports where
  srcAnswers : List SrcAnswer
  srcAsked : Nat
  srcSilentAt : List Nat
  sinkAnswers : List SinkAnswer
  sinkAsked : Nat
  sinkSilentAt : List Nat
  sink : List Byte
deriving DecidableEq, Repr

/-- The host's side of the register window: what it has yet to do, oldest first, and the words its reads have returned,
oldest first. The model's own fields, log entry 4. -/
structure HostSide where
  queue : List HostOp
  reads : List Word
deriving DecidableEq, Repr

/-- The state of one block (rule R30) with the host's side of its interfaces. -/
structure State where
  /-- `OBUF`, `OBITS`, `IBUF`, `IBITS`. -/
  bits : BitChannel
  /-- `HIST`, `WCUR`, `WFILL`, `LA`, `LACNT`. -/
  win : Window
  /-- Table A (rule R50). -/
  tabA : CodeTable Config.symbolsA Config.linkBitsA
  /-- Table B (rule R51). -/
  tabB : CodeTable Config.symbolsB Config.linkBitsB
  /-- `FSM` (rule R64). -/
  fsm : Fsm
  /-- `ERR` (rule R65). -/
  err : ErrCode
  /-- `MODE` (rule R66). -/
  mode : Mode
  /-- `BUSY` (rule R67). -/
  busy : Bool
  /-- `RESULT` (rule R68). -/
  result : Word
  /-- `LEN` (rule R62). -/
  len : Word
  /-- `COUNT` (rule R69). -/
  count : Word
  /-- `INBYTES` (rule R70). -/
  inbytes : Word
  /-- `OUTBYTES` (rule R71). -/
  outbytes : Word
  /-- The host's side of the byte ports. -/
  ports : Ports
  /-- The host's side of the register window. -/
  host : HostSide
  /-- Whether the block stands inside a step, at a port request that the host never answers (rule R92, rule R342). Every
  other field of the block then holds what it held after the most recent step. The model's own field, log entry 3. -/
  waiting : Bool
deriving DecidableEq, Repr

/-- The reasons the machine stops. The error kinds of rule R330 are none of them: raising one leads to a next state. -/
inductive Fault where
  /-- The machine is stuck on the host's side (rule R92, rule R356): the block waits for the answer to a port request that
  the host never gives, neither the host nor the platform has anything left to do that could happen, and no reset is to
  come. Raised by `step` in a waiting state, and by no instruction. Safe: nothing happens there any more. -/
  | portNeverAnswered
deriving DecidableEq, Repr

/-- The accesses and instructions the model has no meaning for. -/
inductive Refusal where
  /-- An instruction with no meaning yet: only `exec` answers so, and now for none. Safe. -/
  | notModelled (mnemonic : String)
  /-- A host access that is not 32 bits wide (rule R85: 'A model refuses it'). Raised by the register window. Safe. -/
  | narrowAccess
  /-- A host access at an offset that is no multiple of 4 (rule R85). Raised by the register window. Safe. -/
  | misalignedAccess
deriving DecidableEq, Repr

/-- The Bit Channel after reset (rule R76). -/
def BitChannel.reset : BitChannel where
  obuf := 0
  obits := 0
  ibuf := 0
  ibits := 0

/-- The Sliding Window after reset (rule R76): nothing listed, nothing valid. -/
def Window.reset : Window where
  hist := Memory.empty
  wcur := 0
  wfill := 0
  la := Memory.empty
  lacnt := 0

/-- The ports before the first request: no answer lined up, none withheld. -/
def Ports.reset : Ports where
  srcAnswers := []
  srcAsked := 0
  srcSilentAt := []
  sinkAnswers := []
  sinkAsked := 0
  sinkSilentAt := []
  sink := []

/-- The host before its first access. -/
def HostSide.reset : HostSide where
  queue := []
  reads := []

/-- The machine right after power-on reset (rule R76, rule R370). -/
def State.reset : State where
  bits := BitChannel.reset
  win := Window.reset
  tabA := treeInit Config.symbolsA Config.linkBitsA
  tabB := treeInit Config.symbolsB Config.linkBitsB
  fsm := .idle
  err := .none
  mode := .encode
  busy := false
  result := 0
  len := 0
  count := 0
  inbytes := 0
  outbytes := 0
  ports := Ports.reset
  host := HostSide.reset
  waiting := false

end Sys2Proof.Machine
end

