-- ==== Sys2Proof/Machine/Ops.lean ====
section
/-! DEFINITION. The operations every meaning is built from: helper results, raising an error (the block's one kind of
trap) and leaving the FAILED state, the ports, the registers of the window and of the tables, and the acceptance of a
command. -/

namespace Sys2Proof.Machine

/-! ## Helper results -/

/-- What a helper of rule R19 does: it ends with a value and a state, or it raises an error, in the state its writes up to
the raise have made (rule R17, rule R341), or it stands for ever at a port request that the host does not answer (rule
R92, rule R342), in the state its writes up to the request have made. -/
inductive Res (α : Type) where
  | ok (a : α) (s : State)
  | raise (e : ErrCode) (s : State)
  | waits (s : State)
deriving DecidableEq, Repr

/-- The next part of a helper's pseudocode runs where the part before it has ended. -/
def Res.andThen {α β : Type} (r : Res α) (f : α → State → Res β) : Res β :=
  match r with
  | .ok a s => f a s
  | .raise e s => .raise e s
  | .waits s => .waits s

/-! ## Taking an error, and leaving the FAILED state -/

/-- Taking an error (rule R17, rule R340): `ERR` gets its code and `FSM` becomes `FAILED`. Nothing else is saved and
nothing is rolled back (rule R341). -/
def State.takeError (s : State) (e : ErrCode) : State := { s with err := e, fsm := .failed }

/-- `Fresh()` (rule R75). Its `ERR <- 0` is how the FAILED state is left: the block has no return from a trap, and `RESET`
and the four commands that start a transform all call `Fresh` (rule R344). `HIST` and `LA` keep what they hold, which is
unspecified and unread from here on. -/
def State.fresh (s : State) : State :=
  { s with
    bits := BitChannel.reset
    win := { s.win with wcur := 0, wfill := 0, lacnt := 0 }
    tabA := treeInit Config.symbolsA Config.linkBitsA
    tabB := treeInit Config.symbolsB Config.linkBitsB
    count := 0
    inbytes := 0
    outbytes := 0
    err := .none }

/-! ## The ports -/

/-- The answer to the next source request (rule R90), if it is ever answered (rule R92). -/
def Ports.nextSrc (p : Ports) : Option SrcAnswer :=
  if p.srcAsked ∈ p.srcSilentAt then none else some (p.srcAnswers.head?.getD (Config.sourceDraw p.srcAsked))

/-- The answer to the next sink request (rule R91), if it is ever answered (rule R92). -/
def Ports.nextSink (p : Ports) : Option SinkAnswer :=
  if p.sinkAsked ∈ p.sinkSilentAt then none else some (p.sinkAnswers.head?.getD (Config.sinkDraw p.sinkAsked))

/-- The ports after one source request that has been answered: its answer is used up (rule R88). -/
def Ports.srcDone (p : Ports) : Ports := { p with srcAnswers := p.srcAnswers.tail, srcAsked := p.srcAsked + 1 }

/-- The ports after one sink request that has been answered. -/
def Ports.sinkDone (p : Ports) : Ports := { p with sinkAnswers := p.sinkAnswers.tail, sinkAsked := p.sinkAsked + 1 }

/-- The ports with one source request made and not answered. -/
def Ports.srcUnanswered (p : Ports) : Ports := { p with srcAsked := p.srcAsked + 1 }

/-- The ports with one sink request made and not answered. -/
def Ports.sinkUnanswered (p : Ports) : Ports := { p with sinkAsked := p.sinkAsked + 1 }

/-- `SrcRead()` (rule R15, rule R90): the host's answer. `INBYTES` counts the answers `Byte` (rule R70). -/
def srcRead (s : State) : Res SrcAnswer :=
  match s.ports.nextSrc with
  | some (.byte b) => .ok (.byte b) { s with ports := s.ports.srcDone, inbytes := s.inbytes + 1 }
  | some .eof => .ok .eof { s with ports := s.ports.srcDone }
  | some .ioErr => .ok .ioErr { s with ports := s.ports.srcDone }
  | none => .waits { s with ports := s.ports.srcUnanswered }

/-- `SinkWrite(b)` with the `raise SINK_IO` that every caller makes of the answer `IoErr` (rule R91, rule R332). A byte
answered `Ok` is appended to the sink and counted in `OUTBYTES` (rule R71). A refused byte is not counted. -/
def sinkWrite (b : Byte) (s : State) : Res Unit :=
  match s.ports.nextSink with
  | some .ok =>
    .ok () { s with ports := { s.ports.sinkDone with sink := s.ports.sink ++ [b] }, outbytes := s.outbytes + 1 }
  | some .ioErr => .raise .sinkIo { s with ports := s.ports.sinkDone }
  | none => .waits { s with ports := s.ports.sinkUnanswered }

/-- Bytes sent to the sink in order, up to the first that is refused. -/
def sendBytes : List Byte → State → Res Unit
  | [], s => .ok () s
  | b :: bs, s => (sinkWrite b s).andThen fun _ s1 => sendBytes bs s1

/-! ## The end of a step -/

/-- The state in which a step stands at a request that is never answered: the requests made and the bytes accepted so far
are the host's, and the block shows what it held after the most recent step (rule R100). -/
def State.standsAt (s : State) (p : Ports) : State := { s with ports := p, waiting := true }

/-- A step from `s` whose pseudocode does `r`, with what the step adds at its end (rule R17): the state the pseudocode
leaves, or the one the error it raised is taken in, or the one in which the step stands for ever. -/
def endStep {α : Type} (s : State) (last : State → State) (r : Res α) : Host.Outcome State Fault Refusal :=
  match r with
  | .ok _ t => .next (last t)
  | .raise e t => .next (last (t.takeError e))
  | .waits t => .next (s.standsAt t.ports)

/-- A step from `s` whose pseudocode does `r`. -/
def finish {α : Type} (s : State) (r : Res α) : Host.Outcome State Fault Refusal := endStep s id r

/-! ## Acceptance of a command -/

/-- The FAILED filter (rule R345, check 2): while `FSM` is `FAILED`, a command other than the six of rule R343 is ignored,
with no effect at all. -/
def unlessFailed (s : State) (run : Host.Outcome State Fault Refusal) : Host.Outcome State Fault Refusal :=
  match s.fsm with
  | .failed => .next s
  | _ => run

/-- A command that is ignored in `FAILED` and whose pseudocode does `r`. -/
def accepted (s : State) (r : Res Unit) : Host.Outcome State Fault Refusal := unlessFailed s (finish s r)

/-! ## Writing the registers a command names -/

/-- `RESULT <- v` (rule R68). -/
def State.setResult (s : State) (v : Word) : State := { s with result := v }

/-- `COUNT <- COUNT + 1`, modulo `2^32` (rule R69). -/
def State.countUp (s : State) : State := { s with count := s.count + 1 }

/-- `FSM <- x` (rule R18). -/
def State.setFsm (s : State) (x : Fsm) : State := { s with fsm := x }

/-! ## The code tables -/

/-- The alphabet size of a table (rule R240). -/
def tableSymbols : TableSel → Nat
  | .a => Config.symbolsA
  | .b => Config.symbolsB

/-- The node count of a table (rule R240). -/
def tableNodes (t : TableSel) : Nat := nodeCount (tableSymbols t)

/-- `t.freq[i]`. -/
def State.freqAt (s : State) (t : TableSel) (i : Nat) : Nat :=
  match t with
  | .a => s.tabA.freqAt i
  | .b => s.tabB.freqAt i

/-- `t.son[i]`. -/
def State.sonAt (s : State) (t : TableSel) (i : Nat) : Nat :=
  match t with
  | .a => s.tabA.sonAt i
  | .b => s.tabB.sonAt i

/-- `t.prnt[T + sym]`. -/
def State.leafOf (s : State) (t : TableSel) (sym : Nat) : Nat :=
  match t with
  | .a => s.tabA.leafOf sym
  | .b => s.tabB.leafOf sym

/-- `Code(t, sym)` (rule R243). -/
def State.code (s : State) (t : TableSel) (sym : Nat) : List Bool :=
  match t with
  | .a => s.tabA.code sym
  | .b => s.tabB.code sym

/-- `Bump(t, sym)` (rule R250). -/
def State.bumpSym (s : State) (t : TableSel) (sym : Nat) : State :=
  match t with
  | .a => { s with tabA := s.tabA.bump sym }
  | .b => { s with tabB := s.tabB.bump sym }

/-- `Rebuild(t)` (rule R260). -/
def State.rebuildTable (s : State) (t : TableSel) : State :=
  match t with
  | .a => { s with tabA := s.tabA.rebuild }
  | .b => { s with tabB := s.tabB.rebuild }

end Sys2Proof.Machine
end

