-- ==== Sys2Proof/Machine/Operands.lean ====
section
/-! DEFINITION. The operand-value checks of rule R125 and the `RESULT` formats of rule R130 to rule R132. -/

namespace Sys2Proof.Machine

/-- A value check made before a command's pseudocode runs: the error `INVARIANT` where it fails (rule R125, rule R345,
check 6). -/
def checkOperand (ok : Bool) (s : State) (run : Res Unit) : Res Unit :=
  if ok then run else .raise .invariant s

/-- A symbol of the selected table (rule R125). -/
def symbolOk (t : TableSel) (sym : BitVec 9) : Bool := decide (sym.toNat < tableSymbols t)

/-- A node of the selected table (rule R125). -/
def nodeOk (t : TableSel) (node : BitVec 10) : Bool := decide (node.toNat < tableNodes t)

/-- A distance the window holds (rule R125, rule R194). -/
def distOk (s : State) (d : Nat) : Bool := decide (1 ≤ d ∧ d ≤ s.win.wfill.toNat)

/-- An index of a valid lookahead byte (rule R125). -/
def indexOk (s : State) (k : Nat) : Bool := decide (k < s.win.lacnt.toNat)

/-- A count of lookahead bytes that can be consumed (rule R125, rule R205). -/
def consumeOk (s : State) (k : Nat) : Bool := decide (1 ≤ k ∧ k ≤ s.win.lacnt.toNat)

/-- The token descriptor of a literal: `0x40000000 | b` (rule R131). -/
def literalDesc (b : Byte) : Word := 0x40000000 ||| b.setWidth 32

/-- The token descriptor of a match: `0xC0000000 | (len << 24) | dist` (rule R131). -/
def matchDesc (len : BitVec 6) (dist : BitVec 13) : Word :=
  0xC0000000 ||| (len.setWidth 32 <<< 24) ||| dist.setWidth 32

/-- The eviction descriptor of `WADV`: `0x100 | ev`, or 0 where nothing was evicted (rule R132, rule R191). -/
def evictionDesc : Option Byte → Word
  | none => 0
  | some ev => 0x100 ||| ev.setWidth 32

/-- The node descriptor of `RDNODE`: `(son << 16) | freq` (rule R132, rule R270). -/
def nodeDesc (son freq : Nat) : Word := (BitVec.ofNat 32 son <<< 16) ||| BitVec.ofNat 32 freq

end Sys2Proof.Machine
end

