-- ==== Sys2Proof/Machine/BitChannel.lean ====
section
/-! DEFINITION. The Bit Channel (`40_bit_channel.md`): the helpers `WriteBits`, `Flush`, `ReadBit` and `ReadBits`, and the
commands `WRBITS`, `RDBITS` and `FLUSH`. -/

namespace Sys2Proof.Machine

/-! ## The output side -/

/-- One turn of `WriteBits` (rule R170): the bit joins `OBUF` at its low end, and an eighth bit sends the byte. -/
def writeBit (bit : Bool) (s : State) : Res Unit :=
  let buf : BitVec 8 := (s.bits.obuf <<< 1) ||| (BitVec.ofBool bit).setWidth 8
  if s.bits.obits.toNat + 1 = 8 then
    sinkWrite buf { s with bits := { s.bits with obuf := 0, obits := 0 } }
  else
    .ok () { s with bits := { s.bits with obuf := buf, obits := s.bits.obits + 1 } }

/-- Bits written in order, up to the first byte that is refused. -/
def writeBitList : List Bool → State → Res Unit
  | [], s => .ok () s
  | b :: bs, s => (writeBit b s).andThen fun _ s1 => writeBitList bs s1

/-- The low `n` bits of `value`, most significant first (rule R81, rule R170). -/
def fieldBits (value : Nat) : Nat → List Bool
  | 0 => []
  | n + 1 => value.testBit n :: fieldBits value n

/-- `WriteBits(value, n)` (rule R170). -/
def writeBits (value n : Nat) (s : State) : Res Unit := writeBitList (fieldBits value n) s

/-- `Flush()` (rule R171): the pending bits, padded with zeros, are sent as one byte. -/
def flushBits (s : State) : Res Unit :=
  if 0 < s.bits.obits.toNat then
    sinkWrite (s.bits.obuf <<< (8 - s.bits.obits.toNat)) { s with bits := { s.bits with obuf := 0, obits := 0 } }
  else .ok () s

/-! ## The input side -/

/-- The bit `IBUF[IBITS - 1]` is taken (rule R174). -/
def takeBit (s : State) : Res Bool :=
  .ok (s.bits.ibuf.getLsbD (s.bits.ibits.toNat - 1)) { s with bits := { s.bits with ibits := s.bits.ibits - 1 } }

/-- `ReadBit()` (rule R174): a new source byte is asked for where no bit is left. -/
def readBit (s : State) : Res Bool :=
  if s.bits.ibits = 0 then
    (srcRead s).andThen fun answer s1 =>
      match answer with
      | .byte b => takeBit { s1 with bits := { s1.bits with ibuf := b, ibits := 8 } }
      | .eof => .raise .corruptStream s1
      | .ioErr => .raise .sourceIo s1
  else takeBit s

/-- The loop of `ReadBits` with `v` read so far (rule R175). -/
def readBitsFrom : Nat → Nat → State → Res Nat
  | 0, v, s => .ok v s
  | n + 1, v, s => (readBit s).andThen fun b s1 => readBitsFrom n (2 * v + b.toNat) s1

/-- `ReadBits(n)` (rule R175). -/
def readBits (n : Nat) (s : State) : Res Nat := readBitsFrom n 0 s

/-! ## Commands -/

/-- `WRBITS cnt, value` (rule R172). -/
def execWrbits (cnt : BitVec 5) (value : BitVec 20) (s : State) : Host.Outcome State Fault Refusal :=
  accepted s (writeBits value.toNat cnt.toNat s)

/-- `RDBITS cnt` (rule R176). -/
def execRdbits (cnt : BitVec 5) (s : State) : Host.Outcome State Fault Refusal :=
  accepted s ((readBits cnt.toNat s).andThen fun v s1 => .ok () (s1.setResult (BitVec.ofNat 32 v)))

/-- `FLUSH` (rule R178). -/
def execFlush (s : State) : Host.Outcome State Fault Refusal := accepted s (flushBits s)

end Sys2Proof.Machine
end

