-- ==== Sys2Proof/Machine/SymbolCoder.lean ====
section
/-! DEFINITION. Coding with the adaptive tables (`43_code_table.md`): `EncodeSymbol`, `DecodeSymbol`, and the commands
`ENCSYM`, `DECSYM`, `BUMP`, `REBUILD`, `RDNODE` and `RDLEAF`. -/

namespace Sys2Proof.Machine

/-- `EncodeSymbol(t, sym)` (rule R245). Where a bit cannot be sent, `Bump` does not run. -/
def encodeSymbol (t : TableSel) (sym : Nat) (s : State) : Res Unit :=
  (writeBitList (s.code t sym) s).andThen fun _ s1 => .ok () (s1.bumpSym t sym)

/-- The walk of `DecodeSymbol` (rule R247) from the link `c` of the node just entered. It reaches a leaf within `T - 1`
bits (rule R244); log entry 7 says what the bound does in a state no run reaches. -/
def walkFrom (t : TableSel) : Nat → Nat → State → Res Nat
  | 0, c, s => .ok (c - tableNodes t) s
  | fuel + 1, c, s =>
    if c < tableNodes t then (readBit s).andThen fun bit s1 => walkFrom t fuel (s1.sonAt t (c + bit.toNat)) s1
    else .ok (c - tableNodes t) s

/-- The symbol whose code stands at the front of the input, its bits taken and the table not yet bumped (rule R247). -/
def walkSymbol (t : TableSel) (s : State) : Res Nat := walkFrom t (tableNodes t) (s.sonAt t (tableNodes t - 1)) s

/-- `DecodeSymbol(t)` (rule R247). Where a bit cannot be read, `Bump` does not run. -/
def decodeSymbol (t : TableSel) (s : State) : Res Nat :=
  (walkSymbol t s).andThen fun sym s1 => .ok sym (s1.bumpSym t sym)

/-! ## Commands -/

/-- `ENCSYM t, sym` (rule R246). -/
def execEncsym (t : TableSel) (sym : BitVec 9) (s : State) : Host.Outcome State Fault Refusal :=
  accepted s (checkOperand (symbolOk t sym) s (encodeSymbol t sym.toNat s))

/-- `DECSYM t` (rule R248). -/
def execDecsym (t : TableSel) (s : State) : Host.Outcome State Fault Refusal :=
  accepted s ((decodeSymbol t s).andThen fun sym s1 => .ok () (s1.setResult (BitVec.ofNat 32 sym)))

/-- `BUMP t, sym` (rule R252). -/
def execBump (t : TableSel) (sym : BitVec 9) (s : State) : Host.Outcome State Fault Refusal :=
  accepted s (checkOperand (symbolOk t sym) s (.ok () (s.bumpSym t sym.toNat)))

/-- `REBUILD t` (rule R262). -/
def execRebuild (t : TableSel) (s : State) : Host.Outcome State Fault Refusal :=
  accepted s (.ok () (s.rebuildTable t))

/-- `RDNODE t, node` (rule R270). -/
def execRdnode (t : TableSel) (node : BitVec 10) (s : State) : Host.Outcome State Fault Refusal :=
  accepted s (checkOperand (nodeOk t node) s
    (.ok () (s.setResult (nodeDesc (s.sonAt t node.toNat) (s.freqAt t node.toNat)))))

/-- `RDLEAF t, sym` (rule R271). -/
def execRdleaf (t : TableSel) (sym : BitVec 9) (s : State) : Host.Outcome State Fault Refusal :=
  accepted s (checkOperand (symbolOk t sym) s (.ok () (s.setResult (BitVec.ofNat 32 (s.leafOf t sym.toNat)))))

end Sys2Proof.Machine
end

