-- ==== Sys2Proof/Machine/Window.lean ====
section
/-! DEFINITION. The Sliding Window and the lookahead (`41_window.md`): the helpers `Advance`, `HistByte`, `ByteAt`,
`FillOne`, `Fill` and `Consume`, and the commands `WADV`, `BYTEAT`, `LAFILL`, `LAPEEK` and `LACONS`. -/

namespace Sys2Proof.Machine

/-! ## Window helpers -/

/-- The byte `Advance` evicts, if it evicts one: the oldest, where the window is full (rule R190). -/
def evicted (s : State) : Option Byte :=
  if s.win.wfill.toNat = Config.windowSize then some (s.win.hist.read s.win.wcur.toNat) else none

/-- The window after `Advance(b)` (rule R190). `WCUR` has 12 bits, so it counts modulo `W`. `IndexUpdate` has no
architectural effect (rule R227). -/
def Window.advance (w : Window) (b : Byte) : Window :=
  { w with
    hist := w.hist.write w.wcur.toNat b
    wcur := w.wcur + 1
    wfill := BitVec.ofNat 13 (min (w.wfill.toNat + 1) Config.windowSize) }

/-- The state after `Advance(b)` (rule R190). -/
def advance (b : Byte) (s : State) : State := { s with win := s.win.advance b }

/-- `HistByte(d)` (rule R192): `HIST[(WCUR - d) mod W]`. -/
def histByte (s : State) (d : Nat) : Byte := s.win.hist.read (s.win.wcur - BitVec.ofNat 12 d).toNat

/-- `ByteAt(d)` (rule R194). -/
def byteAt (d : Nat) (s : State) : Res Byte :=
  if distOk s d then .ok (histByte s d) s else .raise .invariant s

/-! ## Lookahead helpers -/

/-- `LA[i]`. -/
def laByte (s : State) (i : Nat) : Byte := s.win.la.read i

/-- Whether `FillOne` asks the source for a byte: there is room, and the declared input is not used up (rule R200). The
sum and the comparison are of natural numbers, log entry 6. -/
def wantsByte (s : State) : Bool :=
  decide (s.win.lacnt.toNat < Config.lookaheadSize ∧ s.count.toNat + s.win.lacnt.toNat < s.len.toNat)

/-- `FillOne()` (rule R200): whether a byte was taken. -/
def fillOne (s : State) : Res Bool :=
  if wantsByte s then
    (srcRead s).andThen fun answer s1 =>
      match answer with
      | .byte b =>
        .ok true { s1 with win := { s1.win with la := s1.win.la.write s1.win.lacnt.toNat b, lacnt := s1.win.lacnt + 1 } }
      | .eof => .raise .sourceIo s1
      | .ioErr => .raise .sourceIo s1
  else .ok false s

/-- `FillOne` repeated, at most `n` times, until it takes no byte. -/
def fillUpTo : Nat → State → Res Unit
  | 0, s => .ok () s
  | n + 1, s => (fillOne s).andThen fun took s1 => if took then fillUpTo n s1 else .ok () s1

/-- `Fill()` (rule R200). The lookahead has room for `L` bytes, so the loop ends within `L` turns. -/
def fill (s : State) : Res Unit := fillUpTo Config.lookaheadSize s

/-- The byte at the front of the lookahead moves into the window, and the lookahead moves up by one (rule R205). -/
def shiftIn (s : State) : State :=
  let moved : Window := { s.win with la := s.win.la.shiftDown s.win.lacnt.toNat, lacnt := s.win.lacnt - 1 }
  (advance (laByte s 0) { s with win := moved }).countUp

/-- One turn of `Consume` (rule R205): a byte moves in, and the lookahead is refilled by at most one. -/
def consumeOne (s : State) : Res Unit := (fillOne (shiftIn s)).andThen fun _ s1 => .ok () s1

/-- `k` turns of `Consume`. -/
def consumeTurns : Nat → State → Res Unit
  | 0, s => .ok () s
  | k + 1, s => (consumeOne s).andThen fun _ s1 => consumeTurns k s1

/-- `Consume(k)` (rule R205). -/
def consume (k : Nat) (s : State) : Res Unit := checkOperand (consumeOk s k) s (consumeTurns k s)

/-- `LACNT` as a `RESULT` (rule R201, rule R206). -/
def lacntResult (s : State) : State := s.setResult (s.win.lacnt.setWidth 32)

/-! ## Commands -/

/-- `WADV byte` (rule R191). -/
def execWadv (byte : Byte) (s : State) : Host.Outcome State Fault Refusal :=
  accepted s (.ok () ((advance byte s).setResult (evictionDesc (evicted s))))

/-- `BYTEAT dist` (rule R195). -/
def execByteat (dist : BitVec 13) (s : State) : Host.Outcome State Fault Refusal :=
  accepted s ((byteAt dist.toNat s).andThen fun b s1 => .ok () (s1.setResult (b.setWidth 32)))

/-- `LAFILL` (rule R201). -/
def execLafill (s : State) : Host.Outcome State Fault Refusal :=
  accepted s ((fill s).andThen fun _ s1 => .ok () (lacntResult s1))

/-- `LAPEEK k` (rule R203). -/
def execLapeek (k : BitVec 6) (s : State) : Host.Outcome State Fault Refusal :=
  accepted s (checkOperand (indexOk s k.toNat) s (.ok () (s.setResult ((laByte s k.toNat).setWidth 32))))

/-- `LACONS k` (rule R206). -/
def execLacons (k : BitVec 6) (s : State) : Host.Outcome State Fault Refusal :=
  accepted s ((consume k.toNat s).andThen fun _ s1 => .ok () (lacntResult s1))

end Sys2Proof.Machine
end

