-- ==== Sys2Proof/Machine/Tokens.lean ====
section
/-! DEFINITION. The stream tokens `LIT` and `MATCH` as the decoder executes them (rule R315, rule R316), and the fetch of
the next token from the input (rule R310). The fetch takes a token's bits and nothing else, as a processor's fetch moves
past an instruction's words; the token's own effect, the bump of each table whose code it used among it, is its
meaning. `decStep_eq_ruleR310` in Laws/DecStep.lean proves that the two together are the pseudocode of rule R310. -/

namespace Sys2Proof.Machine

/-- A token (rule R140). -/
inductive Token where
  | lit (b : Byte)
  | copy (len : BitVec 6) (dist : BitVec 13)
deriving DecidableEq, Repr

/-- The instruction a token is. -/
def Token.toInstr : Token → Instr
  | .lit b => .lit b
  | .copy len dist => .matchCopy len dist

/-- The token descriptor (rule R131). -/
def Token.desc : Token → Word
  | .lit b => literalDesc b
  | .copy len dist => matchDesc len dist

/-! ## The symbols of a token (rule R141, rule R142) -/

/-- The table A symbol of a match length. -/
def lengthSymbol (len : Nat) : Nat := len + 253

/-- The table B symbol of a distance: the class `(dist - 1) >> 6`. -/
def distClass (dist : Nat) : Nat := (dist - 1) / 2 ^ Config.distLowBits

/-- The 6 extra bits of a distance. -/
def distExtra (dist : Nat) : Nat := (dist - 1) % 2 ^ Config.distLowBits

/-- The match length of a table A symbol at or above 256. -/
def symbolLength (sym : Nat) : BitVec 6 := BitVec.ofNat 6 (sym - 253)

/-- The distance of a class and its extra bits. -/
def classDist (cls low : Nat) : BitVec 13 := BitVec.ofNat 13 (cls * 2 ^ Config.distLowBits + low + 1)

/-! ## Fetching a token -/

/-- A fetch that does not end: a table whose code was read whole has been bumped all the same (rule R247, rule R341). -/
def Res.orBump {α : Type} (r : Res α) (bumps : State → State) : Res α :=
  match r with
  | .ok a s => .ok a s
  | .raise e s => .raise e (bumps s)
  | .waits s => .waits (bumps s)

/-- The fields of a match after its length symbol `symA`: the distance class and the extra bits (rule R310). -/
def fetchCopy (symA : Nat) (s : State) : Res Token :=
  ((walkSymbol .b s).orBump fun s1 => s1.bumpSym .a symA).andThen fun cls s1 =>
    ((readBits Config.distLowBits s1).orBump fun s2 => (s2.bumpSym .a symA).bumpSym .b cls).andThen fun low s2 =>
      .ok (.copy (symbolLength symA) (classDist cls low)) s2

/-- The next token of the input, its bits taken. `RECONSTRUCTING` is entered once the table A symbol is known (rule
R310). -/
def fetchToken (s : State) : Res Token :=
  (walkSymbol .a s).andThen fun symA s1 =>
    let s2 := s1.setFsm .reconstructing
    if symA < 256 then .ok (.lit (BitVec.ofNat 8 symA)) s2 else fetchCopy symA s2

/-! ## Executing a token -/

/-- `LIT b` (rule R315): the literal branch of rule R310. -/
def runLit (b : Byte) (s : State) : Res Unit :=
  (sinkWrite b (s.bumpSym .a b.toNat)).andThen fun _ s1 => .ok () (advance b s1).countUp

/-- One turn of the copy loop (rule R310). -/
def copyByte (d : Nat) (s : State) : Res Unit :=
  (byteAt d s).andThen fun b s1 => (sinkWrite b s1).andThen fun _ s2 => .ok () (advance b s2).countUp

/-- The copy loop, byte by byte, each read from the window the byte before it has been advanced into (rule R105, rule
R386). -/
def copyBytes (d : Nat) : Nat → State → Res Unit
  | 0, s => .ok () s
  | n + 1, s => (copyByte d s).andThen fun _ s1 => copyBytes d n s1

/-- Both tables bumped for the symbols of a match (rule R255). -/
def bumpMatch (len : BitVec 6) (dist : BitVec 13) (s : State) : State :=
  (s.bumpSym .a (lengthSymbol len.toNat)).bumpSym .b (distClass dist.toNat)

/-- `MATCH len, dist` (rule R316): the match branch of rule R310 with the checks of rule R311, the length first (rule
R346). `LEN - COUNT` is 0 where `COUNT` has passed `LEN`, log entry 6. -/
def runMatch (len : BitVec 6) (dist : BitVec 13) (s : State) : Res Unit :=
  let s1 := bumpMatch len dist s
  if s1.len.toNat - s1.count.toNat < len.toNat then .raise .corruptStream s1
  else if s1.win.wfill.toNat < dist.toNat then .raise .corruptStream s1
  else copyBytes dist.toNat len.toNat s1

/-- A token's effect. -/
def Token.run : Token → State → Res Unit
  | .lit b, s => runLit b s
  | .copy len dist, s => runMatch len dist s

/-- The stream token `LIT b` (rule R315). -/
def execLit (b : Byte) (s : State) : Host.Outcome State Fault Refusal := finish s (runLit b s)

/-- The stream token `MATCH len, dist` (rule R316). -/
def execMatchCopy (len : BitVec 6) (dist : BitVec 13) (s : State) : Host.Outcome State Fault Refusal :=
  finish s (runMatch len dist s)

end Sys2Proof.Machine
end

