-- ==== Sys2Proof/WellFormed.lean ====
section
/-! DEFINITION. Which instructions have an encoding: the operand checks a term of `Instr` must pass beyond the widths
of its fields. An operand that passes but names nothing in the present state (a symbol past the alphabet, a distance
past the window's fill) is well-formed: its command raises `INVARIANT` (rule R125). -/

namespace Sys2Proof

/-- The check of format rule R122(c): the bit count of `WRBITS` and `RDBITS` is at most 20. -/
abbrev bitCountOk (cnt : BitVec 5) : Bool := decide (cnt.toNat ≤ 20)

/-- The check on a match's length (rule R316): `MINLEN..MAXLEN`. -/
abbrev matchLenOk (len : BitVec 6) : Bool := decide (Config.minLen ≤ len.toNat ∧ len.toNat ≤ Config.maxLen)

/-- The check on a match's distance (rule R316): `1..W`. -/
abbrev matchDistOk (dist : BitVec 13) : Bool := decide (1 ≤ dist.toNat ∧ dist.toNat ≤ Config.windowSize)

/-- The instructions that have an encoding. -/
def Instr.wellFormed : Instr → Bool
  | .nop => true
  | .reset => true
  | .encode => true
  | .decode => true
  | .encinit => true
  | .encstep => true
  | .decinit => true
  | .decstep => true
  | .wrbits cnt _ => bitCountOk cnt
  | .rdbits cnt => bitCountOk cnt
  | .flush => true
  | .wadv _ => true
  | .byteat _ => true
  | .lafill => true
  | .lapeek _ => true
  | .lacons _ => true
  | .findm => true
  | .encsym _ _ => true
  | .decsym _ => true
  | .bump _ _ => true
  | .rebuild _ => true
  | .rdnode _ _ => true
  | .rdleaf _ _ => true
  | .lit _ => true
  | .matchCopy len dist => matchLenOk len && matchDistOk dist

/-- Whether the instruction is a host command, a 32-bit word (rule R120), and not a stream token. -/
def Instr.isCommand : Instr → Bool
  | .nop => true
  | .reset => true
  | .encode => true
  | .decode => true
  | .encinit => true
  | .encstep => true
  | .decinit => true
  | .decstep => true
  | .wrbits _ _ => true
  | .rdbits _ => true
  | .flush => true
  | .wadv _ => true
  | .byteat _ => true
  | .lafill => true
  | .lapeek _ => true
  | .lacons _ => true
  | .findm => true
  | .encsym _ _ => true
  | .decsym _ => true
  | .bump _ _ => true
  | .rebuild _ => true
  | .rdnode _ _ => true
  | .rdleaf _ _ => true
  | .lit _ => false
  | .matchCopy _ _ => false

end Sys2Proof
end

