-- ==== Sys2Proof/Decode.lean ====
section
/-! DEFINITION. The decoder of command words (rule R120 to rule R124), total on 32-bit words and rejecting by name, and
after it the encoder; then the same two for the stream tokens over the current code tables (rule R143, rule R144). -/

namespace Sys2Proof

/-! ## Fields (rule R120) -/

/-- Field `OP`, bits [31:26]. -/
def opField (w : Word) : BitVec 6 := w.extractLsb' 26 6
/-- Field `T`, bit [25]. -/
def tField (w : Word) : BitVec 1 := w.extractLsb' 25 1
/-- Field `CNT`, bits [24:20]. -/
def cntField (w : Word) : BitVec 5 := w.extractLsb' 20 5
/-- Field `IMM`, bits [19:0]. -/
def immField (w : Word) : BitVec 20 := w.extractLsb' 0 20

/-- The table a `T` field selects (rule R121). -/
def selOf (t : BitVec 1) : TableSel := if t = 0 then .a else .b

/-- The `T` field of a table (rule R121). -/
def selBit : TableSel → BitVec 1
  | .a => 0
  | .b => 1

/-! ## The decoder -/

/-- Why a word is no command. Each is the error `ILLEGAL_CMD` (rule R335). -/
inductive DecodeReject where
  /-- A reserved opcode (rule R124). -/
  | reservedOpcode
  /-- A field that the opcode does not use is not zero (rule R122(a)). -/
  | unusedField
  /-- A bit of `IMM` above the operand's width is not zero (rule R122(b)). -/
  | wideImmediate
  /-- A bit count above 20 (rule R122(c)). -/
  | bitCount
deriving DecidableEq, Repr

/-- What an opcode reads (rule R123): whether it uses `T` and `CNT`, how many low bits of `IMM` it uses, and whether `CNT`
is a bit count. -/
structure OpFormat where
  usesT : Bool
  usesCnt : Bool
  immBits : Nat
deriving DecidableEq, Repr

/-- The format checks of rule R122, the first that fails being named. An opcode that uses no bit of `IMM` does not use
the field. -/
def formatReject (f : OpFormat) (w : Word) : Option DecodeReject :=
  if ¬ f.usesT ∧ tField w ≠ 0 then some .unusedField
  else if ¬ f.usesCnt ∧ cntField w ≠ 0 then some .unusedField
  else if f.immBits = 0 ∧ immField w ≠ 0 then some .unusedField
  else if 2 ^ f.immBits ≤ (immField w).toNat then some .wideImmediate
  else if f.usesCnt ∧ 20 < (cntField w).toNat then some .bitCount
  else none

/-- An instruction whose word passes the format checks. -/
def checked (f : OpFormat) (w : Word) (i : Instr) : Except DecodeReject Instr :=
  match formatReject f w with
  | some r => .error r
  | none => .ok i

/-- The decoder: the opcode map of rule R123, one line an opcode. `WRBITS` uses all 20 bits of `IMM` (rule R122). -/
def decode (w : Word) : Except DecodeReject Instr :=
  match (opField w).toNat with
  | 0x00 => checked ⟨false, false, 0⟩ w .nop
  | 0x01 => checked ⟨false, false, 0⟩ w .reset
  | 0x02 => checked ⟨false, false, 0⟩ w .encode
  | 0x03 => checked ⟨false, false, 0⟩ w .decode
  | 0x04 => checked ⟨false, false, 0⟩ w .encinit
  | 0x05 => checked ⟨false, false, 0⟩ w .encstep
  | 0x06 => checked ⟨false, false, 0⟩ w .decinit
  | 0x07 => checked ⟨false, false, 0⟩ w .decstep
  | 0x08 => checked ⟨false, true, 20⟩ w (.wrbits (cntField w) (immField w))
  | 0x09 => checked ⟨false, true, 0⟩ w (.rdbits (cntField w))
  | 0x0A => checked ⟨false, false, 0⟩ w .flush
  | 0x10 => checked ⟨false, false, 8⟩ w (.wadv ((immField w).setWidth 8))
  | 0x11 => checked ⟨false, false, 13⟩ w (.byteat ((immField w).setWidth 13))
  | 0x12 => checked ⟨false, false, 0⟩ w .lafill
  | 0x13 => checked ⟨false, false, 6⟩ w (.lapeek ((immField w).setWidth 6))
  | 0x14 => checked ⟨false, false, 6⟩ w (.lacons ((immField w).setWidth 6))
  | 0x15 => checked ⟨false, false, 0⟩ w .findm
  | 0x18 => checked ⟨true, false, 9⟩ w (.encsym (selOf (tField w)) ((immField w).setWidth 9))
  | 0x19 => checked ⟨true, false, 0⟩ w (.decsym (selOf (tField w)))
  | 0x1A => checked ⟨true, false, 9⟩ w (.bump (selOf (tField w)) ((immField w).setWidth 9))
  | 0x1B => checked ⟨true, false, 0⟩ w (.rebuild (selOf (tField w)))
  | 0x1C => checked ⟨true, false, 10⟩ w (.rdnode (selOf (tField w)) ((immField w).setWidth 10))
  | 0x1D => checked ⟨true, false, 9⟩ w (.rdleaf (selOf (tField w)) ((immField w).setWidth 9))
  | _ => .error .reservedOpcode

/-! ## The encoder -/

/-- A command word from its fields (rule R120). -/
def packWord (op : BitVec 6) (t : BitVec 1) (cnt : BitVec 5) (imm : BitVec 20) : Word := op ++ t ++ cnt ++ imm

/-- The word of a command (rule R123, rule R155): its fields filled and every other field zero. A stream token is no word:
`encodeToken` gives its bits. -/
def encode : Instr → List Word
  | .nop => [packWord 0x00 0 0 0]
  | .reset => [packWord 0x01 0 0 0]
  | .encode => [packWord 0x02 0 0 0]
  | .decode => [packWord 0x03 0 0 0]
  | .encinit => [packWord 0x04 0 0 0]
  | .encstep => [packWord 0x05 0 0 0]
  | .decinit => [packWord 0x06 0 0 0]
  | .decstep => [packWord 0x07 0 0 0]
  | .wrbits cnt value => [packWord 0x08 0 cnt value]
  | .rdbits cnt => [packWord 0x09 0 cnt 0]
  | .flush => [packWord 0x0A 0 0 0]
  | .wadv byte => [packWord 0x10 0 0 (byte.setWidth 20)]
  | .byteat dist => [packWord 0x11 0 0 (dist.setWidth 20)]
  | .lafill => [packWord 0x12 0 0 0]
  | .lapeek k => [packWord 0x13 0 0 (k.setWidth 20)]
  | .lacons k => [packWord 0x14 0 0 (k.setWidth 20)]
  | .findm => [packWord 0x15 0 0 0]
  | .encsym t sym => [packWord 0x18 (selBit t) 0 (sym.setWidth 20)]
  | .decsym t => [packWord 0x19 (selBit t) 0 0]
  | .bump t sym => [packWord 0x1A (selBit t) 0 (sym.setWidth 20)]
  | .rebuild t => [packWord 0x1B (selBit t) 0 0]
  | .rdnode t node => [packWord 0x1C (selBit t) 0 (node.setWidth 20)]
  | .rdleaf t sym => [packWord 0x1D (selBit t) 0 (sym.setWidth 20)]
  | .lit _ => []
  | .matchCopy _ _ => []

/-- The decoder on a word of the opcode table, whose bits it numbers as rule R120 does. A command is one 32-bit word that
the host writes whole (rule R84, rule R85), so there is no byte order to lay out. -/
def decodeTableWord (nbits w : Nat) : Option Instr :=
  match decode (BitVec.ofNat 32 (w % 2 ^ nbits)) with
  | .ok i => some i
  | .error _ => none

/-! ## Stream tokens (rule R143) -/

open Machine

/-- The bits of a token over the current tables, in stream order (rule R143). A command has none. -/
def encodeToken (ta : CodeTable Config.symbolsA Config.linkBitsA) (tb : CodeTable Config.symbolsB Config.linkBitsB) :
    Instr → List Bool
  | .lit b => ta.code b.toNat
  | .matchCopy len dist =>
    ta.code (lengthSymbol len.toNat) ++ tb.code (distClass dist.toNat) ++
      fieldBits (distExtra dist.toNat) Config.distLowBits
  | _ => []

/-- The number of a bit field read most significant bit first (rule R175). -/
def bitsValue (bits : List Bool) : Nat := bits.foldl (fun v b => 2 * v + b.toNat) 0

/-- The token at the front of a list of bits, and the bits after it; nothing where the bits end inside it (rule R144, rule
R146). -/
def decodeToken (ta : CodeTable Config.symbolsA Config.linkBitsA) (tb : CodeTable Config.symbolsB Config.linkBitsB)
    (bits : List Bool) : Option (Instr × List Bool) :=
  match ta.decodeBits bits with
  | none => none
  | some (symA, rest) =>
    if symA < 256 then some (.lit (BitVec.ofNat 8 symA), rest)
    else
      match tb.decodeBits rest with
      | none => none
      | some (cls, rest1) =>
        if rest1.length < Config.distLowBits then none
        else
          some (.matchCopy (symbolLength symA) (classDist cls (bitsValue (rest1.take Config.distLowBits))),
            rest1.drop Config.distLowBits)

end Sys2Proof
end

