-- ==== Sys2Proof/Machine/Control.lean ====
section
/-! DEFINITION. The commands `NOP` and `RESET` (`70_reset_and_hazards.md`). Both execute in `FAILED` too (rule R343). -/

namespace Sys2Proof.Machine

/-- `NOP` (rule R372). -/
def execNop (s : State) : Host.Outcome State Fault Refusal := .next s

/-- The state after `RESET` (rule R371): `Fresh`, and the host registers and the driver as after power-on reset. -/
def resetBlock (s : State) : State :=
  { s.fresh with fsm := .idle, mode := .encode, len := 0, result := 0 }

/-- `RESET` (rule R371). -/
def execReset (s : State) : Host.Outcome State Fault Refusal := .next (resetBlock s)

/-- Power-on reset (rule R370): every state element of the block takes the value of rule R76, whatever was in progress, and
a request in progress is abandoned. What the host has done and has yet to do is not the block's state (log entry 15). -/
def powerOn (s : State) : State := { State.reset with ports := s.ports, host := s.host }

end Sys2Proof.Machine
end

