-- ==== Sys2Proof/Machine/MatchFinder.lean ====
section
/-! DEFINITION. The Match Finder (`42_match_index.md`): `MatchLen`, `FindMatch` and the command `FINDM`. The Match Index
is hidden, and this function, not any index, is the normative result (rule R47, rule R220). -/

namespace Sys2Proof.Machine

/-- The byte of the candidate copy that stands `d` positions before lookahead byte `l` (rule R221): a window byte, or a
lookahead byte where the copy overlaps itself. -/
def copySource (s : State) (d l : Nat) : Byte := if l < d then histByte s (d - l) else laByte s (l - d)

/-- The loop of `MatchLen` from lookahead byte `l`, for at most `m` bytes more. -/
def matchFrom (s : State) (d : Nat) : Nat → Nat → Nat
  | 0, l => l
  | m + 1, l => if copySource s d l = laByte s l then matchFrom s d m (l + 1) else l

/-- `MatchLen(d)` (rule R221). -/
def matchLen (s : State) (d : Nat) : Nat := matchFrom s d (min Config.maxLen s.win.lacnt.toNat) 0

/-- A match: how far back it starts, and its length (rule R20). -/
structure MatchRef where
  dist : Nat
  len : Nat
deriving DecidableEq, Repr

/-- One turn of `FindMatch`: only a strictly longer length replaces the best so far (rule R220, rule R222). -/
def betterMatch (s : State) (best : MatchRef) (d : Nat) : MatchRef :=
  if best.len < matchLen s d then ⟨d, matchLen s d⟩ else best

/-- The best of the distances `1..n`, nearest first. -/
def bestMatch (s : State) (n : Nat) : MatchRef := (List.range' 1 n).foldl (betterMatch s) ⟨0, 0⟩

/-- `FindMatch()` (rule R220). -/
def findMatch (s : State) : Option MatchRef :=
  let best := bestMatch s s.win.wfill.toNat
  if Config.minLen ≤ best.len then some best else none

/-- The match descriptor of `FINDM`, 0 for no match (rule R131, rule R224). -/
def findDesc : Option MatchRef → Word
  | none => 0
  | some m => matchDesc (BitVec.ofNat 6 m.len) (BitVec.ofNat 13 m.dist)

/-- `FINDM` (rule R224). -/
def execFindm (s : State) : Host.Outcome State Fault Refusal :=
  accepted s (.ok () (s.setResult (findDesc (findMatch s))))

end Sys2Proof.Machine
end

