-- ==== Sys2Proof/Machine/Driver.lean ====
section
/-! DEFINITION. The Transform Driver (`44_driver.md`): `EncInit`, `EncStep`, `DecInit`, `DecStep`, their commands, and the
whole-stream commands `ENCODE` and `DECODE` with the steps that follow them while `BUSY` is 1. -/

namespace Sys2Proof.Machine

/-! ## Encoder -/

/-- The 4 header bytes, little-endian (rule R83, rule R150). -/
def headerOf (len : Word) : List Byte :=
  [len.extractLsb' 0 8, len.extractLsb' 8 8, len.extractLsb' 16 8, len.extractLsb' 24 8]

/-- `EncInit()` (rule R280). -/
def encInit (s : State) : Res Unit :=
  let s1 := ({ s with mode := .encode }.fresh).setFsm .filling
  (sendBytes (headerOf s1.len) s1).andThen fun _ s2 =>
    (fill s2).andThen fun _ s3 =>
      .ok () ((s3.setResult s3.len).setFsm (if s3.win.lacnt = 0 then .done else .searching))

/-- The token the encoder chooses: the match of `FindMatch` if there is one, else the literal `LA[0]` (rule R290, rule
R292). -/
def chooseToken (s : State) : Token :=
  match findMatch s with
  | some m => .copy (BitVec.ofNat 6 m.len) (BitVec.ofNat 13 m.dist)
  | none => .lit (laByte s 0)

/-- The number of input bytes a token stands for (rule R140). -/
def Token.size : Token → Nat
  | .lit _ => 1
  | .copy len _ => len.toNat

/-- A token's codes and extra bits are sent, and its tables bumped (rule R143, rule R290). -/
def sendToken : Token → State → Res Unit
  | .lit b, s => encodeSymbol .a b.toNat s
  | .copy len dist, s =>
    (encodeSymbol .a (lengthSymbol len.toNat) s).andThen fun _ s1 =>
      (encodeSymbol .b (distClass dist.toNat) s1).andThen fun _ s2 =>
        writeBits (distExtra dist.toNat) Config.distLowBits s2

/-- The `Consume` of `EncStep` (rule R290). A transform command never raises `INVARIANT` (rule R334, rule R338): with an
empty lookahead, which only unit commands bring about, there is no byte to consume and nothing is consumed, log entry 10. -/
def consumeToken (tok : Token) (s : State) : Res Unit :=
  if s.win.lacnt = 0 then .ok () s else consume tok.size s

/-- The end of `EncStep`: where every declared byte has been consumed, the flush with `DONE` (rule R290, rule R293). -/
def closeEncode (s : State) : Res Unit :=
  if s.win.lacnt = 0 then (flushBits s).andThen fun _ s1 => .ok () (s1.setFsm .done)
  else .ok () (s.setFsm .searching)

/-- `EncStep()` (rule R290), `RESULT` written before the last flush, whose error leaves it written (rule R17, rule R341, log
entry 8). -/
def encStep (s : State) : Res Unit :=
  if s.fsm = .searching ∧ s.mode = .encode then
    let tok := chooseToken s
    (sendToken tok (s.setFsm .emitting)).andThen fun _ s1 =>
      (consumeToken tok s1).andThen fun _ s2 => closeEncode (s2.setResult tok.desc)
  else .raise .sequence s

/-! ## Decoder -/

/-- The header of a decode (rule R300): `n` more bytes, the next one at bit `shift`, `v` read so far. -/
def readHeader : Nat → Nat → Word → State → Res Word
  | 0, _, v, s => .ok v s
  | n + 1, shift, v, s =>
    (srcRead s).andThen fun answer s1 =>
      match answer with
      | .byte b => readHeader n (shift + 8) (v ||| (b.setWidth 32 <<< shift)) s1
      | .eof => .raise .corruptStream s1
      | .ioErr => .raise .sourceIo s1

/-- `DecInit()` (rule R300). -/
def decInit (s : State) : Res Unit :=
  let s1 := ({ s with mode := .decode }.fresh).setFsm .header
  (readHeader Config.headerBytes 0 0 s1).andThen fun v s2 =>
    .ok () (({ s2 with len := v }.setResult v).setFsm (if v = 0 then .done else .reading))

/-- The end of `DecStep` (rule R310, rule R312). -/
def closeDecode (tok : Token) (s : State) : State :=
  (s.setResult tok.desc).setFsm (if s.count = s.len then .done else .reading)

/-- `DecStep()` (rule R310): the next token is fetched and executed. -/
def decStep (s : State) : Res Unit :=
  if s.fsm = .reading ∧ s.mode = .decode then
    (fetchToken s).andThen fun tok s1 => (tok.run s1).andThen fun _ s2 => .ok () (closeDecode tok s2)
  else .raise .sequence s

/-! ## Commands -/

/-- `ENCINIT` (rule R281). It executes in `FAILED` too (rule R343). -/
def execEncinit (s : State) : Host.Outcome State Fault Refusal := finish s (encInit s)

/-- `ENCSTEP` (rule R291). An exception before the last flush leaves `RESULT` as it was; one in that flush comes after the
write, log entry 8. -/
def execEncstep (s : State) : Host.Outcome State Fault Refusal := accepted s (encStep s)

/-- `DECINIT` (rule R301). It executes in `FAILED` too (rule R343). -/
def execDecinit (s : State) : Host.Outcome State Fault Refusal := finish s (decInit s)

/-- `DECSTEP` (rule R313). -/
def execDecstep (s : State) : Host.Outcome State Fault Refusal := accepted s (decStep s)

/-! ## Whole-stream commands -/

/-- The end of a step of `ENCODE` or `DECODE`: `BUSY` is cleared where it leaves `FSM` in `DONE` or `FAILED` (rule R320,
rule R321, rule R17). -/
def endTransformStep (s : State) : State :=
  match s.fsm with
  | .done => { s with busy := false }
  | .failed => { s with busy := false }
  | _ => s

/-- `ENCODE`, step 1 (rule R320). It executes in `FAILED` too (rule R343). -/
def execEncode (s : State) : Host.Outcome State Fault Refusal :=
  endStep s endTransformStep (encInit { s with busy := true })

/-- `DECODE`, step 1 (rule R321). It executes in `FAILED` too (rule R343). -/
def execDecode (s : State) : Host.Outcome State Fault Refusal :=
  endStep s endTransformStep (decInit { s with busy := true })

/-- Step `k` of the `ENCODE` or `DECODE` in progress (rule R320, rule R321): one token. `MODE` says which of the two it is
(rule R66). -/
def transformStep (s : State) : Host.Outcome State Fault Refusal :=
  match s.mode with
  | .encode => endStep s endTransformStep (encStep s)
  | .decode => endStep s endTransformStep (decStep s)

end Sys2Proof.Machine
end

