-- ==== Sys2Proof/Machine/Dispatch.lean ====
section
/-! DEFINITION. One arm for each instruction. -/

namespace Sys2Proof.Machine

def exec (i : Instr) (s : State) : Host.Outcome State Fault Refusal :=
  match i with
  | .nop => Sys2Proof.Machine.execNop s
  | .reset => Sys2Proof.Machine.execReset s
  | .encode => Sys2Proof.Machine.execEncode s
  | .decode => Sys2Proof.Machine.execDecode s
  | .encinit => Sys2Proof.Machine.execEncinit s
  | .encstep => Sys2Proof.Machine.execEncstep s
  | .decinit => Sys2Proof.Machine.execDecinit s
  | .decstep => Sys2Proof.Machine.execDecstep s
  | .wrbits cnt value => Sys2Proof.Machine.execWrbits cnt value s
  | .rdbits cnt => Sys2Proof.Machine.execRdbits cnt s
  | .flush => Sys2Proof.Machine.execFlush s
  | .wadv byte => Sys2Proof.Machine.execWadv byte s
  | .byteat dist => Sys2Proof.Machine.execByteat dist s
  | .lafill => Sys2Proof.Machine.execLafill s
  | .lapeek k => Sys2Proof.Machine.execLapeek k s
  | .lacons k => Sys2Proof.Machine.execLacons k s
  | .findm => Sys2Proof.Machine.execFindm s
  | .encsym t sym => Sys2Proof.Machine.execEncsym t sym s
  | .decsym t => Sys2Proof.Machine.execDecsym t s
  | .bump t sym => Sys2Proof.Machine.execBump t sym s
  | .rebuild t => Sys2Proof.Machine.execRebuild t s
  | .rdnode t node => Sys2Proof.Machine.execRdnode t node s
  | .rdleaf t sym => Sys2Proof.Machine.execRdleaf t sym s
  | .lit b => Sys2Proof.Machine.execLit b s
  | .matchCopy len dist => Sys2Proof.Machine.execMatchCopy len dist s

end Sys2Proof.Machine
end

