-- ==== Sys2Proof/Machine/Flags.lean ====
section
/-! DEFINITION. The status bits and the host's view of the registers: `STATUS` with `DONE` and `FAIL`, which are copies
of `FSM` (rule R63), and the read side of the register map (rule R60, rule R72). -/

namespace Sys2Proof.Machine

/-- The value of `FSM` in `STATUS[7:4]` (rule R64). -/
def Fsm.toBits : Fsm → BitVec 4
  | .idle => 0
  | .filling => 1
  | .searching => 2
  | .emitting => 3
  | .header => 4
  | .reading => 5
  | .reconstructing => 6
  | .done => 7
  | .failed => 8

/-- The value of `ERR` in `STATUS[11:8]` (rule R330). -/
def ErrCode.toBits : ErrCode → BitVec 4
  | .none => 0
  | .sourceIo => 1
  | .sinkIo => 2
  | .corruptStream => 3
  | .invariant => 4
  | .illegalCmd => 5
  | .sequence => 6

/-- The value of `MODE` in `STATUS[12]` (rule R66). -/
def Mode.toBits : Mode → BitVec 1
  | .encode => 0
  | .decode => 1

/-- `STATUS.DONE`: 1 exactly when `FSM` is `DONE` (rule R63). -/
def State.doneBit (s : State) : Bool := decide (s.fsm = .done)

/-- `STATUS.FAIL`: 1 exactly when `FSM` is `FAILED` (rule R63). -/
def State.failBit (s : State) : Bool := decide (s.fsm = .failed)

/-- `STATUS` (rule R63), from its most significant field down; the reserved bits [31:13] and [3] read 0. -/
def State.status (s : State) : Word :=
  0#19 ++ s.mode.toBits ++ s.err.toBits ++ s.fsm.toBits ++ 0#1 ++ BitVec.ofBool s.failBit ++
    BitVec.ofBool s.doneBit ++ BitVec.ofBool s.busy

/-- What a host read of offset `off` returns (rule R60): `CMD` reads 0 (rule R61), and so do the reserved offsets 0x1C to
0x3F (rule R72). -/
def State.readReg (s : State) (off : BitVec 6) : Word :=
  match off.toNat with
  | 0x04 => s.status
  | 0x08 => s.result
  | 0x0C => s.len
  | 0x10 => s.count
  | 0x14 => s.inbytes
  | 0x18 => s.outbytes
  | _ => 0

/-- A host write to a register other than `CMD` (rule R60): `LEN` takes it while `BUSY` is 0 (rule R62, rule R385), and a
write to a read-only register or a reserved offset is ignored (rule R72). -/
def State.writeReg (s : State) (off : BitVec 6) (data : Word) : State :=
  match off.toNat with
  | 0x0C => if s.busy then s else { s with len := data }
  | _ => s

/-- `SWD_BASE`, the host address of offset 0x00: a multiple of 64 (rule R86). -/
def swdBase : Nat := 64 * Config.windowBlock

/-- The offset that a host address selects in this block's window, if it lies there: the block decodes the low 6 bits
(rule R72, rule R86). -/
def windowOffset (addr : Nat) : Option (BitVec 6) :=
  if addr / 64 = Config.windowBlock then some (BitVec.ofNat 6 addr) else none

end Sys2Proof.Machine
end

