-- ==== Sys2Proof/Machine/Bus.lean ====
section
/-! DEFINITION. The register window: what the block does with each access of the host (rule R60, rule R85, rule R345), and
how host accesses and the steps of a transform in progress follow one another (rule R100, rule R385). -/

namespace Sys2Proof.Machine

/-- A word that is no command (rule R124, rule R122): ignored while `FSM` is `FAILED`, else the error `ILLEGAL_CMD` (rule
R345, checks 2 to 4). -/
def illegalCmd (s : State) : Host.Outcome State Fault Refusal := accepted s (.raise .illegalCmd s)

/-- A word written to `CMD` while `BUSY` is 0 (rule R345): the decoded instruction is executed. -/
def issueWord (w : Word) (s : State) : Host.Outcome State Fault Refusal :=
  match decode w with
  | .ok i => exec i s
  | .error _ => illegalCmd s

/-- The refusal of an access that the interface does not define (rule R85). -/
def accessRefusal (width : AccessWidth) (off : BitVec 6) : Option Refusal :=
  match width with
  | .word => if off.toNat % 4 = 0 then none else some .misalignedAccess
  | .half => some .narrowAccess
  | .byte => some .narrowAccess

/-- The host's next operation is done. -/
def State.popHost (s : State) : State := { s with host := { s.host with queue := s.host.queue.tail } }

/-- The word a host read returns joins those the host has read. -/
def State.hostRead (s : State) (w : Word) : State := { s with host := { s.host with reads := s.host.reads ++ [w] } }

/-- A write of a whole word at a multiple of 4. A write to `CMD` is held while `BUSY` is 1: the transform takes its next
step, and the write stays first in the queue (rule R345, check 1, rule R385). A write that is handled leaves the queue as
its step begins: DESIGN CHOICE, where that step is then cut off by a power-on reset, the write is gone and is not made
again, while a held write stays and is handled after the reset (rule R370 says of neither), log entry 3. -/
def hostWrite (off : BitVec 6) (data : Word) (s : State) : Host.Outcome State Fault Refusal :=
  if off = 0 then
    if s.busy then transformStep s else issueWord data s.popHost
  else .next (s.popHost.writeReg off data)

/-- The host makes no access: the transform in progress takes its next step. A block that is not busy keeps all its state
(rule R355), and so does one that waits inside a step. -/
def blockStep (s : State) : Host.Outcome State Fault Refusal :=
  if s.busy && !s.waiting then transformStep s else .next s

/-- One operation of the host, the first in its queue. -/
def hostStep (op : HostOp) (s : State) : Host.Outcome State Fault Refusal :=
  match op with
  | .write width off data =>
    match accessRefusal width off with
    | some r => .refused r
    | none => hostWrite off data s
  | .read width off =>
    match accessRefusal width off with
    | some r => .refused r
    | none => .next (s.popHost.hostRead (s.readReg off))
  | .idle => blockStep s.popHost
  | .powerOnReset => .next (powerOn s.popHost)

/-! ## A block that waits -/

/-- The platform asserts the reset while nothing else can happen: the first reset in the queue, which does not wait for
the host's accesses before it. Without one the machine is stuck. -/
def resetOrStuck (s : State) : Host.Outcome State Fault Refusal :=
  if .powerOnReset ∈ s.host.queue then
    .next (powerOn { s with host := { s.host with queue := s.host.queue.erase .powerOnReset } })
  else .fault .portNeverAnswered

/-- Whether the host can do its next operation while the block waits inside a step, log entry 3. Where `BUSY` is 1 its
reads complete and its `LEN` writes are ignored, as between steps, and a `CMD` write is held (rule R385). Where `BUSY` is
0 the step is that of the host's own `CMD` write, which has not completed, so the host does nothing more. -/
def proceedsWhileWaiting (busy : Bool) (op : HostOp) : Bool :=
  match op with
  | .powerOnReset => true
  | .idle => true
  | .read _ _ => busy
  | .write width off _ => busy && !decide (width = .word ∧ off = 0)

/-- A step of the machine while the block waits: it is the host's or the platform's, never the block's. -/
def waitingStep (s : State) : Host.Outcome State Fault Refusal :=
  match s.host.queue with
  | [] => .fault .portNeverAnswered
  | op :: _ => if proceedsWhileWaiting s.busy op then hostStep op s else resetOrStuck s

/-- The host writes a command word next, to a block that is not busy and does not wait. -/
def placeCommand (w : Word) (s : State) : State :=
  { s with busy := false, waiting := false, host := { s.host with queue := .write .word 0 w :: s.host.queue } }

end Sys2Proof.Machine
end

