-- ==== Sys2Proof/Machine/Step.lean ====
section
/-! DEFINITION. One step of the machine: the host's next operation, or, where it has none, the next step of the transform
in progress (rule R100). -/

namespace Sys2Proof.Machine

/-- One step. A block that the host leaves alone and that is not busy stays as it is (rule R355, rule R370). -/
def step (s : State) : Host.Outcome State Fault Refusal :=
  if s.waiting then waitingStep s
  else
    match s.host.queue with
    | [] => blockStep s
    | op :: _ => hostStep op s

/-- The state in which the host is about to write the instruction's word to `CMD`, so that the next step executes it. Log
entry 5 says how a program comes to run. -/
def State.withFetchWord (s : State) (nbits w : Nat) : State := placeCommand (BitVec.ofNat 32 (w % 2 ^ nbits)) s

end Sys2Proof.Machine
end

