-- ==== Sys2Proof/Machine/Assembler.lean ====
section
/-! DEFINITION. The assembler syntax of commands (rule R155) and of token programs (rule R156), and the encoded file a
token program assembles to (rule R143, rule R150, rule R151). -/

namespace Sys2Proof.Machine

/-! ## Numbers and lines -/

/-- The value of a digit in a base up to 16. -/
def digitValue (c : Char) : Option Nat :=
  let n := c.toNat
  if 48 ≤ n ∧ n ≤ 57 then some (n - 48)
  else if 65 ≤ n ∧ n ≤ 70 then some (n - 55)
  else if 97 ≤ n ∧ n ≤ 102 then some (n - 87)
  else none

/-- Digits read from the left, `v` read so far. -/
def digitsValue (base : Nat) : List Char → Nat → Option Nat
  | [], v => some v
  | c :: cs, v =>
    match digitValue c with
    | some d => if d < base then digitsValue base cs (base * v + d) else none
    | none => none

/-- A number: a quoted character, `0x` hexadecimal, or decimal (rule R155). The rule gives `'A'` = 65 and says nothing of a
character outside ASCII: DESIGN CHOICE, its value is its Unicode code point, which assembles where it fits the field. Log
entry 19. -/
def parseNumber : List Char → Option Nat
  | ['\'', c, '\''] => some c.toNat
  | '0' :: 'x' :: d :: ds => digitsValue 16 (d :: ds) 0
  | d :: ds => digitsValue 10 (d :: ds) 0
  | [] => none

/-- A number that fits a field of `w` bits. -/
def parseField (w : Nat) (cs : List Char) : Option (BitVec w) :=
  match parseNumber cs with
  | some n => if n < 2 ^ w then some (BitVec.ofNat w n) else none
  | none => none

/-- A table operand: `A` or `B` (rule R155). -/
def parseTable : List Char → Option TableSel
  | ['A'] => some .a
  | ['B'] => some .b
  | _ => none

/-- Text without the spaces before and after it. -/
def trimSpaces (cs : List Char) : List Char :=
  ((cs.dropWhile (· = ' ')).reverse.dropWhile (· = ' ')).reverse

/-- The operands of a line: separated by commas, the spaces around each left out; a quoted character stands whole. `cur` is
the operand being read, backwards. Rule R155 gives no form for spaces: DESIGN CHOICE, those around an operand count for
nothing, one inside an operand belongs to it (so that `RDBITS 1 2` does not assemble), and a comma always stands between
two operands, an empty one among them (so that `RDBITS 3,` does not assemble). Log entry 19. -/
def splitOperands : List Char → List Char → List (List Char)
  | [], cur => [trimSpaces cur.reverse]
  | '\'' :: c :: '\'' :: cs, cur => splitOperands cs ('\'' :: c :: '\'' :: cur)
  | ',' :: cs, cur => trimSpaces cur.reverse :: splitOperands cs []
  | c :: cs, cur => splitOperands cs (c :: cur)

/-- The mnemonic, up to the first space, and the operands of a line. -/
def splitLine (line : List Char) : List Char × List (List Char) :=
  let rest := trimSpaces (line.dropWhile (· ≠ ' '))
  (line.takeWhile (· ≠ ' '), if rest.isEmpty then [] else splitOperands rest [])

/-! ## Commands (rule R155) -/

/-! The fields that operands fill are those of rule R120: a number fills `CNT` (5 bits) or `IMM` (20 bits), whatever part of it
the opcode reads, so that a line can give a word that fails a format check of rule R122. -/

/-- A word with no operand. -/
def wordOf (op : BitVec 6) : Option Word := some (packWord op 0 0 0)

/-- A word whose operand is a bit count. -/
def wordCnt (op : BitVec 6) (c : List Char) : Option Word := (parseField 5 c).map fun cnt => packWord op 0 cnt 0

/-- A word whose operand is a number in `IMM`. -/
def wordImm (op : BitVec 6) (v : List Char) : Option Word := (parseField 20 v).map fun imm => packWord op 0 0 imm

/-- A word whose operands are a bit count and a number in `IMM`. -/
def wordCntImm (op : BitVec 6) (c v : List Char) : Option Word :=
  (parseField 5 c).bind fun cnt => (parseField 20 v).map fun imm => packWord op 0 cnt imm

/-- A word whose operand is a table. -/
def wordTable (op : BitVec 6) (t : List Char) : Option Word :=
  (parseTable t).map fun sel => packWord op (selBit sel) 0 0

/-- A word whose operands are a table and a number in `IMM`. -/
def wordTableImm (op : BitVec 6) (t v : List Char) : Option Word :=
  (parseTable t).bind fun sel => (parseField 20 v).map fun imm => packWord op (selBit sel) 0 imm

/-- The word a command's line stands for, its opcode that of rule R123. -/
def parseCommand (line : List Char) : Option Word :=
  match splitLine line with
  | (['N', 'O', 'P'], []) => wordOf 0x00
  | (['R', 'E', 'S', 'E', 'T'], []) => wordOf 0x01
  | (['E', 'N', 'C', 'O', 'D', 'E'], []) => wordOf 0x02
  | (['D', 'E', 'C', 'O', 'D', 'E'], []) => wordOf 0x03
  | (['E', 'N', 'C', 'I', 'N', 'I', 'T'], []) => wordOf 0x04
  | (['E', 'N', 'C', 'S', 'T', 'E', 'P'], []) => wordOf 0x05
  | (['D', 'E', 'C', 'I', 'N', 'I', 'T'], []) => wordOf 0x06
  | (['D', 'E', 'C', 'S', 'T', 'E', 'P'], []) => wordOf 0x07
  | (['W', 'R', 'B', 'I', 'T', 'S'], [c, v]) => wordCntImm 0x08 c v
  | (['R', 'D', 'B', 'I', 'T', 'S'], [c]) => wordCnt 0x09 c
  | (['F', 'L', 'U', 'S', 'H'], []) => wordOf 0x0A
  | (['W', 'A', 'D', 'V'], [v]) => wordImm 0x10 v
  | (['B', 'Y', 'T', 'E', 'A', 'T'], [v]) => wordImm 0x11 v
  | (['L', 'A', 'F', 'I', 'L', 'L'], []) => wordOf 0x12
  | (['L', 'A', 'P', 'E', 'E', 'K'], [v]) => wordImm 0x13 v
  | (['L', 'A', 'C', 'O', 'N', 'S'], [v]) => wordImm 0x14 v
  | (['F', 'I', 'N', 'D', 'M'], []) => wordOf 0x15
  | (['E', 'N', 'C', 'S', 'Y', 'M'], [t, v]) => wordTableImm 0x18 t v
  | (['D', 'E', 'C', 'S', 'Y', 'M'], [t]) => wordTable 0x19 t
  | (['B', 'U', 'M', 'P'], [t, v]) => wordTableImm 0x1A t v
  | (['R', 'E', 'B', 'U', 'I', 'L', 'D'], [t]) => wordTable 0x1B t
  | (['R', 'D', 'N', 'O', 'D', 'E'], [t, v]) => wordTableImm 0x1C t v
  | (['R', 'D', 'L', 'E', 'A', 'F'], [t, v]) => wordTableImm 0x1D t v
  | _ => none

/-- The word a line assembles to (rule R155). -/
def assembleLine (line : String) : Option Word := parseCommand line.toList

/-! ## Token programs (rule R156) -/

/-- A token program: its `.len` directive and its tokens. -/
structure TokenProgram where
  len : Word
  toks : List Token
deriving DecidableEq, Repr

/-- One token line, the pseudo-instruction `LITS` expanded (rule R156). The rule says 'one `LIT` per byte of the text' and
not which bytes a character outside ASCII stands for: DESIGN CHOICE, a character with a code of 128 to 255 is the one byte
of that code, and a text with a character of code 256 or above does not assemble. Log entry 19. -/
def parseTokenLine (line : List Char) : Option (List Token) :=
  match splitLine line with
  | (['L', 'I', 'T'], [b]) => (parseField 8 b).map fun byte => [.lit byte]
  | (['M', 'A', 'T', 'C', 'H'], [l, d]) =>
    (parseField 6 l).bind fun len => (parseField 13 d).map fun dist => [.copy len dist]
  | (['L', 'I', 'T', 'S'], _) =>
    match ((line.dropWhile (· ≠ ' ')).dropWhile (· = ' ')), line.getLast? with
    | '"' :: cs, some '"' =>
      if cs.isEmpty then none
      else if cs.any (fun c => decide (256 ≤ c.toNat)) then none
      else some (cs.dropLast.map fun c => .lit (BitVec.ofNat 8 c.toNat))
    | _, _ => none
  | _ => none

/-- The tokens of the lines after the directive. -/
def parseTokenLines : List String → Option (List Token)
  | [] => some []
  | l :: ls => (parseTokenLine l.toList).bind fun ts => (parseTokenLines ls).map fun rest => ts ++ rest

/-- A token program as text: the directive `.len N` first. -/
def parseProgram : List String → Option TokenProgram
  | [] => none
  | l :: ls =>
    match splitLine l.toList with
    | (['.', 'l', 'e', 'n'], [n]) =>
      (parseField 32 n).bind fun len => (parseTokenLines ls).map fun toks => ⟨len, toks⟩
    | _ => none

/-- Rule R156's conditions on the tokens after `p` bytes: every match within the lengths and the bytes before it, and `n`
bytes in all. -/
def tokensWf (n : Nat) : Nat → List Token → Bool
  | p, [] => decide (p = n)
  | p, .lit _ :: rest => tokensWf n (p + 1) rest
  | p, .copy len dist :: rest =>
    matchLenOk len && matchDistOk dist && decide (dist.toNat ≤ p) && tokensWf n (p + len.toNat) rest

/-- A well-formed token program (rule R156). -/
def TokenProgram.wf (p : TokenProgram) : Bool := tokensWf p.len.toNat 0 p.toks

/-- The bits of the tokens, each coded over the tables the tokens before it have left (rule R143, rule R156). -/
def tokensBits (ta : CodeTable Config.symbolsA Config.linkBitsA) (tb : CodeTable Config.symbolsB Config.linkBitsB) :
    List Token → List Bool
  | [] => []
  | .lit b :: rest => encodeToken ta tb (.lit b) ++ tokensBits (ta.bump b.toNat) tb rest
  | .copy len dist :: rest =>
    encodeToken ta tb (.matchCopy len dist) ++
      tokensBits (ta.bump (lengthSymbol len.toNat)) (tb.bump (distClass dist.toNat)) rest

/-- Bits packed into bytes, most significant first, the last byte padded with zeros (rule R81, rule R151). `n` bytes at
most. -/
def packBits : Nat → List Bool → List Byte
  | 0, _ => []
  | _ + 1, [] => []
  | n + 1, b :: bs =>
    BitVec.ofNat 8 (bitsValue (((b :: bs) ++ List.replicate 7 false).take 8)) :: packBits n ((b :: bs).drop 8)

/-- The encoded file of a token program (rule R150): the header, then the body from the `TreeInit` tables. -/
def TokenProgram.file (p : TokenProgram) : List Byte :=
  let bits := tokensBits (treeInit _ _) (treeInit _ _) p.toks
  headerOf p.len ++ packBits bits.length bits

/-- Only a well-formed program assembles (rule R156). -/
def assembleProgram (lines : List String) : Option (List Byte) :=
  match parseProgram lines with
  | some p => if p.wf then some p.file else none
  | none => none

/-- The bytes that the tokens emit after the bytes `out` (rule R140). -/
def tokensOutput : List Byte → List Token → List Byte
  | out, [] => out
  | out, .lit b :: rest => tokensOutput (out ++ [b]) rest
  | out, .copy len dist :: rest =>
    tokensOutput ((List.range len.toNat).foldl (fun o _ => o ++ [o.getD (o.length - dist.toNat) 0]) out) rest

end Sys2Proof.Machine
end

