-- ==== Sys2Proof/Safety.lean ====
section
/-! DEFINITION. The words claims are made in: the invariants of a state, the end and the success of a run, what the ports
are about to answer, and the state that a sequence of accepted port operations leaves. -/

namespace Sys2Proof.Machine

/-! ## Invariants -/

/-- Rule R32, rule R33 and rule R35: no more bits pend than `OBITS` says, and at most 8 bits are unread. -/
abbrev BitChannel.ok (c : BitChannel) : Prop := c.obuf.toNat < 2 ^ c.obits.toNat ∧ c.ibits.toNat ≤ 8

/-- Rule R40 to rule R45: both RAMs in canonical form within their sizes, the counts within their ranges, and the cursor at
the fill count until the window is full. -/
abbrev Window.ok (w : Window) : Prop :=
  w.hist.wf Config.windowSize = true ∧ w.la.wf Config.lookaheadSize = true ∧ w.wfill.toNat ≤ Config.windowSize ∧
    w.lacnt.toNat ≤ Config.lookaheadSize ∧ (w.wfill.toNat = Config.windowSize ∨ w.wcur.toNat = w.wfill.toNat)

/-- Rule R64: the driver states that can be observed between steps. -/
def Fsm.observable : Fsm → Bool
  | .idle => true
  | .filling => false
  | .searching => true
  | .emitting => false
  | .header => false
  | .reading => true
  | .reconstructing => false
  | .done => true
  | .failed => true

/-- The driver between steps: an observable state, an error exactly in `FAILED` (rule R17, rule R344), the mode of the
transform in progress (rule R66), and `BUSY` only while one of its tokens is still to come (rule R67). -/
abbrev State.driverOk (s : State) : Prop :=
  s.fsm.observable = true ∧ (s.fsm = .failed ↔ s.err ≠ .none) ∧ (s.fsm = .searching → s.mode = .encode) ∧
    (s.fsm = .reading → s.mode = .decode) ∧ (s.busy = true → s.fsm = .searching ∨ s.fsm = .reading)

/-- The code tables have the sizes of rule R50 and rule R51. -/
abbrev State.tablesSized (s : State) : Prop := s.tabA.sized = true ∧ s.tabB.sized = true

/-- Both code tables meet the invariants of rule R55. -/
abbrev State.tablesOk (s : State) : Prop := s.tabA.wf = true ∧ s.tabB.wf = true

/-- What holds between steps, the trees' shape apart. -/
abbrev State.inv (s : State) : Prop := s.bits.ok ∧ s.win.ok ∧ s.driverOk ∧ s.tablesSized

/-! ## The code tables -/

variable {n w : Nat}

/-- One level of `Bump` (rule R250) at node `c` of `t` has given `t'`, the walk going on from node `l`: the frequency of `c`
has risen by 1 and no order is broken, or `c` has been exchanged with `l`, the highest node of lower frequency. The entry
of a child that both have is the one that the lines of rule R250 write last. -/
def CodeTable.LevelDone (t t' : CodeTable n w) (c l : Nat) : Prop :=
  let k := t.freqAt c + 1
  let childOf := fun x m => x = t.sonAt m ∨ t.sonAt m < nodeCount n ∧ x = t.sonAt m + 1
  (k ≤ t.freqAt (c + 1) ∧ l = c ∧ t' = t.setFreq c k) ∨
  (c < l ∧ (∀ m, c < m → m ≤ l → t.freqAt m < k) ∧ k ≤ t.freqAt (l + 1) ∧
    (∀ i, t'.freqAt i = if i = c then t.freqAt l else if i = l then k else t.freqAt i) ∧
    (∀ i, t'.sonAt i = if i = c then t.sonAt l else if i = l then t.sonAt c else t.sonAt i) ∧
    (∀ x, (childOf x l → t'.prntAt x = c) ∧ (¬childOf x l → childOf x c → t'.prntAt x = l) ∧
      (¬childOf x l → ¬childOf x c → t'.prntAt x = t.prntAt x)))

/-- `u` is what `Rebuild` gives of `t` (rule R260, rule R261): a legal tree over the halved leaves, the leaves in their old
order, each internal node after the leaves of its own frequency and after the internal nodes paired before it. -/
def CodeTable.RebuiltAs (t u : CodeTable n w) : Prop :=
  u.wf = true ∧
  (∀ x, x < n → u.freqAt (u.leafOf x) = (t.freqAt (t.leafOf x) + 1) / 2) ∧
  u.freqAt (rootNode n) = ((List.range n).map fun x => (t.freqAt (t.leafOf x) + 1) / 2).sum ∧
  (∀ x y, x < n → y < n → (u.leafOf x < u.leafOf y ↔ t.leafOf x < t.leafOf y)) ∧
  (∀ k l, k < nodeCount n → l < nodeCount n → u.sonAt k < nodeCount n → nodeCount n ≤ u.sonAt l →
    u.freqAt k = u.freqAt l → l < k) ∧
  (∀ k k', k < k' → k' < nodeCount n → u.sonAt k < nodeCount n → u.sonAt k' < nodeCount n → u.sonAt k < u.sonAt k')

/-! ## Runs -/

/-- Between steps, with no command in progress and `FSM` in `DONE` or `FAILED`: where this holds first after a run's command
was accepted, the run has ended (rule R378). -/
def State.atRunEnd (s : State) : Bool :=
  !s.busy && !s.waiting && (decide (s.fsm = .done) || decide (s.fsm = .failed))

/-- A run that has ended has succeeded (rule R356, rule R378). -/
def State.succeeded (s : State) : Bool := decide (s.fsm = .done) && decide (s.err = .none)

/-- The machine's next step accepts a command that starts a transform run (rule R345). -/
def State.acceptsRun (s : State) : Prop :=
  s.busy = false ∧ s.waiting = false ∧
    ∃ w rest i, s.host.queue = .write .word 0x00 w :: rest ∧ decode w = .ok i ∧ i ∈ [Instr.encode, .decode, .encinit, .decinit]

/-- The transform run whose command the next step from `s` accepts ends `k` steps from there, in `t`: the first point, after
the command was accepted, where `BUSY` is 0 and `FSM` is `DONE` or `FAILED` (rule R378). -/
def State.runEnds (s : State) (k : Nat) (t : State) : Prop :=
  s.acceptsRun ∧ 1 ≤ k ∧ core.run k s = .next t ∧ t.atRunEnd = true ∧
    ∀ j u, 1 ≤ j → j < k → core.run j s = .next u → u.atRunEnd = false

/-- A command word, written to a block that the host then leaves alone, starts a transform run that ends and succeeds, the
sink having been given these bytes and no others (rule R378). -/
def State.transforms (s : State) (word : Word) (output : List Byte) : Prop :=
  ∃ k t, (placeCommand word s).runEnds k t ∧ t.succeeded = true ∧ t.ports.sink = s.ports.sink ++ output

/-- The commands that execute while `FSM` is `FAILED` (rule R343). -/
def Instr.runsInFailed : Instr → Bool
  | .nop => true
  | .reset => true
  | .encode => true
  | .decode => true
  | .encinit => true
  | .decinit => true
  | _ => false

/-! ## What the ports are about to answer -/

/-- The answer to the `k`-th source request from now, counted from 0, the requests before it answered: none if it is never
answered, else one the host has lined up, or the host's free choice. -/
def Ports.srcAt (p : Ports) (k : Nat) : Option SrcAnswer :=
  if p.srcAsked + k ∈ p.srcSilentAt then none else some ((p.srcAnswers[k]?).getD (Config.sourceDraw (p.srcAsked + k)))

/-- The answer to the `k`-th sink request from now. -/
def Ports.sinkAt (p : Ports) (k : Nat) : Option SinkAnswer :=
  if p.sinkAsked + k ∈ p.sinkSilentAt then none else some ((p.sinkAnswers[k]?).getD (Config.sinkDraw (p.sinkAsked + k)))

/-- The source is about to give these bytes, in order. -/
abbrev Ports.supplies (p : Ports) (bytes : List Byte) : Prop :=
  ∀ k, k < bytes.length → p.srcAt k = some (.byte (bytes.getD k 0))

/-- The sink is about to accept the next `m` bytes. -/
abbrev Ports.accepts (p : Ports) (m : Nat) : Prop := ∀ k, k < m → p.sinkAt k = some .ok

/-- `m` source requests have been made and answered. -/
def Ports.srcAfter (p : Ports) (m : Nat) : Ports :=
  { p with srcAnswers := p.srcAnswers.drop m, srcAsked := p.srcAsked + m }

/-- `m` sink requests have been made and answered. -/
def Ports.sinkAfter (p : Ports) (m : Nat) : Ports :=
  { p with sinkAnswers := p.sinkAnswers.drop m, sinkAsked := p.sinkAsked + m }

/-- The sink is about to accept `m` bytes. -/
abbrev State.sinkReady (s : State) (m : Nat) : Prop := s.ports.accepts m

/-- The source is about to give these bytes. -/
abbrev State.sourceReady (s : State) (bytes : List Byte) : Prop := s.ports.supplies bytes

/-- The source gives these bytes and then ends or fails (rule R90). -/
abbrev State.sourceEndsAfter (s : State) (bytes : List Byte) : Prop :=
  s.ports.supplies bytes ∧ (s.ports.srcAt bytes.length = some .eof ∨ s.ports.srcAt bytes.length = some .ioErr)

/-- The sink accepts `j` bytes and then refuses one (rule R91). -/
abbrev State.sinkRefusesAfter (s : State) (j : Nat) : Prop := s.ports.accepts j ∧ s.ports.sinkAt j = some .ioErr

/-- The host answers every request from now on (its duty of rule R92(a) and rule R92(b)). -/
def State.answered (s : State) : State := { s with ports := { s.ports with srcSilentAt := [], sinkSilentAt := [] } }

/-- A request that a step leading from `p` to `q` makes is never answered. -/
def Ports.meetsSilence (p q : Ports) : Prop :=
  (∃ k ∈ p.srcSilentAt, p.srcAsked ≤ k ∧ k < q.srcAsked) ∨ (∃ k ∈ p.sinkSilentAt, p.sinkAsked ≤ k ∧ k < q.sinkAsked)

/-- The ports `q` of a step that stands at a request that is never answered, the first such: since `p`, `m` source requests
and the sink requests for the bytes `sent` have been answered, each byte accepted, and one more request has been made. -/
def Ports.StandsAfter (p q : Ports) (m : Nat) (sent : List Byte) : Prop :=
  let before := { (p.srcAfter m).sinkAfter sent.length with sink := p.sink ++ sent }
  (∀ k, k < m → p.srcAsked + k ∉ p.srcSilentAt) ∧ (∀ k, k < sent.length → p.sinkAsked + k ∉ p.sinkSilentAt) ∧
    (p.srcAsked + m ∈ p.srcSilentAt ∧ q = before.srcUnanswered ∨
      p.sinkAsked + sent.length ∈ p.sinkSilentAt ∧ q = before.sinkUnanswered)

/-- The host is free to make its next access: the block does not wait inside a step, or it waits inside a step of a
transform (rule R385). -/
abbrev State.hostFree (s : State) : Prop := s.waiting = false ∨ s.busy = true

/-! ## Bits -/

/-- The pending output bits, oldest first (rule R32). -/
def BitChannel.pending (c : BitChannel) : List Bool := fieldBits c.obuf.toNat c.obits.toNat

/-- The unread input bits, the next one first (rule R35). -/
def BitChannel.unread (c : BitChannel) : List Bool := fieldBits c.ibuf.toNat c.ibits.toNat

/-- The bits of bytes, each most significant bit first (rule R81). -/
def bytesBits (bytes : List Byte) : List Bool := bytes.flatMap fun b => fieldBits b.toNat 8

/-- The source bytes that reading `n` bits takes (rule R93, rule R175). -/
def BitChannel.bytesNeeded (c : BitChannel) (n : Nat) : Nat := (n - c.ibits.toNat + 7) / 8

/-- The sink bytes that writing `n` bits fills (rule R173). -/
def BitChannel.bytesFilled (c : BitChannel) (n : Nat) : Nat := (c.obits.toNat + n) / 8

/-! ## The state that accepted port operations leave -/

/-- These bytes have been offered to the sink and accepted. -/
def State.delivered (bytes : List Byte) (s : State) : State :=
  { s with
    ports := { s.ports.sinkAfter bytes.length with sink := s.ports.sink ++ bytes }
    outbytes := s.outbytes + BitVec.ofNat 32 bytes.length }

/-- `m` bytes have been taken from the source. -/
def State.took (m : Nat) (s : State) : State :=
  { s with ports := s.ports.srcAfter m, inbytes := s.inbytes + BitVec.ofNat 32 m }

/-- These bits have been written, every byte they filled accepted (rule R170, rule R173). -/
def State.wrote (bits : List Bool) (s : State) : State :=
  let all := s.bits.pending ++ bits
  let full := all.length / 8
  ({ s with
      bits := { s.bits with
        obuf := BitVec.ofNat 8 (bitsValue (all.drop (8 * full)))
        obits := BitVec.ofNat 3 (all.length - 8 * full) } }).delivered (packBits full all)

/-- The pending bits have been padded and sent, if there were any (rule R171). -/
def State.flushed (s : State) : State :=
  if s.bits.obits = 0 then s
  else ({ s with bits := { s.bits with obuf := 0, obits := 0 } }).delivered (packBits 1 s.bits.pending)

/-- `n` bits have been read, the source giving these bytes for them (rule R174, rule R175). -/
def State.readOff (n : Nat) (bytes : List Byte) (s : State) : State :=
  ({ s with
      bits := { s.bits with
        ibuf := bytes.getLast?.getD s.bits.ibuf
        ibits := BitVec.ofNat 4 (s.bits.ibits.toNat + 8 * bytes.length - n) } }).took bytes.length

/-- The error `e` has been raised on the answer to one more source request (rule R331, rule R333). -/
def State.sourceFailed (e : ErrCode) (s : State) : State :=
  { s with ports := s.ports.srcAfter 1, err := e, fsm := .failed }

/-- The error `SINK_IO` has been raised on the answer to one more sink request (rule R332). -/
def State.sinkFailed (s : State) : State :=
  { s with ports := s.ports.sinkAfter 1, err := .sinkIo, fsm := .failed }

/-- These bits have been written up to the byte that the sink refuses after `j` accepted ones (rule R170, rule R332): the
bits after that byte are not accumulated. -/
def State.wroteUpTo (j : Nat) (bits : List Bool) (s : State) : State :=
  (({ s with bits := { s.bits with obuf := 0, obits := 0 } }).delivered (packBits j (s.bits.pending ++ bits))).sinkFailed

/-- The bytes have joined the end of the lookahead, the source giving them (rule R200). -/
def State.filled : List Byte → State → State
  | [], s => s
  | b :: bs, s =>
    State.filled bs
      (State.took 1 { s with win := { s.win with la := s.win.la.write s.win.lacnt.toNat b, lacnt := s.win.lacnt + 1 } })

/-- The number of bytes `Fill` takes (rule R200). -/
def State.fillRoom (s : State) : Nat :=
  min (Config.lookaheadSize - s.win.lacnt.toNat) (s.len.toNat - (s.count.toNat + s.win.lacnt.toNat))

/-- The number of bytes that refill the lookahead while `k` are consumed, `COUNT` not wrapping (rule R205). -/
def State.refills (k : Nat) (s : State) : Nat := min k (s.len.toNat - (s.count.toNat + s.win.lacnt.toNat))

/-- `k` bytes have been consumed, the source giving these bytes for the refills (rule R205). -/
def State.consumed : Nat → List Byte → State → State
  | 0, _, s => s
  | k + 1, [], s => State.consumed k [] (shiftIn s)
  | k + 1, b :: bs, s => State.consumed k bs (State.filled [b] (shiftIn s))

/-- A match has been copied out, every byte accepted (rule R310). -/
def State.copied (d : Nat) : Nat → State → State
  | 0, s => s
  | n + 1, s => State.copied d n (advance (histByte s d) (s.delivered [histByte s d])).countUp

/-! ## Whole commands that succeed -/

/-- The state after `EncInit` (rule R280), the sink taking the header and the source giving these bytes. -/
def State.encodeStarted (bytes : List Byte) (s : State) : State :=
  let s1 := State.filled bytes (({ s with mode := .encode }.fresh).delivered (headerOf s.len))
  { s1 with result := s.len, fsm := if bytes.isEmpty then .done else .searching }

/-- The state after `DecInit` (rule R300) on a header that declares `n` bytes. -/
def State.decodeStarted (n : Word) (s : State) : State :=
  { ({ s with mode := .decode }.fresh).took Config.headerBytes with
    len := n, result := n, fsm := if n = 0 then .done else .reading }

/-- The tables of a token have been bumped (rule R255). -/
def State.bumpedFor (tok : Token) (s : State) : State :=
  match tok with
  | .lit b => s.bumpSym .a b.toNat
  | .copy len dist => bumpMatch len dist s

/-- The tables of a token have been bumped whose codes lie within the first `n` bits of the token (rule R245, rule R247). -/
def State.bumpedWithin (tok : Token) (n : Nat) (s : State) : State :=
  match tok with
  | .lit b => if (s.tabA.code b.toNat).length ≤ n then s.bumpSym .a b.toNat else s
  | .copy len dist =>
    let codeA := s.tabA.code (lengthSymbol len.toNat)
    let codeB := s.tabB.code (distClass dist.toNat)
    if codeA.length + codeB.length ≤ n then bumpMatch len dist s
    else if codeA.length ≤ n then s.bumpSym .a (lengthSymbol len.toNat)
    else s

/-- The bits of a token over the tables of this state (rule R143). -/
def State.tokenBits (s : State) (tok : Token) : List Bool := encodeToken s.tabA s.tabB tok.toInstr

/-- The state after the token `tok` has been emitted (rule R290), the source giving these bytes for the refills. -/
def State.tokenSent (tok : Token) (bytes : List Byte) (s : State) : State :=
  State.consumed tok.size bytes ((s.wrote (s.tokenBits tok)).bumpedFor tok)

/-- The sink bytes an `EncStep` that emits `tok` fills, the padded last byte among them (rule R151). -/
def State.tokenBytes (s : State) (tok : Token) : Nat :=
  if s.win.lacnt.toNat + s.refills tok.size = tok.size then (s.bits.obits.toNat + (s.tokenBits tok).length + 7) / 8
  else s.bits.bytesFilled (s.tokenBits tok).length

/-- The bytes of a token have been emitted by the decoder (rule R310). -/
def State.emitted (tok : Token) (s : State) : State :=
  match tok with
  | .lit b => (advance b (s.delivered [b])).countUp
  | .copy len dist => State.copied dist.toNat len.toNat s

/-- A token the decoder accepts (rule R311): a literal, or a match within the declared length and the window. -/
def State.admits (s : State) (tok : Token) : Bool :=
  match tok with
  | .lit _ => true
  | .copy len dist =>
    decide (len.toNat ≤ s.len.toNat - s.count.toNat) && decide (1 ≤ dist.toNat ∧ dist.toNat ≤ s.win.wfill.toNat)

end Sys2Proof.Machine
end

