-- ==== Sys2Proof/Certificates/Slice0/Obligations.lean ====
section
/-! DEFINITION. The statements for the provers. A statement that gives the whole next state as an update of the state
before says with it what the instruction leaves alone: every field it does not name, the memories and the host's queue
among them. `bytes` are what the source is about to give, and every hypothesis is on the state and the operands. -/

open Sys2Proof Sys2Proof.Machine

/-! ## Encoding -/

/-- Words written out from the opcode map of rule R123 decode to the commands they stand for. -/
def Obligations.WordsOfTheOpcodeMapDecode : Prop :=
  decode 0x00000000 = .ok .nop ∧ decode 0x04000000 = .ok .reset ∧ decode 0x0C000000 = .ok .decode ∧
    decode 0x214ABCDE = .ok (.wrbits 20 0xABCDE) ∧ decode 0x25400000 = .ok (.rdbits 20) ∧
    decode 0x400000AA = .ok (.wadv 0xAA) ∧ decode 0x44001000 = .ok (.byteat 4096) ∧ decode 0x54000000 = .ok .findm ∧
    decode 0x6000013A = .ok (.encsym .a 314) ∧ decode 0x6A000005 = .ok (.bump .b 5) ∧
    decode 0x7200007E = .ok (.rdnode .b 126) ∧ decode 0x74000041 = .ok (.rdleaf .a 65)

/-- Decode and encode agree: a well-formed command has one word, which decodes to it, with every operand at every value
(rule R120 to rule R123). -/
def Obligations.EncodedCommandDecodesToItself : Prop :=
  ∀ i : Instr, i.wellFormed = true → i.isCommand = true → ∃ w, encode i = [w] ∧ decode w = .ok i

/-- A word that decodes is the word of what it decodes to: no bit of it is dropped, and what it decodes to is well-formed
(rule R122: every unused field and every bit above an operand is zero). -/
def Obligations.DecodedWordIsTheEncoding : Prop :=
  ∀ (w : Word) (i : Instr), decode w = .ok i → i.wellFormed = true ∧ i.isCommand = true ∧ encode i = [w]

/-- Rule R124: a reserved opcode, and a word with `OP` = 0x00 other than 0x00000000, raise `ILLEGAL_CMD`, with no other
effect. (While `FSM` is `FAILED` a word is ignored: `FailedIgnoresEveryOtherWord`.) -/
def Obligations.ReservedOpcodesRaiseIllegalCmd : Prop :=
  ∀ (w : Word) (s : State), s.fsm ≠ .failed →
    (let op := (opField w).toNat
     (0x0B ≤ op ∧ op ≤ 0x0F) ∨ (0x16 ≤ op ∧ op ≤ 0x17) ∨ 0x1E ≤ op ∨ (op = 0 ∧ w ≠ 0)) →
    issueWord w s = .next { s with err := .illegalCmd, fsm := .failed }

/-- Rule R122, over the 'uses' column of rule R123 written out as (opcode, `T` used, `CNT` used, bits of `IMM` used): a
non-zero unused field, a non-zero bit of `IMM` above the operand, and a bit count above 20 raise `ILLEGAL_CMD`, with no
other effect. -/
def Obligations.FormatChecksRaiseIllegalCmd : Prop :=
  ∀ (op : Nat) (usesT usesCnt : Bool) (immBits : Nat) (w : Word) (s : State),
    (op, usesT, usesCnt, immBits) ∈
      [(0x00, false, false, 0), (0x01, false, false, 0), (0x02, false, false, 0), (0x03, false, false, 0),
       (0x04, false, false, 0), (0x05, false, false, 0), (0x06, false, false, 0), (0x07, false, false, 0),
       (0x08, false, true, 20), (0x09, false, true, 0), (0x0A, false, false, 0), (0x10, false, false, 8),
       (0x11, false, false, 13), (0x12, false, false, 0), (0x13, false, false, 6), (0x14, false, false, 6),
       (0x15, false, false, 0), (0x18, true, false, 9), (0x19, true, false, 0), (0x1A, true, false, 9),
       (0x1B, true, false, 0), (0x1C, true, false, 10), (0x1D, true, false, 9)] →
    (opField w).toNat = op → s.fsm ≠ .failed →
    ((usesT = false ∧ tField w ≠ 0) ∨ (usesCnt = false ∧ cntField w ≠ 0) ∨ 2 ^ immBits ≤ (immField w).toNat ∨
      ((op = 0x08 ∨ op = 0x09) ∧ 20 < (cntField w).toNat)) →
    issueWord w s = .next { s with err := .illegalCmd, fsm := .failed }

/-- A code is decodable and prefix-free: over a table that meets the invariants of rule R55, the code of a symbol followed
by any bits decodes to that symbol and leaves those bits (rule R144, rule R247). -/
def Obligations.CodeDecodesToItsSymbol : Prop :=
  ∀ (s : State) (sym : Nat) (rest : List Bool), s.tablesOk →
    (sym < 314 → s.tabA.decodeBits (s.tabA.code sym ++ rest) = some (sym, rest)) ∧
    (sym < 64 → s.tabB.decodeBits (s.tabB.code sym ++ rest) = some (sym, rest))

/-- Decode and encode agree on the stream tokens: over tables that meet the invariants of rule R55, the bits of a
well-formed token followed by any bits decode to that token and leave those bits (rule R141 to rule R144). -/
def Obligations.EncodedTokenDecodesToItself : Prop :=
  ∀ (s : State) (tok : Token) (rest : List Bool), s.tablesOk → tok.toInstr.wellFormed = true →
    decodeToken s.tabA s.tabB (encodeToken s.tabA s.tabB tok.toInstr ++ rest) = some (tok.toInstr, rest)

/-! ## Steps, the register window and the FAILED filter -/

/-- A step runs the decoded command: where the host's next operation writes a word to `CMD` and the block is not busy and
does not wait, the step is `exec` of what the word decodes to, in the state with that operation done. `withFetchWord` sets
up such a step. -/
def Obligations.StepRunsTheDecodedCommand : Prop :=
  (∀ (s : State) (w : Word) (rest : List HostOp) (i : Instr),
    s.host.queue = .write .word 0x00 w :: rest → s.busy = false → s.waiting = false → decode w = .ok i →
      step s = exec i { s with host := { s.host with queue := rest } }) ∧
  (∀ (s : State) (w : Word) (i : Instr), decode w = .ok i →
    step (s.withFetchWord 32 w.toNat) = exec i { s with busy := false, waiting := false })

/-- A step runs the decoded token: while a `DECODE` is in progress, the step fetches the next token, executes it, and ends
as rule R310 and rule R321 say, and so does the command `DECSTEP`. Where the token's execution ends in `FAILED`, or the
fetch raises, the step is that error taken. A step of the `DECODE` clears `BUSY` where it ends in `DONE` or `FAILED`. That
a step is a fetch and then an execution is the model's split, log entry 13. -/
def Obligations.StepRunsTheDecodedToken : Prop :=
  ∀ s : State, s.fsm = .reading → s.mode = .decode → s.waiting = false →
    (let ends := fun u : State => exec .decstep s = .next u ∧
       (s.busy = true → s.host.queue = [] →
         step s = .next { u with busy := decide (u.fsm ≠ .done ∧ u.fsm ≠ .failed) })
     (∀ (tok : Token) (s1 t : State), fetchToken s = .ok tok s1 → exec tok.toInstr s1 = .next t → t.waiting = false →
       ends (if t.fsm = .failed then t else closeDecode tok t)) ∧
     (∀ (e : ErrCode) (s1 : State), fetchToken s = .raise e s1 → ends { s1 with err := e, fsm := .failed }))

/-- Host reads (rule R60, rule R61, rule R72, rule R88): a read returns the register's value, 0 for `CMD` and for offsets
0x1C to 0x3C, and changes nothing but the host's own record, whether or not the block is busy, and also while a transform
waits for a port. (A host whose own command waits makes no access.) -/
def Obligations.HostReadReturnsTheRegister : Prop :=
  ∀ (s : State) (off : BitVec 6) (rest : List HostOp) (v : Word),
    s.hostFree → s.host.queue = .read .word off :: rest →
    (off = 0x00 ∧ v = 0 ∨ off = 0x04 ∧ v = s.status ∨ off = 0x08 ∧ v = s.result ∨ off = 0x0C ∧ v = s.len ∨
      off = 0x10 ∧ v = s.count ∨ off = 0x14 ∧ v = s.inbytes ∨ off = 0x18 ∧ v = s.outbytes ∨
      0x1C ≤ off.toNat ∧ off.toNat % 4 = 0 ∧ v = 0) →
    step s = .next { s with host := { queue := rest, reads := s.host.reads ++ [v] } }

/-- Rule R63, with the values of rule R64 and rule R330: the fields of `STATUS`, the reserved bits 0, `DONE` and `FAIL`
copies of `FSM`; a host read of offset 0x04 returns it and a host write to it is ignored; and it is 0x00000000 after
reset. -/
def Obligations.StatusHasTheFieldsOfItsRule : Prop :=
  (∀ s : State,
    s.status.getLsbD 0 = s.busy ∧ s.status.getLsbD 1 = decide (s.fsm = .done) ∧
    s.status.getLsbD 2 = decide (s.fsm = .failed) ∧ s.status.getLsbD 3 = false ∧
    s.status.extractLsb' 4 4 =
      (match s.fsm with
        | .idle => 0 | .filling => 1 | .searching => 2 | .emitting => 3 | .header => 4 | .reading => 5
        | .reconstructing => 6 | .done => 7 | .failed => 8) ∧
    s.status.extractLsb' 8 4 =
      (match s.err with
        | .none => 0 | .sourceIo => 1 | .sinkIo => 2 | .corruptStream => 3 | .invariant => 4 | .illegalCmd => 5
        | .sequence => 6) ∧
    s.status.getLsbD 12 = decide (s.mode = .decode) ∧ s.status.extractLsb' 13 19 = 0) ∧
  (∀ (s : State) (v : Word) (rest : List HostOp), s.hostFree → s.host.queue = .write .word 0x04 v :: rest →
    step s = .next { s with host := { s.host with queue := rest } }) ∧
  (∀ (s : State) (rest : List HostOp), s.hostFree → s.host.queue = .read .word 0x04 :: rest →
    step s = .next { s with host := { queue := rest, reads := s.host.reads ++ [s.status] } }) ∧
  State.reset.status = 0

/-- Host writes (rule R62, rule R72, rule R385): a write to `LEN` stores its value while `BUSY` is 0 and is ignored while
`BUSY` is 1, and a write to any other offset but `CMD`'s is ignored. -/
def Obligations.HostWriteStoresOnlyLen : Prop :=
  ∀ (s : State) (off : BitVec 6) (v : Word) (rest : List HostOp),
    s.hostFree → s.host.queue = .write .word off v :: rest → off.toNat % 4 = 0 → off ≠ 0x00 →
    step s = .next { s with
      host := { s.host with queue := rest }
      len := if off = 0x0C ∧ s.busy = false then v else s.len }

/-- Rule R85: a byte or halfword access and a misaligned access are refused. -/
def Obligations.NarrowOrMisalignedAccessIsRefused : Prop :=
  ∀ (s : State) (width : AccessWidth) (off : BitVec 6) (v : Word) (rest : List HostOp),
    s.hostFree → (s.host.queue = .read width off :: rest ∨ s.host.queue = .write width off v :: rest) →
    (width ≠ .word → step s = .refused .narrowAccess) ∧
    (width = .word → off.toNat % 4 ≠ 0 → step s = .refused .misalignedAccess)

/-- The busy hold (rule R345, check 1, rule R385): while `BUSY` is 1, a write to `CMD` at the head of the host's queue
stays there, and the step is that of the transform in progress, as it is where the host makes no access. -/
def Obligations.BusyBlockHoldsCommandWrites : Prop :=
  ∀ (s t : State) (w : Word) (rest : List HostOp), s.busy = true → s.waiting = false →
    s.host.queue = .write .word 0x00 w :: rest → step s = .next t →
    t.host = s.host ∧ t.len = s.len ∧
    step { s with host := { s.host with queue := [] } } = .next { t with host := { s.host with queue := [] } }

/-- A port request that the host never answers (rule R92, rule R342, rule R356), for every command and token, held beside
the same state under a host that answers every request. Where the instruction makes such a request, the block waits at
the first: it shows what it held after the most recent step, and the ports have answered the requests before it, with one
more byte in the sink for each sink request among them, the same bytes that the other host gets. Where it makes
none, it does what it does under that other host. A waiting block for which nothing more can happen is stuck: with nothing
in the host's queue, or with a `CMD` write held at its head and no reset to come. The waiting state and the fault
`portNeverAnswered` are the model's form of 'stuck on the host's side', log entry 3. -/
def Obligations.UnansweredRequestNeverEnds : Prop :=
  (∀ (i : Instr) (s : State), ∃ t, exec i s.answered = .next t ∧
    (s.ports.meetsSilence t.ports →
      ∃ p m sent, exec i s = .next { s with ports := p, waiting := true } ∧ s.ports.StandsAfter p m sent ∧
        s.ports.sink ++ sent <+: t.ports.sink ∧ p.srcAsked ≤ t.ports.srcAsked ∧ p.sinkAsked ≤ t.ports.sinkAsked) ∧
    (¬s.ports.meetsSilence t.ports →
      exec i s = .next { t with
        ports := { t.ports with srcSilentAt := s.ports.srcSilentAt, sinkSilentAt := s.ports.sinkSilentAt } })) ∧
  (∀ s : State, s.waiting = true →
    (s.host.queue = [] ∨ ∃ w rest, s.host.queue = .write .word 0x00 w :: rest ∧ .powerOnReset ∉ rest) →
    step s = .fault .portNeverAnswered)

/-- Rule R343: while `FSM` is `FAILED`, a word other than a well-formed `NOP`, `RESET`, `ENCODE`, `DECODE`, `ENCINIT` or
`DECINIT` is ignored with no effect, and `NOP` leaves the state as it is too, so that `STATUS.FAIL` stays 1 and `ERR`
keeps the first error until one of the other five runs. -/
def Obligations.FailedIgnoresEveryOtherWord : Prop :=
  ∀ (w : Word) (s : State), s.fsm = .failed →
    (∀ i ∈ [Instr.reset, .encode, .decode, .encinit, .decinit], decode w ≠ .ok i) →
    issueWord w s = .next s ∧ s.failBit = true

/-! ## Reset and NOP -/

/-- Rule R76: what power-on reset and `RESET` give, from any state (for `RESET`, which waits while `BUSY` is 1, any that is
not busy). -/
def Obligations.ResetGivesTheResetValues : Prop :=
  ∀ (s t : State), (∃ rest, s.host.queue = .powerOnReset :: rest ∧ step s = .next t) ∨
      (s.busy = false ∧ exec .reset s = .next t) →
    t.bits = { obuf := 0, obits := 0, ibuf := 0, ibits := 0 } ∧ t.win.wcur = 0 ∧ t.win.wfill = 0 ∧ t.win.lacnt = 0 ∧
    t.tabA = treeInit 314 10 ∧ t.tabB = treeInit 64 8 ∧ t.fsm = .idle ∧ t.err = .none ∧ t.mode = .encode ∧
    t.busy = false ∧ t.result = 0 ∧ t.len = 0 ∧ t.count = 0 ∧ t.inbytes = 0 ∧ t.outbytes = 0 ∧ t.status = 0

/-- `NOP` and `RESET` complete in every state, `FAILED` among them (rule R371, rule R372), and so does power-on reset (rule
R370), which abandons a request in progress: it is asserted also while the block waits for a port and the host's next
`CMD` write is held. `NOP` changes nothing. `RESET` makes no port call, and `HIST` and `LA` keep what they hold. What
`HIST` and `LA` hold after power-on reset, and that the held write and the record of the host's side stay, are the model's
choices (log entries 2, 3 and 15). -/
def Obligations.NopAndResetComplete : Prop :=
  ∀ s : State, exec .nop s = .next s ∧
    exec .reset s = .next { State.reset with
      win := { State.reset.win with hist := s.win.hist, la := s.win.la }
      busy := s.busy, ports := s.ports, host := s.host, waiting := s.waiting } ∧
    (∀ rest, s.host.queue = .powerOnReset :: rest →
      step s = .next { State.reset with ports := s.ports, host := { s.host with queue := rest } }) ∧
    (∀ w rest, s.waiting = true → s.host.queue = .write .word 0x00 w :: .powerOnReset :: rest →
      step s = .next { State.reset with
        ports := s.ports, host := { s.host with queue := .write .word 0x00 w :: rest } })

/-! ## Bit Channel -/

/-- `WRBITS` (rule R170, rule R172): where the sink accepts the bytes that fill, the low `cnt` bits of the value are
appended most significant bit first, and nothing else changes. -/
def Obligations.WrbitsAppendsTheLowBits : Prop :=
  ∀ (s : State) (cnt : BitVec 5) (value : BitVec 20), s.fsm ≠ .failed → s.bits.ok →
    s.sinkReady (s.bits.bytesFilled cnt.toNat) →
    exec (.wrbits cnt value) s = .next (s.wrote (fieldBits value.toNat cnt.toNat))

/-- `WRBITS` where the sink refuses the byte after the first `j` (rule R172, rule R332): those `j` stay sent, the refused
byte is not counted, the bits after it are not accumulated, and the error is `SINK_IO`. -/
def Obligations.WrbitsStopsAtARefusedByte : Prop :=
  ∀ (s : State) (cnt : BitVec 5) (value : BitVec 20) (j : Nat), s.fsm ≠ .failed → s.bits.ok → s.sinkReady j →
    j < s.bits.bytesFilled cnt.toNat → s.ports.sinkAt j = some .ioErr →
    exec (.wrbits cnt value) s =
      .next
        (let sent := packBits j (s.bits.pending ++ fieldBits value.toNat cnt.toNat)
         let s1 := ({ s with bits := { s.bits with obuf := 0, obits := 0 } }).delivered sent
         { s1 with ports := s1.ports.sinkAfter 1, err := .sinkIo, fsm := .failed })

/-- Rule R173: after any sequence of `WriteBits` calls totalling `b` bits from a fresh output side, with no error,
`OUTBYTES` has grown by `b / 8`, `OBITS` is `b mod 8`, and `OBUF` holds the last `OBITS` bits; `Flush` then adds one byte
when `OBITS` > 0. -/
def Obligations.OutputAccounting : Prop :=
  ∀ (s s1 : State) (fields : List (Nat × Nat)), s.bits.obuf = 0 → s.bits.obits = 0 →
    (fields.foldl (fun r f => r.andThen fun _ x => writeBits f.1 f.2 x) (Res.ok () s)) = .ok () s1 →
    (let bits := fields.flatMap fun f => fieldBits f.1 f.2
     s1.outbytes = s.outbytes + BitVec.ofNat 32 (bits.length / 8) ∧ s1.bits.obits.toNat = bits.length % 8 ∧
     s1.bits.pending = bits.drop (8 * (bits.length / 8)) ∧
     ∀ s2, flushBits s1 = .ok () s2 → s2.outbytes = s1.outbytes + (if s1.bits.obits = 0 then 0 else 1))

/-- `FLUSH` (rule R171, rule R178): pending bits are padded with zeros and sent as one byte, and with none pending nothing
is sent and nothing changes. -/
def Obligations.FlushPadsThePendingBits : Prop :=
  ∀ s : State, s.fsm ≠ .failed → s.bits.ok →
    (s.bits.obits = 0 → exec .flush s = .next s) ∧
    (s.bits.obits ≠ 0 → s.sinkReady 1 →
      exec .flush s = .next (({ s with bits := { s.bits with obuf := 0, obits := 0 } }).delivered
        [s.bits.obuf <<< (8 - s.bits.obits.toNat)]))

/-- `RDBITS` (rule R175, rule R176): `RESULT` is the next `cnt` bits, the first read the most significant. A source byte is
asked for only where one is needed, and nothing else changes. -/
def Obligations.RdbitsReadsTheNextBits : Prop :=
  ∀ (s : State) (cnt : BitVec 5) (bytes : List Byte), s.fsm ≠ .failed → s.bits.ok → s.sourceReady bytes →
    bytes.length = s.bits.bytesNeeded cnt.toNat →
    exec (.rdbits cnt) s =
      .next { s.readOff cnt.toNat bytes with
        result := BitVec.ofNat 32 (bitsValue ((s.bits.unread ++ bytesBits bytes).take cnt.toNat)) }

/-- `RDBITS` where the source answers `Eof` or `IoErr` while a bit is needed (rule R174, rule R176): the bits before it are
read, `RESULT` is not written, and the error is `CORRUPT_STREAM` or `SOURCE_IO`. -/
def Obligations.RdbitsEndsWithTheSource : Prop :=
  ∀ (s : State) (cnt : BitVec 5) (bytes : List Byte) (e : ErrCode), s.fsm ≠ .failed → s.bits.ok → s.sourceReady bytes →
    bytes.length < s.bits.bytesNeeded cnt.toNat →
    (s.ports.srcAt bytes.length = some .eof ∧ e = .corruptStream ∨
      s.ports.srcAt bytes.length = some .ioErr ∧ e = .sourceIo) →
    exec (.rdbits cnt) s =
      .next
        (let s1 := s.readOff (s.bits.ibits.toNat + 8 * bytes.length) bytes
         { s1 with ports := s1.ports.srcAfter 1, err := e, fsm := .failed })

/-- The output side and the input side share no state (rule R180): whatever the ports answer, `WRBITS` and `FLUSH` leave
`IBUF`, `IBITS`, `INBYTES` and the source alone, and `RDBITS` leaves `OBUF`, `OBITS`, `OUTBYTES` and the sink alone. -/
def Obligations.OutputAndInputSidesAreApart : Prop :=
  ∀ (s t : State) (cnt : BitVec 5) (value : BitVec 20),
    ((exec (.wrbits cnt value) s = .next t ∨ exec .flush s = .next t) →
      t.bits.ibuf = s.bits.ibuf ∧ t.bits.ibits = s.bits.ibits ∧ t.inbytes = s.inbytes ∧
      t.ports.srcAnswers = s.ports.srcAnswers ∧ t.ports.srcAsked = s.ports.srcAsked) ∧
    (exec (.rdbits cnt) s = .next t →
      t.bits.obuf = s.bits.obuf ∧ t.bits.obits = s.bits.obits ∧ t.outbytes = s.outbytes ∧ t.ports.sink = s.ports.sink ∧
      t.ports.sinkAnswers = s.ports.sinkAnswers ∧ t.ports.sinkAsked = s.ports.sinkAsked)

/-! ## Sliding Window and lookahead -/

/-- `WADV` (rule R190, rule R191): the byte goes to `HIST[WCUR]` and to no other entry, the cursor moves on modulo `W`,
`WFILL` counts up to `W`, and `RESULT` is `0x100 |` the evicted byte where the window was full, else 0. `COUNT` is
unchanged. -/
def Obligations.WadvAppendsOneByte : Prop :=
  ∀ (s : State) (b : Byte), s.fsm ≠ .failed → s.win.ok →
    ∃ hist, exec (.wadv b) s =
        .next { s with
          win := { s.win with
            hist := hist, wcur := s.win.wcur + 1, wfill := BitVec.ofNat 13 (min (s.win.wfill.toNat + 1) 4096) }
          result :=
            if s.win.wfill.toNat = 4096 then 0x100 ||| (s.win.hist.read s.win.wcur.toNat).setWidth 32 else 0 } ∧
      hist.read s.win.wcur.toNat = b ∧ ∀ a, a ≠ s.win.wcur.toNat → hist.read a = s.win.hist.read a

/-- `BYTEAT`, `LAPEEK`, `RDNODE` and `RDLEAF` with an operand in range (rule R195, rule R203, rule R270, rule R271): each
writes `RESULT` with the value its rule gives, and nothing else. -/
def Obligations.InspectionWritesOnlyResult : Prop :=
  ∀ s : State, s.fsm ≠ .failed →
    (∀ d : BitVec 13, 1 ≤ d.toNat → d.toNat ≤ s.win.wfill.toNat →
      exec (.byteat d) s =
        .next { s with result := (s.win.hist.read ((s.win.wcur.toNat + 8192 - d.toNat) % 4096)).setWidth 32 }) ∧
    (∀ k : BitVec 6, k.toNat < s.win.lacnt.toNat →
      exec (.lapeek k) s = .next { s with result := (s.win.la.read k.toNat).setWidth 32 }) ∧
    (∀ k : BitVec 10, k.toNat < 627 →
      exec (.rdnode .a k) s =
        .next { s with
          result := BitVec.ofNat 32 (s.tabA.sonAt k.toNat) <<< 16 ||| BitVec.ofNat 32 (s.tabA.freqAt k.toNat) }) ∧
    (∀ k : BitVec 10, k.toNat < 127 →
      exec (.rdnode .b k) s =
        .next { s with
          result := BitVec.ofNat 32 (s.tabB.sonAt k.toNat) <<< 16 ||| BitVec.ofNat 32 (s.tabB.freqAt k.toNat) }) ∧
    (∀ x : BitVec 9, x.toNat < 314 →
      exec (.rdleaf .a x) s = .next { s with result := BitVec.ofNat 32 (s.tabA.prntAt (x.toNat + 627)) }) ∧
    (∀ x : BitVec 9, x.toNat < 64 →
      exec (.rdleaf .b x) s = .next { s with result := BitVec.ofNat 32 (s.tabB.prntAt (x.toNat + 127)) })

/-- Rule R125: an operand outside its legal range raises `INVARIANT`: a distance 0 or above `WFILL`, a lookahead index at
or above `LACNT`, a consume count 0 or above `LACNT`, a symbol at or above `n`, a node at or above `T`. Nothing else
changes. -/
def Obligations.OperandOutOfRangeRaisesInvariant : Prop :=
  ∀ s : State, s.fsm ≠ .failed →
    (let bad : Host.Outcome State Fault Refusal := .next { s with err := .invariant, fsm := .failed }
     (∀ d : BitVec 13, d = 0 ∨ s.win.wfill.toNat < d.toNat → exec (.byteat d) s = bad) ∧
     (∀ k : BitVec 6, s.win.lacnt.toNat ≤ k.toNat → exec (.lapeek k) s = bad) ∧
     (∀ k : BitVec 6, k = 0 ∨ s.win.lacnt.toNat < k.toNat → exec (.lacons k) s = bad) ∧
     (∀ (t : TableSel) (x : BitVec 9), (t = .a → 314 ≤ x.toNat) → (t = .b → 64 ≤ x.toNat) →
       exec (.encsym t x) s = bad ∧ exec (.bump t x) s = bad ∧ exec (.rdleaf t x) s = bad) ∧
     (∀ (t : TableSel) (k : BitVec 10), (t = .a → 627 ≤ k.toNat) → (t = .b → 127 ≤ k.toNat) →
       exec (.rdnode t k) s = bad))

/-- Rule R105: a `ByteAt` or `HistByte` made after an `Advance(b)` sees `b` at distance 1 and every earlier byte one
distance further away, without a delay. -/
def Obligations.WindowReadsWhatWasAdvanced : Prop :=
  ∀ (s : State) (b : Byte), s.win.ok →
    histByte (advance b s) 1 = b ∧ byteAt 1 (advance b s) = .ok b (advance b s) ∧
    (∀ d, 1 ≤ d → d < 4096 → histByte (advance b s) (d + 1) = histByte s d) ∧
    (∀ d, 1 ≤ d → d < 4096 → d ≤ s.win.wfill.toNat →
      byteAt (d + 1) (advance b s) = .ok (histByte s d) (advance b s))

/-- `LAFILL` (rule R200, rule R201): with the source giving the bytes there is room and need for, they join the end of the
lookahead in order, no other byte of it changes, and `RESULT` is the new `LACNT`. (Where `COUNT + LACNT` reaches `2^32`,
that nothing is needed is the model's reading of the sum, log entry 6.) -/
def Obligations.LafillTakesTheDeclaredBytes : Prop :=
  ∀ (s : State) (bytes : List Byte), s.fsm ≠ .failed → s.win.ok → s.sourceReady bytes → bytes.length = s.fillRoom →
    ∃ la, exec .lafill s =
        .next { s.took bytes.length with
          win := { s.win with la := la, lacnt := BitVec.ofNat 6 (s.win.lacnt.toNat + bytes.length) }
          result := BitVec.ofNat 32 (s.win.lacnt.toNat + bytes.length) } ∧
      (∀ i, i < bytes.length → la.read (s.win.lacnt.toNat + i) = bytes.getD i 0) ∧
      (∀ a, a < s.win.lacnt.toNat ∨ s.win.lacnt.toNat + bytes.length ≤ a → la.read a = s.win.la.read a)

/-- `LAFILL` on a short or failing source (rule R200, rule R283, rule R331): the bytes the source gave stay taken, and the
error is `SOURCE_IO`, for `Eof` and for `IoErr`. (The sum `COUNT + LACNT` is read as in `LafillTakesTheDeclaredBytes`,
log entry 6.) -/
def Obligations.LafillFailsOnAShortSource : Prop :=
  ∀ (s : State) (bytes : List Byte), s.fsm ≠ .failed → s.sourceReady bytes → bytes.length < s.fillRoom →
    (s.ports.srcAt bytes.length = some .eof ∨ s.ports.srcAt bytes.length = some .ioErr) →
    exec .lafill s =
      .next
        (let s1 := State.filled bytes s
         { s1 with ports := s1.ports.srcAfter 1, err := .sourceIo, fsm := .failed })

/-- `LACONS` (rule R205, rule R206): with a count in range and the source giving the bytes of the refills, the first `k`
lookahead bytes stand in the window at distances `k` down to 1, every earlier window byte stands `k` further away, the
lookahead goes on with the bytes after them and the refills, `COUNT` rises by `k`, and `RESULT` is the new `LACNT`. Where
the source ends or fails at a refill, the byte before that refill and those before it stay consumed, `RESULT` is not
written, and the error is `SOURCE_IO`. (The bytes consumed and refilled must not take `COUNT + LACNT` to `2^32`: there the
spec's sum is the model's reading, log entry 6.) -/
def Obligations.LaconsMovesBytesIntoTheWindow : Prop :=
  ∀ (s : State) (k : BitVec 6) (bytes : List Byte), s.fsm ≠ .failed → s.win.ok → 1 ≤ k.toNat →
    k.toNat ≤ s.win.lacnt.toNat → s.count.toNat + s.win.lacnt.toNat < 2 ^ 32 →
    (let stream := (List.range s.win.lacnt.toNat).map s.win.la.read ++ bytes
     let left := fun n => s.win.lacnt.toNat - n + bytes.length
     let moved := fun (n : Nat) (hist la : Memory) => ({ s.took bytes.length with
       win := { s.win with
         hist := hist, la := la, lacnt := BitVec.ofNat 6 (left n), wcur := s.win.wcur + BitVec.ofNat 12 n,
         wfill := BitVec.ofNat 13 (min (s.win.wfill.toNat + n) 4096) }
       count := s.count + BitVec.ofNat 32 n } : State)
     let right := fun (n : Nat) (hist la : Memory) =>
       (∀ i, i < n → hist.read ((s.win.wcur.toNat + i) % 4096) = stream.getD i 0) ∧
       (∀ a, (∀ i, i < n → a ≠ (s.win.wcur.toNat + i) % 4096) → hist.read a = s.win.hist.read a) ∧
       (∀ i, i < left n → la.read i = stream.getD (n + i) 0)
     (s.sourceReady bytes → bytes.length = s.refills k.toNat →
       ∃ hist la, exec (.lacons k) s =
           .next { moved k.toNat hist la with result := BitVec.ofNat 32 (left k.toNat) } ∧
         right k.toNat hist la) ∧
     (s.sourceEndsAfter bytes → bytes.length < s.refills k.toNat →
       ∃ hist la, exec (.lacons k) s = .next ((moved (bytes.length + 1) hist la).sourceFailed .sourceIo) ∧
         right (bytes.length + 1) hist la))

/-! ## Match Finder -/

/-- Rule R221: `MatchLen(d)` is the number of lookahead bytes, from the front, that equal the bytes `d` positions before
them, capped at `min(MAXLEN, LACNT)`; where `l >= d` that byte is itself a lookahead byte. -/
def Obligations.MatchLenCountsEqualBytes : Prop :=
  ∀ (s : State) (d : Nat), 1 ≤ d → d ≤ s.win.wfill.toNat →
    (let src := fun l => if l < d then s.win.hist.read ((s.win.wcur.toNat + 8192 + l - d) % 4096)
       else s.win.la.read (l - d)
     matchLen s d ≤ min 60 s.win.lacnt.toNat ∧
     (∀ l, l < matchLen s d → src l = s.win.la.read l) ∧
     (matchLen s d < min 60 s.win.lacnt.toNat → src (matchLen s d) ≠ s.win.la.read (matchLen s d)))

/-- `FINDM` (rule R220, rule R222, rule R224): among the distances `1..WFILL` the longest `MatchLen` wins, and among equal
lengths the smallest distance. `RESULT` describes it where its length is at least 3, else it is 0, and nothing else
changes. -/
def Obligations.FindmPrefersLongestThenNearest : Prop :=
  ∀ s : State, s.fsm ≠ .failed → s.win.ok →
    (∀ d, 1 ≤ d → d ≤ s.win.wfill.toNat → 3 ≤ matchLen s d →
      (∀ d', 1 ≤ d' → d' ≤ s.win.wfill.toNat →
        matchLen s d' ≤ matchLen s d ∧ (matchLen s d' = matchLen s d → d ≤ d')) →
      exec .findm s =
        .next { s with result := 0xC0000000 ||| BitVec.ofNat 32 (matchLen s d) <<< 24 ||| BitVec.ofNat 32 d }) ∧
    ((∀ d, 1 ≤ d → d ≤ s.win.wfill.toNat → matchLen s d < 3) → exec .findm s = .next { s with result := 0 })

/-! ## Adaptive Code Tables -/

/-- Rule R241: the tables `TreeInit` builds, entry by entry: the leaves, the internal nodes pairing the nodes in index
order, the root's frequency `n`, the sentinel 0xFFFF and `prnt[R]` = 0; and `Fresh` builds both. -/
def Obligations.TreeInitBuildsTheInitialTree : Prop :=
  (let a := treeInit 314 10
   (∀ i, i < 314 → a.freqAt i = 1 ∧ a.sonAt i = i + 627 ∧ a.prntAt (i + 627) = i) ∧
   (∀ q, q < 313 → a.freqAt (314 + q) = a.freqAt (2 * q) + a.freqAt (2 * q + 1) ∧ a.sonAt (314 + q) = 2 * q ∧
     a.prntAt (2 * q) = 314 + q ∧ a.prntAt (2 * q + 1) = 314 + q) ∧
   a.freqAt 626 = 314 ∧ a.freqAt 627 = 0xFFFF ∧ a.prntAt 626 = 0) ∧
  (let b := treeInit 64 8
   (∀ i, i < 64 → b.freqAt i = 1 ∧ b.sonAt i = i + 127 ∧ b.prntAt (i + 127) = i) ∧
   (∀ q, q < 63 → b.freqAt (64 + q) = b.freqAt (2 * q) + b.freqAt (2 * q + 1) ∧ b.sonAt (64 + q) = 2 * q ∧
     b.prntAt (2 * q) = 64 + q ∧ b.prntAt (2 * q + 1) = 64 + q) ∧
   b.freqAt 126 = 64 ∧ b.freqAt 127 = 0xFFFF ∧ b.prntAt 126 = 0) ∧
  (∀ s : State, s.fresh.tabA = treeInit 314 10 ∧ s.fresh.tabB = treeInit 64 8)

/-- The initial codes (rule R145): in table A, 9 bits `0x18C + s` for the symbols 0..115 and 8 bits `s - 116` for 116..313,
and in table B the 6 bits of the symbol. -/
def Obligations.InitialCodesAreThoseOfTheRule : Prop :=
  (∀ s, s < 116 → (treeInit 314 10).code s = fieldBits (0x18C + s) 9) ∧
  (∀ s, 116 ≤ s → s < 314 → (treeInit 314 10).code s = fieldBits (s - 116) 8) ∧
  (∀ s, s < 64 → (treeInit 64 8).code s = fieldBits s 6)

/-- `BUMP` with a symbol in range and `REBUILD` complete and change one table only (rule R252, rule R262). -/
def Obligations.BumpAndRebuildChangeOneTable : Prop :=
  ∀ s : State, s.fsm ≠ .failed →
    (∀ x : BitVec 9, x.toNat < 314 → exec (.bump .a x) s = .next { s with tabA := s.tabA.bump x.toNat }) ∧
    (∀ x : BitVec 9, x.toNat < 64 → exec (.bump .b x) s = .next { s with tabB := s.tabB.bump x.toNat }) ∧
    exec (.rebuild .a) s = .next { s with tabA := s.tabA.rebuild } ∧
    exec (.rebuild .b) s = .next { s with tabB := s.tabB.rebuild }

/-- `Bump` keeps every invariant of rule R55 (rule R251), for each table and each of its symbols. -/
def Obligations.BumpKeepsTheTreeInvariants : Prop :=
  ∀ (s : State) (sym : Nat), s.tablesOk →
    (sym < 314 → (s.tabA.bump sym).wf = true) ∧ (sym < 64 → (s.tabB.bump sym).wf = true)

/-- `Rebuild` (rule R260, rule R261(a), (b), (d), (e)): the result meets every invariant of rule R55, each symbol's
frequency `f` becomes `(f + 1) / 2`, the root's is the sum of the leaves', the leaves keep their order, and an internal
node is put after the nodes of its frequency that stood there before it: after every leaf of that frequency, and after the
internal nodes paired before it. (With the ordering of rule R55 this leaves one tree.) -/
def Obligations.RebuildHalvesEveryLeaf : Prop :=
  ∀ s : State, s.tablesOk → s.tabA.RebuiltAs s.tabA.rebuild ∧ s.tabB.RebuiltAs s.tabB.rebuild

/-- `Bump` below the threshold (rule R250, rule R251, rule R253): the root's frequency and that of the symbol's leaf rise by
exactly 1, and no other symbol's changes; and one level of it, at a node `c` of any table of these sizes with the sentinel
in place, increments `c` and, where the order is broken, exchanges it with the highest node of lower frequency, their
frequencies, their `son` entries and the parent links of their children, and changes no other entry. -/
def Obligations.BumpRaisesOneSymbolByOne : Prop :=
  (∀ (s : State) (sym : Nat), s.tablesOk →
    (sym < 314 → s.tabA.freqAt 626 < 0x8000 →
      (s.tabA.bump sym).freqAt 626 = s.tabA.freqAt 626 + 1 ∧
      ∀ x, x < 314 → (s.tabA.bump sym).freqAt ((s.tabA.bump sym).leafOf x) =
        s.tabA.freqAt (s.tabA.leafOf x) + if x = sym then 1 else 0) ∧
    (sym < 64 → s.tabB.freqAt 126 < 0x8000 →
      (s.tabB.bump sym).freqAt 126 = s.tabB.freqAt 126 + 1 ∧
      ∀ x, x < 64 → (s.tabB.bump sym).freqAt ((s.tabB.bump sym).leafOf x) =
        s.tabB.freqAt (s.tabB.leafOf x) + if x = sym then 1 else 0)) ∧
  (∀ (s : State) (c : Nat), s.tablesSized →
    (c < 627 → s.tabA.freqAt c < 0xFFFF → s.tabA.freqAt 627 = 0xFFFF → (∀ i, i < 627 → s.tabA.sonAt i < 941) →
      s.tabA.LevelDone (s.tabA.bumpLevel c).1 c (s.tabA.bumpLevel c).2) ∧
    (c < 127 → s.tabB.freqAt c < 0xFFFF → s.tabB.freqAt 127 = 0xFFFF → (∀ i, i < 127 → s.tabB.sonAt i < 191) →
      s.tabB.LevelDone (s.tabB.bumpLevel c).1 c (s.tabB.bumpLevel c).2))

/-- The rebuild threshold (rule R254): at a root frequency of `MAX_FREQ` `Bump` rebuilds first and then increments, so that
the root's frequency is the rebuilt one plus 1 and never exceeds `MAX_FREQ`. -/
def Obligations.BumpRebuildsAtTheThreshold : Prop :=
  ∀ (s : State) (sym : Nat), s.tablesOk →
    (sym < 314 → s.tabA.freqAt 626 = 0x8000 →
      s.tabA.bump sym = s.tabA.rebuild.bump sym ∧ s.tabA.rebuild.freqAt 626 < 0x8000 ∧
      (s.tabA.bump sym).freqAt 626 = s.tabA.rebuild.freqAt 626 + 1) ∧
    (sym < 64 → s.tabB.freqAt 126 = 0x8000 →
      s.tabB.bump sym = s.tabB.rebuild.bump sym ∧ s.tabB.rebuild.freqAt 126 < 0x8000 ∧
      (s.tabB.bump sym).freqAt 126 = s.tabB.rebuild.freqAt 126 + 1)

/-- `ENCSYM` with a symbol in range (rule R245, rule R246): where the sink accepts the bytes that fill, the symbol's current
code is sent, root edge first, then the table is bumped, and nothing else changes. Where the sink refuses one of them, the
bytes before it stay sent, the table is not bumped, and the error is `SINK_IO`. -/
def Obligations.EncsymSendsTheCurrentCode : Prop :=
  ∀ (s : State) (x : BitVec 9), s.fsm ≠ .failed → s.bits.ok →
    (x.toNat < 314 →
      (s.sinkReady (s.bits.bytesFilled (s.tabA.code x.toNat).length) →
        exec (.encsym .a x) s = .next { s.wrote (s.tabA.code x.toNat) with tabA := s.tabA.bump x.toNat }) ∧
      (∀ j, j < s.bits.bytesFilled (s.tabA.code x.toNat).length → s.sinkRefusesAfter j →
        exec (.encsym .a x) s = .next (s.wroteUpTo j (s.tabA.code x.toNat)))) ∧
    (x.toNat < 64 →
      (s.sinkReady (s.bits.bytesFilled (s.tabB.code x.toNat).length) →
        exec (.encsym .b x) s = .next { s.wrote (s.tabB.code x.toNat) with tabB := s.tabB.bump x.toNat }) ∧
      (∀ j, j < s.bits.bytesFilled (s.tabB.code x.toNat).length → s.sinkRefusesAfter j →
        exec (.encsym .b x) s = .next (s.wroteUpTo j (s.tabB.code x.toNat))))

/-- `DECSYM` (rule R247, rule R248): where the unread bits and the bytes the source gives begin with a symbol's current
code, exactly that code is read, `RESULT` is the symbol, its table is bumped, and nothing else changes. Where they end
inside a code and the source then ends or fails, they are read, `RESULT` and the table are unchanged, and the error is
`CORRUPT_STREAM` or `SOURCE_IO`. -/
def Obligations.DecsymReadsOneSymbol : Prop :=
  ∀ (s : State) (x : Nat) (bytes : List Byte), s.fsm ≠ .failed → s.bits.ok → s.tablesOk → s.sourceReady bytes →
    (let input := s.bits.unread ++ bytesBits bytes
     (x < 314 → bytes.length = s.bits.bytesNeeded (s.tabA.code x).length → s.tabA.code x <+: input →
       exec (.decsym .a) s =
         .next { s.readOff (s.tabA.code x).length bytes with tabA := s.tabA.bump x, result := BitVec.ofNat 32 x }) ∧
     (x < 64 → bytes.length = s.bits.bytesNeeded (s.tabB.code x).length → s.tabB.code x <+: input →
       exec (.decsym .b) s =
         .next { s.readOff (s.tabB.code x).length bytes with tabB := s.tabB.bump x, result := BitVec.ofNat 32 x }) ∧
     (∀ e, s.ports.srcAt bytes.length = some .eof ∧ e = .corruptStream ∨
         s.ports.srcAt bytes.length = some .ioErr ∧ e = .sourceIo →
       (x < 314 → input <+: s.tabA.code x → input.length < (s.tabA.code x).length →
         exec (.decsym .a) s = .next ((s.readOff input.length bytes).sourceFailed e)) ∧
       (x < 64 → input <+: s.tabB.code x → input.length < (s.tabB.code x).length →
         exec (.decsym .b) s = .next ((s.readOff input.length bytes).sourceFailed e))))

/-! ## Transform Driver -/

/-- `ENCINIT` and step 1 of `ENCODE` (rule R280, rule R320) in every driver state: the header is sent little-endian, the
lookahead is primed with the first `min(L, LEN)` bytes, `RESULT` is `LEN`, and `FSM` is `DONE` for an empty input, else
`SEARCHING`. `ENCODE` leaves `BUSY` at 1 exactly where tokens are still to come. Where the sink refuses a header byte, the
source is not asked and the error is `SINK_IO`; where the source ends or fails while the lookahead is primed, the header
and the bytes taken stay and the error is `SOURCE_IO` (rule R283, rule R341); `RESULT` is then unchanged, and `BUSY` is 0
after `ENCODE`. -/
def Obligations.EncodeStartsWithTheHeader : Prop :=
  ∀ (s : State) (bytes : List Byte),
    (let begun := { s with mode := .encode }.fresh
     let header := [s.len.extractLsb' 0 8, s.len.extractLsb' 8 8, s.len.extractLsb' 16 8, s.len.extractLsb' 24 8]
     let fails := fun t : State => exec .encinit s = .next t ∧ exec .encode s = .next { t with busy := false }
     (s.sinkReady 4 → s.sourceReady bytes → bytes.length = min 60 s.len.toNat →
       exec .encinit s = .next (s.encodeStarted bytes) ∧
       exec .encode s = .next { s.encodeStarted bytes with busy := decide (s.len ≠ 0) } ∧
       (s.encodeStarted bytes).ports.sink = s.ports.sink ++ header) ∧
     (∀ j, j < 4 → s.sinkRefusesAfter j → fails (begun.delivered (header.take j)).sinkFailed) ∧
     (s.sinkReady 4 → s.sourceEndsAfter bytes → bytes.length < min 60 s.len.toNat →
       fails ((State.filled bytes (begun.delivered header)).sourceFailed .sourceIo)))

/-- `DECINIT` and step 1 of `DECODE` (rule R300, rule R321) in every driver state: four source bytes give `LEN`,
little-endian, `RESULT` is `LEN`, and `FSM` is `DONE` for an empty file, else `READING`. `DECODE` leaves `BUSY` at 1
exactly where tokens are still to come. -/
def Obligations.DecodeStartsWithTheHeader : Prop :=
  ∀ (s : State) (n : Word),
    s.sourceReady [n.extractLsb' 0 8, n.extractLsb' 8 8, n.extractLsb' 16 8, n.extractLsb' 24 8] →
    exec .decinit s = .next (s.decodeStarted n) ∧
    exec .decode s = .next { s.decodeStarted n with busy := decide (n ≠ 0) }

/-- A truncated or failing header (rule R300, rule R301, rule R321): `LEN` and `RESULT` are unchanged, `INBYTES` counts the
bytes read, and the error is `CORRUPT_STREAM` for `Eof` and `SOURCE_IO` for `IoErr`, with `BUSY` 0 after `DECODE`. -/
def Obligations.TruncatedHeaderLeavesLen : Prop :=
  ∀ (s : State) (bytes : List Byte) (e : ErrCode), s.sourceReady bytes → bytes.length < 4 →
    (s.ports.srcAt bytes.length = some .eof ∧ e = .corruptStream ∨
      s.ports.srcAt bytes.length = some .ioErr ∧ e = .sourceIo) →
    (let s1 := ({ s with mode := .decode }.fresh).took bytes.length
     let t : State := { s1 with ports := s1.ports.srcAfter 1, err := e, fsm := .failed }
     exec .decinit s = .next t ∧ exec .decode s = .next { t with busy := false } ∧
     t.len = s.len ∧ t.result = s.result ∧ t.inbytes = BitVec.ofNat 32 bytes.length)

/-- `ENCSTEP` (rule R290, rule R292): in `SEARCHING`, with a byte in the lookahead, where the sink accepts the bytes that
fill and the source gives the refills, the longest match of at least 3 bytes, the nearest among equals, is emitted, or,
where there is none, the literal `LA[0]`: its codes and extra bits are sent, its tables bumped, its bytes consumed,
`RESULT` is its descriptor, and at the end of the input the last byte is padded and `FSM` becomes `DONE`. With an empty
lookahead the literal `LA[0]` is sent and its table bumped, nothing is consumed, and the step is the end of the encode:
that `Consume` then raises no `INVARIANT` and consumes nothing is the model's reading, log entry 10. -/
def Obligations.EncstepEmitsTheChosenToken : Prop :=
  ∀ s : State, s.fsm = .searching → s.mode = .encode → s.bits.ok → s.win.ok →
    (∀ (tok : Token) (desc : Word) (bytes : List Byte), s.win.lacnt ≠ 0 → s.count.toNat + s.win.lacnt.toNat < 2 ^ 32 →
      ((∀ d, 1 ≤ d → d ≤ s.win.wfill.toNat → matchLen s d < 3) ∧
          tok = .lit (s.win.la.read 0) ∧ desc = 0x40000000 ||| (s.win.la.read 0).setWidth 32 ∨
        ∃ d, 1 ≤ d ∧ d ≤ s.win.wfill.toNat ∧ 3 ≤ matchLen s d ∧
          (∀ d', 1 ≤ d' → d' ≤ s.win.wfill.toNat →
            matchLen s d' ≤ matchLen s d ∧ (matchLen s d' = matchLen s d → d ≤ d')) ∧
          tok = .copy (BitVec.ofNat 6 (matchLen s d)) (BitVec.ofNat 13 d) ∧
          desc = 0xC0000000 ||| BitVec.ofNat 32 (matchLen s d) <<< 24 ||| BitVec.ofNat 32 d) →
      s.sinkReady (s.tokenBytes tok) → s.sourceReady bytes → bytes.length = s.refills tok.size →
      exec .encstep s =
        .next
          (let s1 := s.tokenSent tok bytes
           if s1.win.lacnt = 0 then { s1.flushed with result := desc, fsm := .done }
           else { s1 with result := desc, fsm := .searching })) ∧
    (∀ b, s.win.lacnt = 0 → b = s.win.la.read 0 →
      s.sinkReady ((s.bits.obits.toNat + (s.tokenBits (.lit b)).length + 7) / 8) →
      exec .encstep s =
        .next { ((s.wrote (s.tokenBits (.lit b))).bumpedFor (.lit b)).flushed with
          result := 0x40000000 ||| b.setWidth 32, fsm := .done })

/-- A failing `ENCSTEP` keeps what it has done before the error (rule R290, rule R291, rule R341). A refused byte of the
token's bits: the bytes before it stay sent, nothing is consumed, and a table is bumped where its code was written whole
before the bit that failed. A source that ends or fails at a refill: the token is sent, its tables are bumped, and the
byte before that refill and those before it stay consumed. `RESULT` is unchanged in both cases. A refused last byte:
everything else is done, the write of `RESULT` among it, which the pseudocode makes before the flush. That this write
stays is the model's choice, log entry 8 (DEDUCED): rule R17 and rule R341 keep it, and rule R291 and rule R339 say
otherwise. (That an empty lookahead leads to a last byte is log entry 10.) -/
def Obligations.FailingEncstepKeepsWhatItDid : Prop :=
  ∀ (s : State) (bytes : List Byte), s.fsm = .searching → s.mode = .encode → s.bits.ok → s.win.ok →
    (let tok := chooseToken s
     let bits := s.tokenBits tok
     (∀ j, j < s.bits.bytesFilled bits.length → s.sinkRefusesAfter j →
       exec .encstep s = .next ((s.wroteUpTo j bits).bumpedWithin tok (8 * j + 7 - s.bits.obits.toNat))) ∧
     (s.win.lacnt ≠ 0 → s.count.toNat + s.win.lacnt.toNat < 2 ^ 32 → s.sinkReady (s.bits.bytesFilled bits.length) →
       s.sourceEndsAfter bytes → bytes.length < s.refills tok.size →
       exec .encstep s =
         .next ((State.consumed (bytes.length + 1) bytes ((s.wrote bits).bumpedFor tok)).sourceFailed .sourceIo)) ∧
     ((s.wrote bits).bits.obits ≠ 0 → s.sinkRefusesAfter (s.bits.bytesFilled bits.length) →
       (let fails := fun s1 : State =>
          exec .encstep s =
            .next ({ s1 with bits := { s1.bits with obuf := 0, obits := 0 }, result := tok.desc }).sinkFailed
        (s.win.lacnt ≠ 0 → s.count.toNat + s.win.lacnt.toNat < 2 ^ 32 → s.sourceReady bytes →
          bytes.length = s.refills tok.size → s.win.lacnt.toNat + bytes.length = tok.size → fails (s.tokenSent tok bytes)) ∧
        (s.win.lacnt = 0 → fails ((s.wrote bits).bumpedFor tok)))))

/-- `DECSTEP` (rule R310): in `READING`, where the unread bits and the bytes the source gives begin with the bits of a
token, the decoder admits it and the sink accepts what it emits, exactly those bits are read, the token's tables are
bumped, its bytes are emitted, `RESULT` is its descriptor, and `FSM` becomes `DONE` exactly where `COUNT` reaches `LEN`.
Where the input ends inside the token and the source then ends or fails, the bits are read, a table is bumped where its
code was read whole, nothing is emitted, `RESULT` is unchanged, and the error is `CORRUPT_STREAM` or `SOURCE_IO` (rule
R312, rule R341). -/
def Obligations.DecstepExecutesTheNextToken : Prop :=
  ∀ (s : State) (tok : Token) (bytes : List Byte), s.fsm = .reading → s.mode = .decode → s.bits.ok → s.win.ok →
    s.tablesOk → tok.toInstr.wellFormed = true → s.sourceReady bytes →
    (let input := s.bits.unread ++ bytesBits bytes
     (s.admits tok = true → bytes.length = s.bits.bytesNeeded (s.tokenBits tok).length → s.tokenBits tok <+: input →
       s.sinkReady tok.size →
       exec .decstep s =
         .next
           (let s1 := ((s.readOff (s.tokenBits tok).length bytes).bumpedFor tok).emitted tok
            { s1 with
              result :=
                (match tok with
                  | .lit b => 0x40000000 ||| b.setWidth 32
                  | .copy len dist => 0xC0000000 ||| len.setWidth 32 <<< 24 ||| dist.setWidth 32)
              fsm := if s1.count = s1.len then .done else .reading })) ∧
     (∀ e, s.ports.srcAt bytes.length = some .eof ∧ e = .corruptStream ∨
         s.ports.srcAt bytes.length = some .ioErr ∧ e = .sourceIo →
       input <+: s.tokenBits tok → input.length < (s.tokenBits tok).length →
       exec .decstep s = .next (((s.readOff input.length bytes).bumpedWithin tok input.length).sourceFailed e)))

/-- The token `LIT b` (rule R315): where the sink accepts the byte, it is sent and advanced into the window, `COUNT` rises
by 1 and table A is bumped for it; nothing else changes, and the window changes at its cursor only. Where the sink refuses
it, only the bump has happened, and the error is `SINK_IO`. -/
def Obligations.LitEmitsItsByte : Prop :=
  ∀ (s : State) (b : Byte), s.win.ok →
    (s.sinkReady 1 →
      ∃ hist, exec (.lit b) s =
          .next { s.delivered [b] with
            win := { s.win with
              hist := hist, wcur := s.win.wcur + 1, wfill := BitVec.ofNat 13 (min (s.win.wfill.toNat + 1) 4096) }
            count := s.count + 1
            tabA := s.tabA.bump b.toNat } ∧
        hist.read s.win.wcur.toNat = b ∧ ∀ a, a ≠ s.win.wcur.toNat → hist.read a = s.win.hist.read a) ∧
    (s.sinkRefusesAfter 0 → exec (.lit b) s = .next ({ s with tabA := s.tabA.bump b.toNat }).sinkFailed)

/-- The token `MATCH len, dist` (rule R310, rule R316): where the decoder admits it and the sink accepts its bytes, `len`
bytes are sent, each the byte `dist` positions before it, whether that byte stood in the window or was copied by this
same token; the same bytes are advanced into the window and no other entry changes; `COUNT` rises by `len`, and both
tables are bumped. Where the sink refuses a byte, the bytes before it stay sent, advanced and counted, both tables are
bumped, and the error is `SINK_IO` (rule R341). -/
def Obligations.MatchCopiesByteByByte : Prop :=
  ∀ (s : State) (len : BitVec 6) (dist : BitVec 13), (Instr.matchCopy len dist).wellFormed = true → s.win.ok →
    s.admits (.copy len dist) = true →
    (let copied := fun (n : Nat) (hist : Memory) (out : List Byte) => ({ s.delivered out with
       win := { s.win with
         hist := hist, wcur := s.win.wcur + BitVec.ofNat 12 n,
         wfill := BitVec.ofNat 13 (min (s.win.wfill.toNat + n) 4096) }
       count := s.count + BitVec.ofNat 32 n
       tabA := s.tabA.bump (len.toNat + 253)
       tabB := s.tabB.bump ((dist.toNat - 1) / 64) } : State)
     let right := fun (n : Nat) (hist : Memory) (out : List Byte) =>
       out.length = n ∧
       (∀ i, i < n → out.getD i 0 =
         if i < dist.toNat then s.win.hist.read ((s.win.wcur.toNat + 8192 + i - dist.toNat) % 4096)
         else out.getD (i - dist.toNat) 0) ∧
       (∀ i, i < n → hist.read ((s.win.wcur.toNat + i) % 4096) = out.getD i 0) ∧
       (∀ a, (∀ i, i < n → a ≠ (s.win.wcur.toNat + i) % 4096) → hist.read a = s.win.hist.read a)
     (s.sinkReady len.toNat →
       ∃ hist out, exec (.matchCopy len dist) s = .next (copied len.toNat hist out) ∧ right len.toNat hist out) ∧
     (∀ j, j < len.toNat → s.sinkRefusesAfter j →
       ∃ hist out, exec (.matchCopy len dist) s = .next (copied j hist out).sinkFailed ∧ right j hist out))

/-- Rule R311: a match whose length passes the declared end, or whose distance passes the window's fill, raises
`CORRUPT_STREAM` before any byte is copied. The copy loop never raises `INVARIANT`, and a literal needs no check. (Where
`COUNT` has passed `LEN`, that `LEN - COUNT` is 0 and every match too long is the model's reading, log entry 6.) -/
def Obligations.BadMatchIsCorruptBeforeAnyCopy : Prop :=
  ∀ (s t : State) (len : BitVec 6) (dist : BitVec 13), (Instr.matchCopy len dist).wellFormed = true →
    (s.len.toNat - s.count.toNat < len.toNat ∨ s.win.wfill.toNat < dist.toNat →
      exec (.matchCopy len dist) s =
        .next { s with
          tabA := s.tabA.bump (len.toNat + 253)
          tabB := s.tabB.bump ((dist.toNat - 1) / 64)
          err := .corruptStream
          fsm := .failed }) ∧
    (exec (.matchCopy len dist) s = .next t → s.err = .none → t.err ≠ .invariant) ∧
    (∀ b, exec (.lit b) s = .next t → s.err = .none → t.err = .none ∨ t.err = .sinkIo)

/-- Rule R336: `ENCSTEP` when `FSM` is not `SEARCHING` or `MODE` is not 0, and `DECSTEP` when `FSM` is not `READING` or
`MODE` is not 1, raise `SEQUENCE`, with no other effect. (In `FAILED` they are ignored: `FailedIgnoresEveryOtherWord`.) -/
def Obligations.StepOutOfSequenceRaisesSequence : Prop :=
  ∀ s : State, s.fsm ≠ .failed →
    (s.fsm ≠ .searching ∨ s.mode ≠ .encode → exec .encstep s = .next { s with err := .sequence, fsm := .failed }) ∧
    (s.fsm ≠ .reading ∨ s.mode ≠ .decode → exec .decstep s = .next { s with err := .sequence, fsm := .failed })

/-- The errors of each command (rule R338): where a command leads to `FAILED`, the error is one that its row marks, and so
is that of every later step of an `ENCODE` or a `DECODE`, in which `SEQUENCE` cannot occur (rule R320). The trees must meet
rule R55. (That an `ENCSTEP` with an empty lookahead raises no `INVARIANT` is log entry 10.) -/
def Obligations.EachCommandRaisesOnlyItsErrors : Prop :=
  (∀ s t : State, s.err = .none → s.tablesOk → s.busy = true → s.waiting = false → s.host.queue = [] →
    step s = .next t → t.fsm = .failed →
    (s.fsm = .searching → s.mode = .encode → t.err = .sourceIo ∨ t.err = .sinkIo) ∧
    (s.fsm = .reading → s.mode = .decode → t.err = .sourceIo ∨ t.err = .sinkIo ∨ t.err = .corruptStream)) ∧
  ∀ (i : Instr) (s t : State), s.fsm ≠ .failed → s.err = .none → s.tablesOk → exec i s = .next t → t.fsm = .failed →
    match i with
    | .nop => False
    | .reset => False
    | .encode => t.err = .sourceIo ∨ t.err = .sinkIo
    | .encinit => t.err = .sourceIo ∨ t.err = .sinkIo
    | .encstep => t.err = .sequence ∨ t.err = .sourceIo ∨ t.err = .sinkIo
    | .decode => t.err = .sourceIo ∨ t.err = .corruptStream
    | .decinit => t.err = .sourceIo ∨ t.err = .corruptStream
    | .decstep => t.err = .sequence ∨ t.err = .sourceIo ∨ t.err = .sinkIo ∨ t.err = .corruptStream
    | .wrbits _ _ => t.err = .sinkIo
    | .flush => t.err = .sinkIo
    | .rdbits _ => t.err = .sourceIo ∨ t.err = .corruptStream
    | .decsym _ => t.err = .sourceIo ∨ t.err = .corruptStream
    | .wadv _ => False
    | .findm => False
    | .rebuild _ => False
    | .lafill => t.err = .sourceIo
    | .byteat _ => t.err = .invariant
    | .lapeek _ => t.err = .invariant
    | .rdnode _ _ => t.err = .invariant
    | .rdleaf _ _ => t.err = .invariant
    | .bump _ _ => t.err = .invariant
    | .lacons _ => t.err = .invariant ∨ t.err = .sourceIo
    | .encsym _ _ => t.err = .invariant ∨ t.err = .sinkIo
    | .lit _ => t.err = .sinkIo
    | .matchCopy len dist =>
      (Instr.matchCopy len dist).wellFormed = true → t.err = .sinkIo ∨ t.err = .corruptStream

/-- A failing command does not write `RESULT` (rule R291, rule R313, rule R339), nor does a later step of an `ENCODE` or a
`DECODE` that fails. The one exception is an encoder step whose codes are all sent and whose last flush is refused: there
`RESULT` holds the token descriptor, which the pseudocode of rule R290 has written before that flush. The exception is the
model's choice, log entry 8 (DEDUCED): rule R17 and rule R341 keep that write, and rule R291 and rule R339 say otherwise. -/
def Obligations.FailingCommandKeepsResult : Prop :=
  ∀ s t : State, s.fsm ≠ .failed → t.fsm = .failed →
    (let flushRefused := t.err = .sinkIo ∧ s.sinkReady (s.bits.bytesFilled (s.tokenBits (chooseToken s)).length)
     let resultAfter := fun encoderStep : Prop =>
       (encoderStep ∧ flushRefused → t.result = (chooseToken s).desc) ∧
       (¬(encoderStep ∧ flushRefused) → t.result = s.result)
     (∀ i : Instr, i.isCommand = true → exec i s = .next t → resultAfter (i = .encstep)) ∧
     (s.busy = true → s.waiting = false → s.host.queue = [] → step s = .next t → resultAfter (s.mode = .encode)))

/-! ## Invariants -/

/-- Every step keeps the invariant of a state: the pending bits fit `OBITS`, both RAMs keep their canonical form, every
count stays in its range, the driver stays in an observable state with an error exactly in `FAILED` and `BUSY` only while
tokens are to come, and the tables keep their sizes (rule R32 to rule R45, rule R50, rule R64 to rule R67). -/
def Obligations.EveryStepKeepsTheInvariant : Prop :=
  ∀ s t : State, s.inv → step s = .next t → t.inv

/-- Every step keeps the invariants of rule R55 of both code tables. -/
def Obligations.EveryStepKeepsTheTrees : Prop :=
  ∀ s t : State, s.inv → s.tablesOk → step s = .next t → t.tablesOk

/-- The invariants hold right after reset (rule R76, rule R242). -/
def Obligations.ResetMeetsTheInvariants : Prop :=
  State.reset.inv ∧ State.reset.tablesOk

/-- Rule R4: the transform is lossless, and encoding is deterministic. For every byte sequence `x` that one file can carry
(rule R12) there is one file that every `ENCODE` of `x` sends, whatever state it starts from, and every `DECODE` of that
file sends `x`. -/
def Obligations.TransformIsLossless : Prop :=
  ∀ x : List Byte, x.length < 2 ^ 32 →
    ∃ file : List Byte,
      (∀ s : State, s.win.ok → s.host.queue = [] → s.len.toNat = x.length → s.sourceReady x →
        s.sinkReady file.length → s.transforms 0x08000000 file) ∧
      (∀ s : State, s.win.ok → s.host.queue = [] → s.sourceReady file → s.sinkReady x.length →
        s.transforms 0x0C000000 x)

/-- `DECODE` executes any well-formed token program, not only the one the encoder would choose (rule R156, rule R157): it
sends the bytes that the tokens emit. -/
def Obligations.DecodeExecutesAnyTokenProgram : Prop :=
  ∀ (p : TokenProgram) (s : State), p.wf = true → s.win.ok → s.host.queue = [] → s.sourceReady p.file →
    s.sinkReady p.len.toNat → s.transforms 0x0C000000 (tokensOutput [] p.toks)
end

