-- ==== Sys2Proof/Laws/CodeTable.lean ====
section
/-! SUPPORT. The laws of the code tables' arrays: what an entry reads after a store, and that every operation keeps the
arrays' sizes. -/

namespace Sys2Proof.Machine

variable {n w : Nat}

/-! ## Reading an entry after a store -/

theorem getD_set_bits {k : Nat} (l : List (BitVec k)) (i j : Nat) (x : BitVec k) (hi : i < l.length) :
    ((l.set i x).getD j 0) = if j = i then x else l.getD j 0 := by
  by_cases h : j = i
  · subst h; simp [List.getD_eq_getElem?_getD, hi]
  · simp [List.getD_eq_getElem?_getD, List.getElem?_set_ne (Ne.symm h), h]

/-- `freq` after a store of a value that fits its 16 bits. -/
theorem CodeTable.freqAt_setFreq (t : CodeTable n w) {i v : Nat} (j : Nat) (hi : i < t.freq.length) (hv : v < 2 ^ 16) :
    (t.setFreq i v).freqAt j = if j = i then v else t.freqAt j := by
  rw [CodeTable.freqAt, CodeTable.setFreq, getD_set_bits _ _ _ _ hi]
  by_cases h : j = i
  · simp only [h, if_true, BitVec.toNat_ofNat]; exact Nat.mod_eq_of_lt hv
  · simp [h, CodeTable.freqAt]

/-- `son` after a store of a value that fits a link. -/
theorem CodeTable.sonAt_setSon (t : CodeTable n w) {i v : Nat} (j : Nat) (hi : i < t.son.length) (hv : v < 2 ^ w) :
    (t.setSon i v).sonAt j = if j = i then v else t.sonAt j := by
  rw [CodeTable.sonAt, CodeTable.setSon, getD_set_bits _ _ _ _ hi]
  by_cases h : j = i
  · simp only [h, if_true, BitVec.toNat_ofNat]; exact Nat.mod_eq_of_lt hv
  · simp [h, CodeTable.sonAt]

/-- `prnt` after a store of a value that fits a link. -/
theorem CodeTable.prntAt_setPrnt (t : CodeTable n w) {i v : Nat} (j : Nat) (hi : i < t.prnt.length) (hv : v < 2 ^ w) :
    (t.setPrnt i v).prntAt j = if j = i then v else t.prntAt j := by
  rw [CodeTable.prntAt, CodeTable.setPrnt, getD_set_bits _ _ _ _ hi]
  by_cases h : j = i
  · simp only [h, if_true, BitVec.toNat_ofNat]; exact Nat.mod_eq_of_lt hv
  · simp [h, CodeTable.prntAt]

@[simp] theorem CodeTable.sonAt_setFreq (t : CodeTable n w) (i v j : Nat) : (t.setFreq i v).sonAt j = t.sonAt j := rfl
@[simp] theorem CodeTable.prntAt_setFreq (t : CodeTable n w) (i v j : Nat) : (t.setFreq i v).prntAt j = t.prntAt j :=
  rfl
@[simp] theorem CodeTable.freqAt_setSon (t : CodeTable n w) (i v j : Nat) : (t.setSon i v).freqAt j = t.freqAt j := rfl
@[simp] theorem CodeTable.prntAt_setSon (t : CodeTable n w) (i v j : Nat) : (t.setSon i v).prntAt j = t.prntAt j := rfl
@[simp] theorem CodeTable.freqAt_setPrnt (t : CodeTable n w) (i v j : Nat) : (t.setPrnt i v).freqAt j = t.freqAt j :=
  rfl
@[simp] theorem CodeTable.sonAt_setPrnt (t : CodeTable n w) (i v j : Nat) : (t.setPrnt i v).sonAt j = t.sonAt j := rfl

@[simp] theorem CodeTable.freqAt_relink (t : CodeTable n w) (x p j : Nat) : (t.relink x p).freqAt j = t.freqAt j := by
  unfold CodeTable.relink; split <;> rfl
@[simp] theorem CodeTable.sonAt_relink (t : CodeTable n w) (x p j : Nat) : (t.relink x p).sonAt j = t.sonAt j := by
  unfold CodeTable.relink; split <;> rfl
@[simp] theorem CodeTable.freqAt_linkNode (t : CodeTable n w) (i j : Nat) : (t.linkNode i).freqAt j = t.freqAt j := by
  unfold CodeTable.linkNode; split <;> rfl
@[simp] theorem CodeTable.sonAt_linkNode (t : CodeTable n w) (i j : Nat) : (t.linkNode i).sonAt j = t.sonAt j := by
  unfold CodeTable.linkNode; split <;> rfl

/-! ## The sizes of the arrays -/

/-- `sized` as three equations. -/
theorem CodeTable.sized_iff (t : CodeTable n w) : t.sized = true ↔
    t.freq.length = 2 * n ∧ t.son.length = nodeCount n ∧ t.prnt.length = 3 * n - 1 := by
  simp [CodeTable.sized, and_assoc]

@[simp] theorem CodeTable.sized_setFreq (t : CodeTable n w) (i v : Nat) : (t.setFreq i v).sized = t.sized := by
  rw [Bool.eq_iff_iff, CodeTable.sized_iff, CodeTable.sized_iff]; simp [CodeTable.setFreq]
@[simp] theorem CodeTable.sized_setSon (t : CodeTable n w) (i v : Nat) : (t.setSon i v).sized = t.sized := by
  rw [Bool.eq_iff_iff, CodeTable.sized_iff, CodeTable.sized_iff]; simp [CodeTable.setSon]
@[simp] theorem CodeTable.sized_setPrnt (t : CodeTable n w) (i v : Nat) : (t.setPrnt i v).sized = t.sized := by
  rw [Bool.eq_iff_iff, CodeTable.sized_iff, CodeTable.sized_iff]; simp [CodeTable.setPrnt]
@[simp] theorem CodeTable.sized_relink (t : CodeTable n w) (x p : Nat) : (t.relink x p).sized = t.sized := by
  unfold CodeTable.relink; split <;> simp
@[simp] theorem CodeTable.sized_exchange (t : CodeTable n w) (c l k : Nat) : (t.exchange c l k).sized = t.sized := by
  simp [CodeTable.exchange]
@[simp] theorem CodeTable.sized_bumpLevel (t : CodeTable n w) (c : Nat) : (t.bumpLevel c).1.sized = t.sized := by
  unfold CodeTable.bumpLevel; dsimp only; split <;> simp
@[simp] theorem CodeTable.sized_linkNode (t : CodeTable n w) (i : Nat) : (t.linkNode i).sized = t.sized := by
  unfold CodeTable.linkNode; split <;> simp

@[simp] theorem CodeTable.sized_bumpFrom : ∀ (fuel : Nat) (t : CodeTable n w) (c : Nat),
    (CodeTable.bumpFrom fuel t c).sized = t.sized
  | 0, _, _ => rfl
  | fuel + 1, t, c => by
    simp only [CodeTable.bumpFrom]
    split
    · simp
    · rw [CodeTable.sized_bumpFrom fuel]; simp

theorem CodeTable.sized_linkNodes (l : List Nat) : ∀ t : CodeTable n w, (l.foldl CodeTable.linkNode t).sized = t.sized := by
  induction l with
  | nil => intro t; rfl
  | cons i l ih => intro t; rw [List.foldl_cons, ih]; simp

theorem insertPos_le (nodes : List (BitVec 16 × BitVec w)) (f : Nat) : ∀ k, insertPos nodes f k ≤ k
  | 0 => le_refl 0
  | k + 1 => by
    unfold insertPos
    split
    · exact le_trans (insertPos_le nodes f k) (Nat.le_succ k)
    · exact le_refl _

theorem length_buildInternals : ∀ (m j i : Nat) (nodes : List (BitVec 16 × BitVec w)), j + m ≤ nodes.length →
    (buildInternals m j i nodes).length = nodes.length
  | 0, _, _, _, _ => rfl
  | m + 1, j, i, nodes, h => by
    have hk := insertPos_le nodes (nodeFreq nodes i + nodeFreq nodes (i + 1)) j
    have hl : ((nodes.eraseIdx j).insertIdx (insertPos nodes (nodeFreq nodes i + nodeFreq nodes (i + 1)) j)
        (BitVec.ofNat 16 (nodeFreq nodes i + nodeFreq nodes (i + 1)), BitVec.ofNat w i)).length = nodes.length := by
      rw [List.length_insertIdx_of_le_length, List.length_eraseIdx_of_lt (by omega)]
      · omega
      · rw [List.length_eraseIdx_of_lt (by omega)]; omega
    simp only [buildInternals]
    rw [length_buildInternals m (j + 1) (i + 2) _ (by rw [hl]; omega), hl]

theorem CodeTable.length_gatherLeaves_le (t : CodeTable n w) : t.gatherLeaves.length ≤ nodeCount n := by
  have h := List.length_filter_le (fun i => decide (nodeCount n ≤ t.sonAt i)) (List.range (nodeCount n))
  rw [CodeTable.gatherLeaves, List.length_map]
  simpa using h

/-- `Rebuild` keeps the sizes of the arrays. -/
theorem CodeTable.sized_rebuild {t : CodeTable n w} (h : t.sized = true) : t.rebuild.sized = true := by
  obtain ⟨hf, hs, hp⟩ := t.sized_iff.1 h
  have hle := t.length_gatherLeaves_le
  have hb := length_buildInternals (n - 1) n 0
    (t.gatherLeaves ++ ((t.freq.take (nodeCount n)).zip t.son).drop t.gatherLeaves.length)
    (by simp only [List.length_append, List.length_drop, List.length_zip, List.length_take, nodeCount] at *; omega)
  rw [CodeTable.rebuild]
  rw [CodeTable.sized_linkNodes, CodeTable.sized_iff]
  simp only [List.length_append, List.length_map, List.length_drop, hb, hf, hp, List.length_zip, List.length_take, hs,
    nodeCount] at *
  refine ⟨?_, ?_, trivial⟩ <;> omega

/-- `Bump` keeps the sizes of the arrays. -/
theorem CodeTable.sized_bump {t : CodeTable n w} (s : Nat) (h : t.sized = true) : (t.bump s).sized = true := by
  rw [CodeTable.bump]
  rw [CodeTable.sized_bumpFrom]
  split
  · exact CodeTable.sized_rebuild h
  · exact h

theorem length_pairSums : ∀ (k : Nat) (l : List Nat), k + 1 ≤ l.length → (pairSums k l).length = k
  | 0, _, _ => by simp [pairSums]
  | k + 1, x :: y :: rest, h => by
    simp only [pairSums, List.length_cons] at h ⊢
    rw [length_pairSums k _ (by simp; omega)]
  | k + 1, [], h => by simp at h
  | k + 1, [_], h => by simp at h

/-- `TreeInit` gives the arrays their sizes. -/
theorem sized_treeInit (n w : Nat) (hn : 1 ≤ n) : (treeInit n w).sized = true := by
  rw [CodeTable.sized_iff]
  have := length_pairSums (n - 1) (List.replicate n 1) (by simp; omega)
  simp only [treeInit, List.length_map, List.length_append, List.length_replicate, this, List.length_cons,
    List.length_nil, List.length_range, nodeCount, rootNode]
  omega

end Sys2Proof.Machine
end

