-- ==== Sys2Proof/Laws/State.lean ====
section
/-! SUPPORT. One lemma for each field of the state and each named update of it, so that no proof unfolds a record
update. -/

namespace Sys2Proof.Machine

/-! ## Taking an error -/

@[simp] theorem State.takeError_bits (s : State) (e : ErrCode) : (s.takeError e).bits = s.bits := rfl
@[simp] theorem State.takeError_win (s : State) (e : ErrCode) : (s.takeError e).win = s.win := rfl
@[simp] theorem State.takeError_tabA (s : State) (e : ErrCode) : (s.takeError e).tabA = s.tabA := rfl
@[simp] theorem State.takeError_tabB (s : State) (e : ErrCode) : (s.takeError e).tabB = s.tabB := rfl
@[simp] theorem State.takeError_fsm (s : State) (e : ErrCode) : (s.takeError e).fsm = .failed := rfl
@[simp] theorem State.takeError_err (s : State) (e : ErrCode) : (s.takeError e).err = e := rfl
@[simp] theorem State.takeError_mode (s : State) (e : ErrCode) : (s.takeError e).mode = s.mode := rfl
@[simp] theorem State.takeError_busy (s : State) (e : ErrCode) : (s.takeError e).busy = s.busy := rfl
@[simp] theorem State.takeError_result (s : State) (e : ErrCode) : (s.takeError e).result = s.result := rfl
@[simp] theorem State.takeError_len (s : State) (e : ErrCode) : (s.takeError e).len = s.len := rfl
@[simp] theorem State.takeError_count (s : State) (e : ErrCode) : (s.takeError e).count = s.count := rfl
@[simp] theorem State.takeError_inbytes (s : State) (e : ErrCode) : (s.takeError e).inbytes = s.inbytes := rfl
@[simp] theorem State.takeError_outbytes (s : State) (e : ErrCode) : (s.takeError e).outbytes = s.outbytes := rfl
@[simp] theorem State.takeError_ports (s : State) (e : ErrCode) : (s.takeError e).ports = s.ports := rfl
@[simp] theorem State.takeError_host (s : State) (e : ErrCode) : (s.takeError e).host = s.host := rfl
@[simp] theorem State.takeError_waiting (s : State) (e : ErrCode) : (s.takeError e).waiting = s.waiting := rfl

/-! ## A fresh start -/

@[simp] theorem State.fresh_bits (s : State) : (s.fresh).bits = BitChannel.reset := rfl
@[simp] theorem State.fresh_win (s : State) : (s.fresh).win = { s.win with wcur := 0, wfill := 0, lacnt := 0 } := rfl
@[simp] theorem State.fresh_tabA (s : State) : (s.fresh).tabA = treeInit Config.symbolsA Config.linkBitsA := rfl
@[simp] theorem State.fresh_tabB (s : State) : (s.fresh).tabB = treeInit Config.symbolsB Config.linkBitsB := rfl
@[simp] theorem State.fresh_fsm (s : State) : (s.fresh).fsm = s.fsm := rfl
@[simp] theorem State.fresh_err (s : State) : (s.fresh).err = .none := rfl
@[simp] theorem State.fresh_mode (s : State) : (s.fresh).mode = s.mode := rfl
@[simp] theorem State.fresh_busy (s : State) : (s.fresh).busy = s.busy := rfl
@[simp] theorem State.fresh_result (s : State) : (s.fresh).result = s.result := rfl
@[simp] theorem State.fresh_len (s : State) : (s.fresh).len = s.len := rfl
@[simp] theorem State.fresh_count (s : State) : (s.fresh).count = 0 := rfl
@[simp] theorem State.fresh_inbytes (s : State) : (s.fresh).inbytes = 0 := rfl
@[simp] theorem State.fresh_outbytes (s : State) : (s.fresh).outbytes = 0 := rfl
@[simp] theorem State.fresh_ports (s : State) : (s.fresh).ports = s.ports := rfl
@[simp] theorem State.fresh_host (s : State) : (s.fresh).host = s.host := rfl
@[simp] theorem State.fresh_waiting (s : State) : (s.fresh).waiting = s.waiting := rfl

/-! ## `RESULT` -/

@[simp] theorem State.setResult_bits (s : State) (v : Word) : (s.setResult v).bits = s.bits := rfl
@[simp] theorem State.setResult_win (s : State) (v : Word) : (s.setResult v).win = s.win := rfl
@[simp] theorem State.setResult_tabA (s : State) (v : Word) : (s.setResult v).tabA = s.tabA := rfl
@[simp] theorem State.setResult_tabB (s : State) (v : Word) : (s.setResult v).tabB = s.tabB := rfl
@[simp] theorem State.setResult_fsm (s : State) (v : Word) : (s.setResult v).fsm = s.fsm := rfl
@[simp] theorem State.setResult_err (s : State) (v : Word) : (s.setResult v).err = s.err := rfl
@[simp] theorem State.setResult_mode (s : State) (v : Word) : (s.setResult v).mode = s.mode := rfl
@[simp] theorem State.setResult_busy (s : State) (v : Word) : (s.setResult v).busy = s.busy := rfl
@[simp] theorem State.setResult_result (s : State) (v : Word) : (s.setResult v).result = v := rfl
@[simp] theorem State.setResult_len (s : State) (v : Word) : (s.setResult v).len = s.len := rfl
@[simp] theorem State.setResult_count (s : State) (v : Word) : (s.setResult v).count = s.count := rfl
@[simp] theorem State.setResult_inbytes (s : State) (v : Word) : (s.setResult v).inbytes = s.inbytes := rfl
@[simp] theorem State.setResult_outbytes (s : State) (v : Word) : (s.setResult v).outbytes = s.outbytes := rfl
@[simp] theorem State.setResult_ports (s : State) (v : Word) : (s.setResult v).ports = s.ports := rfl
@[simp] theorem State.setResult_host (s : State) (v : Word) : (s.setResult v).host = s.host := rfl
@[simp] theorem State.setResult_waiting (s : State) (v : Word) : (s.setResult v).waiting = s.waiting := rfl

/-! ## `COUNT` -/

@[simp] theorem State.countUp_bits (s : State) : (s.countUp).bits = s.bits := rfl
@[simp] theorem State.countUp_win (s : State) : (s.countUp).win = s.win := rfl
@[simp] theorem State.countUp_tabA (s : State) : (s.countUp).tabA = s.tabA := rfl
@[simp] theorem State.countUp_tabB (s : State) : (s.countUp).tabB = s.tabB := rfl
@[simp] theorem State.countUp_fsm (s : State) : (s.countUp).fsm = s.fsm := rfl
@[simp] theorem State.countUp_err (s : State) : (s.countUp).err = s.err := rfl
@[simp] theorem State.countUp_mode (s : State) : (s.countUp).mode = s.mode := rfl
@[simp] theorem State.countUp_busy (s : State) : (s.countUp).busy = s.busy := rfl
@[simp] theorem State.countUp_result (s : State) : (s.countUp).result = s.result := rfl
@[simp] theorem State.countUp_len (s : State) : (s.countUp).len = s.len := rfl
@[simp] theorem State.countUp_count (s : State) : (s.countUp).count = s.count + 1 := rfl
@[simp] theorem State.countUp_inbytes (s : State) : (s.countUp).inbytes = s.inbytes := rfl
@[simp] theorem State.countUp_outbytes (s : State) : (s.countUp).outbytes = s.outbytes := rfl
@[simp] theorem State.countUp_ports (s : State) : (s.countUp).ports = s.ports := rfl
@[simp] theorem State.countUp_host (s : State) : (s.countUp).host = s.host := rfl
@[simp] theorem State.countUp_waiting (s : State) : (s.countUp).waiting = s.waiting := rfl

/-! ## `FSM` -/

@[simp] theorem State.setFsm_bits (s : State) (x : Fsm) : (s.setFsm x).bits = s.bits := rfl
@[simp] theorem State.setFsm_win (s : State) (x : Fsm) : (s.setFsm x).win = s.win := rfl
@[simp] theorem State.setFsm_tabA (s : State) (x : Fsm) : (s.setFsm x).tabA = s.tabA := rfl
@[simp] theorem State.setFsm_tabB (s : State) (x : Fsm) : (s.setFsm x).tabB = s.tabB := rfl
@[simp] theorem State.setFsm_fsm (s : State) (x : Fsm) : (s.setFsm x).fsm = x := rfl
@[simp] theorem State.setFsm_err (s : State) (x : Fsm) : (s.setFsm x).err = s.err := rfl
@[simp] theorem State.setFsm_mode (s : State) (x : Fsm) : (s.setFsm x).mode = s.mode := rfl
@[simp] theorem State.setFsm_busy (s : State) (x : Fsm) : (s.setFsm x).busy = s.busy := rfl
@[simp] theorem State.setFsm_result (s : State) (x : Fsm) : (s.setFsm x).result = s.result := rfl
@[simp] theorem State.setFsm_len (s : State) (x : Fsm) : (s.setFsm x).len = s.len := rfl
@[simp] theorem State.setFsm_count (s : State) (x : Fsm) : (s.setFsm x).count = s.count := rfl
@[simp] theorem State.setFsm_inbytes (s : State) (x : Fsm) : (s.setFsm x).inbytes = s.inbytes := rfl
@[simp] theorem State.setFsm_outbytes (s : State) (x : Fsm) : (s.setFsm x).outbytes = s.outbytes := rfl
@[simp] theorem State.setFsm_ports (s : State) (x : Fsm) : (s.setFsm x).ports = s.ports := rfl
@[simp] theorem State.setFsm_host (s : State) (x : Fsm) : (s.setFsm x).host = s.host := rfl
@[simp] theorem State.setFsm_waiting (s : State) (x : Fsm) : (s.setFsm x).waiting = s.waiting := rfl

/-! ## Table A bumped or rebuilt -/

@[simp] theorem State.bumpSym_a_bits (s : State) (x : Nat) : (s.bumpSym .a x).bits = s.bits := rfl
@[simp] theorem State.bumpSym_a_win (s : State) (x : Nat) : (s.bumpSym .a x).win = s.win := rfl
@[simp] theorem State.bumpSym_a_tabA (s : State) (x : Nat) : (s.bumpSym .a x).tabA = s.tabA.bump x := rfl
@[simp] theorem State.bumpSym_a_tabB (s : State) (x : Nat) : (s.bumpSym .a x).tabB = s.tabB := rfl
@[simp] theorem State.bumpSym_a_fsm (s : State) (x : Nat) : (s.bumpSym .a x).fsm = s.fsm := rfl
@[simp] theorem State.bumpSym_a_err (s : State) (x : Nat) : (s.bumpSym .a x).err = s.err := rfl
@[simp] theorem State.bumpSym_a_mode (s : State) (x : Nat) : (s.bumpSym .a x).mode = s.mode := rfl
@[simp] theorem State.bumpSym_a_busy (s : State) (x : Nat) : (s.bumpSym .a x).busy = s.busy := rfl
@[simp] theorem State.bumpSym_a_result (s : State) (x : Nat) : (s.bumpSym .a x).result = s.result := rfl
@[simp] theorem State.bumpSym_a_len (s : State) (x : Nat) : (s.bumpSym .a x).len = s.len := rfl
@[simp] theorem State.bumpSym_a_count (s : State) (x : Nat) : (s.bumpSym .a x).count = s.count := rfl
@[simp] theorem State.bumpSym_a_inbytes (s : State) (x : Nat) : (s.bumpSym .a x).inbytes = s.inbytes := rfl
@[simp] theorem State.bumpSym_a_outbytes (s : State) (x : Nat) : (s.bumpSym .a x).outbytes = s.outbytes := rfl
@[simp] theorem State.bumpSym_a_ports (s : State) (x : Nat) : (s.bumpSym .a x).ports = s.ports := rfl
@[simp] theorem State.bumpSym_a_host (s : State) (x : Nat) : (s.bumpSym .a x).host = s.host := rfl
@[simp] theorem State.bumpSym_a_waiting (s : State) (x : Nat) : (s.bumpSym .a x).waiting = s.waiting := rfl
@[simp] theorem State.rebuildTable_a_bits (s : State) : (s.rebuildTable .a).bits = s.bits := rfl
@[simp] theorem State.rebuildTable_a_win (s : State) : (s.rebuildTable .a).win = s.win := rfl
@[simp] theorem State.rebuildTable_a_tabA (s : State) : (s.rebuildTable .a).tabA = s.tabA.rebuild := rfl
@[simp] theorem State.rebuildTable_a_tabB (s : State) : (s.rebuildTable .a).tabB = s.tabB := rfl
@[simp] theorem State.rebuildTable_a_fsm (s : State) : (s.rebuildTable .a).fsm = s.fsm := rfl
@[simp] theorem State.rebuildTable_a_err (s : State) : (s.rebuildTable .a).err = s.err := rfl
@[simp] theorem State.rebuildTable_a_mode (s : State) : (s.rebuildTable .a).mode = s.mode := rfl
@[simp] theorem State.rebuildTable_a_busy (s : State) : (s.rebuildTable .a).busy = s.busy := rfl
@[simp] theorem State.rebuildTable_a_result (s : State) : (s.rebuildTable .a).result = s.result := rfl
@[simp] theorem State.rebuildTable_a_len (s : State) : (s.rebuildTable .a).len = s.len := rfl
@[simp] theorem State.rebuildTable_a_count (s : State) : (s.rebuildTable .a).count = s.count := rfl
@[simp] theorem State.rebuildTable_a_inbytes (s : State) : (s.rebuildTable .a).inbytes = s.inbytes := rfl
@[simp] theorem State.rebuildTable_a_outbytes (s : State) : (s.rebuildTable .a).outbytes = s.outbytes := rfl
@[simp] theorem State.rebuildTable_a_ports (s : State) : (s.rebuildTable .a).ports = s.ports := rfl
@[simp] theorem State.rebuildTable_a_host (s : State) : (s.rebuildTable .a).host = s.host := rfl
@[simp] theorem State.rebuildTable_a_waiting (s : State) : (s.rebuildTable .a).waiting = s.waiting := rfl

/-! ## Table B bumped or rebuilt -/

@[simp] theorem State.bumpSym_b_bits (s : State) (x : Nat) : (s.bumpSym .b x).bits = s.bits := rfl
@[simp] theorem State.bumpSym_b_win (s : State) (x : Nat) : (s.bumpSym .b x).win = s.win := rfl
@[simp] theorem State.bumpSym_b_tabA (s : State) (x : Nat) : (s.bumpSym .b x).tabA = s.tabA := rfl
@[simp] theorem State.bumpSym_b_tabB (s : State) (x : Nat) : (s.bumpSym .b x).tabB = s.tabB.bump x := rfl
@[simp] theorem State.bumpSym_b_fsm (s : State) (x : Nat) : (s.bumpSym .b x).fsm = s.fsm := rfl
@[simp] theorem State.bumpSym_b_err (s : State) (x : Nat) : (s.bumpSym .b x).err = s.err := rfl
@[simp] theorem State.bumpSym_b_mode (s : State) (x : Nat) : (s.bumpSym .b x).mode = s.mode := rfl
@[simp] theorem State.bumpSym_b_busy (s : State) (x : Nat) : (s.bumpSym .b x).busy = s.busy := rfl
@[simp] theorem State.bumpSym_b_result (s : State) (x : Nat) : (s.bumpSym .b x).result = s.result := rfl
@[simp] theorem State.bumpSym_b_len (s : State) (x : Nat) : (s.bumpSym .b x).len = s.len := rfl
@[simp] theorem State.bumpSym_b_count (s : State) (x : Nat) : (s.bumpSym .b x).count = s.count := rfl
@[simp] theorem State.bumpSym_b_inbytes (s : State) (x : Nat) : (s.bumpSym .b x).inbytes = s.inbytes := rfl
@[simp] theorem State.bumpSym_b_outbytes (s : State) (x : Nat) : (s.bumpSym .b x).outbytes = s.outbytes := rfl
@[simp] theorem State.bumpSym_b_ports (s : State) (x : Nat) : (s.bumpSym .b x).ports = s.ports := rfl
@[simp] theorem State.bumpSym_b_host (s : State) (x : Nat) : (s.bumpSym .b x).host = s.host := rfl
@[simp] theorem State.bumpSym_b_waiting (s : State) (x : Nat) : (s.bumpSym .b x).waiting = s.waiting := rfl
@[simp] theorem State.rebuildTable_b_bits (s : State) : (s.rebuildTable .b).bits = s.bits := rfl
@[simp] theorem State.rebuildTable_b_win (s : State) : (s.rebuildTable .b).win = s.win := rfl
@[simp] theorem State.rebuildTable_b_tabA (s : State) : (s.rebuildTable .b).tabA = s.tabA := rfl
@[simp] theorem State.rebuildTable_b_tabB (s : State) : (s.rebuildTable .b).tabB = s.tabB.rebuild := rfl
@[simp] theorem State.rebuildTable_b_fsm (s : State) : (s.rebuildTable .b).fsm = s.fsm := rfl
@[simp] theorem State.rebuildTable_b_err (s : State) : (s.rebuildTable .b).err = s.err := rfl
@[simp] theorem State.rebuildTable_b_mode (s : State) : (s.rebuildTable .b).mode = s.mode := rfl
@[simp] theorem State.rebuildTable_b_busy (s : State) : (s.rebuildTable .b).busy = s.busy := rfl
@[simp] theorem State.rebuildTable_b_result (s : State) : (s.rebuildTable .b).result = s.result := rfl
@[simp] theorem State.rebuildTable_b_len (s : State) : (s.rebuildTable .b).len = s.len := rfl
@[simp] theorem State.rebuildTable_b_count (s : State) : (s.rebuildTable .b).count = s.count := rfl
@[simp] theorem State.rebuildTable_b_inbytes (s : State) : (s.rebuildTable .b).inbytes = s.inbytes := rfl
@[simp] theorem State.rebuildTable_b_outbytes (s : State) : (s.rebuildTable .b).outbytes = s.outbytes := rfl
@[simp] theorem State.rebuildTable_b_ports (s : State) : (s.rebuildTable .b).ports = s.ports := rfl
@[simp] theorem State.rebuildTable_b_host (s : State) : (s.rebuildTable .b).host = s.host := rfl
@[simp] theorem State.rebuildTable_b_waiting (s : State) : (s.rebuildTable .b).waiting = s.waiting := rfl

/-! ## Either table bumped -/

@[simp] theorem State.bumpSym_bits (s : State) (t : TableSel) (x : Nat) : (s.bumpSym t x).bits = s.bits :=
  by cases t <;> rfl
@[simp] theorem State.bumpSym_win (s : State) (t : TableSel) (x : Nat) : (s.bumpSym t x).win = s.win :=
  by cases t <;> rfl
@[simp] theorem State.bumpSym_fsm (s : State) (t : TableSel) (x : Nat) : (s.bumpSym t x).fsm = s.fsm :=
  by cases t <;> rfl
@[simp] theorem State.bumpSym_err (s : State) (t : TableSel) (x : Nat) : (s.bumpSym t x).err = s.err :=
  by cases t <;> rfl
@[simp] theorem State.bumpSym_mode (s : State) (t : TableSel) (x : Nat) : (s.bumpSym t x).mode = s.mode :=
  by cases t <;> rfl
@[simp] theorem State.bumpSym_busy (s : State) (t : TableSel) (x : Nat) : (s.bumpSym t x).busy = s.busy :=
  by cases t <;> rfl
@[simp] theorem State.bumpSym_result (s : State) (t : TableSel) (x : Nat) : (s.bumpSym t x).result = s.result :=
  by cases t <;> rfl
@[simp] theorem State.bumpSym_len (s : State) (t : TableSel) (x : Nat) : (s.bumpSym t x).len = s.len :=
  by cases t <;> rfl
@[simp] theorem State.bumpSym_count (s : State) (t : TableSel) (x : Nat) : (s.bumpSym t x).count = s.count :=
  by cases t <;> rfl
@[simp] theorem State.bumpSym_inbytes (s : State) (t : TableSel) (x : Nat) : (s.bumpSym t x).inbytes = s.inbytes :=
  by cases t <;> rfl
@[simp] theorem State.bumpSym_outbytes (s : State) (t : TableSel) (x : Nat) : (s.bumpSym t x).outbytes = s.outbytes :=
  by cases t <;> rfl
@[simp] theorem State.bumpSym_ports (s : State) (t : TableSel) (x : Nat) : (s.bumpSym t x).ports = s.ports :=
  by cases t <;> rfl
@[simp] theorem State.bumpSym_host (s : State) (t : TableSel) (x : Nat) : (s.bumpSym t x).host = s.host :=
  by cases t <;> rfl
@[simp] theorem State.bumpSym_waiting (s : State) (t : TableSel) (x : Nat) : (s.bumpSym t x).waiting = s.waiting :=
  by cases t <;> rfl

/-! ## The window advanced -/

@[simp] theorem State.advance_bits (s : State) (b : Byte) : (Sys2Proof.Machine.advance b s).bits = s.bits := rfl
@[simp] theorem State.advance_win (s : State) (b : Byte) : (Sys2Proof.Machine.advance b s).win = s.win.advance b :=
  rfl
@[simp] theorem State.advance_tabA (s : State) (b : Byte) : (Sys2Proof.Machine.advance b s).tabA = s.tabA := rfl
@[simp] theorem State.advance_tabB (s : State) (b : Byte) : (Sys2Proof.Machine.advance b s).tabB = s.tabB := rfl
@[simp] theorem State.advance_fsm (s : State) (b : Byte) : (Sys2Proof.Machine.advance b s).fsm = s.fsm := rfl
@[simp] theorem State.advance_err (s : State) (b : Byte) : (Sys2Proof.Machine.advance b s).err = s.err := rfl
@[simp] theorem State.advance_mode (s : State) (b : Byte) : (Sys2Proof.Machine.advance b s).mode = s.mode := rfl
@[simp] theorem State.advance_busy (s : State) (b : Byte) : (Sys2Proof.Machine.advance b s).busy = s.busy := rfl
@[simp] theorem State.advance_result (s : State) (b : Byte) : (Sys2Proof.Machine.advance b s).result = s.result := rfl
@[simp] theorem State.advance_len (s : State) (b : Byte) : (Sys2Proof.Machine.advance b s).len = s.len := rfl
@[simp] theorem State.advance_count (s : State) (b : Byte) : (Sys2Proof.Machine.advance b s).count = s.count := rfl
@[simp] theorem State.advance_inbytes (s : State) (b : Byte) : (Sys2Proof.Machine.advance b s).inbytes = s.inbytes :=
  rfl
@[simp] theorem State.advance_outbytes (s : State) (b : Byte) :
    (Sys2Proof.Machine.advance b s).outbytes = s.outbytes := rfl
@[simp] theorem State.advance_ports (s : State) (b : Byte) : (Sys2Proof.Machine.advance b s).ports = s.ports := rfl
@[simp] theorem State.advance_host (s : State) (b : Byte) : (Sys2Proof.Machine.advance b s).host = s.host := rfl
@[simp] theorem State.advance_waiting (s : State) (b : Byte) : (Sys2Proof.Machine.advance b s).waiting = s.waiting :=
  rfl

/-! ## A lookahead byte moved into the window -/

@[simp] theorem State.shiftIn_bits (s : State) : (Sys2Proof.Machine.shiftIn s).bits = s.bits := rfl
@[simp] theorem State.shiftIn_win (s : State) :
    (Sys2Proof.Machine.shiftIn s).win = ({ s.win with la := s.win.la.shiftDown s.win.lacnt.toNat, lacnt := s.win.lacnt - 1 } : Window).advance (laByte s 0) := rfl
@[simp] theorem State.shiftIn_tabA (s : State) : (Sys2Proof.Machine.shiftIn s).tabA = s.tabA := rfl
@[simp] theorem State.shiftIn_tabB (s : State) : (Sys2Proof.Machine.shiftIn s).tabB = s.tabB := rfl
@[simp] theorem State.shiftIn_fsm (s : State) : (Sys2Proof.Machine.shiftIn s).fsm = s.fsm := rfl
@[simp] theorem State.shiftIn_err (s : State) : (Sys2Proof.Machine.shiftIn s).err = s.err := rfl
@[simp] theorem State.shiftIn_mode (s : State) : (Sys2Proof.Machine.shiftIn s).mode = s.mode := rfl
@[simp] theorem State.shiftIn_busy (s : State) : (Sys2Proof.Machine.shiftIn s).busy = s.busy := rfl
@[simp] theorem State.shiftIn_result (s : State) : (Sys2Proof.Machine.shiftIn s).result = s.result := rfl
@[simp] theorem State.shiftIn_len (s : State) : (Sys2Proof.Machine.shiftIn s).len = s.len := rfl
@[simp] theorem State.shiftIn_count (s : State) : (Sys2Proof.Machine.shiftIn s).count = s.count + 1 := rfl
@[simp] theorem State.shiftIn_inbytes (s : State) : (Sys2Proof.Machine.shiftIn s).inbytes = s.inbytes := rfl
@[simp] theorem State.shiftIn_outbytes (s : State) : (Sys2Proof.Machine.shiftIn s).outbytes = s.outbytes := rfl
@[simp] theorem State.shiftIn_ports (s : State) : (Sys2Proof.Machine.shiftIn s).ports = s.ports := rfl
@[simp] theorem State.shiftIn_host (s : State) : (Sys2Proof.Machine.shiftIn s).host = s.host := rfl
@[simp] theorem State.shiftIn_waiting (s : State) : (Sys2Proof.Machine.shiftIn s).waiting = s.waiting := rfl

/-! ## A host operation done -/

@[simp] theorem State.popHost_bits (s : State) : (s.popHost).bits = s.bits := rfl
@[simp] theorem State.popHost_win (s : State) : (s.popHost).win = s.win := rfl
@[simp] theorem State.popHost_tabA (s : State) : (s.popHost).tabA = s.tabA := rfl
@[simp] theorem State.popHost_tabB (s : State) : (s.popHost).tabB = s.tabB := rfl
@[simp] theorem State.popHost_fsm (s : State) : (s.popHost).fsm = s.fsm := rfl
@[simp] theorem State.popHost_err (s : State) : (s.popHost).err = s.err := rfl
@[simp] theorem State.popHost_mode (s : State) : (s.popHost).mode = s.mode := rfl
@[simp] theorem State.popHost_busy (s : State) : (s.popHost).busy = s.busy := rfl
@[simp] theorem State.popHost_result (s : State) : (s.popHost).result = s.result := rfl
@[simp] theorem State.popHost_len (s : State) : (s.popHost).len = s.len := rfl
@[simp] theorem State.popHost_count (s : State) : (s.popHost).count = s.count := rfl
@[simp] theorem State.popHost_inbytes (s : State) : (s.popHost).inbytes = s.inbytes := rfl
@[simp] theorem State.popHost_outbytes (s : State) : (s.popHost).outbytes = s.outbytes := rfl
@[simp] theorem State.popHost_ports (s : State) : (s.popHost).ports = s.ports := rfl
@[simp] theorem State.popHost_host (s : State) : (s.popHost).host = { s.host with queue := s.host.queue.tail } := rfl
@[simp] theorem State.popHost_waiting (s : State) : (s.popHost).waiting = s.waiting := rfl

/-! ## A host read -/

@[simp] theorem State.hostRead_bits (s : State) (w : Word) : (s.hostRead w).bits = s.bits := rfl
@[simp] theorem State.hostRead_win (s : State) (w : Word) : (s.hostRead w).win = s.win := rfl
@[simp] theorem State.hostRead_tabA (s : State) (w : Word) : (s.hostRead w).tabA = s.tabA := rfl
@[simp] theorem State.hostRead_tabB (s : State) (w : Word) : (s.hostRead w).tabB = s.tabB := rfl
@[simp] theorem State.hostRead_fsm (s : State) (w : Word) : (s.hostRead w).fsm = s.fsm := rfl
@[simp] theorem State.hostRead_err (s : State) (w : Word) : (s.hostRead w).err = s.err := rfl
@[simp] theorem State.hostRead_mode (s : State) (w : Word) : (s.hostRead w).mode = s.mode := rfl
@[simp] theorem State.hostRead_busy (s : State) (w : Word) : (s.hostRead w).busy = s.busy := rfl
@[simp] theorem State.hostRead_result (s : State) (w : Word) : (s.hostRead w).result = s.result := rfl
@[simp] theorem State.hostRead_len (s : State) (w : Word) : (s.hostRead w).len = s.len := rfl
@[simp] theorem State.hostRead_count (s : State) (w : Word) : (s.hostRead w).count = s.count := rfl
@[simp] theorem State.hostRead_inbytes (s : State) (w : Word) : (s.hostRead w).inbytes = s.inbytes := rfl
@[simp] theorem State.hostRead_outbytes (s : State) (w : Word) : (s.hostRead w).outbytes = s.outbytes := rfl
@[simp] theorem State.hostRead_ports (s : State) (w : Word) : (s.hostRead w).ports = s.ports := rfl
@[simp] theorem State.hostRead_host (s : State) (w : Word) :
    (s.hostRead w).host = { s.host with reads := s.host.reads ++ [w] } := rfl
@[simp] theorem State.hostRead_waiting (s : State) (w : Word) : (s.hostRead w).waiting = s.waiting := rfl

/-! ## A command placed -/

@[simp] theorem State.placeCommand_bits (s : State) (w : Word) : (placeCommand w s).bits = s.bits := rfl
@[simp] theorem State.placeCommand_win (s : State) (w : Word) : (placeCommand w s).win = s.win := rfl
@[simp] theorem State.placeCommand_tabA (s : State) (w : Word) : (placeCommand w s).tabA = s.tabA := rfl
@[simp] theorem State.placeCommand_tabB (s : State) (w : Word) : (placeCommand w s).tabB = s.tabB := rfl
@[simp] theorem State.placeCommand_fsm (s : State) (w : Word) : (placeCommand w s).fsm = s.fsm := rfl
@[simp] theorem State.placeCommand_err (s : State) (w : Word) : (placeCommand w s).err = s.err := rfl
@[simp] theorem State.placeCommand_mode (s : State) (w : Word) : (placeCommand w s).mode = s.mode := rfl
@[simp] theorem State.placeCommand_busy (s : State) (w : Word) : (placeCommand w s).busy = false := rfl
@[simp] theorem State.placeCommand_result (s : State) (w : Word) : (placeCommand w s).result = s.result := rfl
@[simp] theorem State.placeCommand_len (s : State) (w : Word) : (placeCommand w s).len = s.len := rfl
@[simp] theorem State.placeCommand_count (s : State) (w : Word) : (placeCommand w s).count = s.count := rfl
@[simp] theorem State.placeCommand_inbytes (s : State) (w : Word) : (placeCommand w s).inbytes = s.inbytes := rfl
@[simp] theorem State.placeCommand_outbytes (s : State) (w : Word) : (placeCommand w s).outbytes = s.outbytes := rfl
@[simp] theorem State.placeCommand_ports (s : State) (w : Word) : (placeCommand w s).ports = s.ports := rfl
@[simp] theorem State.placeCommand_host (s : State) (w : Word) :
    (placeCommand w s).host = { s.host with queue := .write .word 0 w :: s.host.queue } := rfl
@[simp] theorem State.placeCommand_waiting (s : State) (w : Word) : (placeCommand w s).waiting = false := rfl

/-! ## A step that stands at a request -/

@[simp] theorem State.standsAt_bits (s : State) (p : Ports) : (s.standsAt p).bits = s.bits := rfl
@[simp] theorem State.standsAt_win (s : State) (p : Ports) : (s.standsAt p).win = s.win := rfl
@[simp] theorem State.standsAt_tabA (s : State) (p : Ports) : (s.standsAt p).tabA = s.tabA := rfl
@[simp] theorem State.standsAt_tabB (s : State) (p : Ports) : (s.standsAt p).tabB = s.tabB := rfl
@[simp] theorem State.standsAt_fsm (s : State) (p : Ports) : (s.standsAt p).fsm = s.fsm := rfl
@[simp] theorem State.standsAt_err (s : State) (p : Ports) : (s.standsAt p).err = s.err := rfl
@[simp] theorem State.standsAt_mode (s : State) (p : Ports) : (s.standsAt p).mode = s.mode := rfl
@[simp] theorem State.standsAt_busy (s : State) (p : Ports) : (s.standsAt p).busy = s.busy := rfl
@[simp] theorem State.standsAt_result (s : State) (p : Ports) : (s.standsAt p).result = s.result := rfl
@[simp] theorem State.standsAt_len (s : State) (p : Ports) : (s.standsAt p).len = s.len := rfl
@[simp] theorem State.standsAt_count (s : State) (p : Ports) : (s.standsAt p).count = s.count := rfl
@[simp] theorem State.standsAt_inbytes (s : State) (p : Ports) : (s.standsAt p).inbytes = s.inbytes := rfl
@[simp] theorem State.standsAt_outbytes (s : State) (p : Ports) : (s.standsAt p).outbytes = s.outbytes := rfl
@[simp] theorem State.standsAt_ports (s : State) (p : Ports) : (s.standsAt p).ports = p := rfl
@[simp] theorem State.standsAt_host (s : State) (p : Ports) : (s.standsAt p).host = s.host := rfl
@[simp] theorem State.standsAt_waiting (s : State) (p : Ports) : (s.standsAt p).waiting = true := rfl

/-! ## A host that answers every request -/

@[simp] theorem State.answered_bits (s : State) : (s.answered).bits = s.bits := rfl
@[simp] theorem State.answered_win (s : State) : (s.answered).win = s.win := rfl
@[simp] theorem State.answered_tabA (s : State) : (s.answered).tabA = s.tabA := rfl
@[simp] theorem State.answered_tabB (s : State) : (s.answered).tabB = s.tabB := rfl
@[simp] theorem State.answered_fsm (s : State) : (s.answered).fsm = s.fsm := rfl
@[simp] theorem State.answered_err (s : State) : (s.answered).err = s.err := rfl
@[simp] theorem State.answered_mode (s : State) : (s.answered).mode = s.mode := rfl
@[simp] theorem State.answered_busy (s : State) : (s.answered).busy = s.busy := rfl
@[simp] theorem State.answered_result (s : State) : (s.answered).result = s.result := rfl
@[simp] theorem State.answered_len (s : State) : (s.answered).len = s.len := rfl
@[simp] theorem State.answered_count (s : State) : (s.answered).count = s.count := rfl
@[simp] theorem State.answered_inbytes (s : State) : (s.answered).inbytes = s.inbytes := rfl
@[simp] theorem State.answered_outbytes (s : State) : (s.answered).outbytes = s.outbytes := rfl
@[simp] theorem State.answered_ports (s : State) :
    (s.answered).ports = { s.ports with srcSilentAt := [], sinkSilentAt := [] } := rfl
@[simp] theorem State.answered_host (s : State) : (s.answered).host = s.host := rfl
@[simp] theorem State.answered_waiting (s : State) : (s.answered).waiting = s.waiting := rfl

/-! ## The source failed -/

@[simp] theorem State.sourceFailed_bits (s : State) (e : ErrCode) : (s.sourceFailed e).bits = s.bits := rfl
@[simp] theorem State.sourceFailed_win (s : State) (e : ErrCode) : (s.sourceFailed e).win = s.win := rfl
@[simp] theorem State.sourceFailed_tabA (s : State) (e : ErrCode) : (s.sourceFailed e).tabA = s.tabA := rfl
@[simp] theorem State.sourceFailed_tabB (s : State) (e : ErrCode) : (s.sourceFailed e).tabB = s.tabB := rfl
@[simp] theorem State.sourceFailed_fsm (s : State) (e : ErrCode) : (s.sourceFailed e).fsm = .failed := rfl
@[simp] theorem State.sourceFailed_err (s : State) (e : ErrCode) : (s.sourceFailed e).err = e := rfl
@[simp] theorem State.sourceFailed_mode (s : State) (e : ErrCode) : (s.sourceFailed e).mode = s.mode := rfl
@[simp] theorem State.sourceFailed_busy (s : State) (e : ErrCode) : (s.sourceFailed e).busy = s.busy := rfl
@[simp] theorem State.sourceFailed_result (s : State) (e : ErrCode) : (s.sourceFailed e).result = s.result := rfl
@[simp] theorem State.sourceFailed_len (s : State) (e : ErrCode) : (s.sourceFailed e).len = s.len := rfl
@[simp] theorem State.sourceFailed_count (s : State) (e : ErrCode) : (s.sourceFailed e).count = s.count := rfl
@[simp] theorem State.sourceFailed_inbytes (s : State) (e : ErrCode) : (s.sourceFailed e).inbytes = s.inbytes := rfl
@[simp] theorem State.sourceFailed_outbytes (s : State) (e : ErrCode) : (s.sourceFailed e).outbytes = s.outbytes :=
  rfl
@[simp] theorem State.sourceFailed_ports (s : State) (e : ErrCode) : (s.sourceFailed e).ports = s.ports.srcAfter 1 :=
  rfl
@[simp] theorem State.sourceFailed_host (s : State) (e : ErrCode) : (s.sourceFailed e).host = s.host := rfl
@[simp] theorem State.sourceFailed_waiting (s : State) (e : ErrCode) : (s.sourceFailed e).waiting = s.waiting := rfl

/-! ## The sink failed -/

@[simp] theorem State.sinkFailed_bits (s : State) : (s.sinkFailed).bits = s.bits := rfl
@[simp] theorem State.sinkFailed_win (s : State) : (s.sinkFailed).win = s.win := rfl
@[simp] theorem State.sinkFailed_tabA (s : State) : (s.sinkFailed).tabA = s.tabA := rfl
@[simp] theorem State.sinkFailed_tabB (s : State) : (s.sinkFailed).tabB = s.tabB := rfl
@[simp] theorem State.sinkFailed_fsm (s : State) : (s.sinkFailed).fsm = .failed := rfl
@[simp] theorem State.sinkFailed_err (s : State) : (s.sinkFailed).err = .sinkIo := rfl
@[simp] theorem State.sinkFailed_mode (s : State) : (s.sinkFailed).mode = s.mode := rfl
@[simp] theorem State.sinkFailed_busy (s : State) : (s.sinkFailed).busy = s.busy := rfl
@[simp] theorem State.sinkFailed_result (s : State) : (s.sinkFailed).result = s.result := rfl
@[simp] theorem State.sinkFailed_len (s : State) : (s.sinkFailed).len = s.len := rfl
@[simp] theorem State.sinkFailed_count (s : State) : (s.sinkFailed).count = s.count := rfl
@[simp] theorem State.sinkFailed_inbytes (s : State) : (s.sinkFailed).inbytes = s.inbytes := rfl
@[simp] theorem State.sinkFailed_outbytes (s : State) : (s.sinkFailed).outbytes = s.outbytes := rfl
@[simp] theorem State.sinkFailed_ports (s : State) : (s.sinkFailed).ports = s.ports.sinkAfter 1 := rfl
@[simp] theorem State.sinkFailed_host (s : State) : (s.sinkFailed).host = s.host := rfl
@[simp] theorem State.sinkFailed_waiting (s : State) : (s.sinkFailed).waiting = s.waiting := rfl

/-! ## Power-on reset -/

@[simp] theorem State.powerOn_bits (s : State) : (Sys2Proof.Machine.powerOn s).bits = State.reset.bits := rfl
@[simp] theorem State.powerOn_win (s : State) : (Sys2Proof.Machine.powerOn s).win = State.reset.win := rfl
@[simp] theorem State.powerOn_tabA (s : State) : (Sys2Proof.Machine.powerOn s).tabA = State.reset.tabA := rfl
@[simp] theorem State.powerOn_tabB (s : State) : (Sys2Proof.Machine.powerOn s).tabB = State.reset.tabB := rfl
@[simp] theorem State.powerOn_fsm (s : State) : (Sys2Proof.Machine.powerOn s).fsm = State.reset.fsm := rfl
@[simp] theorem State.powerOn_err (s : State) : (Sys2Proof.Machine.powerOn s).err = State.reset.err := rfl
@[simp] theorem State.powerOn_mode (s : State) : (Sys2Proof.Machine.powerOn s).mode = State.reset.mode := rfl
@[simp] theorem State.powerOn_busy (s : State) : (Sys2Proof.Machine.powerOn s).busy = State.reset.busy := rfl
@[simp] theorem State.powerOn_result (s : State) : (Sys2Proof.Machine.powerOn s).result = State.reset.result := rfl
@[simp] theorem State.powerOn_len (s : State) : (Sys2Proof.Machine.powerOn s).len = State.reset.len := rfl
@[simp] theorem State.powerOn_count (s : State) : (Sys2Proof.Machine.powerOn s).count = State.reset.count := rfl
@[simp] theorem State.powerOn_inbytes (s : State) : (Sys2Proof.Machine.powerOn s).inbytes = State.reset.inbytes := rfl
@[simp] theorem State.powerOn_outbytes (s : State) : (Sys2Proof.Machine.powerOn s).outbytes = State.reset.outbytes :=
  rfl
@[simp] theorem State.powerOn_ports (s : State) : (Sys2Proof.Machine.powerOn s).ports = s.ports := rfl
@[simp] theorem State.powerOn_host (s : State) : (Sys2Proof.Machine.powerOn s).host = s.host := rfl
@[simp] theorem State.powerOn_waiting (s : State) : (Sys2Proof.Machine.powerOn s).waiting = State.reset.waiting := rfl

/-! ## Bytes delivered to the sink -/

@[simp] theorem State.delivered_bits (s : State) (bytes : List Byte) : (s.delivered bytes).bits = s.bits := rfl
@[simp] theorem State.delivered_win (s : State) (bytes : List Byte) : (s.delivered bytes).win = s.win := rfl
@[simp] theorem State.delivered_tabA (s : State) (bytes : List Byte) : (s.delivered bytes).tabA = s.tabA := rfl
@[simp] theorem State.delivered_tabB (s : State) (bytes : List Byte) : (s.delivered bytes).tabB = s.tabB := rfl
@[simp] theorem State.delivered_fsm (s : State) (bytes : List Byte) : (s.delivered bytes).fsm = s.fsm := rfl
@[simp] theorem State.delivered_err (s : State) (bytes : List Byte) : (s.delivered bytes).err = s.err := rfl
@[simp] theorem State.delivered_mode (s : State) (bytes : List Byte) : (s.delivered bytes).mode = s.mode := rfl
@[simp] theorem State.delivered_busy (s : State) (bytes : List Byte) : (s.delivered bytes).busy = s.busy := rfl
@[simp] theorem State.delivered_result (s : State) (bytes : List Byte) : (s.delivered bytes).result = s.result := rfl
@[simp] theorem State.delivered_len (s : State) (bytes : List Byte) : (s.delivered bytes).len = s.len := rfl
@[simp] theorem State.delivered_count (s : State) (bytes : List Byte) : (s.delivered bytes).count = s.count := rfl
@[simp] theorem State.delivered_inbytes (s : State) (bytes : List Byte) : (s.delivered bytes).inbytes = s.inbytes :=
  rfl
@[simp] theorem State.delivered_outbytes (s : State) (bytes : List Byte) :
    (s.delivered bytes).outbytes = s.outbytes + BitVec.ofNat 32 bytes.length := rfl
@[simp] theorem State.delivered_ports (s : State) (bytes : List Byte) :
    (s.delivered bytes).ports = { s.ports.sinkAfter bytes.length with sink := s.ports.sink ++ bytes } := rfl
@[simp] theorem State.delivered_host (s : State) (bytes : List Byte) : (s.delivered bytes).host = s.host := rfl
@[simp] theorem State.delivered_waiting (s : State) (bytes : List Byte) : (s.delivered bytes).waiting = s.waiting :=
  rfl

/-! ## Bytes taken from the source -/

@[simp] theorem State.took_bits (s : State) (m : Nat) : (s.took m).bits = s.bits := rfl
@[simp] theorem State.took_win (s : State) (m : Nat) : (s.took m).win = s.win := rfl
@[simp] theorem State.took_tabA (s : State) (m : Nat) : (s.took m).tabA = s.tabA := rfl
@[simp] theorem State.took_tabB (s : State) (m : Nat) : (s.took m).tabB = s.tabB := rfl
@[simp] theorem State.took_fsm (s : State) (m : Nat) : (s.took m).fsm = s.fsm := rfl
@[simp] theorem State.took_err (s : State) (m : Nat) : (s.took m).err = s.err := rfl
@[simp] theorem State.took_mode (s : State) (m : Nat) : (s.took m).mode = s.mode := rfl
@[simp] theorem State.took_busy (s : State) (m : Nat) : (s.took m).busy = s.busy := rfl
@[simp] theorem State.took_result (s : State) (m : Nat) : (s.took m).result = s.result := rfl
@[simp] theorem State.took_len (s : State) (m : Nat) : (s.took m).len = s.len := rfl
@[simp] theorem State.took_count (s : State) (m : Nat) : (s.took m).count = s.count := rfl
@[simp] theorem State.took_inbytes (s : State) (m : Nat) : (s.took m).inbytes = s.inbytes + BitVec.ofNat 32 m := rfl
@[simp] theorem State.took_outbytes (s : State) (m : Nat) : (s.took m).outbytes = s.outbytes := rfl
@[simp] theorem State.took_ports (s : State) (m : Nat) : (s.took m).ports = s.ports.srcAfter m := rfl
@[simp] theorem State.took_host (s : State) (m : Nat) : (s.took m).host = s.host := rfl
@[simp] theorem State.took_waiting (s : State) (m : Nat) : (s.took m).waiting = s.waiting := rfl

/-! ## One source request -/

@[simp] theorem Ports.srcDone_srcAnswers (p : Ports) : (p.srcDone).srcAnswers = p.srcAnswers.tail := rfl
@[simp] theorem Ports.srcDone_srcAsked (p : Ports) : (p.srcDone).srcAsked = p.srcAsked + 1 := rfl
@[simp] theorem Ports.srcDone_srcSilentAt (p : Ports) : (p.srcDone).srcSilentAt = p.srcSilentAt := rfl
@[simp] theorem Ports.srcDone_sinkAnswers (p : Ports) : (p.srcDone).sinkAnswers = p.sinkAnswers := rfl
@[simp] theorem Ports.srcDone_sinkAsked (p : Ports) : (p.srcDone).sinkAsked = p.sinkAsked := rfl
@[simp] theorem Ports.srcDone_sinkSilentAt (p : Ports) : (p.srcDone).sinkSilentAt = p.sinkSilentAt := rfl
@[simp] theorem Ports.srcDone_sink (p : Ports) : (p.srcDone).sink = p.sink := rfl

/-! ## One sink request -/

@[simp] theorem Ports.sinkDone_srcAnswers (p : Ports) : (p.sinkDone).srcAnswers = p.srcAnswers := rfl
@[simp] theorem Ports.sinkDone_srcAsked (p : Ports) : (p.sinkDone).srcAsked = p.srcAsked := rfl
@[simp] theorem Ports.sinkDone_srcSilentAt (p : Ports) : (p.sinkDone).srcSilentAt = p.srcSilentAt := rfl
@[simp] theorem Ports.sinkDone_sinkAnswers (p : Ports) : (p.sinkDone).sinkAnswers = p.sinkAnswers.tail := rfl
@[simp] theorem Ports.sinkDone_sinkAsked (p : Ports) : (p.sinkDone).sinkAsked = p.sinkAsked + 1 := rfl
@[simp] theorem Ports.sinkDone_sinkSilentAt (p : Ports) : (p.sinkDone).sinkSilentAt = p.sinkSilentAt := rfl
@[simp] theorem Ports.sinkDone_sink (p : Ports) : (p.sinkDone).sink = p.sink := rfl

/-! ## One source request not answered -/

@[simp] theorem Ports.srcUnanswered_srcAnswers (p : Ports) : (p.srcUnanswered).srcAnswers = p.srcAnswers := rfl
@[simp] theorem Ports.srcUnanswered_srcAsked (p : Ports) : (p.srcUnanswered).srcAsked = p.srcAsked + 1 := rfl
@[simp] theorem Ports.srcUnanswered_srcSilentAt (p : Ports) : (p.srcUnanswered).srcSilentAt = p.srcSilentAt := rfl
@[simp] theorem Ports.srcUnanswered_sinkAnswers (p : Ports) : (p.srcUnanswered).sinkAnswers = p.sinkAnswers := rfl
@[simp] theorem Ports.srcUnanswered_sinkAsked (p : Ports) : (p.srcUnanswered).sinkAsked = p.sinkAsked := rfl
@[simp] theorem Ports.srcUnanswered_sinkSilentAt (p : Ports) : (p.srcUnanswered).sinkSilentAt = p.sinkSilentAt := rfl
@[simp] theorem Ports.srcUnanswered_sink (p : Ports) : (p.srcUnanswered).sink = p.sink := rfl

/-! ## One sink request not answered -/

@[simp] theorem Ports.sinkUnanswered_srcAnswers (p : Ports) : (p.sinkUnanswered).srcAnswers = p.srcAnswers := rfl
@[simp] theorem Ports.sinkUnanswered_srcAsked (p : Ports) : (p.sinkUnanswered).srcAsked = p.srcAsked := rfl
@[simp] theorem Ports.sinkUnanswered_srcSilentAt (p : Ports) : (p.sinkUnanswered).srcSilentAt = p.srcSilentAt := rfl
@[simp] theorem Ports.sinkUnanswered_sinkAnswers (p : Ports) : (p.sinkUnanswered).sinkAnswers = p.sinkAnswers := rfl
@[simp] theorem Ports.sinkUnanswered_sinkAsked (p : Ports) : (p.sinkUnanswered).sinkAsked = p.sinkAsked + 1 := rfl
@[simp] theorem Ports.sinkUnanswered_sinkSilentAt (p : Ports) : (p.sinkUnanswered).sinkSilentAt = p.sinkSilentAt :=
  rfl
@[simp] theorem Ports.sinkUnanswered_sink (p : Ports) : (p.sinkUnanswered).sink = p.sink := rfl

/-! ## Several source requests -/

@[simp] theorem Ports.srcAfter_srcAnswers (p : Ports) (m : Nat) : (p.srcAfter m).srcAnswers = p.srcAnswers.drop m :=
  rfl
@[simp] theorem Ports.srcAfter_srcAsked (p : Ports) (m : Nat) : (p.srcAfter m).srcAsked = p.srcAsked + m := rfl
@[simp] theorem Ports.srcAfter_srcSilentAt (p : Ports) (m : Nat) : (p.srcAfter m).srcSilentAt = p.srcSilentAt := rfl
@[simp] theorem Ports.srcAfter_sinkAnswers (p : Ports) (m : Nat) : (p.srcAfter m).sinkAnswers = p.sinkAnswers := rfl
@[simp] theorem Ports.srcAfter_sinkAsked (p : Ports) (m : Nat) : (p.srcAfter m).sinkAsked = p.sinkAsked := rfl
@[simp] theorem Ports.srcAfter_sinkSilentAt (p : Ports) (m : Nat) : (p.srcAfter m).sinkSilentAt = p.sinkSilentAt :=
  rfl
@[simp] theorem Ports.srcAfter_sink (p : Ports) (m : Nat) : (p.srcAfter m).sink = p.sink := rfl

/-! ## Several sink requests -/

@[simp] theorem Ports.sinkAfter_srcAnswers (p : Ports) (m : Nat) : (p.sinkAfter m).srcAnswers = p.srcAnswers := rfl
@[simp] theorem Ports.sinkAfter_srcAsked (p : Ports) (m : Nat) : (p.sinkAfter m).srcAsked = p.srcAsked := rfl
@[simp] theorem Ports.sinkAfter_srcSilentAt (p : Ports) (m : Nat) : (p.sinkAfter m).srcSilentAt = p.srcSilentAt := rfl
@[simp] theorem Ports.sinkAfter_sinkAnswers (p : Ports) (m : Nat) :
    (p.sinkAfter m).sinkAnswers = p.sinkAnswers.drop m := rfl
@[simp] theorem Ports.sinkAfter_sinkAsked (p : Ports) (m : Nat) : (p.sinkAfter m).sinkAsked = p.sinkAsked + m := rfl
@[simp] theorem Ports.sinkAfter_sinkSilentAt (p : Ports) (m : Nat) : (p.sinkAfter m).sinkSilentAt = p.sinkSilentAt :=
  rfl
@[simp] theorem Ports.sinkAfter_sink (p : Ports) (m : Nat) : (p.sinkAfter m).sink = p.sink := rfl

/-! ## The window advanced -/

@[simp] theorem Window.advance_hist (w : Window) (b : Byte) : (w.advance b).hist = w.hist.write w.wcur.toNat b := rfl
@[simp] theorem Window.advance_wcur (w : Window) (b : Byte) : (w.advance b).wcur = w.wcur + 1 := rfl
@[simp] theorem Window.advance_wfill (w : Window) (b : Byte) :
    (w.advance b).wfill = BitVec.ofNat 13 (min (w.wfill.toNat + 1) Config.windowSize) := rfl
@[simp] theorem Window.advance_la (w : Window) (b : Byte) : (w.advance b).la = w.la := rfl
@[simp] theorem Window.advance_lacnt (w : Window) (b : Byte) : (w.advance b).lacnt = w.lacnt := rfl

/-! ## The memories after reset -/

/-- Both RAMs are in canonical form after reset. -/
theorem State.reset_memories_wf : State.reset.win.hist.wf Config.windowSize = true ∧
    State.reset.win.la.wf Config.lookaheadSize = true := ⟨rfl, rfl⟩

end Sys2Proof.Machine
end

