-- ==== Sys2Proof/Laws/Ops.lean ====
section
/-! SUPPORT. One lemma for each shared operation that says everything it can do, the state fields it can touch, and what
the ports' lined-up answers make of a sequence of requests. -/

namespace Sys2Proof.Machine

/-! ## Helper results -/

/-- The state a helper leaves, whether it ends, raises or waits. -/
def Res.state {α : Type} : Res α → State
  | .ok _ s => s
  | .raise _ s => s
  | .waits s => s

@[simp] theorem Res.state_ok {α : Type} (a : α) (s : State) : (Res.ok a s).state = s := rfl
@[simp] theorem Res.state_raise {α : Type} (e : ErrCode) (s : State) : (Res.raise e s : Res α).state = s := rfl
@[simp] theorem Res.state_waits {α : Type} (s : State) : (Res.waits s : Res α).state = s := rfl
@[simp] theorem Res.andThen_ok {α β : Type} (a : α) (s : State) (f : α → State → Res β) :
    (Res.ok a s).andThen f = f a s := rfl
@[simp] theorem Res.andThen_raise {α β : Type} (e : ErrCode) (s : State) (f : α → State → Res β) :
    (Res.raise e s : Res α).andThen f = .raise e s := rfl
@[simp] theorem Res.andThen_waits {α β : Type} (s : State) (f : α → State → Res β) :
    (Res.waits s : Res α).andThen f = .waits s := rfl

theorem Res.andThen_assoc {α β γ : Type} (r : Res α) (f : α → State → Res β) (g : β → State → Res γ) :
    (r.andThen f).andThen g = r.andThen fun a s => (f a s).andThen g := by cases r <;> rfl

/-- A sequence of two parts ends where both do. -/
theorem Res.andThen_eq_ok {α β : Type} {r : Res α} {f : α → State → Res β} {b : β} {t : State} :
    r.andThen f = .ok b t ↔ ∃ a s, r = .ok a s ∧ f a s = .ok b t := by
  cases r <;> simp [Res.andThen]

/-- A sequence of two parts raises where the first does, or where the second does after the first has ended. -/
theorem Res.andThen_eq_raise {α β : Type} {r : Res α} {f : α → State → Res β} {e : ErrCode} {t : State} :
    r.andThen f = .raise e t ↔ r = .raise e t ∨ ∃ a s, r = .ok a s ∧ f a s = .raise e t := by
  cases r <;> simp [Res.andThen]

/-- A sequence of two parts waits where the first does, or where the second does after the first has ended. -/
theorem Res.andThen_eq_waits {α β : Type} {r : Res α} {f : α → State → Res β} {t : State} :
    r.andThen f = .waits t ↔ r = .waits t ∨ ∃ a s, r = .ok a s ∧ f a s = .waits t := by
  cases r <;> simp [Res.andThen]

/-- A relation of states that is transitive and that both parts of a sequence respect is respected by the sequence. -/
theorem Res.state_andThen {α β : Type} {R : State → State → Prop} (trans : ∀ {a b c}, R a b → R b c → R a c)
    {s : State} {r : Res α} {f : α → State → Res β} (h : R s r.state)
    (hf : ∀ a s1, r = .ok a s1 → R s1 (f a s1).state) : R s (r.andThen f).state := by
  cases r with
  | ok a s1 => exact trans h (hf a s1 rfl)
  | raise e s1 => exact h
  | waits s1 => exact h

/-! ## The ports -/

/-- One source request (rule R90), and one that is never answered (rule R92). -/
theorem srcRead_cases (s : State) :
    (∃ b, s.ports.nextSrc = some (.byte b) ∧
      srcRead s = .ok (.byte b) { s with ports := s.ports.srcDone, inbytes := s.inbytes + 1 }) ∨
    (s.ports.nextSrc = some .eof ∧ srcRead s = .ok .eof { s with ports := s.ports.srcDone }) ∨
    (s.ports.nextSrc = some .ioErr ∧ srcRead s = .ok .ioErr { s with ports := s.ports.srcDone }) ∨
    (s.ports.nextSrc = none ∧ srcRead s = .waits { s with ports := s.ports.srcUnanswered }) := by
  unfold srcRead
  rcases s.ports.nextSrc with _ | (_ | _ | _) <;> simp

/-- One sink request (rule R91), and one that is never answered (rule R92). -/
theorem sinkWrite_cases (b : Byte) (s : State) :
    (s.ports.nextSink = some .ok ∧ sinkWrite b s = .ok ()
      { s with ports := { s.ports.sinkDone with sink := s.ports.sink ++ [b] }, outbytes := s.outbytes + 1 }) ∨
    (s.ports.nextSink = some .ioErr ∧ sinkWrite b s = .raise .sinkIo { s with ports := s.ports.sinkDone }) ∨
    (s.ports.nextSink = none ∧ sinkWrite b s = .waits { s with ports := s.ports.sinkUnanswered }) := by
  unfold sinkWrite
  rcases s.ports.nextSink with _ | (_ | _) <;> simp

theorem Ports.nextSrc_eq (p : Ports) : p.nextSrc = p.srcAt 0 := by
  unfold Ports.nextSrc Ports.srcAt
  cases p.srcAnswers <;> simp

theorem Ports.nextSink_eq (p : Ports) : p.nextSink = p.sinkAt 0 := by
  unfold Ports.nextSink Ports.sinkAt
  cases p.sinkAnswers <;> simp

@[simp] theorem Ports.srcAt_srcDone (p : Ports) (k : Nat) : p.srcDone.srcAt k = p.srcAt (k + 1) := by
  unfold Ports.srcAt Ports.srcDone
  cases p.srcAnswers <;> simp [Nat.add_assoc, Nat.add_comm 1 k]

@[simp] theorem Ports.sinkAt_sinkDone (p : Ports) (k : Nat) : p.sinkDone.sinkAt k = p.sinkAt (k + 1) := by
  unfold Ports.sinkAt Ports.sinkDone
  cases p.sinkAnswers <;> simp [Nat.add_assoc, Nat.add_comm 1 k]

theorem Ports.srcDone_eq (p : Ports) : p.srcDone = p.srcAfter 1 := by
  unfold Ports.srcDone Ports.srcAfter
  simp

theorem Ports.sinkDone_eq (p : Ports) : p.sinkDone = p.sinkAfter 1 := by
  unfold Ports.sinkDone Ports.sinkAfter
  simp

@[simp] theorem Ports.srcAfter_zero (p : Ports) : p.srcAfter 0 = p := by simp [Ports.srcAfter]
@[simp] theorem Ports.sinkAfter_zero (p : Ports) : p.sinkAfter 0 = p := by simp [Ports.sinkAfter]

theorem Ports.srcAfter_srcAfter (p : Ports) (m k : Nat) : (p.srcAfter m).srcAfter k = p.srcAfter (m + k) := by
  simp [Ports.srcAfter, Nat.add_assoc]

theorem Ports.sinkAfter_sinkAfter (p : Ports) (m k : Nat) : (p.sinkAfter m).sinkAfter k = p.sinkAfter (m + k) := by
  simp [Ports.sinkAfter, Nat.add_assoc]

theorem Ports.srcAt_srcAfter (p : Ports) (m k : Nat) : (p.srcAfter m).srcAt k = p.srcAt (m + k) := by
  simp [Ports.srcAfter, Ports.srcAt, Nat.add_assoc]

theorem Ports.sinkAt_sinkAfter (p : Ports) (m k : Nat) : (p.sinkAfter m).sinkAt k = p.sinkAt (m + k) := by
  simp [Ports.sinkAfter, Ports.sinkAt, Nat.add_assoc]

@[simp] theorem State.delivered_nil (s : State) : s.delivered [] = s := by
  simp [State.delivered]

@[simp] theorem State.took_zero (s : State) : s.took 0 = s := by simp [State.took]

/-- Delivering one sequence of bytes after another. -/
theorem State.delivered_append (s : State) (xs ys : List Byte) :
    (s.delivered xs).delivered ys = s.delivered (xs ++ ys) := by
  simp [State.delivered, Ports.sinkAfter, Nat.add_assoc, BitVec.add_assoc, BitVec.ofNat_add]

/-- Taking some bytes and then more. -/
theorem State.took_took (s : State) (m k : Nat) : (s.took m).took k = s.took (m + k) := by
  simp [State.took, Ports.srcAfter, Nat.add_assoc, BitVec.add_assoc, BitVec.ofNat_add]

/-- A byte that the sink is about to accept. -/
theorem sinkWrite_of_ok {s : State} {b : Byte} (h : s.ports.sinkAt 0 = some .ok) :
    sinkWrite b s = .ok () (s.delivered [b]) := by
  rw [← Ports.nextSink_eq] at h
  simp [sinkWrite, h, State.delivered, Ports.sinkDone_eq]

/-- Bytes that the sink is about to accept. -/
theorem sendBytes_of_accepts : ∀ (bytes : List Byte) (s : State), s.ports.accepts bytes.length →
    sendBytes bytes s = .ok () (s.delivered bytes)
  | [], s, _ => by simp [sendBytes]
  | b :: bs, s, h => by
    rw [sendBytes, sinkWrite_of_ok (h 0 (by simp)), Res.andThen_ok, sendBytes_of_accepts bs]
    · rw [State.delivered_append]; rfl
    · intro k hk
      have := h (1 + k) (by simp; omega)
      rw [← Ports.sinkAt_sinkAfter] at this
      exact this

/-! ## The end of a step, and acceptance -/

/-- The end of a step: it has ended, it has raised, or it stands at a request that is never answered. -/
theorem endStep_cases {α : Type} (s : State) (last : State → State) (r : Res α) :
    (∃ a t, r = .ok a t ∧ endStep s last r = .next (last t)) ∨
    (∃ e t, r = .raise e t ∧ endStep s last r = .next (last (t.takeError e))) ∨
    (∃ t, r = .waits t ∧ endStep s last r = .next (s.standsAt t.ports)) := by
  cases r with
  | ok a t => exact Or.inl ⟨a, t, rfl, rfl⟩
  | raise e t => exact Or.inr (Or.inl ⟨e, t, rfl, rfl⟩)
  | waits t => exact Or.inr (Or.inr ⟨t, rfl, rfl⟩)

@[simp] theorem finish_ok {α : Type} (s t : State) (a : α) : finish s (.ok a t) = .next t := rfl
@[simp] theorem finish_raise {α : Type} (s t : State) (e : ErrCode) :
    finish s (.raise e t : Res α) = .next (t.takeError e) := rfl
@[simp] theorem finish_waits {α : Type} (s t : State) : finish s (.waits t : Res α) = .next (s.standsAt t.ports) := rfl

/-- The FAILED filter on a command that executes only outside `FAILED`. -/
theorem unlessFailed_cases (s : State) (run : Host.Outcome State Fault Refusal) :
    (s.fsm = .failed ∧ unlessFailed s run = .next s) ∨ (s.fsm ≠ .failed ∧ unlessFailed s run = run) := by
  unfold unlessFailed
  cases s.fsm <;> simp

theorem unlessFailed_of_ne {s : State} (run : Host.Outcome State Fault Refusal) (h : s.fsm ≠ .failed) :
    unlessFailed s run = run := by
  rcases unlessFailed_cases s run with ⟨h1, _⟩ | ⟨_, h2⟩
  · exact absurd h1 h
  · exact h2

theorem accepted_of_ne {s : State} (r : Res Unit) (h : s.fsm ≠ .failed) : accepted s r = finish s r :=
  unlessFailed_of_ne _ h

/-- An operand check. -/
theorem checkOperand_cases (ok : Bool) (s : State) (run : Res Unit) :
    (ok = true ∧ checkOperand ok s run = run) ∨ (ok = false ∧ checkOperand ok s run = .raise .invariant s) := by
  cases ok <;> simp [checkOperand]

/-! ## Bits -/

/-- One bit written (rule R170): it is accumulated, or it fills a byte, which the sink accepts or refuses. -/
theorem writeBit_cases (bit : Bool) (s : State) :
    (s.bits.obits.toNat < 7 ∧ writeBit bit s = .ok () { s with bits := { s.bits with
        obuf := (s.bits.obuf <<< 1) ||| (BitVec.ofBool bit).setWidth 8, obits := s.bits.obits + 1 } }) ∨
    (s.bits.obits.toNat = 7 ∧ writeBit bit s =
      sinkWrite ((s.bits.obuf <<< 1) ||| (BitVec.ofBool bit).setWidth 8)
        { s with bits := { s.bits with obuf := 0, obits := 0 } }) := by
  have := s.bits.obits.isLt
  unfold writeBit
  by_cases h : s.bits.obits.toNat + 1 = 8
  · exact Or.inr ⟨by omega, by simp [h]⟩
  · exact Or.inl ⟨by omega, by simp [h]⟩

/-- The pending bits flushed (rule R171). -/
theorem flushBits_cases (s : State) :
    (s.bits.obits.toNat = 0 ∧ flushBits s = .ok () s) ∨
    (0 < s.bits.obits.toNat ∧ flushBits s = sinkWrite (s.bits.obuf <<< (8 - s.bits.obits.toNat))
      { s with bits := { s.bits with obuf := 0, obits := 0 } }) := by
  unfold flushBits
  by_cases h : 0 < s.bits.obits.toNat
  · exact Or.inr ⟨h, by simp [h]⟩
  · exact Or.inl ⟨by omega, by simp [h]⟩

/-- One bit read (rule R174): from the buffer, or from a new source byte, or an error. -/
theorem readBit_cases (s : State) :
    (s.bits.ibits ≠ 0 ∧ readBit s = takeBit s) ∨
    (s.bits.ibits = 0 ∧ ∃ b, s.ports.nextSrc = some (.byte b) ∧ readBit s = takeBit { s with
      ports := s.ports.srcDone, inbytes := s.inbytes + 1, bits := { s.bits with ibuf := b, ibits := 8 } }) ∨
    (s.bits.ibits = 0 ∧ s.ports.nextSrc = some .eof ∧
      readBit s = .raise .corruptStream { s with ports := s.ports.srcDone }) ∨
    (s.bits.ibits = 0 ∧ s.ports.nextSrc = some .ioErr ∧
      readBit s = .raise .sourceIo { s with ports := s.ports.srcDone }) ∨
    (s.bits.ibits = 0 ∧ s.ports.nextSrc = none ∧ readBit s = .waits { s with ports := s.ports.srcUnanswered }) := by
  by_cases h : s.bits.ibits = 0
  · right
    rw [readBit, if_pos h]
    rcases srcRead_cases s with ⟨b, h1, h2⟩ | ⟨h1, h2⟩ | ⟨h1, h2⟩ | ⟨h1, h2⟩ <;> rw [h2]
    · exact Or.inl ⟨h, b, h1, rfl⟩
    · exact Or.inr (Or.inl ⟨h, h1, rfl⟩)
    · exact Or.inr (Or.inr (Or.inl ⟨h, h1, rfl⟩))
    · exact Or.inr (Or.inr (Or.inr ⟨h, h1, rfl⟩))
  · exact Or.inl ⟨h, by rw [readBit, if_neg h]⟩

/-- The number that `n` bits read make is below `2^n` times one more than the number before them. -/
theorem readBitsFrom_lt : ∀ (n v : Nat) (s t : State) (x : Nat), readBitsFrom n v s = .ok x t → x < (v + 1) * 2 ^ n
  | 0, v, s, t, x, h => by
    simp only [readBitsFrom, Res.ok.injEq] at h
    omega
  | n + 1, v, s, t, x, h => by
    rw [readBitsFrom, Res.andThen_eq_ok] at h
    obtain ⟨b, s1, _, h2⟩ := h
    have := readBitsFrom_lt n _ _ _ _ h2
    have hb : b.toNat ≤ 1 := Bool.toNat_le b
    calc x < (2 * v + b.toNat + 1) * 2 ^ n := this
      _ ≤ (2 * (v + 1)) * 2 ^ n := Nat.mul_le_mul_right _ (by omega)
      _ = (v + 1) * 2 ^ (n + 1) := by rw [Nat.pow_succ]; ring

theorem readBits_lt {n : Nat} {s t : State} {x : Nat} (h : readBits n s = .ok x t) : x < 2 ^ n := by
  simpa using readBitsFrom_lt n 0 s t x h

/-! ## The window and the lookahead -/

/-- The checked read (rule R194). -/
theorem byteAt_cases (d : Nat) (s : State) :
    (1 ≤ d ∧ d ≤ s.win.wfill.toNat ∧ byteAt d s = .ok (histByte s d) s) ∨
    (¬(1 ≤ d ∧ d ≤ s.win.wfill.toNat) ∧ byteAt d s = .raise .invariant s) := by
  unfold byteAt distOk
  by_cases h : 1 ≤ d ∧ d ≤ s.win.wfill.toNat
  · exact Or.inl ⟨h.1, h.2, by simp [h]⟩
  · exact Or.inr ⟨h, by simp [h]⟩

/-- One byte for the lookahead (rule R200): none wanted, one taken, or an error. -/
theorem fillOne_cases (s : State) :
    (wantsByte s = false ∧ fillOne s = .ok false s) ∨
    (wantsByte s = true ∧ ∃ b, s.ports.nextSrc = some (.byte b) ∧ fillOne s = .ok true { s with
      ports := s.ports.srcDone, inbytes := s.inbytes + 1
      win := { s.win with la := s.win.la.write s.win.lacnt.toNat b, lacnt := s.win.lacnt + 1 } }) ∨
    (wantsByte s = true ∧ (s.ports.nextSrc = some .eof ∨ s.ports.nextSrc = some .ioErr) ∧
      fillOne s = .raise .sourceIo { s with ports := s.ports.srcDone }) ∨
    (wantsByte s = true ∧ s.ports.nextSrc = none ∧ fillOne s = .waits { s with ports := s.ports.srcUnanswered }) := by
  unfold fillOne
  cases hw : wantsByte s
  · simp
  · rcases srcRead_cases s with ⟨b, h1, h2⟩ | ⟨h1, h2⟩ | ⟨h1, h2⟩ | ⟨h1, h2⟩ <;> simp [h1, h2]

/-! ## The end of an encoder step -/

/-- The `Consume` of an encoder step: nothing where the lookahead is empty (log entry 10). -/
theorem consumeToken_cases (tok : Token) (s : State) :
    (s.win.lacnt = 0 ∧ consumeToken tok s = .ok () s) ∨ (s.win.lacnt ≠ 0 ∧ consumeToken tok s = consume tok.size s) := by
  by_cases h : s.win.lacnt = 0
  · exact Or.inl ⟨h, if_pos h⟩
  · exact Or.inr ⟨h, if_neg h⟩

/-- The end of an encoder step (rule R290): tokens are still to come, or the pending bits are flushed and the step ends,
raises or waits with that flush. -/
theorem closeEncode_cases (s : State) :
    (s.win.lacnt ≠ 0 ∧ closeEncode s = .ok () (s.setFsm .searching)) ∨
    (s.win.lacnt = 0 ∧ closeEncode s = (flushBits s).andThen fun _ s1 => .ok () (s1.setFsm .done)) := by
  by_cases h : s.win.lacnt = 0
  · exact Or.inr ⟨h, if_pos h⟩
  · exact Or.inl ⟨h, if_neg h⟩

/-! ## What the operations leave alone -/

/-- Only the Bit Channel, the ports and `OUTBYTES` differ. -/
def State.OutputSide (s t : State) : Prop := ∃ b p o, t = { s with bits := b, ports := p, outbytes := o }

/-- Only the Bit Channel, the ports and `INBYTES` differ. -/
def State.InputSide (s t : State) : Prop := ∃ b p o, t = { s with bits := b, ports := p, inbytes := o }

/-- Only the window, the lookahead, `COUNT`, the ports and `INBYTES` differ. -/
def State.LookaheadSide (s t : State) : Prop :=
  ∃ w c p o, t = { s with win := w, count := c, ports := p, inbytes := o }

/-- Only the window, `COUNT`, the ports and `OUTBYTES` differ. -/
def State.CopySide (s t : State) : Prop := ∃ w c p o, t = { s with win := w, count := c, ports := p, outbytes := o }

theorem State.OutputSide.refl (s : State) : s.OutputSide s := ⟨s.bits, s.ports, s.outbytes, rfl⟩
theorem State.InputSide.refl (s : State) : s.InputSide s := ⟨s.bits, s.ports, s.inbytes, rfl⟩
theorem State.LookaheadSide.refl (s : State) : s.LookaheadSide s := ⟨s.win, s.count, s.ports, s.inbytes, rfl⟩
theorem State.CopySide.refl (s : State) : s.CopySide s := ⟨s.win, s.count, s.ports, s.outbytes, rfl⟩

theorem State.OutputSide.trans {a b c : State} (h : a.OutputSide b) (h' : b.OutputSide c) : a.OutputSide c := by
  obtain ⟨_, _, _, rfl⟩ := h
  obtain ⟨x, p, o, rfl⟩ := h'
  exact ⟨x, p, o, rfl⟩

theorem State.InputSide.trans {a b c : State} (h : a.InputSide b) (h' : b.InputSide c) : a.InputSide c := by
  obtain ⟨_, _, _, rfl⟩ := h
  obtain ⟨x, p, o, rfl⟩ := h'
  exact ⟨x, p, o, rfl⟩

theorem State.LookaheadSide.trans {a b c : State} (h : a.LookaheadSide b) (h' : b.LookaheadSide c) :
    a.LookaheadSide c := by
  obtain ⟨_, _, _, _, rfl⟩ := h
  obtain ⟨x, k, p, o, rfl⟩ := h'
  exact ⟨x, k, p, o, rfl⟩

theorem State.CopySide.trans {a b c : State} (h : a.CopySide b) (h' : b.CopySide c) : a.CopySide c := by
  obtain ⟨_, _, _, _, rfl⟩ := h
  obtain ⟨x, k, p, o, rfl⟩ := h'
  exact ⟨x, k, p, o, rfl⟩

theorem sinkWrite_outputSide (b : Byte) (s : State) : s.OutputSide (sinkWrite b s).state := by
  rcases sinkWrite_cases b s with ⟨_, h⟩ | ⟨_, h⟩ | ⟨_, h⟩ <;> rw [h] <;> exact ⟨_, _, _, rfl⟩

theorem writeBit_outputSide (bit : Bool) (s : State) : s.OutputSide (writeBit bit s).state := by
  rcases writeBit_cases bit s with ⟨_, h⟩ | ⟨_, h⟩ <;> rw [h]
  · exact ⟨_, _, _, rfl⟩
  · exact State.OutputSide.trans ⟨_, _, _, rfl⟩ (sinkWrite_outputSide _ _)

/-- Writing bits touches the output side only. -/
theorem writeBitList_outputSide : ∀ (bits : List Bool) (s : State), s.OutputSide (writeBitList bits s).state
  | [], s => State.OutputSide.refl s
  | b :: bs, s => Res.state_andThen (R := State.OutputSide) State.OutputSide.trans (writeBit_outputSide b s) fun _ s1 _ =>
      writeBitList_outputSide bs s1

/-- A flush touches the output side only. -/
theorem flushBits_outputSide (s : State) : s.OutputSide (flushBits s).state := by
  rcases flushBits_cases s with ⟨_, h⟩ | ⟨_, h⟩ <;> rw [h]
  · exact State.OutputSide.refl s
  · exact State.OutputSide.trans ⟨_, _, _, rfl⟩ (sinkWrite_outputSide _ _)

/-- Reading a bit touches the input side only. -/
theorem readBit_inputSide (s : State) : s.InputSide (readBit s).state := by
  rcases readBit_cases s with ⟨_, h⟩ | ⟨_, b, _, h⟩ | ⟨_, _, h⟩ | ⟨_, _, h⟩ | ⟨_, _, h⟩ <;> rw [h] <;> exact ⟨_, _, _, rfl⟩

/-- Reading bits touches the input side only. -/
theorem readBitsFrom_inputSide : ∀ (n v : Nat) (s : State), s.InputSide (readBitsFrom n v s).state
  | 0, _, s => State.InputSide.refl s
  | n + 1, _, s => Res.state_andThen (R := State.InputSide) State.InputSide.trans (readBit_inputSide s) fun _ s1 _ =>
      readBitsFrom_inputSide n _ s1

/-- Walking a tree along the input touches the input side only. -/
theorem walkFrom_inputSide (t : TableSel) : ∀ (fuel c : Nat) (s : State), s.InputSide (walkFrom t fuel c s).state
  | 0, _, s => State.InputSide.refl s
  | fuel + 1, c, s => by
    unfold walkFrom
    split
    · exact Res.state_andThen (R := State.InputSide) State.InputSide.trans (readBit_inputSide s) fun _ s1 _ => walkFrom_inputSide t fuel _ s1
    · exact State.InputSide.refl s

theorem fillOne_lookaheadSide (s : State) : s.LookaheadSide (fillOne s).state := by
  rcases fillOne_cases s with ⟨_, h⟩ | ⟨_, b, _, h⟩ | ⟨_, _, h⟩ | ⟨_, _, h⟩ <;> rw [h]
  · exact State.LookaheadSide.refl s
  · exact ⟨_, _, _, _, rfl⟩
  · exact ⟨_, _, _, _, rfl⟩
  · exact ⟨_, _, _, _, rfl⟩

/-- Filling the lookahead touches the lookahead side only. -/
theorem fillUpTo_lookaheadSide : ∀ (n : Nat) (s : State), s.LookaheadSide (fillUpTo n s).state
  | 0, s => State.LookaheadSide.refl s
  | n + 1, s => Res.state_andThen (R := State.LookaheadSide) State.LookaheadSide.trans (fillOne_lookaheadSide s) fun took s1 _ => by
      cases took
      · exact State.LookaheadSide.refl s1
      · exact fillUpTo_lookaheadSide n s1

/-- Consuming touches the lookahead side only. -/
theorem consumeTurns_lookaheadSide : ∀ (k : Nat) (s : State), s.LookaheadSide (consumeTurns k s).state
  | 0, s => State.LookaheadSide.refl s
  | k + 1, s => Res.state_andThen (R := State.LookaheadSide) State.LookaheadSide.trans
      (Res.state_andThen (R := State.LookaheadSide) State.LookaheadSide.trans
        (State.LookaheadSide.trans ⟨_, _, s.ports, s.inbytes, rfl⟩ (fillOne_lookaheadSide (shiftIn s)))
        fun _ s1 _ => State.LookaheadSide.refl s1)
      fun _ s1 _ => consumeTurns_lookaheadSide k s1

/-- Copying a match touches the copy side only. -/
theorem copyBytes_copySide (d : Nat) : ∀ (n : Nat) (s : State), s.CopySide (copyBytes d n s).state
  | 0, s => State.CopySide.refl s
  | n + 1, s => by
    refine Res.state_andThen (R := State.CopySide) State.CopySide.trans (Res.state_andThen (R := State.CopySide) State.CopySide.trans ?_ ?_) fun _ s1 _ =>
      copyBytes_copySide d n s1
    · rcases byteAt_cases d s with ⟨_, _, h⟩ | ⟨_, h⟩ <;> rw [h] <;> exact State.CopySide.refl s
    · intro b s1 _
      refine Res.state_andThen (R := State.CopySide) State.CopySide.trans ?_ fun _ s2 _ => ⟨_, _, s2.ports, s2.outbytes, rfl⟩
      rcases sinkWrite_cases b s1 with ⟨_, h⟩ | ⟨_, h⟩ | ⟨_, h⟩ <;> rw [h] <;> exact ⟨_, _, _, _, rfl⟩

end Sys2Proof.Machine
end

