-- ==== Sys2Proof/Laws/DecStep.lean ====
section
/-! SUPPORT. The decoder's step as rule R310 writes it, line by line, and the proof that the step of the model, which
fetches a token's bits and then executes the token, is that. -/

namespace Sys2Proof.Machine

/-! ## The pseudocode of rule R310 -/

/-- The branch `s < 256` of rule R310, to its token descriptor. -/
def ruleR310Lit (sym : Nat) (s : State) : Res Word :=
  (sinkWrite (BitVec.ofNat 8 sym) s).andThen fun _ s1 =>
    .ok (literalDesc (BitVec.ofNat 8 sym)) (advance (BitVec.ofNat 8 sym) s1).countUp

/-- The branch `s >= 256` of rule R310, to its token descriptor. -/
def ruleR310Match (sym : Nat) (s : State) : Res Word :=
  let len := sym - 253
  (decodeSymbol .b s).andThen fun c s1 =>
    (readBits 6 s1).andThen fun low s2 =>
      let d := c * 64 + low + 1
      if s2.len.toNat - s2.count.toNat < len then .raise .corruptStream s2
      else if s2.win.wfill.toNat < d then .raise .corruptStream s2
      else (copyBytes d len s2).andThen fun _ s3 => .ok (matchDesc (BitVec.ofNat 6 len) (BitVec.ofNat 13 d)) s3

/-- `DecStep()` as rule R310 writes it: `DecodeSymbol` bumps its table before the next line runs. -/
def ruleR310 (s : State) : Res Unit :=
  if s.fsm ≠ .reading ∨ s.mode ≠ .decode then .raise .sequence s
  else
    (decodeSymbol .a s).andThen fun sym s1 =>
      let s2 := s1.setFsm .reconstructing
      (if sym < 256 then ruleR310Lit sym s2 else ruleR310Match sym s2).andThen fun tok s3 =>
        .ok () ((s3.setResult tok).setFsm (if s3.count = s3.len then .done else .reading))

/-! ## A bump and the reading of bits do not meet -/

/-- A helper's result with its state changed. -/
def Res.mapState {α : Type} (r : Res α) (g : State → State) : Res α :=
  match r with
  | .ok a s => .ok a (g s)
  | .raise e s => .raise e (g s)
  | .waits s => .waits (g s)

theorem Res.mapState_andThen {α β : Type} (r : Res α) (g : State → State) (f f' : α → State → Res β)
    (h : ∀ a s, f a (g s) = (f' a s).mapState g) : (r.mapState g).andThen f = (r.andThen f').mapState g := by
  cases r with
  | ok a s => exact h a s
  | raise e s => rfl
  | waits s => rfl

theorem readBit_bumpSym (t : TableSel) (x : Nat) (s : State) :
    readBit (s.bumpSym t x) = (readBit s).mapState fun u => u.bumpSym t x := by
  rcases readBit_cases s with ⟨h, e⟩ | ⟨h, b, hb, e⟩ | ⟨h, hb, e⟩ | ⟨h, hb, e⟩ | ⟨h, hb, e⟩ <;> rw [e]
  · rw [readBit, if_neg (by simpa using h)]
    cases t <;> rfl
  all_goals
    rw [readBit, if_pos (by simpa using h), srcRead, State.bumpSym_ports, hb]
    cases t <;> rfl

theorem readBitsFrom_bumpSym (t : TableSel) (x : Nat) : ∀ (n v : Nat) (s : State),
    readBitsFrom n v (s.bumpSym t x) = (readBitsFrom n v s).mapState fun u => u.bumpSym t x
  | 0, _, _ => rfl
  | n + 1, v, s => by
    rw [readBitsFrom, readBitsFrom, readBit_bumpSym]
    exact Res.mapState_andThen _ _ _ _ fun b s1 => readBitsFrom_bumpSym t x n _ s1

theorem walkFrom_bumpSym_a (x : Nat) : ∀ (fuel c : Nat) (s : State),
    walkFrom .b fuel c (s.bumpSym .a x) = (walkFrom .b fuel c s).mapState fun u => u.bumpSym .a x
  | 0, _, _ => rfl
  | fuel + 1, c, s => by
    rw [walkFrom, walkFrom]
    split
    · rw [readBit_bumpSym]
      exact Res.mapState_andThen _ _ _ _ fun b s1 => walkFrom_bumpSym_a x fuel _ s1
    · rfl

theorem walkSymbol_bumpSym_a (x : Nat) (s : State) :
    walkSymbol .b (s.bumpSym .a x) = (walkSymbol .b s).mapState fun u => u.bumpSym .a x :=
  walkFrom_bumpSym_a x _ _ s

/-! ## A walk ends at a symbol of the table -/

/-- Every link of a table names a node or a symbol (rule R52). -/
theorem CodeTable.sonAt_lt {n w : Nat} {t : CodeTable n w} (h : t.wf = true) (hn : 1 ≤ n) (i : Nat) :
    t.sonAt i < nodeCount n + n := by
  simp only [CodeTable.wf, CodeTable.layout, Bool.and_eq_true, List.all_eq_true, List.mem_range,
    decide_eq_true_eq] at h
  obtain ⟨⟨⟨⟨⟨⟨h1, ⟨⟨_, h2⟩, _⟩⟩, _⟩, _⟩, _⟩, _⟩, _⟩ := h
  simp only [CodeTable.sized, Bool.and_eq_true, decide_eq_true_eq] at h1
  by_cases hi : i < nodeCount n
  · exact h2 i hi
  · have : t.sonAt i = 0 := by
      rw [CodeTable.sonAt, List.getD_eq_default _ _ (by omega)]; rfl
    omega

theorem State.sonAt_lt {s : State} (h : s.tablesOk) (t : TableSel) (i : Nat) :
    s.sonAt t i < tableNodes t + tableSymbols t := by
  cases t
  · exact CodeTable.sonAt_lt h.1 (by decide) i
  · exact CodeTable.sonAt_lt h.2 (by decide) i

theorem State.InputSide.tablesOk {s t : State} (h : s.InputSide t) (hs : s.tablesOk) : t.tablesOk := by
  obtain ⟨_, _, _, rfl⟩ := h; exact hs

theorem walkFrom_lt (t : TableSel) : ∀ (fuel c : Nat) (s s1 : State) (sym : Nat), s.tablesOk →
    c < tableNodes t + tableSymbols t → walkFrom t fuel c s = .ok sym s1 → sym < tableSymbols t
  | 0, c, s, s1, sym, _, hc, h => by
    simp only [walkFrom, Res.ok.injEq] at h
    have : 1 ≤ tableSymbols t := by cases t <;> decide
    omega
  | fuel + 1, c, s, s1, sym, hs, hc, h => by
    rw [walkFrom] at h
    split at h
    · rw [Res.andThen_eq_ok] at h
      obtain ⟨b, s2, h1, h2⟩ := h
      have h3 : s2.tablesOk := by
        have := readBit_inputSide s
        rw [h1] at this
        exact this.tablesOk hs
      exact walkFrom_lt t fuel _ s2 s1 sym h3 (State.sonAt_lt h3 t _) h2
    · simp only [Res.ok.injEq] at h
      have : 1 ≤ tableSymbols t := by cases t <;> decide
      omega

/-- A walk ends at a symbol of the alphabet (rule R146). -/
theorem walkSymbol_lt {t : TableSel} {s s1 : State} {sym : Nat} (hs : s.tablesOk) (h : walkSymbol t s = .ok sym s1) :
    sym < tableSymbols t := walkFrom_lt t _ _ s s1 sym hs (State.sonAt_lt hs t _) h

/-! ## The two steps are one -/

theorem runLit_eq_ruleR310 (sym : Nat) (h : sym < 256) (s : State) (f : Word → State → Res Unit) :
    (ruleR310Lit sym ((s.bumpSym .a sym).setFsm .reconstructing)).andThen f =
      (runLit (BitVec.ofNat 8 sym) (s.setFsm .reconstructing)).andThen fun _ s1 =>
        f (literalDesc (BitVec.ofNat 8 sym)) s1 := by
  have hb : (BitVec.ofNat 8 sym).toNat = sym := by simp [Nat.mod_eq_of_lt h]
  simp only [runLit, ruleR310Lit, hb, Res.andThen_assoc]
  rfl

theorem lengthSymbol_symbolLength {sym : Nat} (h : 256 ≤ sym) (h' : sym < 314) :
    (symbolLength sym).toNat = sym - 253 ∧ lengthSymbol (symbolLength sym).toNat = sym := by
  have e : (symbolLength sym).toNat = sym - 253 := by
    rw [symbolLength, BitVec.toNat_ofNat, Nat.mod_eq_of_lt (by omega)]
  rw [e, lengthSymbol]
  exact ⟨rfl, by omega⟩

theorem distClass_classDist {c low : Nat} (h : c < 64) (h' : low < 64) :
    (classDist c low).toNat = c * 64 + low + 1 ∧ distClass (classDist c low).toNat = c ∧
      classDist c low = BitVec.ofNat 13 (c * 64 + low + 1) := by
  have e : (classDist c low).toNat = c * 64 + low + 1 := by
    rw [classDist, BitVec.toNat_ofNat, Nat.mod_eq_of_lt (by simp only [Config.distLowBits]; omega)]
    rfl
  rw [e, distClass]
  refine ⟨rfl, ?_, rfl⟩
  simp only [Config.distLowBits]
  omega

theorem runMatch_eq_ruleR310 (sym : Nat) (h : 256 ≤ sym) (h' : sym < 314) (s : State) (hs : s.tablesOk)
    (f : Word → State → Res Unit) :
    (ruleR310Match sym ((s.bumpSym .a sym).setFsm .reconstructing)).andThen f =
      (fetchCopy sym (s.setFsm .reconstructing)).andThen fun tok s1 =>
        (tok.run s1).andThen fun _ s2 => f tok.desc s2 := by
  obtain ⟨hl, hls⟩ := lengthSymbol_symbolLength h h'
  have he : (s.bumpSym .a sym).setFsm .reconstructing = (s.setFsm .reconstructing).bumpSym .a sym := rfl
  have hs' : (s.setFsm .reconstructing).tablesOk := hs
  rw [he]
  clear he
  generalize s.setFsm .reconstructing = u at *
  simp only [ruleR310Match, fetchCopy, decodeSymbol, walkSymbol_bumpSym_a, Res.andThen_assoc]
  cases hw : walkSymbol .b u with
  | raise e s1 => rfl
  | waits s1 => rfl
  | ok c s1 =>
    have hc : c < 64 := walkSymbol_lt hs' hw
    simp only [Res.mapState, Res.orBump, Res.andThen_ok, readBits, readBitsFrom_bumpSym]
    cases hr : readBitsFrom Config.distLowBits 0 s1 with
    | raise e s2 => simp only [Res.andThen_raise]
    | waits s2 => simp only [Res.andThen_waits]
    | ok low s2 =>
      have hr' : readBitsFrom 6 0 s1 = .ok low s2 := hr
      have hlow : low < 64 := readBits_lt (n := 6) hr'
      obtain ⟨h1, h2, h3⟩ := distClass_classDist hc hlow
      simp only [Res.andThen_ok, Token.run, runMatch, bumpMatch, hls, h2, Token.desc]
      simp only [hl, h1]
      rw [← h3]
      generalize (s2.bumpSym .a sym).bumpSym .b c = v
      split
      · rfl
      · split
        · rfl
        · rw [Res.andThen_assoc]
          rfl

/-- The step of the model is rule R310's. -/
theorem decStep_eq_ruleR310 (s : State) (hs : s.tablesOk) : decStep s = ruleR310 s := by
  unfold decStep ruleR310
  by_cases h : s.fsm = .reading ∧ s.mode = .decode
  · have h' : ¬(s.fsm ≠ .reading ∨ s.mode ≠ .decode) := by
      rintro (hn | hn)
      · exact hn h.1
      · exact hn h.2
    rw [if_pos h, if_neg h']
    simp only [fetchToken, decodeSymbol, Res.andThen_assoc]
    cases hw : walkSymbol .a s with
    | raise e s1 => rfl
    | waits s1 => rfl
    | ok sym s1 =>
      have hsym : sym < 314 := walkSymbol_lt hs hw
      have hs1 : s1.tablesOk := by
        have := walkFrom_inputSide .a (tableNodes .a) (s.sonAt .a (tableNodes .a - 1)) s
        rw [← walkSymbol, hw] at this
        exact this.tablesOk hs
      simp only [Res.andThen_ok]
      by_cases hlit : sym < 256
      · simp only [if_pos hlit, Res.andThen_ok, Token.run]
        rw [runLit_eq_ruleR310 sym hlit]
        rfl
      · simp only [if_neg hlit]
        rw [runMatch_eq_ruleR310 sym (by omega) hsym s1 hs1]
        rfl
  · have h' : s.fsm ≠ .reading ∨ s.mode ≠ .decode := by
      by_cases h1 : s.fsm = .reading
      · exact Or.inr fun h2 => h ⟨h1, h2⟩
      · exact Or.inl h1
    rw [if_neg h, if_pos h']

end Sys2Proof.Machine
end

