-- ==== Sys2Proof/Laws/Decode.lean ====
section
/-! SUPPORT. The fields of a packed command word, and the length of a bit field. -/

namespace Sys2Proof

/-! ## The fields of a word (rule R120) -/

/-- The bits of a packed word, field by field. -/
theorem getLsbD_packWord (op : BitVec 6) (t : BitVec 1) (cnt : BitVec 5) (imm : BitVec 20) (k : Nat) :
    (packWord op t cnt imm).getLsbD k =
      if k < 20 then imm.getLsbD k else if k < 25 then cnt.getLsbD (k - 20) else if k < 26 then t.getLsbD (k - 25)
      else op.getLsbD (k - 26) := by
  show (op ++ t ++ cnt ++ imm : BitVec (6 + 1 + 5 + 20)).getLsbD k = _
  rw [BitVec.getLsbD_append, BitVec.getLsbD_append, BitVec.getLsbD_append]
  have e2 : k - 20 - 5 = k - 25 := by omega
  have e3 : k - 25 - 1 = k - 26 := by omega
  rw [e2, e3]
  by_cases h1 : k < 20
  · simp [h1]
  · by_cases h2 : k < 25
    · have : k - 20 < 5 := by omega
      simp [h1, h2, this]
    · by_cases h3 : k < 26
      · have h4 : ¬k - 20 < 5 := by omega
        have h5 : k - 25 < 1 := by omega
        simp [h1, h2, h3, h4, h5]
      · have h4 : ¬k - 20 < 5 := by omega
        have h5 : ¬k - 25 < 1 := by omega
        simp [h1, h2, h3, h4, h5]

@[simp] theorem opField_packWord (op : BitVec 6) (t : BitVec 1) (cnt : BitVec 5) (imm : BitVec 20) :
    opField (packWord op t cnt imm) = op := by
  apply BitVec.eq_of_getLsbD_eq
  intro i hi
  rw [opField, BitVec.getLsbD_extractLsb', getLsbD_packWord]
  have e : 26 + i - 26 = i := by omega
  have h1 : ¬26 + i < 20 := by omega
  have h2 : ¬26 + i < 25 := by omega
  have h3 : ¬26 + i < 26 := by omega
  rw [if_neg h1, if_neg h2, if_neg h3, e]
  simp [hi]

@[simp] theorem tField_packWord (op : BitVec 6) (t : BitVec 1) (cnt : BitVec 5) (imm : BitVec 20) :
    tField (packWord op t cnt imm) = t := by
  apply BitVec.eq_of_getLsbD_eq
  intro i hi
  rw [tField, BitVec.getLsbD_extractLsb', getLsbD_packWord]
  have e : 25 + i - 25 = i := by omega
  have h1 : ¬25 + i < 20 := by omega
  have h2 : ¬25 + i < 25 := by omega
  have h3 : 25 + i < 26 := by omega
  rw [if_neg h1, if_neg h2, if_pos h3, e]
  simp [hi]

@[simp] theorem cntField_packWord (op : BitVec 6) (t : BitVec 1) (cnt : BitVec 5) (imm : BitVec 20) :
    cntField (packWord op t cnt imm) = cnt := by
  apply BitVec.eq_of_getLsbD_eq
  intro i hi
  rw [cntField, BitVec.getLsbD_extractLsb', getLsbD_packWord]
  have e : 20 + i - 20 = i := by omega
  have h1 : ¬20 + i < 20 := by omega
  have h2 : 20 + i < 25 := by omega
  rw [if_neg h1, if_pos h2, e]
  simp [hi]

@[simp] theorem immField_packWord (op : BitVec 6) (t : BitVec 1) (cnt : BitVec 5) (imm : BitVec 20) :
    immField (packWord op t cnt imm) = imm := by
  apply BitVec.eq_of_getLsbD_eq
  intro i hi
  rw [immField, BitVec.getLsbD_extractLsb', getLsbD_packWord]
  simp [hi]

@[simp] theorem selOf_selBit (t : TableSel) : selOf (selBit t) = t := by cases t <;> rfl

end Sys2Proof

namespace Sys2Proof.Machine

@[simp] theorem length_fieldBits (v : Nat) : ∀ n, (fieldBits v n).length = n
  | 0 => rfl
  | n + 1 => by rw [fieldBits, List.length_cons, length_fieldBits v n]

end Sys2Proof.Machine
end

