-- ==== Sys2Proof/Laws/Memory.lean ====
section
/-! SUPPORT. The laws of the two byte RAMs: every operation keeps the canonical form, a read after a write gives what was
written there and elsewhere what was read before, and equal reads make equal memories. -/

namespace Sys2Proof.Machine

/-! ## The canonical form -/

/-- The canonical form as addresses strictly rising, each within its bounds, and no unlisted byte listed. -/
theorem cellsWf_iff (size : Nat) : ∀ (cs : List Host.Cell) (lo : Nat), cellsWf size lo cs = true ↔
    cs.Pairwise (fun c d => c.1 < d.1) ∧ ∀ c ∈ cs, lo ≤ c.1 ∧ c.1 < size ∧ c.2 ≠ unlistedByte
  | [], lo => by simp [cellsWf]
  | (a, v) :: rest, lo => by
    simp only [cellsWf, Bool.and_eq_true, decide_eq_true_eq, cellsWf_iff size rest (a + 1), List.pairwise_cons,
      List.mem_cons, forall_eq_or_imp]
    constructor
    · rintro ⟨⟨⟨h1, h2⟩, h3⟩, h4, h5⟩
      refine ⟨⟨fun c hc => by have := h5 c hc; omega, h4⟩, ⟨h1, h2, h3⟩, fun c hc => ?_⟩
      have := h5 c hc
      exact ⟨by omega, this.2⟩
    · rintro ⟨⟨h1, h2⟩, ⟨h3, h4, h5⟩, h6⟩
      refine ⟨⟨⟨h3, h4⟩, h5⟩, h2, fun c hc => ?_⟩
      have := h1 c hc
      exact ⟨by omega, (h6 c hc).2⟩

/-- The memory that lists nothing is in canonical form. -/
@[simp] theorem Memory.wf_empty (size : Nat) : Memory.empty.wf size = true := rfl

/-- The memory that lists nothing reads as the unlisted byte everywhere. -/
@[simp] theorem Memory.read_empty (a : Nat) : Memory.empty.read a = unlistedByte := rfl

theorem cellsRead_of_forall_ne (a : Nat) : ∀ cs : List Host.Cell, (∀ c ∈ cs, c.1 ≠ a) → cellsRead cs a = unlistedByte
  | [], _ => rfl
  | (b, u) :: rest, h => by
    have hb : b ≠ a := h (b, u) (by simp)
    simp only [cellsRead, hb, if_false]
    exact cellsRead_of_forall_ne a rest fun c hc => h c (by simp [hc])

theorem cellsRead_of_mem {a : Nat} {v : Byte} : ∀ {cs : List Host.Cell}, cs.Pairwise (fun c d => c.1 < d.1) →
    (a, v) ∈ cs → cellsRead cs a = v
  | [], _, h => by simp at h
  | (b, u) :: rest, hs, h => by
    rw [List.pairwise_cons] at hs
    rcases List.mem_cons.mp h with h | h
    · cases h; simp [cellsRead]
    · have : b < a := hs.1 _ h
      have hb : b ≠ a := by omega
      simp only [cellsRead, hb, if_false]
      exact cellsRead_of_mem hs.2 h

/-- An address read as something else than the unlisted byte is listed. -/
theorem mem_of_cellsRead_ne {a : Nat} : ∀ {cs : List Host.Cell}, cellsRead cs a ≠ unlistedByte →
    (a, cellsRead cs a) ∈ cs
  | [], h => absurd rfl h
  | (b, u) :: rest, h => by
    by_cases hb : b = a
    · subst hb; simp [cellsRead]
    · simp only [cellsRead, hb, if_false] at h ⊢
      exact List.mem_cons_of_mem _ (mem_of_cellsRead_ne h)

/-! ## Storing one byte -/

theorem cellsWf_mono {size lo lo' : Nat} {cs : List Host.Cell} (h : lo' ≤ lo) (hw : cellsWf size lo cs = true) :
    cellsWf size lo' cs = true := by
  rw [cellsWf_iff] at hw ⊢
  exact ⟨hw.1, fun c hc => ⟨le_trans h (hw.2 c hc).1, (hw.2 c hc).2⟩⟩

theorem cellsWrite_wf {size a : Nat} (v : Byte) (ha : a < size) : ∀ (cs : List Host.Cell) (lo : Nat), lo ≤ a →
    cellsWf size lo cs = true → cellsWf size lo (cellsWrite cs a v) = true
  | [], lo, hlo, _ => by
    by_cases hv : v = unlistedByte <;> simp [cellsWrite, cellsWf, hv, hlo, ha]
  | (b, u) :: rest, lo, hlo, h => by
    simp only [cellsWf, Bool.and_eq_true, decide_eq_true_eq] at h
    obtain ⟨⟨⟨h1, h2⟩, h3⟩, h4⟩ := h
    by_cases hba : b < a
    · have ih := cellsWrite_wf v ha rest (b + 1) (by omega) h4
      simp [cellsWrite, hba, cellsWf, h1, h2, h3, ih]
    · by_cases he : b = a
      · subst he
        by_cases hv : v = unlistedByte
        · have := cellsWf_mono (by omega : lo ≤ b + 1) h4
          simp [cellsWrite, hv, this]
        · simp [cellsWrite, hv, cellsWf, h1, h2, h4]
      · have hr : cellsWf size (a + 1) ((b, u) :: rest) = true := by
          simp only [cellsWf, Bool.and_eq_true, decide_eq_true_eq]
          exact ⟨⟨⟨by omega, h2⟩, h3⟩, h4⟩
        by_cases hv : v = unlistedByte
        · have := cellsWf_mono (by omega : lo ≤ a + 1) hr
          simp [cellsWrite, hba, he, hv, this]
        · simp only [cellsWrite, hba, he, hv, if_false, cellsWf, Bool.and_eq_true, decide_eq_true_eq]
          simp only [cellsWf, Bool.and_eq_true, decide_eq_true_eq] at hr
          exact ⟨⟨⟨hlo, ha⟩, hv⟩, hr⟩

theorem cellsRead_cellsWrite {size a : Nat} (v : Byte) (x : Nat) : ∀ (cs : List Host.Cell) (lo : Nat),
    cellsWf size lo cs = true → cellsRead (cellsWrite cs a v) x = if x = a then v else cellsRead cs x
  | [], lo, _ => by
    by_cases hv : v = unlistedByte <;> by_cases hx : x = a
    · simp [cellsWrite, cellsRead, hv, hx]
    · simp [cellsWrite, cellsRead, hv, hx]
    · simp [cellsWrite, cellsRead, hv, hx]
    · simp [cellsWrite, cellsRead, hv, hx, Ne.symm hx]
  | (b, u) :: rest, lo, h => by
    simp only [cellsWf, Bool.and_eq_true, decide_eq_true_eq] at h
    obtain ⟨⟨⟨h1, h2⟩, h3⟩, h4⟩ := h
    by_cases hba : b < a
    · have ih := cellsRead_cellsWrite (a := a) v x rest (b + 1) h4
      by_cases hbx : b = x
      · subst hbx
        have hx : b ≠ a := by omega
        simp [cellsWrite, hba, cellsRead, hx]
      · simp [cellsWrite, hba, cellsRead, hbx, ih]
    · have hgt : ∀ c ∈ rest, c.1 ≠ b := fun c hc => by
        have := ((cellsWf_iff size rest (b + 1)).1 h4).2 c hc; omega
      have hlow : ∀ y, y < b → cellsRead ((b, u) :: rest) y = unlistedByte := fun y hy =>
        cellsRead_of_forall_ne y _ fun c hc => by
          rcases List.mem_cons.mp hc with rfl | hc
          · exact (by omega : b ≠ y)
          · have := ((cellsWf_iff size rest (b + 1)).1 h4).2 c hc; omega
      by_cases he : b = a
      · subst he
        by_cases hv : v = unlistedByte
        · by_cases hx : x = b
          · subst hx; simp [cellsWrite, hv, cellsRead_of_forall_ne x rest hgt]
          · simp [cellsWrite, hv, cellsRead, hx, Ne.symm hx]
        · by_cases hx : x = b
          · subst hx; simp [cellsWrite, hv, cellsRead]
          · simp [cellsWrite, hv, cellsRead, hx, Ne.symm hx]
      · by_cases hv : v = unlistedByte
        · by_cases hx : x = a
          · subst hx
            simp only [cellsWrite, hba, he, hv, if_true, if_false]
            exact hlow x (by omega)
          · simp [cellsWrite, hba, he, hv, hx]
        · by_cases hx : x = a
          · subst hx; simp [cellsWrite, hba, he, hv, cellsRead]
          · simp only [cellsWrite, hba, he, hv, if_false, hx]
            rw [cellsRead, if_neg (Ne.symm hx)]

/-- A store keeps the canonical form. -/
theorem Memory.wf_write {size a : Nat} {m : Memory} (v : Byte) (h : m.wf size = true) (ha : a < size) :
    (m.write a v).wf size = true := cellsWrite_wf v ha m.cells 0 (Nat.zero_le a) h

/-- A read after a store. -/
theorem Memory.read_write {size : Nat} {m : Memory} (h : m.wf size = true) (a x : Nat) (v : Byte) :
    (m.write a v).read x = if x = a then v else m.read x := cellsRead_cellsWrite v x m.cells 0 h

/-- A read where a byte was just stored gives that byte. -/
theorem Memory.read_write_same {size : Nat} {m : Memory} (h : m.wf size = true) (a : Nat) (v : Byte) :
    (m.write a v).read a = v := by simp [Memory.read_write h]

/-- A store leaves every other address alone. -/
theorem Memory.read_write_other {size : Nat} {m : Memory} (h : m.wf size = true) {a x : Nat} (v : Byte) (hx : x ≠ a) :
    (m.write a v).read x = m.read x := by simp [Memory.read_write h, hx]

/-! ## The lookahead's shift -/

theorem Memory.mem_shiftDown {m : Memory} {n : Nat} {c : Host.Cell} : c ∈ (m.shiftDown n).cells ↔
    (c.1 + 1 < n ∧ (c.1 + 1, c.2) ∈ m.cells) ∨ (n ≤ c.1 + 1 ∧ c ∈ m.cells) := by
  simp only [Memory.shiftDown, List.mem_append, List.mem_map, List.mem_filter, decide_eq_true_eq]
  constructor
  · rintro (⟨d, ⟨hd, h1, h2⟩, rfl⟩ | ⟨h, h1⟩)
    · have : d.1 - 1 + 1 = d.1 := by omega
      simp only [this]
      exact Or.inl ⟨h2, hd⟩
    · exact Or.inr ⟨h1, h⟩
  · rintro (⟨h1, h2⟩ | ⟨h1, h2⟩)
    · exact Or.inl ⟨(c.1 + 1, c.2), ⟨h2, by simp, h1⟩, by simp⟩
    · exact Or.inr ⟨h2, h1⟩

/-- The shift keeps the canonical form. -/
theorem Memory.wf_shiftDown {size : Nat} {m : Memory} (n : Nat) (h : m.wf size = true) :
    (m.shiftDown n).wf size = true := by
  rw [Memory.wf, cellsWf_iff] at h ⊢
  constructor
  · simp only [Memory.shiftDown]
    refine List.pairwise_append.2 ⟨?_, h.1.filter _, ?_⟩
    · rw [List.pairwise_map]
      refine (h.1.filter _).imp_of_mem ?_
      intro c d hc hd hcd
      simp only [List.mem_filter, decide_eq_true_eq] at hc hd
      show c.1 - 1 < d.1 - 1
      omega
    · intro c hc d hd
      simp only [List.mem_map, List.mem_filter, decide_eq_true_eq] at hc hd
      obtain ⟨e, ⟨_, h1, h2⟩, rfl⟩ := hc
      show e.1 - 1 < d.1
      omega
  · intro c hc
    rcases Memory.mem_shiftDown.1 hc with ⟨_, h2⟩ | ⟨_, h2⟩
    · have := h.2 _ h2
      exact ⟨Nat.zero_le _, by omega, this.2.2⟩
    · exact h.2 _ h2

/-- What the shift leaves: entries `0..n-2` hold what stood one above them, and the others what they held (rule R205). -/
theorem Memory.read_shiftDown {size : Nat} {m : Memory} (h : m.wf size = true) (n a : Nat) :
    (m.shiftDown n).read a = if a + 1 < n then m.read (a + 1) else m.read a := by
  have hp := ((cellsWf_iff size m.cells 0).1 h).1
  have hs := ((cellsWf_iff size _ 0).1 (Memory.wf_shiftDown n h)).1
  by_cases hu : cellsRead (m.shiftDown n).cells a = unlistedByte
  · have hnone : ∀ v, v ≠ unlistedByte → (a, v) ∉ (m.shiftDown n).cells := fun v hv hm =>
      hv ((cellsRead_of_mem hs hm).symm.trans hu)
    by_cases hn : a + 1 < n
    · rw [if_pos hn, Memory.read, hu]
      by_contra hc
      exact hnone _ (Ne.symm hc) (Memory.mem_shiftDown.2 (Or.inl ⟨hn, mem_of_cellsRead_ne (Ne.symm hc)⟩))
    · rw [if_neg hn, Memory.read, hu]
      by_contra hc
      exact hnone _ (Ne.symm hc) (Memory.mem_shiftDown.2 (Or.inr ⟨by simpa using hn, mem_of_cellsRead_ne (Ne.symm hc)⟩))
  · rcases Memory.mem_shiftDown.1 (mem_of_cellsRead_ne hu) with ⟨h1, h2⟩ | ⟨h1, h2⟩
    · rw [if_pos h1]
      exact (cellsRead_of_mem hp h2).symm
    · rw [if_neg (by simpa using h1)]
      exact (cellsRead_of_mem hp h2).symm

/-! ## Equal memories are equal data -/

theorem cells_ext (size : Nat) : ∀ (cs ds : List Host.Cell) (lo : Nat), cellsWf size lo cs = true →
    cellsWf size lo ds = true → (∀ a, cellsRead cs a = cellsRead ds a) → cs = ds
  | [], [], _, _, _, _ => rfl
  | [], (b, u) :: ds, lo, _, hd, h => by
    simp only [cellsWf, Bool.and_eq_true, decide_eq_true_eq] at hd
    have := h b
    simp only [cellsRead, if_true] at this
    exact absurd this.symm hd.1.2
  | (b, u) :: cs, [], lo, hc, _, h => by
    simp only [cellsWf, Bool.and_eq_true, decide_eq_true_eq] at hc
    have := h b
    simp only [cellsRead, if_true] at this
    exact absurd this hc.1.2
  | (b, u) :: cs, (b', u') :: ds, lo, hc, hd, h => by
    have hc' := hc
    have hd' := hd
    simp only [cellsWf, Bool.and_eq_true, decide_eq_true_eq] at hc hd
    obtain ⟨⟨⟨_, _⟩, h3⟩, h4⟩ := hc
    obtain ⟨⟨⟨_, _⟩, g3⟩, g4⟩ := hd
    have hlow : ∀ (lo : Nat) (es : List Host.Cell) (y : Nat), cellsWf size lo es = true → y < lo →
        cellsRead es y = unlistedByte := fun lo es y he hy =>
      cellsRead_of_forall_ne y _ fun c hc => by have := ((cellsWf_iff size es lo).1 he).2 c hc; omega
    have hb : b = b' := by
      rcases Nat.lt_trichotomy b b' with hl | hl | hl
      · have e := h b
        have hr : b' ≠ b := by omega
        simp only [cellsRead, if_true, hr, if_false] at e
        rw [hlow (b' + 1) ds b g4 (by omega)] at e
        exact absurd e h3
      · exact hl
      · have e := h b'
        have hr : b ≠ b' := by omega
        simp only [cellsRead, if_true, hr, if_false] at e
        rw [hlow (b + 1) cs b' h4 (by omega)] at e
        exact absurd e.symm g3
    subst hb
    have hu : u = u' := by simpa [cellsRead] using h b
    subst hu
    congr 1
    refine cells_ext size cs ds (b + 1) h4 g4 fun a => ?_
    by_cases ha : b = a
    · subst ha
      rw [hlow (b + 1) cs b h4 (by omega), hlow (b + 1) ds b g4 (by omega)]
    · simpa [cellsRead, ha] using h a

/-- Two memories in canonical form that read alike everywhere are the same. -/
theorem Memory.ext_read {size : Nat} {m m' : Memory} (h : m.wf size = true) (h' : m'.wf size = true)
    (hr : ∀ a, m.read a = m'.read a) : m = m' := by
  cases m; cases m'
  exact congrArg Memory.mk (cells_ext size _ _ 0 h h' hr)

end Sys2Proof.Machine
end

