-- ==== Sys2Proof/Laws/PerInstr.lean ====
section
/-! SUPPORT. Statements about every instruction as syntax, one lemma a constructor. -/

namespace Sys2Proof.Laws.EncodeLength

/-- A command is one 32-bit word, and a stream token is none (rule R120, rule R143). -/
def Statement (i : Instr) : Prop := (Sys2Proof.encode i).length = if i.isCommand then 1 else 0

theorem nop : Statement .nop := rfl
theorem reset : Statement .reset := rfl
theorem encode : Statement .encode := rfl
theorem decode : Statement .decode := rfl
theorem encinit : Statement .encinit := rfl
theorem encstep : Statement .encstep := rfl
theorem decinit : Statement .decinit := rfl
theorem decstep : Statement .decstep := rfl
theorem wrbits (cnt : BitVec 5) (value : BitVec 20) : Statement (.wrbits cnt value) := rfl
theorem rdbits (cnt : BitVec 5) : Statement (.rdbits cnt) := rfl
theorem flush : Statement .flush := rfl
theorem wadv (byte : Byte) : Statement (.wadv byte) := rfl
theorem byteat (dist : BitVec 13) : Statement (.byteat dist) := rfl
theorem lafill : Statement .lafill := rfl
theorem lapeek (k : BitVec 6) : Statement (.lapeek k) := rfl
theorem lacons (k : BitVec 6) : Statement (.lacons k) := rfl
theorem findm : Statement .findm := rfl
theorem encsym (t : TableSel) (sym : BitVec 9) : Statement (.encsym t sym) := rfl
theorem decsym (t : TableSel) : Statement (.decsym t) := rfl
theorem bump (t : TableSel) (sym : BitVec 9) : Statement (.bump t sym) := rfl
theorem rebuild (t : TableSel) : Statement (.rebuild t) := rfl
theorem rdnode (t : TableSel) (node : BitVec 10) : Statement (.rdnode t node) := rfl
theorem rdleaf (t : TableSel) (sym : BitVec 9) : Statement (.rdleaf t sym) := rfl
theorem lit (b : Byte) : Statement (.lit b) := rfl
theorem matchCopy (len : BitVec 6) (dist : BitVec 13) : Statement (.matchCopy len dist) := rfl

end Sys2Proof.Laws.EncodeLength
end

