-- ==== Sys2Proof/Laws/TreeInit.lean ====
section
/-! SUPPORT. The initial tree meets the invariants of a code table (rule R242), and so does the same tree over any rising
leaf frequencies of which none is above twice the first. -/

namespace Sys2Proof.Machine

/-! ## The sums of the internal nodes -/

/-- Each sum is that of the next pair of nodes, the leaves and the sums together (rule R241). -/
theorem pairSums_getD : ∀ (k : Nat) (l : List Nat), k + 1 ≤ l.length → ∀ j, j < k →
    (pairSums k l).getD j 0 = (l ++ pairSums k l).getD (2 * j) 0 + (l ++ pairSums k l).getD (2 * j + 1) 0
  | 0, _, _, j, hj => by omega
  | k + 1, [], h, _, _ => by simp at h
  | k + 1, [_], h, _, _ => by simp at h
  | k + 1, x :: y :: rest, h, j, hj => by
    have ih := pairSums_getD k (rest ++ [x + y]) (by simp at h ⊢; omega)
    have e : (x :: y :: rest) ++ pairSums (k + 1) (x :: y :: rest) =
        x :: y :: ((rest ++ [x + y]) ++ pairSums k (rest ++ [x + y])) := by simp [pairSums]
    cases j with
    | zero => simp [pairSums]
    | succ j =>
      have := ih j (by omega)
      rw [e, show 2 * (j + 1) = 2 * j + 1 + 1 by ring]
      simpa [pairSums] using this

/-- Pairing keeps the order: where no node is above twice the first, the nodes and the sums rise. -/
theorem pairSums_sorted : ∀ (k : Nat) (l : List Nat), l.Pairwise (· ≤ ·) → (∀ a ∈ l, a ≤ 2 * l.headD 0) →
    (l ++ pairSums k l).Pairwise (· ≤ ·)
  | 0, l, h, _ => by simpa [pairSums] using h
  | k + 1, [], _, _ => by simp [pairSums]
  | k + 1, [_], _, _ => by simp [pairSums]
  | k + 1, x :: y :: rest, h, h2 => by
    have e : (x :: y :: rest) ++ pairSums (k + 1) (x :: y :: rest) =
        x :: y :: ((rest ++ [x + y]) ++ pairSums k (rest ++ [x + y])) := by simp [pairSums]
    simp only [List.pairwise_cons, List.mem_cons, forall_eq_or_imp] at h
    obtain ⟨⟨hxy, hxr⟩, hyr, hr⟩ := h
    simp only [List.mem_cons, forall_eq_or_imp, List.headD_cons] at h2
    have hs : (rest ++ [x + y]).Pairwise (· ≤ ·) := by
      rw [List.pairwise_append]
      refine ⟨hr, by simp, fun a ha b hb => ?_⟩
      have := h2.2.2 a ha
      simp only [List.mem_singleton] at hb
      omega
    have hb : ∀ a ∈ rest ++ [x + y], a ≤ 2 * (rest ++ [x + y]).headD 0 := by
      intro a ha
      cases rest with
      | nil => simp at ha; simp [ha]; omega
      | cons z rest =>
        simp only [List.cons_append, List.mem_cons, List.mem_append, List.mem_nil_iff, or_false,
          List.headD_cons] at ha ⊢
        have hz := hyr z (by simp)
        have hxz := hxr z (by simp)
        rcases ha with rfl | ha | rfl
        · omega
        · have := h2.2.2 a (by simp [ha]); omega
        · omega
    have ih := pairSums_sorted k _ hs hb
    have hall : ∀ a ∈ (rest ++ [x + y]) ++ pairSums k (rest ++ [x + y]), y ≤ a := by
      have hne : ∃ z zs, rest ++ [x + y] = z :: zs ∧ y ≤ z := by
        cases rest with
        | nil => exact ⟨x + y, [], rfl, by omega⟩
        | cons z rest => exact ⟨z, rest ++ [x + y], rfl, hyr z (by simp)⟩
      obtain ⟨z, zs, hz, hyz⟩ := hne
      rw [hz, List.cons_append, List.pairwise_cons] at ih
      rw [hz, List.cons_append]
      intro a ha
      rcases List.mem_cons.mp ha with rfl | ha
      · exact hyz
      · exact le_trans hyz (by simpa [hz] using ih.1 a (by simpa [hz] using ha))
    rw [e]
    refine List.pairwise_cons.2 ⟨fun a ha => ?_, List.pairwise_cons.2 ⟨hall, ih⟩⟩
    rcases List.mem_cons.mp ha with rfl | ha
    · exact hxy
    · exact le_trans hxy (hall a ha)

/-- No sum is above the sum of all the nodes to be paired. -/
theorem pairSums_le_sum : ∀ (k : Nat) (l : List Nat), ∀ a ∈ pairSums k l, a ≤ l.sum
  | 0, _, a, h => by simp [pairSums] at h
  | k + 1, [], a, h => by simp [pairSums] at h
  | k + 1, [_], a, h => by simp [pairSums] at h
  | k + 1, x :: y :: rest, a, h => by
    simp only [pairSums, List.mem_cons] at h
    simp only [List.sum_cons]
    rcases h with rfl | h
    · omega
    · have := pairSums_le_sum k _ a h
      simp only [List.sum_append, List.sum_cons, List.sum_nil] at this
      omega

/-- A sum of positive frequencies is positive. -/
theorem pairSums_pos : ∀ (k : Nat) (l : List Nat), (∀ a ∈ l, 1 ≤ a) → ∀ a ∈ pairSums k l, 1 ≤ a
  | 0, _, _, a, h => by simp [pairSums] at h
  | k + 1, [], _, a, h => by simp [pairSums] at h
  | k + 1, [_], _, a, h => by simp [pairSums] at h
  | k + 1, x :: y :: rest, hl, a, h => by
    simp only [List.mem_cons, forall_eq_or_imp] at hl
    simp only [pairSums, List.mem_cons] at h
    rcases h with rfl | h
    · omega
    · refine pairSums_pos k _ (fun b hb => ?_) a h
      rcases List.mem_append.mp hb with hb | hb
      · exact hl.2.2 b hb
      · simp only [List.mem_singleton] at hb; omega

/-! ## The entries of the tree -/

variable {n w : Nat}

/-- The tree of `TreeInit` over other leaf frequencies. -/
def treeWith (n w : Nat) (l : List Nat) : CodeTable n w :=
  { treeInit n w with freq := (l ++ pairSums (n - 1) l ++ [0xFFFF]).map (BitVec.ofNat 16) }

theorem treeInit_eq_treeWith (n w : Nat) : treeInit n w = treeWith n w (List.replicate n 1) := rfl

/-- The node frequencies of the tree as numbers. -/
def nodeFreqs (n : Nat) (l : List Nat) : List Nat := l ++ pairSums (n - 1) l

theorem length_nodeFreqs {l : List Nat} (hl : l.length = n) (hn : 1 ≤ n) : (nodeFreqs n l).length = nodeCount n := by
  rw [nodeFreqs, List.length_append, length_pairSums _ _ (by omega), hl]
  simp only [nodeCount]
  omega

theorem nodeFreqs_bounds {l : List Nat} (hp : ∀ a ∈ l, 1 ≤ a) : ∀ a ∈ nodeFreqs n l, 1 ≤ a ∧ a ≤ l.sum := by
  intro a ha
  rcases List.mem_append.mp ha with h | h
  · exact ⟨hp a h, List.le_sum_of_mem h⟩
  · exact ⟨pairSums_pos _ _ hp a h, pairSums_le_sum _ _ a h⟩

theorem getD_mem_of_lt {α : Type} {l : List α} {i : Nat} {d : α} (h : i < l.length) : l.getD i d ∈ l := by
  rw [List.getD_eq_getElem _ _ h]; exact List.getElem_mem h

theorem freqAt_treeWith {l : List Nat} (hl : l.length = n) (hn : 1 ≤ n) (hp : ∀ a ∈ l, 1 ≤ a) (hf : l.sum < 2 ^ 16)
    {i : Nat} (hi : i < nodeCount n) : (treeWith n w l).freqAt i = (nodeFreqs n l).getD i 0 := by
  have hlen := length_nodeFreqs hl hn
  have hb := (nodeFreqs_bounds hp _ (getD_mem_of_lt (d := 0) (by omega : i < (nodeFreqs n l).length))).2
  have e : (treeWith n w l).freq = (nodeFreqs n l ++ [0xFFFF]).map (BitVec.ofNat 16) := rfl
  rw [CodeTable.freqAt, e, List.getD_eq_getElem _ _ (by simp; omega), List.getElem_map,
    List.getElem_append_left (by omega), ← List.getD_eq_getElem _ 0, BitVec.toNat_ofNat]
  exact Nat.mod_eq_of_lt (by omega)

theorem freqAt_treeWith_sentinel {l : List Nat} (hl : l.length = n) (hn : 1 ≤ n) :
    (treeWith n w l).freqAt (nodeCount n) = 0xFFFF := by
  have hT : nodeCount n = 2 * n - 1 := rfl
  have hlen := length_nodeFreqs hl hn
  have e : (treeWith n w l).freq = (nodeFreqs n l ++ [0xFFFF]).map (BitVec.ofNat 16) := rfl
  rw [CodeTable.freqAt, e, List.getD_eq_getElem _ _ (by simp; omega), List.getElem_map,
    List.getElem_append_right (by omega)]
  simp [hlen]

theorem sonAt_treeInit (hn : 1 ≤ n) (hw : 3 * n - 1 ≤ 2 ^ w) {i : Nat} (hi : i < nodeCount n) :
    (treeInit n w).sonAt i = if i < n then i + nodeCount n else 2 * (i - n) := by
  simp only [nodeCount] at hi ⊢
  rw [CodeTable.sonAt, treeInit]
  dsimp only
  rw [List.getD_eq_getElem _ _ (by simp; omega), List.getElem_map, BitVec.toNat_ofNat]
  by_cases h : i < n
  · rw [List.getElem_append_left (by simpa using h), if_pos h]
    simp only [List.getElem_map, List.getElem_range]
    exact Nat.mod_eq_of_lt (by simp only [nodeCount]; omega)
  · rw [List.getElem_append_right (by simpa using h), if_neg h]
    simp only [List.getElem_map, List.getElem_range, List.length_map, List.length_range]
    exact Nat.mod_eq_of_lt (by omega)

theorem prntAt_treeInit (hn : 1 ≤ n) (hw : 3 * n - 1 ≤ 2 ^ w) {i : Nat} (hi : i < rootNode n) :
    (treeInit n w).prntAt i = n + i / 2 := by
  have hT : nodeCount n = 2 * n - 1 := rfl
  have hR : rootNode n = 2 * n - 2 := rfl
  rw [CodeTable.prntAt, treeInit]
  dsimp only
  rw [List.getD_eq_getElem _ _ (by simp; omega), List.getElem_map, BitVec.toNat_ofNat,
    List.getElem_append_left (by simp; omega), List.getElem_append_left (by simpa using hi)]
  simp only [List.getElem_map, List.getElem_range]
  exact Nat.mod_eq_of_lt (by omega)

theorem prntAt_treeInit_root : (treeInit n w).prntAt (rootNode n) = 0 := by
  rw [CodeTable.prntAt, treeInit]
  dsimp only
  rw [List.getD_eq_getElem _ _ (by simp), List.getElem_map,
    List.getElem_append_left (by simp), List.getElem_append_right (by simp)]
  simp

theorem leafOf_treeInit (hn : 1 ≤ n) (hw : 3 * n - 1 ≤ 2 ^ w) {s : Nat} (hs : s < n) :
    (treeInit n w).leafOf s = s := by
  have hT : nodeCount n = 2 * n - 1 := rfl
  have hR : rootNode n = 2 * n - 2 := rfl
  rw [CodeTable.leafOf, CodeTable.prntAt, treeInit]
  dsimp only
  rw [List.getD_eq_getElem _ _ (by simp; omega), List.getElem_map, BitVec.toNat_ofNat,
    List.getElem_append_right (by simp; omega)]
  simp only [List.getElem_range, List.length_append, List.length_map, List.length_range, List.length_cons,
    List.length_nil]
  rw [Nat.mod_eq_of_lt (by omega)]
  omega

/-! ## The invariants -/

/-- The tree over rising, positive leaf frequencies, none above twice the first, meets the invariants of rule R55, with
the layout of rule R52 and rule R54. -/
theorem wf_treeWith {l : List Nat} (hn : 2 ≤ n) (hw : 3 * n - 1 ≤ 2 ^ w) (hll : l.length = n)
    (hle : l.Pairwise (· ≤ ·)) (hbal : ∀ a ∈ l, a ≤ 2 * l.headD 0) (hp : ∀ a ∈ l, 1 ≤ a)
    (hf : l.sum ≤ Config.maxFreq) : (treeWith n w l).wf = true := by
  have h1 : 1 ≤ n := by omega
  have h16 : l.sum < 2 ^ 16 := by simp only [Config.maxFreq] at hf; omega
  have hl := length_nodeFreqs hll h1
  have hfreq := fun i (hi : i < nodeCount n) => freqAt_treeWith (w := w) hll h1 hp h16 hi
  have hson : ∀ i, i < nodeCount n → (treeWith n w l).sonAt i = if i < n then i + nodeCount n else 2 * (i - n) :=
    fun i hi => sonAt_treeInit h1 hw hi
  have hprnt : ∀ i, i < rootNode n → (treeWith n w l).prntAt i = n + i / 2 := fun i hi => prntAt_treeInit h1 hw hi
  have hleaf : ∀ s, s < n → (treeWith n w l).leafOf s = s := fun s hs => leafOf_treeInit h1 hw hs
  have hsort : (nodeFreqs n l).Pairwise (· ≤ ·) := pairSums_sorted _ _ hle hbal
  have hsum : ∀ q, q < n - 1 → (nodeFreqs n l).getD (n + q) 0 =
      (nodeFreqs n l).getD (2 * q) 0 + (nodeFreqs n l).getD (2 * q + 1) 0 := by
    intro q hq
    have := pairSums_getD (n - 1) l (by omega) q hq
    rw [nodeFreqs, ← this, ← hll]
    simp [List.getD_eq_getElem?_getD, List.getElem?_append_right]
  simp only [CodeTable.wf, Bool.and_eq_true]
  refine ⟨⟨⟨⟨⟨⟨?_, ?_⟩, ?_⟩, ?_⟩, ?_⟩, ?_⟩, ?_⟩
  · have h := (CodeTable.sized_iff _).1 (sized_treeInit n w h1)
    refine (CodeTable.sized_iff _).2 ⟨?_, h.2⟩
    show ((nodeFreqs n l ++ [0xFFFF]).map (BitVec.ofNat 16)).length = 2 * n
    rw [List.length_map, List.length_append, hl]
    simp only [nodeCount, List.length_cons, List.length_nil]
    omega
  · simp only [CodeTable.layout, Bool.and_eq_true, List.all_eq_true, List.mem_range, decide_eq_true_eq]
    refine ⟨⟨⟨freqAt_treeWith_sentinel hll h1, prntAt_treeInit_root (n := n) (w := w)⟩, fun k hk => ?_⟩, fun s hs => ?_⟩
    · rw [hson k hk]
      simp only [nodeCount] at hk ⊢
      split <;> omega
    · have hsT : s < nodeCount n := by simp only [nodeCount]; omega
      rw [hleaf s hs, hson s hsT, if_pos hs]
      exact ⟨hsT, rfl⟩
  · simp only [CodeTable.ordered, List.all_eq_true, List.mem_range, decide_eq_true_eq]
    intro i hi
    simp only [rootNode] at hi
    rw [hfreq i (by simp only [nodeCount]; omega), hfreq (i + 1) (by simp only [nodeCount]; omega)]
    simp only [nodeCount] at hl
    rw [List.getD_eq_getElem _ _ (by omega), List.getD_eq_getElem _ _ (by omega)]
    exact List.pairwise_iff_getElem.1 hsort i (i + 1) (by omega) (by omega) (by omega)
  · simp only [CodeTable.summed, List.all_eq_true, List.mem_range, Bool.or_eq_true, decide_eq_true_eq]
    intro k hk
    rw [hson k hk]
    by_cases h : k < n
    · rw [if_pos h]; left; omega
    · right
      rw [if_neg h, hfreq k hk]
      simp only [nodeCount] at hk hfreq
      rw [hfreq _ (by omega), hfreq _ (by omega), ← hsum (k - n) (by omega)]
      congr 1
      omega
  · simp only [CodeTable.paired, List.all_eq_true, List.mem_range, Bool.or_eq_true, Bool.and_eq_true,
      decide_eq_true_eq]
    intro k hk
    rw [hson k hk]
    by_cases h : k < n
    · rw [if_pos h]; left; omega
    · right
      simp only [nodeCount] at hk
      rw [if_neg h, hprnt _ (by simp only [rootNode]; omega), hprnt _ (by simp only [rootNode]; omega)]
      omega
  · simp only [CodeTable.leavesLinked, List.all_eq_true, List.mem_range, Bool.or_eq_true, decide_eq_true_eq]
    intro k hk
    rw [hson k hk]
    by_cases h : k < n
    · right
      rw [if_pos h]
      exact hleaf k h
    · left
      simp only [nodeCount] at hk ⊢
      rw [if_neg h]
      omega
  · simp only [CodeTable.positive, List.all_eq_true, List.mem_range, Bool.and_eq_true, decide_eq_true_eq]
    intro i hi
    rw [hfreq i hi]
    have := nodeFreqs_bounds hp _ (getD_mem_of_lt (d := 0) (by omega : i < (nodeFreqs n l).length))
    exact ⟨this.1, le_trans this.2 hf⟩

/-- The tree over two leaf frequencies, the first symbols having the lower one. -/
theorem wf_treeWith_two {k m a b : Nat} (hn : 2 ≤ n) (hw : 3 * n - 1 ≤ 2 ^ w) (hk : k + m = n) (hk1 : 1 ≤ k)
    (ha : 1 ≤ a) (hab : a ≤ b) (hb : b ≤ 2 * a) (hf : k * a + m * b ≤ Config.maxFreq) :
    (treeWith n w (List.replicate k a ++ List.replicate m b)).wf = true := by
  have hmem : ∀ x ∈ List.replicate k a ++ List.replicate m b, x = a ∨ x = b := by
    intro x hx
    rcases List.mem_append.mp hx with h | h
    · exact Or.inl (List.eq_of_mem_replicate h)
    · exact Or.inr (List.eq_of_mem_replicate h)
  refine wf_treeWith hn hw (by simpa using hk) ?_ (fun x hx => ?_) (fun x hx => ?_) (by simpa using hf)
  · simp only [List.pairwise_append, List.pairwise_replicate, List.mem_replicate]
    refine ⟨by simp, by simp, fun x hx y hy => ?_⟩
    omega
  · obtain ⟨j, rfl⟩ : ∃ j, k = j + 1 := ⟨k - 1, by omega⟩
    have := hmem x hx
    simp only [List.replicate_succ, List.cons_append, List.headD_cons]
    omega
  · have := hmem x hx
    omega

/-- The initial tree meets the invariants of rule R55 (rule R242). -/
theorem wf_treeInit (hn : 2 ≤ n) (hw : 3 * n - 1 ≤ 2 ^ w) (hf : n ≤ Config.maxFreq) : (treeInit n w).wf = true := by
  rw [treeInit_eq_treeWith]
  refine wf_treeWith hn hw (by simp) (by simp [List.pairwise_replicate]) (fun a ha => ?_) (fun a ha => ?_) (by simpa)
  · have e := List.eq_of_mem_replicate ha
    obtain ⟨m, rfl⟩ : ∃ m, n = m + 1 := ⟨n - 1, by omega⟩
    simp [List.replicate_succ, e]
  · have := List.eq_of_mem_replicate ha
    omega

end Sys2Proof.Machine
end

