-- ==== Sys2Proof/Laws/Waiting.lean ====
section
/-! SUPPORT. What the machine can do while the block waits inside a step for a port request that is never answered. -/

namespace Sys2Proof.Machine

/-- The platform's way out of a step that has no end: the first reset in the queue, or none. -/
theorem resetOrStuck_cases (s : State) :
    (.powerOnReset ∈ s.host.queue ∧ resetOrStuck s =
      .next (powerOn { s with host := { s.host with queue := s.host.queue.erase .powerOnReset } })) ∨
    (.powerOnReset ∉ s.host.queue ∧ resetOrStuck s = .fault .portNeverAnswered) := by
  unfold resetOrStuck
  by_cases h : HostOp.powerOnReset ∈ s.host.queue <;> simp [h]

/-- A step while the block waits: the host's or the platform's next operation, or the reset that abandons the request, or
none. -/
theorem waitingStep_cases (s : State) :
    (∃ op rest, s.host.queue = op :: rest ∧ proceedsWhileWaiting s.busy op = true ∧ waitingStep s = hostStep op s) ∨
    (∃ op rest, s.host.queue = op :: rest ∧ proceedsWhileWaiting s.busy op = false ∧ waitingStep s = resetOrStuck s) ∨
    (s.host.queue = [] ∧ waitingStep s = .fault .portNeverAnswered) := by
  unfold waitingStep
  cases s.host.queue with
  | nil => simp
  | cons op rest => cases h : proceedsWhileWaiting s.busy op <;> simp [h]

/-- One step: that of a waiting block, the transform's, or the host's next operation. -/
theorem step_cases (s : State) :
    (s.waiting = true ∧ step s = waitingStep s) ∨
    (s.waiting = false ∧ s.host.queue = [] ∧ step s = blockStep s) ∨
    (∃ op rest, s.waiting = false ∧ s.host.queue = op :: rest ∧ step s = hostStep op s) := by
  unfold step
  cases s.waiting <;> cases s.host.queue <;> simp

end Sys2Proof.Machine
end

