-- ==== Sys2Proof/Tests/Slice0.lean ====
section
/-! SUPPORT. The model's own tests, each of one step or one function on a small state with its expected result taken from
the spec, and the witnesses: for each statement with hypotheses, states and operands that meet them. -/

namespace Sys2Proof.Tests

-- The kernel evaluates each test before the next one is read: many at once exhaust the threads.
set_option Elab.async false

open Sys2Proof Sys2Proof.Machine

/-! ## Helpers -/

/-- The reset state with these answers lined up at the ports. -/
def portState (src : List SrcAnswer) (sink : List SinkAnswer) : State :=
  { State.reset with ports := { Ports.reset with srcAnswers := src, sinkAnswers := sink } }

/-- Answers that give these bytes. -/
def bytesOf (l : List Nat) : List SrcAnswer := l.map fun b => .byte (BitVec.ofNat 8 b)

/-- Answers that give these bytes and then this one. -/
def bytesThen (l : List Nat) (last : SrcAnswer) : List SrcAnswer := bytesOf l ++ [last]

/-- The codes of characters. -/
def ascii (l : List Char) : List Nat := l.map Char.toNat

/-- The window that has taken `hist` and holds the lookahead `la`. -/
def windowOf (hist la : List Nat) : Window :=
  { (hist.map (BitVec.ofNat 8)).foldl Window.advance Window.reset with
    la := (la.zipIdx).foldl (fun m c => m.write c.2 (BitVec.ofNat 8 c.1)) Memory.empty
    lacnt := BitVec.ofNat 6 la.length }

/-- A state in the middle of an encode or of unit commands: this window, the declared length, the bytes consumed. -/
def encodeState (hist la : List Nat) (len count : Nat) (src : List SrcAnswer) (sink : List SinkAnswer) : State :=
  { portState src sink with
    win := windowOf hist la, len := BitVec.ofNat 32 len, count := BitVec.ofNat 32 count, fsm := .searching }

/-- A state in the middle of a decode. -/
def decodeState (hist : List Nat) (len : Nat) (src : List SrcAnswer) (sink : List SinkAnswer) : State :=
  { portState src sink with
    win := windowOf hist [], len := BitVec.ofNat 32 len, count := BitVec.ofNat 32 hist.length, fsm := .reading,
    mode := .decode }

/-- The state with a full window: 4096 advances made, entry 0, the oldest, holding 0x11. -/
def fullState (sink : List SinkAnswer) : State :=
  { portState [] sink with win := { Window.reset with hist := ⟨[(0, 0x11)]⟩, wfill := 4096 } }

/-- The outcome is a next state with this property. -/
def leads (o : Host.Outcome State Fault Refusal) (p : State → Bool) : Bool :=
  match o with
  | .next t => p t
  | .fault _ => false
  | .refused _ => false

/-- The error the state is in, with its code. -/
def failedWith (e : ErrCode) (t : State) : Bool := decide (t.fsm = .failed) && decide (t.err = e)

/-- The bits of a code written as a number, for comparison with the codes the spec prints. -/
def codeBits (l : List Nat) : List Bool := l.map fun b => decide (b = 1)

theorem tablesOk_of_init {s : State} (ha : s.tabA = treeInit 314 10) (hb : s.tabB = treeInit 64 8) : s.tablesOk := by
  refine ⟨?_, ?_⟩
  · rw [ha]; exact wf_treeInit (by decide) (by decide) (by decide)
  · rw [hb]; exact wf_treeInit (by decide) (by decide) (by decide)

/-! ## Well-formedness refuses what has no encoding -/

theorem test_wf_refuses_wrbits_count_21 : (Instr.wrbits 21 0).wellFormed = false := by decide
theorem test_wf_refuses_rdbits_count_21 : (Instr.rdbits 21).wellFormed = false := by decide
theorem test_wf_refuses_match_length_2 : (Instr.matchCopy 2 1).wellFormed = false := by decide
theorem test_wf_refuses_match_length_61 : (Instr.matchCopy 61 1).wellFormed = false := by decide
theorem test_wf_refuses_match_distance_0 : (Instr.matchCopy 3 0).wellFormed = false := by decide
theorem test_wf_refuses_match_distance_4097 : (Instr.matchCopy 3 4097).wellFormed = false := by decide
theorem test_wf_accepts_the_limits : (Instr.wrbits 20 0xFFFFF).wellFormed = true ∧
    (Instr.matchCopy 60 4096).wellFormed = true := by decide

/-! ## Decoding: words written out from rule R120 and rule R123, field by field (OP 6 bits, T 1, CNT 5, IMM 20) -/

theorem test_decode_control :
    decode 0b00000000000000000000000000000000 = .ok .nop ∧ decode 0b00000100000000000000000000000000 = .ok .reset := by
  decide

theorem test_decode_transform :
    decode 0b00001000000000000000000000000000 = .ok .encode ∧ decode 0b00001100000000000000000000000000 = .ok .decode ∧
      decode 0b00010000000000000000000000000000 = .ok .encinit ∧
      decode 0b00010100000000000000000000000000 = .ok .encstep ∧
      decode 0b00011000000000000000000000000000 = .ok .decinit ∧
      decode 0b00011100000000000000000000000000 = .ok .decstep := by decide

/-- The word of `WRBITS 20, 0xABCDE` is 0x214ABCDE (V-B2). -/
theorem test_decode_bit_channel :
    decode 0b00100001010010101011110011011110 = .ok (.wrbits 20 0xABCDE) ∧
      decode 0b00100101010000000000000000000000 = .ok (.rdbits 20) ∧
      decode 0b00101000000000000000000000000000 = .ok .flush := by decide

theorem test_decode_window :
    decode 0b01000000000000000000000010101010 = .ok (.wadv 0xAA) ∧
      decode 0b01000100000000000001000000000000 = .ok (.byteat 4096) ∧
      decode 0b01001000000000000000000000000000 = .ok .lafill ∧
      decode 0b01001100000000000000000000000101 = .ok (.lapeek 5) ∧
      decode 0b01010000000000000000000000111100 = .ok (.lacons 60) ∧
      decode 0b01010100000000000000000000000000 = .ok .findm := by decide

theorem test_decode_tables :
    decode 0b01100000000000000000000100111010 = .ok (.encsym .a 314) ∧
      decode 0b01100110000000000000000000000000 = .ok (.decsym .b) ∧
      decode 0b01101010000000000000000000000101 = .ok (.bump .b 5) ∧
      decode 0b01101110000000000000000000000000 = .ok (.rebuild .b) ∧
      decode 0b01110000000000000000001001110010 = .ok (.rdnode .a 626) ∧
      decode 0b01110100000000000000000001000001 = .ok (.rdleaf .a 65) := by decide

/-- `LIT 'A'` from the initial tables is `111001101` (rule R315). -/
theorem test_decode_token_lit :
    decodeToken (treeInit 314 10) (treeInit 64 8) (codeBits [1, 1, 1, 0, 0, 1, 1, 0, 1]) = some (.lit 0x41, []) := by
  decide +kernel

/-- `MATCH 9, 1` from the initial tables is `10010010 000000 000000` (the codes of rule R145). -/
theorem test_decode_token_match :
    decodeToken (treeInit 314 10) (treeInit 64 8)
      (codeBits [1, 0, 0, 1, 0, 0, 1, 0, 0, 0, 0, 0, 0, 0, 0, 0, 0, 0, 0, 0, 1]) = some (.matchCopy 9 1, [true]) := by
  decide +kernel

/-- Each rejection by its name (rule R122, rule R124): V-X1, V-X4, V-B13, V-X3, V-B15, V-W7, V-B14. -/
theorem test_decode_rejects :
    decode 0x2C000000 = .error .reservedOpcode ∧ decode 0x58000000 = .error .reservedOpcode ∧
      decode 0x22000000 = .error .unusedField ∧ decode 0x00100000 = .error .unusedField ∧
      decode 0x24000001 = .error .unusedField ∧ decode 0x44002000 = .error .wideImmediate ∧
      decode 0x25500000 = .error .bitCount := by decide

theorem test_table_word : decodeTableWord 32 0x6A000005 = some (.bump .b 5) := by decide

/-- A placed word is fetched and run by the next step: `NOP` (rule R372) leaves the reset state as it was. -/
theorem test_fetch_runs_the_word : leads (step (State.reset.withFetchWord 32 0x00000000))
    (fun t => decide (t.host = HostSide.reset) && decide (t.status = 0)) = true := by decide

/-- The assembler's line for the word of V-B2 (rule R155). -/
theorem test_assemble_line : assembleLine "WRBITS 20, 0xABCDE" = some 0x214ABCDE := by decide +kernel

/-- V-W10, V-T8 and rule R120: a number fills its field whatever the opcode reads of it, so that the line
gives a word that the format checks refuse. -/
theorem test_assemble_ill_formed_words : assembleLine "LAPEEK 64" = some 0x4C000040 ∧
    assembleLine "RDNODE A, 1024" = some 0x70000400 ∧ assembleLine "WRBITS 21, 0" = some 0x21500000 ∧
    decode 0x4C000040 = .error .wideImmediate := by decide +kernel

/-- Log entry 19: a space inside an operand, and an operand that is empty. -/
theorem test_assemble_refuses : assembleLine "RDBITS 1 2" = none ∧ assembleLine "RDBITS 3," = none := by decide +kernel

/-- V-E2: the program `.len 1`, `LIT 'A'` assembles to the file `01 00 00 00 E6 80` (rule R156). -/
theorem test_assemble_program : assembleProgram [".len 1", "LIT 'A'"] = some [1, 0, 0, 0, 0xE6, 0x80] := by
  decide +kernel

/-- Rule R156(a): a match before the first byte does not assemble. -/
theorem test_assemble_ill_formed_program : assembleProgram [".len 3", "MATCH 3, 1"] = none := by decide +kernel

/-! ## One step of each instruction -/

/-- `NOP` executes in `FAILED` and leaves it (rule R343, rule R372). -/
theorem test_nop : leads (exec .nop { State.reset with fsm := .failed, err := .sinkIo })
    (failedWith .sinkIo) = true := by decide +kernel

/-- `RESET` leaves `FAILED` for `IDLE` and clears `LEN` and `RESULT` (rule R371). -/
theorem test_reset : leads (exec .reset { encodeState [97] [98] 5 1 [] [] with fsm := .failed, err := .sinkIo, result := 7 })
    (fun t => decide (t.status = 0) && decide (t.len = 0) && decide (t.result = 0) && decide (t.count = 0) &&
      decide (t.win.wfill = 0) && decide (t.win.lacnt = 0)) = true := by decide +kernel

/-- V-E1: `ENCODE` of the empty input sends 4 zero bytes and ends with `STATUS` = 0x72. -/
theorem test_encode_empty : leads (exec .encode (portState [] [.ok, .ok, .ok, .ok]))
    (fun t => decide (t.status = 0x72) && decide (t.ports.sink = [0, 0, 0, 0])) = true := by decide +kernel

/-- Step 1 of V-E8: the header is sent, 8 bytes are read, and `BUSY` stays 1 in `SEARCHING`. -/
theorem test_encode_starts : leads
    (exec .encode { portState (bytesOf (ascii "ABABABAB".toList)) [.ok, .ok, .ok, .ok] with len := 8 })
    (fun t => decide (t.status = 0x21) && decide (t.ports.sink = [8, 0, 0, 0]) && decide (t.inbytes = 8) &&
      decide (t.result = 8)) = true := by decide +kernel

/-- Step 1 of the example of rule R321: `LEN` is 8, `BUSY` is 1, `FSM` is `READING` and `MODE` is 1. -/
theorem test_decode_starts : leads (exec .decode (portState (bytesOf [8, 0, 0, 0]) []))
    (fun t => decide (t.status = 0x1051) && decide (t.len = 8)) = true := by decide +kernel

/-- V-D11: an empty file ends in `DONE` with `BUSY` = 0. -/
theorem test_decode_empty : leads (exec .decode (portState (bytesOf [0, 0, 0, 0]) []))
    (fun t => decide (t.status = 0x1072) && decide (t.inbytes = 4)) = true := by decide +kernel

/-- V-X7: `ENCINIT` of 3 bytes: `STATUS` = 0x20, sink `03 00 00 00`. -/
theorem test_encinit : leads (exec .encinit { portState (bytesOf [97, 98, 99]) [.ok, .ok, .ok, .ok] with len := 3 })
    (fun t => decide (t.status = 0x20) && decide (t.ports.sink = [3, 0, 0, 0]) && decide (t.win.lacnt = 3)) = true := by
  decide +kernel

/-- V-E22: a sink error on the header comes before any source read. -/
theorem test_encinit_sink_error : leads (exec .encinit { portState (bytesOf [97, 98, 99]) [.ioErr] with len := 3 })
    (fun t => decide (t.status = 0x284) && decide (t.inbytes = 0) && decide (t.outbytes = 0)) = true := by
  decide +kernel

/-- The first `ENCSTEP` of V-E8: `LIT 'A'` is `111001101`, so `E6` is sent and one bit pends. -/
theorem test_encstep_lit : leads (exec .encstep (encodeState [] (ascii "ABABABAB".toList) 8 0 [] [.ok]))
    (fun t => decide (t.result = 0x40000041) && decide (t.ports.sink = [0xE6]) && decide (t.bits.obits = 1) &&
      decide (t.count = 1) && decide (t.win.lacnt = 7) && decide (t.fsm = .searching)) = true := by decide +kernel

/-- `MATCH 6, 2` from the initial tables is `10001111 000000 000001` (rule R145), 20 bits, and ends the input: `8F 00 10`
with the padding. -/
theorem test_encstep_match : leads
    (exec .encstep (encodeState (ascii ['A', 'B']) (ascii "ABABAB".toList) 8 2 [] [.ok, .ok, .ok]))
    (fun t => decide (t.result = 0xC6000002) && decide (t.ports.sink = [0x8F, 0x00, 0x10]) && decide (t.count = 8) &&
      decide (t.status = 0x72)) = true := by decide +kernel

/-- Rule R290 with rule R293 and rule R334: with an empty lookahead the literal `LA[0]` is sent, the step is the end of the
encode, and no `INVARIANT` is raised. (The first code of 0x41 is 111001101, V-T1.) -/
theorem test_encstep_empty_lookahead : leads
    (exec .encstep { encodeState [0x41] [] 1 1 [] [.ok, .ok] with
      win := { windowOf [0x41] [0x41] with lacnt := 0 }, bits := ⟨5, 3, 0, 0⟩ })
    (fun t => decide (t.status = 0x72) && decide (t.ports.sink = [0xBC, 0xD0]) && decide (t.win.wfill = 1) &&
      decide (t.result = 0x40000041)) = true := by decide +kernel

/-- Rule R17 and rule R341: an `ENCSTEP` whose last flush is refused has written `RESULT` before it (rule R290). -/
theorem test_encstep_last_flush_refused : leads
    (exec .encstep { encodeState [] [0x41] 1 0 [] [.ok, .ioErr] with result := 7 })
    (fun t => decide (t.status = 0x284) && decide (t.result = 0x40000041) && decide (t.count = 1)) = true := by decide +kernel

/-- The example of rule R301: the header `0A 00 00 00`. -/
theorem test_decinit : leads (exec .decinit (portState (bytesOf [10, 0, 0, 0]) []))
    (fun t => decide (t.status = 0x1050) && decide (t.len = 10) && decide (t.result = 10) && decide (t.inbytes = 4)) =
      true := by decide +kernel

/-- V-D7: a truncated header. -/
theorem test_decinit_truncated : leads (exec .decinit (portState (bytesThen [10, 0, 0] .eof) []))
    (fun t => decide (t.status = 0x1384) && decide (t.len = 0) && decide (t.inbytes = 3)) = true := by decide +kernel

/-- The first `DECSTEP` of the example of rule R313: 9 bits, `LIT 'A'`. -/
theorem test_decstep_lit : leads (exec .decstep (decodeState [] 10 (bytesOf [0xE6, 0xC9]) [.ok]))
    (fun t => decide (t.result = 0x40000041) && decide (t.count = 1) && decide (t.ports.sink = [0x41]) &&
      decide (t.bits.ibits = 7) && decide (t.fsm = .reading)) = true := by decide +kernel

/-- The example of rule R316: after `'A'`, `MATCH 9, 1` is `10010010 000000 000000`; it ends a length of 10. -/
theorem test_decstep_match : leads
    (exec .decstep (decodeState [0x41] 10 (bytesOf [0x92, 0x00, 0x00]) (List.replicate 9 .ok)))
    (fun t => decide (t.result = 0xC9000001) && decide (t.ports.sink = List.replicate 9 0x41) &&
      decide (t.count = 10) && decide (t.fsm = .done)) = true := by decide +kernel

/-- V-B2 after V-B1: `WRBITS 20, 0xABCDE` sends `AB CD` and leaves 4 bits. -/
theorem test_wrbits : leads (exec (.wrbits 20 0xABCDE) (portState [] [.ok, .ok]))
    (fun t => decide (t.ports.sink = [0xAB, 0xCD]) && decide (t.bits.obits = 4) && decide (t.bits.obuf = 0x0E) &&
      decide (t.outbytes = 2)) = true := by decide +kernel

/-- V-B7: the bits of the value above `CNT` are ignored. -/
theorem test_wrbits_ignores_high_bits : leads (exec (.wrbits 3 0xFFFFD) (portState [] []))
    (fun t => decide (t.bits.obits = 3) && decide (t.bits.obuf = 5)) = true := by decide +kernel

/-- V-B8, its second read: 9 bits over two bytes. -/
theorem test_rdbits : leads
    (exec (.rdbits 9) { portState (bytesOf [0x5C]) [] with bits := ⟨0, 0, 0xA7, 5⟩ })
    (fun t => decide (t.result = 0x75) && decide (t.bits.ibits = 4) && decide (t.bits.ibuf = 0x5C)) = true := by
  decide +kernel

/-- V-B9: 4 bits are left and a fifth is needed. -/
theorem test_rdbits_eof : leads
    (exec (.rdbits 5) { portState [.eof] [] with bits := ⟨0, 0, 0x5C, 4⟩ })
    (fun t => decide (t.status = 0x384) && decide (t.bits.ibits = 0) && decide (t.result = 0)) = true := by
  decide +kernel

/-- V-B5: three bits `101` are sent as `A0`. -/
theorem test_flush : leads (exec .flush { portState [] [.ok] with bits := ⟨5, 3, 0, 0⟩ })
    (fun t => decide (t.ports.sink = [0xA0]) && decide (t.bits.obits = 0) && decide (t.outbytes = 1)) = true := by
  decide +kernel

/-- V-W3, its last step: the evicted byte 0x11. -/
theorem test_wadv_evicts : leads (exec (.wadv 0x22) (fullState []))
    (fun t => decide (t.result = 0x111) && decide (t.win.wcur = 1) && decide (t.win.wfill = 4096) &&
      decide (t.win.hist.read 0 = 0x22)) = true := by decide +kernel

/-- V-W1: before the window is full nothing is evicted. -/
theorem test_wadv_first : leads (exec (.wadv 0x61) State.reset)
    (fun t => decide (t.result = 0) && decide (t.win.wcur = 1) && decide (t.win.wfill = 1)) = true := by decide +kernel

/-- V-W1: distance 2 reads the older byte, and distance 3 is out of range. -/
theorem test_byteat : leads (exec (.byteat 2) (encodeState [0x61, 0x62] [] 0 0 [] [])) (fun t => decide (t.result = 0x61)) =
      true ∧
    leads (exec (.byteat 3) (encodeState [0x61, 0x62] [] 0 0 [] [])) (failedWith .invariant) = true := by decide +kernel

/-- V-W8: `LAFILL` of `"hello"`. -/
theorem test_lafill : leads (exec .lafill { portState (bytesOf (ascii "hello".toList)) [] with len := 5 })
    (fun t => decide (t.result = 5) && decide (t.inbytes = 5) && decide (t.win.la.read 4 = 0x6F)) = true := by
  decide +kernel

/-- V-W15: a short source. -/
theorem test_lafill_short : leads (exec .lafill { portState (bytesThen [97, 98, 99] .eof) [] with len := 5 })
    (fun t => decide (t.status = 0x184) && decide (t.win.lacnt = 3) && decide (t.result = 0)) = true := by decide +kernel

/-- V-W8 and V-W9: `LAPEEK 1` and `LAPEEK 5` after `LAFILL` of `"hello"`. -/
theorem test_lapeek :
    leads (exec (.lapeek 1) (encodeState [] (ascii "hello".toList) 5 0 [] [])) (fun t => decide (t.result = 0x65)) = true ∧
    leads (exec (.lapeek 5) (encodeState [] (ascii "hello".toList) 5 0 [] [])) (failedWith .invariant) = true := by
  decide +kernel

/-- V-W8: `LACONS 2` after `LAFILL` of `"hello"`. -/
theorem test_lacons : leads (exec (.lacons 2) (encodeState [] (ascii "hello".toList) 5 0 [] []))
    (fun t => decide (t.result = 3) && decide (t.count = 2) && decide (histByte t 1 = 0x65) &&
      decide (histByte t 2 = 0x68) && decide (t.win.la.read 0 = 0x6C)) = true := by decide +kernel

/-- V-W12: `LACONS 6` of 5 bytes moves none. -/
theorem test_lacons_too_many : leads (exec (.lacons 6) (encodeState [] (ascii "hello".toList) 5 0 [] []))
    (fun t => failedWith .invariant t && decide (t.count = 0) && decide (t.win.lacnt = 5)) = true := by decide +kernel

/-- V-M1: `MatchLen(3)` is 9. -/
theorem test_findm : leads (exec .findm (encodeState (ascii "abc".toList) (ascii "abcabcabc".toList) 9 0 [] []))
    (fun t => decide (t.result = 0xC9000003)) = true := by decide +kernel

/-- V-M5: distances 3 and 7 give the same length, and the nearest wins. -/
theorem test_findm_nearest : leads (exec .findm (encodeState (ascii "abcQabc".toList) (ascii "abcZ".toList) 4 0 [] []))
    (fun t => decide (t.result = 0xC3000003)) = true := by decide +kernel

/-- V-T3: `ENCSYM A, 65` sends `E6` and one more bit. -/
theorem test_encsym_a : leads (exec (.encsym .a 65) (portState [] [.ok]))
    (fun t => decide (t.ports.sink = [0xE6]) && decide (t.bits.obits = 1) && decide (t.bits.obuf = 1)) = true := by
  decide +kernel

/-- V-T3: `ENCSYM B, 5`, and then the bump of rule R245 has moved the symbol. -/
theorem test_encsym_b : leads (exec (.encsym .b 5) (portState [] []))
    (fun t => decide (t.bits.obits = 6) && decide (t.bits.obuf = 5) && decide (t.freqAt .b 126 = 65) &&
      decide (t.freqAt .b (t.leafOf .b 5) = 2)) = true := by decide +kernel

/-- V-T4: `DECSYM A` with source `E6 80`. -/
theorem test_decsym_a : leads (exec (.decsym .a) (portState (bytesOf [0xE6, 0x80]) []))
    (fun t => decide (t.result = 0x41) && decide (t.inbytes = 2) && decide (t.bits.ibits = 7)) = true := by
  decide +kernel

/-- V-T4: `DECSYM B` with source `FC`. -/
theorem test_decsym_b : leads (exec (.decsym .b) (portState (bytesOf [0xFC]) []))
    (fun t => decide (t.result = 63) && decide (t.bits.ibits = 2) && decide (t.freqAt .b 126 = 65)) = true := by
  decide +kernel

/-- V-T5: `BUMP B, 0` exchanges symbols 0 and 63. -/
theorem test_bump : leads (exec (.bump .b 0) State.reset)
    (fun t => decide (t.leafOf .b 0 = 63) && decide (t.leafOf .b 63 = 0) && decide (t.freqAt .b 126 = 65) &&
      decide (t.code .b 0 = codeBits [1, 1, 1, 1, 1, 1]) && decide (t.code .b 63 = codeBits [0, 0, 0, 0, 0, 0])) =
      true := by decide +kernel

/-- V-T8: `BUMP B, 64`. -/
theorem test_bump_out_of_range : leads (exec (.bump .b 64) State.reset) (failedWith .invariant) = true := by decide +kernel

/-- V-T7: `REBUILD B` from `TreeInit` leaves every node as it was. -/
theorem test_rebuild_initial : leads (exec (.rebuild .b) State.reset) (fun t => decide (t.tabB = treeInit 64 8)) =
    true := by decide +kernel

/-- Rule R260 on leaves of frequency 3 and, the last, 4: halved and rounded up they are all 2, with the sum 128. -/
theorem test_rebuild_halves : leads
    (exec (.rebuild .b) { State.reset with tabB := treeWith 64 8 (List.replicate 63 3 ++ [4]) })
    (fun t => decide (t.freqAt .b 0 = 2) && decide (t.freqAt .b 126 = 128) && decide (t.leafOf .b 63 = 63)) = true := by
  decide +kernel

/-- V-T2: the roots of both tables. -/
theorem test_rdnode : leads (exec (.rdnode .a 626) State.reset) (fun t => decide (t.result = 0x0270013A)) = true ∧
    leads (exec (.rdnode .b 126) State.reset) (fun t => decide (t.result = 0x007C0040)) = true := by decide +kernel

/-- V-T2: `RDLEAF A, 65`. -/
theorem test_rdleaf : leads (exec (.rdleaf .a 65) State.reset) (fun t => decide (t.result = 0x41)) = true := by
  decide +kernel

/-- V-T8: `RDNODE B, 127` and `RDLEAF B, 64`. -/
theorem test_table_operands_out_of_range : leads (exec (.rdnode .b 127) State.reset) (failedWith .invariant) = true ∧
    leads (exec (.rdleaf .b 64) State.reset) (failedWith .invariant) = true := by decide +kernel

/-- Rule R315: the literal is sent and advanced into the window. -/
theorem test_lit : leads (exec (.lit 0x41) (decodeState [] 10 [] [.ok]))
    (fun t => decide (t.ports.sink = [0x41]) && decide (t.count = 1) && decide (histByte t 1 = 0x41)) = true := by
  decide +kernel

/-- Rule R315: a refused literal is neither counted nor advanced. -/
theorem test_lit_refused : leads (exec (.lit 0x41) (decodeState [] 10 [] [.ioErr]))
    (fun t => failedWith .sinkIo t && decide (t.count = 0) && decide (t.outbytes = 0) && decide (t.win.wfill = 0)) =
      true := by decide +kernel

/-- Rule R316: a match of distance 2 over `"AB"` reads bytes it has itself written. -/
theorem test_match_overlaps : leads (exec (.matchCopy 5 2) (decodeState [0x41, 0x42] 10 [] (List.replicate 5 .ok)))
    (fun t => decide (t.ports.sink = [0x41, 0x42, 0x41, 0x42, 0x41]) && decide (t.count = 7)) = true := by decide +kernel

/-- V-D9: a distance before the start of the output. -/
theorem test_match_bad_distance : leads (exec (.matchCopy 3 1) (decodeState [] 3 [] []))
    (fun t => failedWith .corruptStream t && decide (t.count = 0) && decide (t.outbytes = 0)) = true := by decide +kernel

/-- Rule R85: a halfword read and a misaligned write are refused. -/
theorem test_refusals :
    (match step { State.reset with host := ⟨[.read .half 0x04], []⟩ } with
      | .refused r => decide (r = .narrowAccess) | _ => false) = true ∧
    (match step { State.reset with host := ⟨[.write .word 0x0E 1], []⟩ } with
      | .refused r => decide (r = .misalignedAccess) | _ => false) = true := by decide +kernel

/-- The state in which the second header byte of a decode is never answered. -/
def silentState (queue : List HostOp) (waiting : Bool) : State :=
  { portState (bytesOf [10, 0, 0, 0]) [] with
    ports := { (portState (bytesOf [10, 0, 0, 0]) []).ports with srcSilentAt := [1] }
    host := ⟨queue, []⟩, waiting := waiting, fsm := .done }

/-- Rule R92 and rule R342: the step stands, one byte taken, and `STATUS` shows `DONE` still. -/
theorem test_unanswered_request_waits : leads (exec .decinit (silentState [] false))
    (fun t => t.waiting && decide (t.ports.srcAsked = 2) && decide (t.status = 0x72) && decide (t.inbytes = 0)) = true := by
  decide +kernel

/-- Rule R378: a command that waits at a port has not ended, though `FSM` shows an old `DONE`. -/
theorem test_waiting_command_has_not_ended : (silentState [] true).status = 0x72 ∧
    (silentState [] true).atRunEnd = false ∧ (silentState [] false).atRunEnd = true := by decide +kernel

/-- Rule R370: power-on reset abandons the request, and without one the machine is stuck. -/
theorem test_reset_abandons_a_request :
    leads (step (silentState [.write .word 0x00 0, .powerOnReset] true))
      (fun t => !t.waiting && decide (t.status = 0) && decide (t.host.queue = [.write .word 0x00 0])) = true ∧
    (match step (silentState [.write .word 0x00 0] true) with
      | .fault r => decide (r = .portNeverAnswered) | _ => false) = true := by decide +kernel

/-! ## Witnesses: states and operands that meet the hypotheses of the statements, at the ends of their ranges -/

theorem witness_EncodedCommandDecodesToItself :
    (Instr.wrbits 20 0xFFFFF).wellFormed = true ∧ (Instr.wrbits 20 0xFFFFF).isCommand = true ∧
      (Instr.rdnode .b 0x3FF).wellFormed = true ∧ (Instr.rdnode .b 0x3FF).isCommand = true := by decide +kernel

theorem witness_DecodedWordIsTheEncoding : decode 0x214FFFFF = .ok (.wrbits 20 0xFFFFF) ∧
    decode 0x740001FF = .ok (.rdleaf .a 0x1FF) := by decide +kernel

/-- The ends of each reserved range of opcodes, and `OP` = 0 with another bit set. -/
theorem witness_ReservedOpcodesRaiseIllegalCmd : State.reset.fsm ≠ .failed ∧
    (opField 0x2C000000).toNat = 0x0B ∧ (opField 0x3C000000).toNat = 0x0F ∧ (opField 0x58000000).toNat = 0x16 ∧
    (opField 0x5C000000).toNat = 0x17 ∧ (opField 0x78000000).toNat = 0x1E ∧ (opField 0xFFFFFFFF).toNat = 0x3F ∧
    (opField 0x00000001).toNat = 0 ∧ (0x00000001 : Word) ≠ 0 := by decide +kernel

/-- A word for each clause: an unused `T`, an unused `CNT`, the lowest bit above an operand, and 21 bits. -/
theorem witness_FormatChecksRaiseIllegalCmd : State.reset.fsm ≠ .failed ∧
    ((opField 0x22000000).toNat = 0x08 ∧ tField 0x22000000 ≠ 0) ∧
    ((opField 0x6C100000).toNat = 0x1B ∧ cntField 0x6C100000 ≠ 0) ∧
    ((opField 0x44002000).toNat = 0x11 ∧ 2 ^ 13 ≤ (immField 0x44002000).toNat) ∧
    ((opField 0x24000001).toNat = 0x09 ∧ 2 ^ 0 ≤ (immField 0x24000001).toNat) ∧
    ((opField 0x21500000).toNat = 0x08 ∧ 20 < (cntField 0x21500000).toNat) := by decide +kernel

theorem witness_CodeDecodesToItsSymbol : State.reset.tablesOk ∧ (0 < 314 ∧ 313 < 314) ∧ (0 < 64 ∧ 63 < 64) :=
  ⟨tablesOk_of_init rfl rfl, by decide +kernel, by decide +kernel⟩

theorem witness_EncodedTokenDecodesToItself : State.reset.tablesOk ∧
    (Token.lit 0xFF).toInstr.wellFormed = true ∧ (Token.copy 3 1).toInstr.wellFormed = true ∧
    (Token.copy 60 4096).toInstr.wellFormed = true :=
  ⟨tablesOk_of_init rfl rfl, by decide +kernel, by decide +kernel, by decide +kernel⟩

theorem witness_StepRunsTheDecodedCommand :
    (placeCommand 0x4C000005 State.reset).host.queue = .write .word 0x00 0x4C000005 :: [] ∧
      (placeCommand 0x4C000005 State.reset).busy = false ∧ (placeCommand 0x4C000005 State.reset).waiting = false ∧ decode 0x4C000005 = .ok (.lapeek 5) := by decide +kernel

/-- A token is fetched and runs to a state that is not `FAILED`, in a busy decode. -/
theorem witness_StepRunsTheDecodedToken :
    (let s := { decodeState [] 1 (bytesOf [0xE6, 0x80]) [.ok] with busy := true }
     decide (s.fsm = .reading) && decide (s.mode = .decode) && !s.waiting && decide (s.host.queue = []) &&
     match fetchToken s with
     | .ok tok s1 => decide (tok = .lit 0x41) &&
       leads (exec tok.toInstr s1) (fun t => decide (t.fsm ≠ .failed) && !t.waiting)
     | _ => false) = true := by decide +kernel

/-- A token whose byte is refused, and a fetch that the source ends. -/
theorem witness_StepRunsTheDecodedToken_failing :
    (match fetchToken (decodeState [] 1 (bytesOf [0xE6, 0x80]) [.ioErr]) with
      | .ok tok s1 => leads (exec tok.toInstr s1) (fun t => decide (t.fsm = .failed) && !t.waiting)
      | _ => false) = true ∧
    (match fetchToken (decodeState [] 1 (bytesThen [0xE6] .eof) []) with
      | .raise e _ => decide (e = .corruptStream)
      | _ => false) = true := by decide +kernel

/-- A read of each register, and of the first and the last reserved offset. -/
theorem witness_HostReadReturnsTheRegister : ∀ off ∈ ([0x00, 0x04, 0x08, 0x0C, 0x10, 0x14, 0x18, 0x1C, 0x3C] : List (BitVec 6)),
    ({ State.reset with host := ⟨[.read .word off], []⟩ } : State).host.queue = .read .word off :: [] ∧
      off.toNat % 4 = 0 ∧ ({ State.reset with host := ⟨[.read .word off], []⟩ } : State).hostFree ∧
      ({ State.reset with host := ⟨[.read .word off], []⟩, busy := true, waiting := true } : State).hostFree := by
  decide +kernel

theorem witness_StatusHasTheFieldsOfItsRule :
    ({ State.reset with host := ⟨[.read .word 0x04], []⟩ } : State).host.queue = .read .word 0x04 :: [] ∧
    ({ State.reset with host := ⟨[.write .word 0x04 0xFFFFFFFF], []⟩ } : State).host.queue =
      .write .word 0x04 0xFFFFFFFF :: [] ∧ State.reset.hostFree ∧
    ({ State.reset with busy := true, waiting := true } : State).hostFree := by decide +kernel

/-- A write to `LEN` while busy and while not, and to the last reserved offset. -/
theorem witness_HostWriteStoresOnlyLen : ∀ off ∈ ([0x04, 0x0C, 0x3C] : List (BitVec 6)), ∀ busy : Bool,
    ({ State.reset with busy := busy, host := ⟨[.write .word off 5], []⟩ } : State).host.queue =
      .write .word off 5 :: [] ∧ off.toNat % 4 = 0 ∧ off ≠ 0x00 ∧
      ({ State.reset with busy := busy, host := ⟨[.write .word off 5], []⟩ } : State).hostFree := by decide +kernel

theorem witness_NarrowOrMisalignedAccessIsRefused :
    ({ State.reset with host := ⟨[.write .byte 0x0C 5], []⟩ } : State).host.queue = .write .byte 0x0C 5 :: [] ∧
      AccessWidth.byte ≠ .word ∧
      ({ State.reset with host := ⟨[.read .word 0x3F], []⟩ } : State).host.queue = .read .word 0x3F :: [] ∧
      (0x3F : BitVec 6).toNat % 4 ≠ 0 ∧ State.reset.hostFree := by decide +kernel

theorem witness_BusyBlockHoldsCommandWrites :
    (let s := { encodeState [] [0x41] 1 0 [] [.ok, .ok] with
        busy := true, host := ⟨[.write .word 0x00 0x04000000], []⟩ }
     decide (s.busy = true) && !s.waiting && decide (s.host.queue = .write .word 0x00 0x04000000 :: []) &&
       leads (step s) (fun t => decide (t.fsm = .done))) = true := by decide +kernel

/-- The second source request of a `DECINIT` is never answered, and a `NOP` makes none; the block waits with nothing in
the queue, and with a write that is held. -/
theorem witness_UnansweredRequestNeverEnds :
    (match exec .decinit (silentState [] false).answered with
      | .next t => decide (∃ k ∈ (silentState [] false).ports.srcSilentAt,
          (silentState [] false).ports.srcAsked ≤ k ∧ k < t.ports.srcAsked)
      | _ => false) = true ∧
    (match exec .nop (silentState [] false).answered with
      | .next t => decide (t.ports.srcAsked = 0 ∧ t.ports.sinkAsked = 0)
      | _ => false) = true ∧
    (silentState [] true).waiting = true ∧ (silentState [] true).host.queue = [] ∧
    (silentState [.write .word 0x00 0, .idle] true).host.queue = .write .word 0x00 0 :: [.idle] ∧
    .powerOnReset ∉ [HostOp.idle] := by decide +kernel

/-- A reserved word, a `NOP` and a `WRBITS` in `FAILED`. -/
theorem witness_FailedIgnoresEveryOtherWord :
    ({ State.reset with fsm := .failed, err := .sinkIo } : State).fsm = .failed ∧
      decode 0x2C000000 = .error .reservedOpcode ∧ decode 0x00000000 = .ok .nop ∧
      decode 0x20300005 = .ok (.wrbits 3 5) ∧
      (∀ i ∈ [Instr.reset, .encode, .decode, .encinit, .decinit], Instr.nop ≠ i ∧ Instr.wrbits 3 5 ≠ i) := by
  decide +kernel

theorem witness_ResetGivesTheResetValues :
    leads (step { encodeState [97] [98] 5 1 [] [] with busy := true, host := ⟨[.powerOnReset], []⟩ }) (fun _ => true) =
      true ∧
    leads (exec .reset (encodeState [97] [98] 5 1 [] [])) (fun _ => true) = true ∧
    (encodeState [97] [98] 5 1 [] []).busy = false := by decide +kernel

theorem witness_NopAndResetComplete :
    ({ State.reset with host := ⟨[.powerOnReset], []⟩ } : State).host.queue = .powerOnReset :: [] ∧
    (silentState [.write .word 0x00 0, .powerOnReset] true).waiting = true ∧
    (silentState [.write .word 0x00 0, .powerOnReset] true).host.queue = .write .word 0x00 0 :: .powerOnReset :: [] := by
  decide +kernel

/-- No bit, and 20 bits after 4 pending ones, which fill 3 bytes. -/
theorem witness_WrbitsAppendsTheLowBits :
    (let s := { portState [] [.ok, .ok, .ok] with bits := ⟨0xE, 4, 0, 0⟩ }
     s.fsm ≠ .failed ∧ s.bits.ok ∧ s.bits.bytesFilled (0 : BitVec 5).toNat = 0 ∧
       s.bits.bytesFilled (20 : BitVec 5).toNat = 3 ∧ s.sinkReady 0 ∧ s.sinkReady 3) := by decide +kernel

/-- The first byte refused, and the last. -/
theorem witness_WrbitsStopsAtARefusedByte :
    (let s := { portState [] [.ok, .ok, .ioErr] with bits := ⟨0xE, 4, 0, 0⟩ }
     let s0 := { portState [] [.ioErr] with bits := ⟨0, 0, 0, 0⟩ }
     (s.fsm ≠ .failed ∧ s.bits.ok ∧ s.sinkReady 2 ∧ 2 < s.bits.bytesFilled (20 : BitVec 5).toNat ∧
       s.ports.sinkAt 2 = some .ioErr) ∧
     (s0.fsm ≠ .failed ∧ s0.bits.ok ∧ s0.sinkReady 0 ∧ 0 < s0.bits.bytesFilled (8 : BitVec 5).toNat ∧
       s0.ports.sinkAt 0 = some .ioErr)) := by decide +kernel

/-- The writes of V-B2 and the flush of V-B3. -/
theorem witness_OutputAccounting :
    (let s := portState [] [.ok, .ok, .ok, .ok]
     decide (s.bits.obuf = 0) && decide (s.bits.obits = 0) &&
     match [(5, 3), (7, 5), (0xABCDE, 20)].foldl (fun r f => r.andThen fun _ x => writeBits f.1 f.2 x) (Res.ok () s) with
     | .ok _ s1 => decide (s1.ports.sink = [0xA7, 0xAB, 0xCD]) &&
       (match flushBits s1 with | .ok _ s2 => decide (s2.outbytes = 4) | _ => false)
     | _ => false) = true := by decide +kernel

theorem witness_FlushPadsThePendingBits :
    (let s := { portState [] [.ok] with bits := ⟨0x7F, 7, 0, 0⟩ }
     s.fsm ≠ .failed ∧ s.bits.ok ∧ s.bits.obits ≠ 0 ∧ s.sinkReady 1 ∧ State.reset.bits.ok ∧ State.reset.bits.obits = 0) :=
  by decide +kernel

/-- No bit from a full buffer, all its 8 bits, and 20 bits from an empty one. -/
theorem witness_RdbitsReadsTheNextBits :
    (let full := { portState [] [] with bits := ⟨0, 0, 0xA7, 8⟩ }
     let empty := portState (bytesOf [0xA7, 0x5C, 0x11]) []
     (full.fsm ≠ .failed ∧ full.bits.ok ∧ full.sourceReady [] ∧
       ([] : List Byte).length = full.bits.bytesNeeded (0 : BitVec 5).toNat ∧
       ([] : List Byte).length = full.bits.bytesNeeded (8 : BitVec 5).toNat) ∧
     (empty.fsm ≠ .failed ∧ empty.bits.ok ∧ empty.sourceReady [0xA7, 0x5C, 0x11] ∧
       ([0xA7, 0x5C, 0x11] : List Byte).length = empty.bits.bytesNeeded (20 : BitVec 5).toNat)) := by decide +kernel

theorem witness_RdbitsEndsWithTheSource :
    (let atEnd := portState (bytesThen [0xA7, 0x5C] .eof) []
     let failing := portState [.ioErr] []
     (atEnd.fsm ≠ .failed ∧ atEnd.bits.ok ∧ atEnd.sourceReady [0xA7, 0x5C] ∧
       2 < atEnd.bits.bytesNeeded (17 : BitVec 5).toNat ∧ atEnd.ports.srcAt 2 = some .eof) ∧
     (failing.fsm ≠ .failed ∧ failing.bits.ok ∧ failing.sourceReady [] ∧
       0 < failing.bits.bytesNeeded (1 : BitVec 5).toNat ∧ failing.ports.srcAt 0 = some .ioErr)) := by decide +kernel

theorem witness_OutputAndInputSidesAreApart :
    (let s := { portState (bytesOf [0x80]) [.ok] with bits := ⟨1, 1, 0, 0⟩ }
     leads (exec (.wrbits 7 0) s) (fun t => decide (t.ports.sink = [0x80])) = true ∧
       leads (exec .flush s) (fun t => decide (t.ports.sink = [0x80])) = true ∧
       leads (exec (.rdbits 1) s) (fun t => decide (t.result = 1)) = true) := by decide +kernel

theorem witness_WadvAppendsOneByte : State.reset.fsm ≠ .failed ∧ State.reset.win.ok ∧
    (fullState []).fsm ≠ .failed ∧ (fullState []).win.ok ∧ (fullState []).win.wfill.toNat = 4096 := by decide +kernel

/-- The nearest and the farthest distance, the last lookahead byte, the roots and the last symbols. -/
theorem witness_InspectionWritesOnlyResult :
    (fullState []).fsm ≠ .failed ∧ 1 ≤ (1 : BitVec 13).toNat ∧ (4096 : BitVec 13).toNat ≤ (fullState []).win.wfill.toNat ∧
      (59 : BitVec 6).toNat < (encodeState [] (List.replicate 60 1) 60 0 [] []).win.lacnt.toNat ∧
      (626 : BitVec 10).toNat < 627 ∧ (126 : BitVec 10).toNat < 127 ∧ (313 : BitVec 9).toNat < 314 ∧
      (63 : BitVec 9).toNat < 64 := by decide +kernel

/-- The values next to each range. -/
theorem witness_OperandOutOfRangeRaisesInvariant :
    (let s := encodeState [1, 2] [3, 4, 5] 3 0 [] []
     s.fsm ≠ .failed ∧ s.win.wfill.toNat < (3 : BitVec 13).toNat ∧ s.win.lacnt.toNat ≤ (3 : BitVec 6).toNat ∧
       s.win.lacnt.toNat < (4 : BitVec 6).toNat ∧ 314 ≤ (314 : BitVec 9).toNat ∧ 64 ≤ (64 : BitVec 9).toNat ∧
       627 ≤ (627 : BitVec 10).toNat ∧ 127 ≤ (127 : BitVec 10).toNat) := by decide +kernel

theorem witness_WindowReadsWhatWasAdvanced : (fullState []).win.ok ∧ (1 ≤ 1 ∧ 4095 < 4096) ∧
    4095 ≤ (fullState []).win.wfill.toNat := by decide +kernel

/-- Room for 60 of 70 bytes, and no byte wanted. -/
theorem witness_LafillTakesTheDeclaredBytes :
    (let s := { portState (List.replicate 60 (.byte 7)) [] with len := 70 }
     s.fsm ≠ .failed ∧ s.win.ok ∧ s.sourceReady (List.replicate 60 7) ∧ (List.replicate 60 (7 : Byte)).length = s.fillRoom ∧
       State.reset.sourceReady [] ∧ ([] : List Byte).length = State.reset.fillRoom) := by decide +kernel

theorem witness_LafillFailsOnAShortSource :
    (let atEnd := { portState (bytesThen [97, 98, 99] .eof) [] with len := 5 }
     let failing := { portState [.ioErr] [] with len := 1 }
     (atEnd.fsm ≠ .failed ∧ atEnd.sourceReady [97, 98, 99] ∧ 3 < atEnd.fillRoom ∧ atEnd.ports.srcAt 3 = some .eof) ∧
     (failing.fsm ≠ .failed ∧ failing.sourceReady [] ∧ 0 < failing.fillRoom ∧ failing.ports.srcAt 0 = some .ioErr)) := by
  decide +kernel

/-- One byte with a refill, and all the bytes without one. -/
theorem witness_LaconsMovesBytesIntoTheWindow :
    (let s := encodeState [] [1, 2, 3] 4 0 (bytesOf [4]) []
     let u := encodeState [] [1, 2, 3] 3 0 [] []
     (s.fsm ≠ .failed ∧ s.win.ok ∧ (1 : BitVec 6).toNat ≤ s.win.lacnt.toNat ∧
       s.count.toNat + s.win.lacnt.toNat < 2 ^ 32 ∧ s.sourceReady [4] ∧ ([4] : List Byte).length = s.refills 1) ∧
     (u.fsm ≠ .failed ∧ u.win.ok ∧ (3 : BitVec 6).toNat ≤ u.win.lacnt.toNat ∧ u.sourceReady [] ∧
       ([] : List Byte).length = u.refills 3)) := by decide +kernel

/-- The source ends at the first refill of two. -/
theorem witness_LaconsMovesBytesIntoTheWindow_failing :
    (let s := encodeState [] [1, 2, 3] 5 0 [.eof] []
     s.fsm ≠ .failed ∧ s.win.ok ∧ (2 : BitVec 6).toNat ≤ s.win.lacnt.toNat ∧
       s.count.toNat + s.win.lacnt.toNat < 2 ^ 32 ∧ s.sourceEndsAfter [] ∧ ([] : List Byte).length < s.refills 2) := by
  decide +kernel

theorem witness_MatchLenCountsEqualBytes : 1 ≤ 4096 ∧ 4096 ≤ (fullState []).win.wfill.toNat ∧
    matchLen (encodeState [97, 98] [97, 98, 97, 98] 6 2 [] []) 2 = 4 := by decide +kernel

/-- The window `"abc"` before `"abcabcabc"`, where distance 3 is best, and an empty window, where there is none. -/
theorem witness_FindmPrefersLongestThenNearest :
    (let s := encodeState [97, 98, 99] [97, 98, 99, 97, 98, 99, 97, 98, 99] 9 0 [] []
     s.fsm ≠ .failed ∧ s.win.ok ∧ 3 ≤ s.win.wfill.toNat ∧ 3 ≤ matchLen s 3 ∧
       (∀ d' ∈ [1, 2, 3], matchLen s d' ≤ matchLen s 3 ∧ (matchLen s d' = matchLen s 3 → 3 ≤ d')) ∧
       s.win.wfill.toNat = 3 ∧ State.reset.win.wfill.toNat = 0) := by decide +kernel

theorem witness_BumpAndRebuildChangeOneTable : State.reset.fsm ≠ .failed ∧ (313 : BitVec 9).toNat < 314 ∧
    (63 : BitVec 9).toNat < 64 := by decide +kernel

theorem witness_BumpKeepsTheTreeInvariants : State.reset.tablesOk ∧ 313 < 314 ∧ 63 < 64 :=
  ⟨tablesOk_of_init rfl rfl, by decide +kernel, by decide +kernel⟩

theorem witness_RebuildHalvesEveryLeaf : State.reset.tablesOk := tablesOk_of_init rfl rfl

theorem witness_BumpRaisesOneSymbolByOne : State.reset.tablesOk ∧ State.reset.tabA.freqAt 626 < 0x8000 ∧
    State.reset.tabB.freqAt 126 < 0x8000 := ⟨tablesOk_of_init rfl rfl, by decide +kernel, by decide +kernel⟩

/-- The first node and the root of each table. -/
theorem witness_BumpRaisesOneSymbolByOne_levels :
    (∀ c ∈ [0, 626], c < 627 ∧ State.reset.tabA.freqAt c < 0xFFFF) ∧ State.reset.tabA.freqAt 627 = 0xFFFF ∧
    (∀ i, i < 627 → State.reset.tabA.sonAt i < 941) ∧
    (∀ c ∈ [0, 126], c < 127 ∧ State.reset.tabB.freqAt c < 0xFFFF) ∧ State.reset.tabB.freqAt 127 = 0xFFFF ∧
    (∀ i, i < 127 → State.reset.tabB.sonAt i < 191) ∧ (State.reset.tabB.bumpLevel 0).2 = 63 := by decide +kernel

/-- Both tables with their root frequency at `MAX_FREQ`. -/
def thresholdState : State :=
  { State.reset with
    tabA := treeWith 314 10 (List.replicate 202 104 ++ List.replicate 112 105)
    tabB := treeWith 64 8 (List.replicate 63 512 ++ List.replicate 1 512) }

theorem witness_BumpRebuildsAtTheThreshold : thresholdState.tablesOk ∧ thresholdState.tabA.freqAt 626 = 0x8000 ∧
    thresholdState.tabB.freqAt 126 = 0x8000 := by
  refine ⟨⟨?_, ?_⟩, by decide +kernel, by decide +kernel⟩
  · exact wf_treeWith_two (by decide) (by decide) (by decide) (by decide) (by decide) (by decide) (by decide) (by decide)
  · exact wf_treeWith_two (by decide) (by decide) (by decide) (by decide) (by decide) (by decide) (by decide) (by decide)

/-- The first and the last symbol of each table, with one byte filled by table A's code and none by table B's. -/
theorem witness_EncsymSendsTheCurrentCode :
    (let s := portState [] [.ok]
     s.fsm ≠ .failed ∧ s.bits.ok ∧ (313 : BitVec 9).toNat < 314 ∧ (63 : BitVec 9).toNat < 64 ∧
       s.sinkReady (s.bits.bytesFilled (s.tabA.code 0).length) ∧ s.sinkReady (s.bits.bytesFilled (s.tabA.code 313).length) ∧
       s.sinkReady (s.bits.bytesFilled (s.tabB.code 63).length)) := by decide +kernel

/-- The first byte refused in each table's code. -/
theorem witness_EncsymSendsTheCurrentCode_refused :
    (let s := { portState [] [.ioErr] with bits := ⟨0, 7, 0, 0⟩ }
     s.fsm ≠ .failed ∧ s.bits.ok ∧ s.sinkRefusesAfter 0 ∧ 0 < s.bits.bytesFilled (s.tabA.code 0).length ∧
       0 < s.bits.bytesFilled (s.tabB.code 63).length) := by decide +kernel

/-- The source ends at once, and it fails after 8 bits of a code of 9. -/
theorem witness_DecsymReadsOneSymbol_failing :
    (let s := portState [.eof] []
     let u := portState (bytesThen [0xE6] .ioErr) []
     (s.ports.srcAt 0 = some .eof ∧ s.bits.unread ++ bytesBits [] <+: s.tabB.code 63 ∧
       (s.bits.unread ++ bytesBits []).length < (s.tabB.code 63).length) ∧
     (u.sourceReady [0xE6] ∧ u.ports.srcAt 1 = some .ioErr ∧ u.bits.unread ++ bytesBits [0xE6] <+: u.tabA.code 65 ∧
       (u.bits.unread ++ bytesBits [0xE6]).length < (u.tabA.code 65).length)) := by decide +kernel

theorem witness_DecsymReadsOneSymbol_states :
    (let s := portState (bytesOf [0xE6, 0x80]) []
     let u := portState (bytesOf [0xFC]) []
     (s.fsm ≠ .failed ∧ s.bits.ok ∧ s.sourceReady [0xE6, 0x80] ∧
       ([0xE6, 0x80] : List Byte).length = s.bits.bytesNeeded (s.tabA.code 65).length ∧
       s.tabA.code 65 <+: s.bits.unread ++ bytesBits [0xE6, 0x80]) ∧
     (u.fsm ≠ .failed ∧ u.bits.ok ∧ u.sourceReady [0xFC] ∧
       ([0xFC] : List Byte).length = u.bits.bytesNeeded (u.tabB.code 63).length ∧
       u.tabB.code 63 <+: u.bits.unread ++ bytesBits [0xFC])) := by decide +kernel

theorem witness_DecsymReadsOneSymbol_tables : (portState (bytesOf [0xE6, 0x80]) []).tablesOk ∧
    (portState (bytesOf [0xFC]) []).tablesOk := ⟨tablesOk_of_init rfl rfl, tablesOk_of_init rfl rfl⟩

/-- An input of 61 bytes, of which 60 prime the lookahead, and an empty one. -/
theorem witness_EncodeStartsWithTheHeader :
    (let s := { portState (List.replicate 60 (.byte 7)) [.ok, .ok, .ok, .ok] with len := 61 }
     let u := portState [] [.ok, .ok, .ok, .ok]
     (s.sinkReady 4 ∧ s.sourceReady (List.replicate 60 7) ∧
       (List.replicate 60 (7 : Byte)).length = min 60 s.len.toNat) ∧
     (u.sinkReady 4 ∧ u.sourceReady [] ∧ ([] : List Byte).length = min 60 u.len.toNat)) := by decide +kernel

/-- The last header byte refused (V-E22 refuses the first), and the source failing after one byte (V-E23). -/
theorem witness_EncodeStartsWithTheHeader_failing :
    (let s := { portState [] [.ok, .ok, .ok, .ioErr] with len := 3 }
     let u := { portState (bytesThen [97] .ioErr) [.ok, .ok, .ok, .ok] with len := 3 }
     s.sinkRefusesAfter 3 ∧ u.sinkReady 4 ∧ u.sourceEndsAfter [97] ∧ ([97] : List Byte).length < min 60 u.len.toNat) := by
  decide +kernel

theorem witness_DecodeStartsWithTheHeader :
    (portState (bytesOf [0xFF, 0xFF, 0xFF, 0xFF]) []).sourceReady
      [(0xFFFFFFFF : Word).extractLsb' 0 8, (0xFFFFFFFF : Word).extractLsb' 8 8, (0xFFFFFFFF : Word).extractLsb' 16 8,
        (0xFFFFFFFF : Word).extractLsb' 24 8] ∧
    (portState (bytesOf [0, 0, 0, 0]) []).sourceReady
      [(0 : Word).extractLsb' 0 8, (0 : Word).extractLsb' 8 8, (0 : Word).extractLsb' 16 8,
        (0 : Word).extractLsb' 24 8] := by decide +kernel

/-- The source ends at once, and it fails at the last header byte. -/
theorem witness_TruncatedHeaderLeavesLen :
    (let s := portState [.eof] []
     let u := portState (bytesThen [1, 2, 3] .ioErr) []
     (s.sourceReady [] ∧ ([] : List Byte).length < 4 ∧ s.ports.srcAt 0 = some .eof) ∧
     (u.sourceReady [1, 2, 3] ∧ ([1, 2, 3] : List Byte).length < 4 ∧ u.ports.srcAt 3 = some .ioErr)) := by decide +kernel

/-- A last literal, whose padded byte is sent too, a match with refills to come, and an empty lookahead. -/
theorem witness_EncstepEmitsTheChosenToken :
    (let s := encodeState [] [0x41] 1 0 [] [.ok, .ok]
     let u := encodeState [1] [1, 1, 1] 7 1 (bytesOf [1, 1, 1]) [.ok, .ok]
     let v := encodeState [1] [] 1 1 [] [.ok, .ok]
     (s.fsm = .searching ∧ s.mode = .encode ∧ s.bits.ok ∧ s.win.ok ∧ s.win.lacnt ≠ 0 ∧
       s.count.toNat + s.win.lacnt.toNat < 2 ^ 32 ∧ s.win.wfill.toNat = 0 ∧ s.win.la.read 0 = 0x41 ∧
       s.sinkReady (s.tokenBytes (.lit 0x41)) ∧ s.sourceReady [] ∧
       ([] : List Byte).length = s.refills (Token.lit 0x41).size) ∧
     (u.fsm = .searching ∧ u.mode = .encode ∧ u.bits.ok ∧ u.win.ok ∧ u.win.lacnt ≠ 0 ∧
       u.count.toNat + u.win.lacnt.toNat < 2 ^ 32 ∧ u.win.wfill.toNat = 1 ∧ matchLen u 1 = 3 ∧
       u.sinkReady (u.tokenBytes (.copy 3 1)) ∧ u.sourceReady [1, 1, 1] ∧
       ([1, 1, 1] : List Byte).length = u.refills (Token.copy 3 1).size) ∧
     (v.fsm = .searching ∧ v.mode = .encode ∧ v.bits.ok ∧ v.win.ok ∧ v.win.lacnt = 0 ∧
       v.sinkReady ((v.bits.obits.toNat + (v.tokenBits (.lit (v.win.la.read 0))).length + 7) / 8))) := by decide +kernel

/-- A match whose second byte is refused, one whose source ends at the second refill, and one whose last flush is
refused. -/
theorem witness_FailingEncstepKeepsWhatItDid :
    (let s := encodeState [1] [1, 1, 1] 4 1 [] [.ok, .ioErr]
     let u := encodeState [1] [1, 1, 1] 9 1 (bytesThen [1] .eof) [.ok, .ok]
     let v := encodeState [1] [1, 1, 1] 4 1 [] [.ok, .ok, .ioErr]
     (s.fsm = .searching ∧ s.mode = .encode ∧ s.bits.ok ∧ s.win.ok ∧ s.win.lacnt ≠ 0 ∧
       s.count.toNat + s.win.lacnt.toNat < 2 ^ 32 ∧ s.sinkRefusesAfter 1 ∧
       1 < s.bits.bytesFilled (s.tokenBits (chooseToken s)).length) ∧
     (u.bits.ok ∧ u.win.ok ∧ u.sinkReady (u.bits.bytesFilled (u.tokenBits (chooseToken u)).length) ∧
       u.sourceEndsAfter [1] ∧ ([1] : List Byte).length < u.refills (chooseToken u).size) ∧
     (v.bits.ok ∧ v.win.ok ∧ v.sourceReady [] ∧ ([] : List Byte).length = v.refills (chooseToken v).size ∧
       v.win.lacnt.toNat + ([] : List Byte).length = (chooseToken v).size ∧
       (v.wrote (v.tokenBits (chooseToken v))).bits.obits ≠ 0 ∧
       v.sinkRefusesAfter (v.bits.bytesFilled (v.tokenBits (chooseToken v)).length))) := by decide +kernel

/-- The same with an empty lookahead: a byte of the code refused, and the last byte refused. -/
theorem witness_FailingEncstepKeepsWhatItDid_empty :
    (let s := encodeState [1] [] 1 1 [] [.ioErr]
     let v := encodeState [1] [] 1 1 [] [.ok, .ioErr]
     (s.fsm = .searching ∧ s.mode = .encode ∧ s.bits.ok ∧ s.win.ok ∧ s.win.lacnt = 0 ∧ s.sinkRefusesAfter 0 ∧
       0 < s.bits.bytesFilled (s.tokenBits (chooseToken s)).length) ∧
     (v.bits.ok ∧ v.win.ok ∧ v.win.lacnt = 0 ∧ (v.wrote (v.tokenBits (chooseToken v))).bits.obits ≠ 0 ∧
       v.sinkRefusesAfter (v.bits.bytesFilled (v.tokenBits (chooseToken v)).length))) := by decide +kernel

/-- A literal, and the shortest match at the nearest distance, each at the end of its length. -/
theorem witness_DecstepExecutesTheNextToken_states :
    (let s := decodeState [] 1 (bytesOf [0xE6, 0x80]) [.ok]
     let u := decodeState [0x41] 4 (bytesOf [0x8C, 0x00, 0x00]) [.ok, .ok, .ok]
     (s.fsm = .reading ∧ s.mode = .decode ∧ s.bits.ok ∧ s.win.ok ∧ (Token.lit 0x41).toInstr.wellFormed = true ∧
       s.admits (.lit 0x41) = true ∧ s.sourceReady [0xE6, 0x80] ∧
       ([0xE6, 0x80] : List Byte).length = s.bits.bytesNeeded (s.tokenBits (.lit 0x41)).length ∧
       s.tokenBits (.lit 0x41) <+: s.bits.unread ++ bytesBits [0xE6, 0x80] ∧ s.sinkReady (Token.lit 0x41).size) ∧
     (u.fsm = .reading ∧ u.mode = .decode ∧ u.bits.ok ∧ u.win.ok ∧ (Token.copy 3 1).toInstr.wellFormed = true ∧
       u.admits (.copy 3 1) = true ∧ u.sourceReady [0x8C, 0x00, 0x00] ∧
       ([0x8C, 0x00, 0x00] : List Byte).length = u.bits.bytesNeeded (u.tokenBits (.copy 3 1)).length ∧
       u.tokenBits (.copy 3 1) <+: u.bits.unread ++ bytesBits [0x8C, 0x00, 0x00] ∧
       u.sinkReady (Token.copy 3 1).size)) := by decide +kernel

theorem witness_DecstepExecutesTheNextToken_tables :
    (decodeState [] 1 (bytesOf [0xE6, 0x80]) [.ok]).tablesOk ∧
      (decodeState [0x41] 4 (bytesOf [0x8C, 0x00, 0x00]) [.ok, .ok, .ok]).tablesOk :=
  ⟨tablesOk_of_init rfl rfl, tablesOk_of_init rfl rfl⟩

/-- The input ends with table A's code of a match (V-D8), and fails inside that of a literal. -/
theorem witness_DecstepExecutesTheNextToken_failing :
    (let s := decodeState [0x41] 10 (bytesThen [0x92] .eof) []
     let u := decodeState [] 1 (bytesThen [0xE6] .ioErr) []
     (s.fsm = .reading ∧ s.mode = .decode ∧ s.bits.ok ∧ s.win.ok ∧ (Token.copy 9 1).toInstr.wellFormed = true ∧
       s.sourceReady [0x92] ∧ s.ports.srcAt 1 = some .eof ∧
       s.bits.unread ++ bytesBits [0x92] <+: s.tokenBits (.copy 9 1) ∧
       (s.bits.unread ++ bytesBits [0x92]).length < (s.tokenBits (.copy 9 1)).length) ∧
     (u.bits.ok ∧ u.win.ok ∧ u.sourceReady [0xE6] ∧ u.ports.srcAt 1 = some .ioErr ∧
       u.bits.unread ++ bytesBits [0xE6] <+: u.tokenBits (.lit 0x41) ∧
       (u.bits.unread ++ bytesBits [0xE6]).length < (u.tokenBits (.lit 0x41)).length)) := by decide +kernel

theorem witness_LitEmitsItsByte : (fullState [.ok]).win.ok ∧ (fullState [.ok]).sinkReady 1 ∧
    (fullState [.ioErr]).sinkRefusesAfter 0 := by decide +kernel

/-- The shortest match at the nearest distance, and the longest at the farthest. -/
theorem witness_MatchCopiesByteByByte :
    (let s := decodeState [0x41] 4 [] [.ok, .ok, .ok]
     let u := { fullState (List.replicate 60 .ok) with len := 60 }
     ((Instr.matchCopy 3 1).wellFormed = true ∧ s.win.ok ∧ s.admits (.copy 3 1) = true ∧ s.sinkReady 3) ∧
     ((Instr.matchCopy 60 4096).wellFormed = true ∧ u.win.ok ∧ u.admits (.copy 60 4096) = true ∧ u.sinkReady 60) ∧
     (decodeState [0x41] 4 [] [.ok, .ok, .ioErr]).sinkRefusesAfter 2) := by
  decide +kernel

/-- A length one too long, a distance one too far, and a copy that ends. -/
theorem witness_BadMatchIsCorruptBeforeAnyCopy :
    (let s := decodeState [0x41] 3 [] []
     let u := decodeState [0x41] 9 [] []
     let v := decodeState [0x41] 4 [] [.ok, .ok, .ok]
     (Instr.matchCopy 3 1).wellFormed = true ∧ s.len.toNat - s.count.toNat < (3 : BitVec 6).toNat ∧
       u.win.wfill.toNat < (2 : BitVec 13).toNat ∧ v.err = .none ∧
       leads (exec (.matchCopy 3 1) v) (fun _ => true) = true ∧ leads (exec (.lit 0) v) (fun _ => true) = true) := by
  decide +kernel

/-- `ENCSTEP` in `IDLE` and in `READING`, `DECSTEP` in `SEARCHING`, and each in its own state with the other mode. -/
theorem witness_StepOutOfSequenceRaisesSequence :
    State.reset.fsm ≠ .failed ∧ State.reset.fsm ≠ .searching ∧ (decodeState [] 1 [] []).fsm ≠ .searching ∧
      (encodeState [] [] 0 0 [] []).fsm ≠ .reading ∧
      ({ encodeState [] [] 0 0 [] [] with mode := .decode } : State).mode ≠ .encode ∧
      ({ decodeState [] 1 [] [] with mode := .encode } : State).mode ≠ .decode := by decide +kernel

/-- A state in which the ports fail, 7 bits pend, and one byte waits in the lookahead of an encode. -/
def failingState (fsm : Fsm) (mode : Mode) : State :=
  { encodeState [] [0x41] 3 0 [.ioErr] [.ioErr] with bits := ⟨0, 7, 0, 0⟩, fsm := fsm, mode := mode }

/-- Each command that can raise an error raises one, outside `FAILED`, in a state without an error. -/
theorem witness_EachCommandRaisesOnlyItsErrors :
    (∀ i ∈ [Instr.encode, .encinit, .encstep, .decode, .decinit, .wrbits 1 0, .flush, .rdbits 1, .decsym .a, .decsym .b,
        .lafill, .byteat 1, .lapeek 1, .lacons 2, .lacons 1, .encsym .b 0, .encsym .a 314, .bump .a 314, .rdnode .b 127,
        .rdleaf .b 64, .lit 0, .matchCopy 3 1],
      leads (exec i (failingState .searching .encode)) (fun t => decide (t.fsm = .failed)) = true) ∧
    leads (exec .decstep (failingState .reading .decode)) (fun t => decide (t.fsm = .failed)) = true ∧
    (failingState .searching .encode).fsm ≠ .failed ∧ (failingState .searching .encode).err = .none ∧
    leads (step { failingState .searching .encode with busy := true }) (fun t => decide (t.fsm = .failed)) = true ∧
    leads (step { failingState .reading .decode with busy := true }) (fun t => decide (t.fsm = .failed)) = true ∧
    (failingState .searching .encode).waiting = false ∧ (failingState .searching .encode).host.queue = [] := by
  decide +kernel

theorem witness_EachCommandRaisesOnlyItsErrors_tables : (failingState .searching .encode).tablesOk :=
  tablesOk_of_init rfl rfl

/-- An `ENCSTEP` that fails on a code byte, and one whose last flush is refused. -/
theorem witness_FailingCommandKeepsResult : (failingState .searching .encode).fsm ≠ .failed ∧
    Instr.encstep.isCommand = true ∧
    leads (exec .encstep (failingState .searching .encode)) (fun t => decide (t.fsm = .failed)) = true ∧
    ¬(failingState .searching .encode).sinkReady 1 ∧
    (let s := encodeState [] [0x41] 1 0 [] [.ok, .ioErr]
     s.fsm ≠ .failed ∧ s.sinkReady (s.bits.bytesFilled (s.tokenBits (chooseToken s)).length) ∧
       leads (exec .encstep s) (fun t => decide (t.fsm = .failed) && decide (t.err = .sinkIo)) = true ∧
       leads (step { s with busy := true }) (fun t => decide (t.fsm = .failed) && decide (t.err = .sinkIo)) = true) := by
  decide +kernel

/-- A busy encode and the step that sends its last token. -/
theorem witness_EveryStepKeepsTheInvariant :
    (let s := { encodeState [] [0x41] 1 0 [] [.ok, .ok] with busy := true }
     s.bits.ok ∧ s.win.ok ∧ s.driverOk ∧ leads (step s) (fun t => decide (t.fsm = .done)) = true) := by decide +kernel

theorem witness_EveryStepKeepsTheInvariant_tables :
    (encodeState [] [0x41] 1 0 [] [.ok, .ok]).tablesSized ∧ (encodeState [] [0x41] 1 0 [] [.ok, .ok]).tablesOk :=
  ⟨⟨sized_treeInit 314 10 (by decide +kernel), sized_treeInit 64 8 (by decide +kernel)⟩, tablesOk_of_init rfl rfl⟩

theorem sourceReady_of_map (file : List Byte) (sink : List SinkAnswer) :
    (portState (file.map .byte) sink).sourceReady file := by
  intro k hk
  simp [portState, Ports.srcAt, Ports.reset, hk]

/-- For any number of bytes that a file has, a state from which the one byte 0x41 can be encoded, and one from which a file
can be decoded. -/
theorem witness_TransformIsLossless (file : List Byte) :
    (let s := { portState (bytesOf [0x41]) (List.replicate file.length .ok) with len := 1 }
     let u := portState (file.map .byte) [.ok]
     (s.win.ok ∧ s.host.queue = [] ∧ s.len.toNat = ([0x41] : List Byte).length ∧ s.sourceReady [0x41] ∧
       s.sinkReady file.length) ∧
     (u.win.ok ∧ u.host.queue = [] ∧ u.sourceReady file ∧ u.sinkReady ([0x41] : List Byte).length)) := by
  have hw : Window.reset.ok := by decide +kernel
  refine ⟨⟨hw, rfl, rfl, ?_, ?_⟩, hw, rfl, sourceReady_of_map _ _, ?_⟩
  · intro k hk
    simp only [List.length_cons, List.length_nil, Nat.lt_one_iff, Nat.zero_add] at hk
    subst hk; rfl
  · intro k hk
    simp [portState, Ports.sinkAt, Ports.reset, hk]
  · intro k hk
    simp only [List.length_cons, List.length_nil, Nat.lt_one_iff, Nat.zero_add] at hk
    subst hk; rfl

/-- The program `LIT 'A'`, `MATCH 3, 1`, and a state whose ports give its file and take its output. -/
theorem witness_DecodeExecutesAnyTokenProgram :
    (let p : TokenProgram := ⟨4, [.lit 0x41, .copy 3 1]⟩
     let s := portState (p.file.map .byte) [.ok, .ok, .ok, .ok]
     p.wf = true ∧ s.win.ok ∧ s.host.queue = [] ∧ s.sourceReady p.file ∧ s.sinkReady p.len.toNat) := by
  have hw : Window.reset.ok := by decide +kernel
  refine ⟨by decide +kernel, hw, rfl, sourceReady_of_map _ _, ?_⟩
  · intro k hk
    have : k < 4 := hk
    rcases k with _ | _ | _ | _ | k
    · rfl
    · rfl
    · rfl
    · rfl
    · omega

end Sys2Proof.Tests
end

/-! SUPPORT. What the invariants of rule R55 say of a code table, in two parts: its links make a tree, and its
frequencies weigh that tree. `Bump` breaks the second part at one node at a time, so it names that node. -/

namespace Sys2Proof.Machine

variable {n w : Nat}

/-! ## The two parts of the invariants -/

/-- The links make a tree: every node is the parent of what its `son` entry names, children stand below their parent,
and each symbol has its leaf (rule R52 to rule R55). -/
structure CodeTable.Linked (t : CodeTable n w) : Prop where
  sized : t.sized = true
  root : t.prntAt (rootNode n) = 0
  son_lt : ∀ k, k < nodeCount n → t.sonAt k < nodeCount n + n
  leaf : ∀ s, s < n → t.leafOf s < nodeCount n ∧ t.sonAt (t.leafOf s) = s + nodeCount n
  even : ∀ k, k < nodeCount n → t.sonAt k < nodeCount n → t.sonAt k % 2 = 0
  first : ∀ k, k < nodeCount n → t.prntAt (t.sonAt k) = k
  second : ∀ k, k < nodeCount n → t.sonAt k < nodeCount n → t.prntAt (t.sonAt k + 1) = k
  below : ∀ k, k < nodeCount n → t.sonAt k < nodeCount n → t.sonAt k + 1 < k

/-- The frequencies weigh the tree, but that node `c` has yet to rise by 1 for the increment of a child of it. Where
`c` is no internal node, nothing is left to do. -/
structure CodeTable.Weighed (t : CodeTable n w) (c : Nat) : Prop where
  sentinel : t.freqAt (nodeCount n) = 0xFFFF
  ordered : ∀ i, i < rootNode n → t.freqAt i ≤ t.freqAt (i + 1)
  summed : ∀ k, k < nodeCount n → t.sonAt k < nodeCount n →
    t.freqAt (t.sonAt k) + t.freqAt (t.sonAt k + 1) = t.freqAt k + if k = c then 1 else 0
  positive : ∀ i, i < nodeCount n → 1 ≤ t.freqAt i

/-- Frequencies do not fall as the index rises, from any node to any later one. -/
theorem CodeTable.Weighed.mono {t : CodeTable n w} {c : Nat} (h : t.Weighed c) {i j : Nat} (hij : i ≤ j)
    (hj : j ≤ rootNode n) : t.freqAt i ≤ t.freqAt j := by
  induction j, hij using Nat.le_induction with
  | base => exact le_refl _
  | succ j _ ih => exact le_trans (ih (by omega)) (h.ordered j (by omega))

/-- A node of lower frequency stands at a lower index. -/
theorem CodeTable.Weighed.lt_of_freqAt_lt {t : CodeTable n w} {c : Nat} (h : t.Weighed c) {i j : Nat}
    (hi : i ≤ rootNode n) (hf : t.freqAt i < t.freqAt j) : i < j := by
  by_contra hij
  have := h.mono (by omega : j ≤ i) hi
  omega

/-- Where nothing is left to do at a node, its frequency is its children's sum (rule R53). -/
theorem CodeTable.Weighed.summed_of_ne {t : CodeTable n w} {c k : Nat} (h : t.Weighed c) (hk : k < nodeCount n)
    (hc : k ≠ c) (hs : t.sonAt k < nodeCount n) :
    t.freqAt (t.sonAt k) + t.freqAt (t.sonAt k + 1) = t.freqAt k := by
  rw [h.summed k hk hs, if_neg hc, Nat.add_zero]

/-- A child's frequency is below its parent's, where the parent is not the node that has yet to rise. -/
theorem CodeTable.Weighed.child_lt {t : CodeTable n w} {c : Nat} (h : t.Weighed c) {k : Nat}
    (hk : k < nodeCount n) (hc : k ≠ c) (hs : t.sonAt k + 1 < nodeCount n) :
    t.freqAt (t.sonAt k) < t.freqAt k ∧ t.freqAt (t.sonAt k + 1) < t.freqAt k := by
  have h1 := h.summed_of_ne hk hc (by omega)
  have h2 := h.positive (t.sonAt k) (by omega)
  have h3 := h.positive (t.sonAt k + 1) hs
  omega

/-- Where nothing is left to do, the node named does not matter: a leaf has no sum to keep. -/
theorem CodeTable.Weighed.of_leaf {t : CodeTable n w} {c d : Nat} (h : t.Weighed c)
    (hc : c < nodeCount n → nodeCount n ≤ t.sonAt c) (hd : d < nodeCount n → nodeCount n ≤ t.sonAt d) :
    t.Weighed d where
  sentinel := h.sentinel
  ordered := h.ordered
  positive := h.positive
  summed k hk hs := by
    have hkc : k ≠ c := by rintro rfl; have := hc hk; omega
    have hkd : k ≠ d := by rintro rfl; have := hd hk; omega
    rw [h.summed k hk hs, if_neg hkc, if_neg hkd]

/-- An internal node's children are nodes: none is the last one. -/
theorem sonAt_add_one_lt {t : CodeTable n w} {k : Nat} (he : t.sonAt k % 2 = 0) (hs : t.sonAt k < nodeCount n)
    (hn : 1 ≤ n) (hr : t.sonAt k ≠ rootNode n) : t.sonAt k + 1 < nodeCount n := by
  simp only [nodeCount, rootNode] at *
  omega

/-- `wf` in the words of its two parts. -/
theorem CodeTable.wf_iff (hn : 1 ≤ n) (t : CodeTable n w) :
    t.wf = true ↔ t.Linked ∧ t.Weighed (nodeCount n) ∧ t.freqAt (rootNode n) ≤ Config.maxFreq := by
  have hT : nodeCount n = 2 * n - 1 := rfl
  have hR : rootNode n = 2 * n - 2 := rfl
  simp only [CodeTable.wf, CodeTable.layout, CodeTable.ordered, CodeTable.summed, CodeTable.paired,
    CodeTable.leavesLinked, CodeTable.positive, Bool.and_eq_true, List.all_eq_true, List.mem_range, Bool.or_eq_true,
    decide_eq_true_eq]
  constructor
  · rintro ⟨⟨⟨⟨⟨⟨hsized, ⟨⟨hsent, hroot⟩, hson⟩, hleaf⟩, hord⟩, hsum⟩, hpair⟩, hlink⟩, hpos⟩
    have hlinked : ∀ k, k < nodeCount n → t.prntAt (t.sonAt k) = k := fun k hk => by
      rcases hpair k hk with hl | ⟨⟨_, hp⟩, _⟩
      · exact (hlink k hk).resolve_left (by omega)
      · exact hp
    have hpair' : ∀ k, k < nodeCount n → t.sonAt k < nodeCount n →
        t.sonAt k % 2 = 0 ∧ t.prntAt (t.sonAt k + 1) = k := fun k hk hs => by
      obtain ⟨⟨h1, _⟩, h2⟩ := (hpair k hk).resolve_left (by omega)
      exact ⟨h1, h2⟩
    have hw : t.Weighed (nodeCount n) := by
      refine ⟨hsent, hord, fun k hk hs => ?_, fun i hi => (hpos i hi).1⟩
      rw [if_neg (by omega), Nat.add_zero]
      exact ((hsum k hk).resolve_left (by omega)).symm
    refine ⟨⟨hsized, hroot, hson, hleaf, fun k hk hs => (hpair' k hk hs).1, hlinked,
      fun k hk hs => (hpair' k hk hs).2, fun k hk hs => ?_⟩, hw, (hpos _ (by omega)).2⟩
    have hk0 : t.sonAt k ≠ rootNode n := fun hc => by
      have h1 := hw.summed_of_ne hk (by omega) hs
      have h2 := hw.mono (by omega : k ≤ rootNode n) (le_refl _)
      have h3 := hw.sentinel
      have h4 := (hpos k hk).2
      rw [hc, show rootNode n + 1 = nodeCount n by omega] at h1
      simp only [Config.maxFreq] at h4
      omega
    have hs1 := sonAt_add_one_lt (hpair' k hk hs).1 hs hn hk0
    exact hw.lt_of_freqAt_lt (by omega) (hw.child_lt hk (by omega) hs1).2
  · rintro ⟨hl, hw, hmax⟩
    refine ⟨⟨⟨⟨⟨⟨hl.sized, ⟨⟨hw.sentinel, hl.root⟩, hl.son_lt⟩, hl.leaf⟩, hw.ordered⟩, fun k hk => ?_⟩,
      fun k hk => ?_⟩, fun k hk => Or.inr (hl.first k hk)⟩, fun i hi => ⟨hw.positive i hi, ?_⟩⟩
    · by_cases hs : t.sonAt k < nodeCount n
      · exact Or.inr (hw.summed_of_ne hk (by omega) hs).symm
      · exact Or.inl (by omega)
    · by_cases hs : t.sonAt k < nodeCount n
      · exact Or.inr ⟨⟨hl.even k hk hs, hl.first k hk⟩, hl.second k hk hs⟩
      · exact Or.inl (by omega)
    · exact le_trans (hw.mono (by omega) (le_refl _)) hmax

/-! ## Children and parents -/

/-- `x` is what the `son` entry of node `m` names, or the second of the pair it names: the relation of
`CodeTable.LevelDone`. -/
abbrev CodeTable.ChildOf (t : CodeTable n w) (x m : Nat) : Prop :=
  x = t.sonAt m ∨ t.sonAt m < nodeCount n ∧ x = t.sonAt m + 1

/-- A child names its parent. -/
theorem CodeTable.Linked.prntAt_child {t : CodeTable n w} (h : t.Linked) {x m : Nat} (hm : m < nodeCount n)
    (hx : t.ChildOf x m) : t.prntAt x = m := by
  rcases hx with rfl | ⟨hs, rfl⟩
  · exact h.first m hm
  · exact h.second m hm hs

/-- A child that is a node stands below its parent. -/
theorem CodeTable.Linked.child_lt {t : CodeTable n w} (h : t.Linked) {x m : Nat} (hm : m < nodeCount n)
    (hx : t.ChildOf x m) (hn : x < nodeCount n) : x < m := by
  rcases hx with rfl | ⟨hs, rfl⟩
  · have := h.below m hm hn; omega
  · exact h.below m hm hs

/-- No two nodes have the same `son` entry: what it names names the node. -/
theorem CodeTable.Linked.sonAt_inj {t : CodeTable n w} (h : t.Linked) {k l : Nat} (hk : k < nodeCount n)
    (hl : l < nodeCount n) (e : t.sonAt k = t.sonAt l) : k = l := by
  rw [← h.first k hk, ← h.first l hl, e]

/-- The leaves of a table. -/
def CodeTable.leafNodes (t : CodeTable n w) : Finset Nat :=
  (Finset.range (nodeCount n)).filter fun k => nodeCount n ≤ t.sonAt k

/-- The internal nodes of a table. -/
def CodeTable.innerNodes (t : CodeTable n w) : Finset Nat :=
  (Finset.range (nodeCount n)).filter fun k => ¬nodeCount n ≤ t.sonAt k

theorem CodeTable.mem_leafNodes {t : CodeTable n w} {k : Nat} :
    k ∈ t.leafNodes ↔ k < nodeCount n ∧ nodeCount n ≤ t.sonAt k := by
  rw [CodeTable.leafNodes, Finset.mem_filter, Finset.mem_range]

theorem CodeTable.mem_innerNodes {t : CodeTable n w} {k : Nat} :
    k ∈ t.innerNodes ↔ k < nodeCount n ∧ t.sonAt k < nodeCount n := by
  rw [CodeTable.innerNodes, Finset.mem_filter, Finset.mem_range, not_le]

theorem CodeTable.card_leafNodes_add_innerNodes (t : CodeTable n w) :
    t.leafNodes.card + t.innerNodes.card = nodeCount n :=
  (Finset.card_filter_add_card_filter_not _).trans (Finset.card_range _)

/-- There is at most one leaf for each symbol. -/
theorem CodeTable.Linked.card_leafNodes_le {t : CodeTable n w} (h : t.Linked) : t.leafNodes.card ≤ n := by
  have := Finset.card_le_card_of_injOn (s := t.leafNodes) (t := Finset.range n) (fun k => t.sonAt k - nodeCount n)
    (fun k hk => by
      obtain ⟨hk, hs⟩ := CodeTable.mem_leafNodes.1 hk
      have := h.son_lt k hk
      exact Finset.mem_coe.2 (Finset.mem_range.2 (show t.sonAt k - nodeCount n < n by omega)))
    fun k hk l hl e => by
      obtain ⟨hk, hsk⟩ := CodeTable.mem_leafNodes.1 hk
      obtain ⟨hl, hsl⟩ := CodeTable.mem_leafNodes.1 hl
      exact h.sonAt_inj hk hl (by dsimp only at e; omega)
  rwa [Finset.card_range] at this

/-- Every pair of nodes below the root has a parent: there are as many internal nodes as pairs, and no two internal
nodes have the same pair. -/
theorem CodeTable.Linked.exists_parent {t : CodeTable n w} (h : t.Linked) {q : Nat} (hq : q < n - 1) :
    ∃ k, k < nodeCount n ∧ t.sonAt k = 2 * q := by
  have hT : nodeCount n = 2 * n - 1 := rfl
  have hcard : (Finset.range (n - 1)).card ≤ t.innerNodes.card := by
    have h1 := h.card_leafNodes_le
    have h2 := t.card_leafNodes_add_innerNodes
    rw [Finset.card_range]
    omega
  obtain ⟨k, hk, e⟩ := Finset.surj_on_of_inj_on_of_card_le (s := t.innerNodes) (fun k _ => t.sonAt k / 2)
    (fun k hk => by
      obtain ⟨hk, hs⟩ := CodeTable.mem_innerNodes.1 hk
      have := h.below k hk hs
      exact Finset.mem_range.2 (by omega))
    (fun k l hk hl e => by
      obtain ⟨hk, hsk⟩ := CodeTable.mem_innerNodes.1 hk
      obtain ⟨hl, hsl⟩ := CodeTable.mem_innerNodes.1 hl
      have h1 := h.even k hk hsk
      have h2 := h.even l hl hsl
      exact h.sonAt_inj hk hl (by omega))
    hcard q (Finset.mem_range.2 hq)
  obtain ⟨hk, hs⟩ := CodeTable.mem_innerNodes.1 hk
  have := h.even k hk hs
  exact ⟨k, hk, by omega⟩

/-- Every node but the root is a child of the node it names as its parent. -/
theorem CodeTable.Linked.parent {t : CodeTable n w} (h : t.Linked) {i : Nat} (hi : i < rootNode n) :
    t.prntAt i < nodeCount n ∧ t.sonAt (t.prntAt i) = 2 * (i / 2) := by
  have hT : nodeCount n = 2 * n - 1 := rfl
  have hR : rootNode n = 2 * n - 2 := rfl
  obtain ⟨k, hk, hs⟩ := h.exists_parent (by omega : i / 2 < n - 1)
  have hc : t.ChildOf i k := by
    rcases Nat.mod_two_eq_zero_or_one i with h2 | h2
    · exact Or.inl (by omega)
    · exact Or.inr ⟨by omega, by omega⟩
  rw [h.prntAt_child hk hc]
  exact ⟨hk, hs⟩

/-- A node's parent stands above it. -/
theorem CodeTable.Linked.lt_prntAt {t : CodeTable n w} (h : t.Linked) {i : Nat} (hi : i < rootNode n) :
    i < t.prntAt i := by
  have hT : nodeCount n = 2 * n - 1 := rfl
  have hR : rootNode n = 2 * n - 2 := rfl
  obtain ⟨hp, hs⟩ := h.parent hi
  have := h.below _ hp (by omega)
  omega

end Sys2Proof.Machine

/-! SUPPORT. What one level of `Bump` does to a table's entries (rule R250), and that `Bump` keeps the invariants of
rule R55. -/

namespace Sys2Proof.Machine

variable {n w : Nat}

/-! ## One level -/

/-- The search of `Bump` from node `l` ends at the last of the nodes above it whose frequencies are below `k`. -/
theorem CodeTable.lastBelow_spec (t : CodeTable n w) {k : Nat} (hk : k ≤ t.freqAt (nodeCount n)) :
    ∀ fuel l, l < nodeCount n → nodeCount n ≤ fuel + l →
      l ≤ t.lastBelow k fuel l ∧ t.lastBelow k fuel l < nodeCount n ∧
        (∀ m, l < m → m ≤ t.lastBelow k fuel l → t.freqAt m < k) ∧ k ≤ t.freqAt (t.lastBelow k fuel l + 1)
  | 0, l, hl, hf => by omega
  | fuel + 1, l, hl, hf => by
    rw [CodeTable.lastBelow]
    by_cases h : t.freqAt (l + 1) < k
    · rw [if_pos h]
      have hne : l + 1 ≠ nodeCount n := fun e => by rw [e] at h; omega
      obtain ⟨h1, h2, h3, h4⟩ := t.lastBelow_spec hk fuel (l + 1) (by omega) (by omega)
      refine ⟨by omega, h2, fun m hm hm' => ?_, h4⟩
      rcases Nat.eq_or_lt_of_le hm with rfl | hm
      · exact h
      · exact h3 m hm hm'
    · rw [if_neg h]
      exact ⟨le_refl l, hl, fun m hm hm' => by omega, by omega⟩

/-- The parent links after the links below one entry are turned to node `p`. -/
theorem CodeTable.prntAt_relink {t : CodeTable n w} (hsized : t.sized = true) (hn : 1 ≤ n) {x p : Nat}
    (hx : x < nodeCount n + n) (hp : p < 2 ^ w) (y : Nat) :
    (t.relink x p).prntAt y = if y = x ∨ x < nodeCount n ∧ y = x + 1 then p else t.prntAt y := by
  have hlen : t.prnt.length = 3 * n - 1 := ((t.sized_iff).1 hsized).2.2
  have hlen' : (t.setPrnt x p).prnt.length = 3 * n - 1 := by rw [CodeTable.setPrnt, List.length_set, hlen]
  simp only [nodeCount] at hx
  rw [CodeTable.relink]
  by_cases h : x < nodeCount n
  · rw [if_pos h, CodeTable.prntAt_setPrnt _ _ (by simp only [nodeCount] at h; omega) hp,
      CodeTable.prntAt_setPrnt _ _ (by omega) hp]
    by_cases h1 : y = x + 1 <;> by_cases h2 : y = x <;> simp [h, h1, h2]
  · rw [if_neg h, CodeTable.prntAt_setPrnt _ _ (by omega) hp]
    simp [h]

section
variable {t : CodeTable n w} (hsized : t.sized = true) (hn : 1 ≤ n)
include hsized

theorem CodeTable.freqAt_exchange {c l k : Nat} (hc : c < nodeCount n) (hl : l < nodeCount n) (hcl : c ≠ l)
    (hk : k < 2 ^ 16) (i : Nat) :
    (t.exchange c l k).freqAt i = if i = c then t.freqAt l else if i = l then k else t.freqAt i := by
  have hlen : t.freq.length = 2 * n := ((t.sized_iff).1 hsized).1
  have hlen' : (t.setFreq c (t.freqAt l)).freq.length = 2 * n := by rw [CodeTable.setFreq, List.length_set, hlen]
  have hfl : t.freqAt l < 2 ^ 16 := BitVec.isLt _
  simp only [nodeCount] at hc hl
  simp only [CodeTable.exchange, CodeTable.freqAt_setSon, CodeTable.freqAt_relink]
  rw [CodeTable.freqAt_setFreq _ _ (by omega) hk, CodeTable.freqAt_setFreq _ _ (by omega) hfl]
  by_cases h1 : i = c
  · simp [h1, hcl]
  · simp [h1]

theorem CodeTable.sonAt_exchange {c l k : Nat} (hc : c < nodeCount n) (hl : l < nodeCount n) (i : Nat) :
    (t.exchange c l k).sonAt i = if i = c then t.sonAt l else if i = l then t.sonAt c else t.sonAt i := by
  have hlen : t.son.length = nodeCount n := ((t.sized_iff).1 hsized).2.1
  have hw : ∀ m, t.sonAt m < 2 ^ w := fun m => BitVec.isLt _
  have hson : ∀ (u : CodeTable n w), u.sized = true → u.son.length = nodeCount n := fun u hu => ((u.sized_iff).1 hu).2.1
  simp only [CodeTable.exchange, CodeTable.sonAt_setFreq, CodeTable.sonAt_relink]
  rw [CodeTable.sonAt_setSon _ _ (by rw [hson]; exact hc; simp [hsized]) (hw l), CodeTable.sonAt_relink,
    CodeTable.sonAt_setSon _ _ (by rw [hson]; exact hl; simp [hsized]) (hw c), CodeTable.sonAt_relink,
    CodeTable.sonAt_setFreq, CodeTable.sonAt_setFreq]

include hn

theorem CodeTable.prntAt_exchange {c l k : Nat} (hc : c < nodeCount n) (hl : l < nodeCount n)
    (hson : ∀ i, i < nodeCount n → t.sonAt i < nodeCount n + n) (hw : nodeCount n + n ≤ 2 ^ w) (x : Nat) :
    (t.ChildOf x l → (t.exchange c l k).prntAt x = c) ∧
    (¬t.ChildOf x l → t.ChildOf x c → (t.exchange c l k).prntAt x = l) ∧
    (¬t.ChildOf x l → ¬t.ChildOf x c → (t.exchange c l k).prntAt x = t.prntAt x) := by
  have e : (t.exchange c l k).prntAt x = if t.ChildOf x l then c else if t.ChildOf x c then l else t.prntAt x := by
    simp only [CodeTable.exchange, CodeTable.sonAt_setFreq, CodeTable.sonAt_relink, CodeTable.prntAt_setSon]
    rw [CodeTable.prntAt_relink (by simp [hsized]) hn (hson l hl) (by omega), CodeTable.prntAt_setSon,
      CodeTable.prntAt_relink (by simp [hsized]) hn (hson c hc) (by omega)]
    rfl
  rw [e]
  exact ⟨fun h => if_pos h, fun h h' => by rw [if_neg h, if_pos h'], fun h h' => by rw [if_neg h, if_neg h']⟩

/-- One level of `Bump` does what rule R250 says. -/
theorem CodeTable.bumpLevel_levelDone {c : Nat} (hc : c < nodeCount n) (hf : t.freqAt c < 0xFFFF)
    (hsent : t.freqAt (nodeCount n) = 0xFFFF) (hson : ∀ i, i < nodeCount n → t.sonAt i < nodeCount n + n)
    (hw : nodeCount n + n ≤ 2 ^ w) : t.LevelDone (t.bumpLevel c).1 c (t.bumpLevel c).2 := by
  have hlen : t.freq.length = 2 * n := ((t.sized_iff).1 hsized).1
  have hset : ∀ i, (t.setFreq c (t.freqAt c + 1)).freqAt i = if i = c then t.freqAt c + 1 else t.freqAt i := fun i =>
    CodeTable.freqAt_setFreq t i (by simp only [nodeCount] at hc; omega) (by omega)
  have hsized' : (t.setFreq c (t.freqAt c + 1)).sized = true := by simp [hsized]
  simp only [CodeTable.bumpLevel, hset, if_true]
  rw [if_neg (by omega : ¬c + 1 = c)]
  by_cases h : t.freqAt (c + 1) < t.freqAt c + 1
  · rw [if_pos h]
    have hc1 : c + 1 ≠ nodeCount n := fun e => by rw [e] at h; omega
    obtain ⟨h1, h2, h3, h4⟩ := (t.setFreq c (t.freqAt c + 1)).lastBelow_spec (k := t.freqAt c + 1)
      (by rw [hset, if_neg (by omega)]; omega) (nodeCount n) (c + 1) (by omega) (by omega)
    generalize (t.setFreq c (t.freqAt c + 1)).lastBelow (t.freqAt c + 1) (nodeCount n) (c + 1) = l at *
    have hcl : c ≠ l := by omega
    refine Or.inr ⟨by omega, fun m hm hm' => ?_, ?_, fun i => ?_, fun i => ?_, fun x => ?_⟩
    · rcases Nat.eq_or_lt_of_le hm with rfl | hm
      · exact h
      · have := h3 m hm hm'
        rwa [hset, if_neg (by omega)] at this
    · rwa [hset, if_neg (by omega)] at h4
    · rw [CodeTable.freqAt_exchange hsized' hc h2 hcl (by omega), hset, hset, if_neg (by omega : ¬l = c)]
      by_cases hi : i = c <;> simp [hi]
    · rw [CodeTable.sonAt_exchange hsized' hc h2]; rfl
    · exact CodeTable.prntAt_exchange hsized' hn hc h2 hson hw x
  · rw [if_neg h]
    exact Or.inl ⟨by omega, rfl, rfl⟩

end

end Sys2Proof.Machine

/-! SUPPORT. `Bump` keeps the invariants of rule R55: every level keeps the tree, and moves what is left to do up to the
parent of the node that has risen. -/

namespace Sys2Proof.Machine

variable {n w : Nat} {t t' : CodeTable n w} {c l : Nat}

/-! ## A level as an exchange of two nodes of one frequency -/

/-- A level of `Bump` at node `c` in the words of the tree: the subtrees of `c` and of `l`, the last node of the same
frequency, have changed places, and then the frequency of `l` has risen by 1. -/
structure CodeTable.Raised (t t' : CodeTable n w) (c l : Nat) : Prop where
  le : c ≤ l
  lt : l < nodeCount n
  same : t.freqAt l = t.freqAt c
  next : t.freqAt l < t.freqAt (l + 1)
  freq : ∀ i, t'.freqAt i = t.freqAt i + if i = l then 1 else 0
  son : ∀ i, t'.sonAt i = t.sonAt (Equiv.swap c l i)
  child : ∀ m x, m < nodeCount n → t.ChildOf x m → t'.prntAt x = Equiv.swap c l m
  root : t'.prntAt (rootNode n) = t.prntAt (rootNode n)

theorem swap_lt {m : Nat} {T : Nat} (hc : c < T) (hl : l < T) (hm : m < T) : Equiv.swap c l m < T := by
  rw [Equiv.swap_apply_def]
  split_ifs <;> assumption

/-- The root is nobody's child. -/
theorem CodeTable.Linked.not_childOf_root (h : t.Linked) {m : Nat} (hm : m < nodeCount n) :
    ¬t.ChildOf (rootNode n) m := fun hx => by
  have hT : nodeCount n = 2 * n - 1 := rfl
  have hR : rootNode n = 2 * n - 2 := rfl
  have := h.child_lt hm hx (by omega)
  omega

/-- What rule R250 says of a level, on a table that is a tree. -/
theorem CodeTable.LevelDone.raised (hd : t.LevelDone t' c l) (h : t.Linked) (hw : t.Weighed c) (hc : c < nodeCount n)
    (hf : t.freqAt (rootNode n) < Config.maxFreq) : t.Raised t' c l := by
  have hT : nodeCount n = 2 * n - 1 := rfl
  have hR : rootNode n = 2 * n - 2 := rfl
  have hfc := hw.mono (by omega : c ≤ rootNode n) (le_refl _)
  have hlen : t.freq.length = 2 * n := ((t.sized_iff).1 h.sized).1
  simp only [Config.maxFreq] at hf
  rcases hd with ⟨h1, rfl, rfl⟩ | ⟨h1, h2, h3, hfreq, hson, hprnt⟩
  · refine ⟨le_refl _, hc, rfl, h1, fun i => ?_, fun i => ?_, fun m x hm hx => ?_, rfl⟩
    · rw [CodeTable.freqAt_setFreq _ _ (by omega) (by omega)]
      by_cases hi : i = l <;> simp [hi]
    · simp
    · simpa using h.prntAt_child hm hx
  · have hlT : l < nodeCount n := by
      by_contra hge
      have := h2 (nodeCount n) hc (by omega)
      rw [hw.sentinel] at this
      omega
    have hsame : t.freqAt l = t.freqAt c := by
      have := h2 l h1 (le_refl l)
      have := hw.mono (by omega : c ≤ l) (by omega)
      omega
    have hother : ∀ m x, m < nodeCount n → t.ChildOf x m → ∀ k, k < nodeCount n → k ≠ m → ¬t.ChildOf x k :=
      fun m x hm hx k hk hkm hx' => hkm ((h.prntAt_child hk hx').symm.trans (h.prntAt_child hm hx))
    refine ⟨by omega, hlT, hsame, by omega, fun i => ?_, fun i => ?_, fun m x hm hx => ?_, ?_⟩
    · rw [hfreq]
      by_cases hi : i = c
      · rw [if_pos hi, hi, if_neg (by omega), hsame, Nat.add_zero]
      · by_cases hil : i = l
        · simp [hil, hsame, h1.ne']
        · simp [hi, hil]
    · rw [hson, Equiv.swap_apply_def]
      split_ifs <;> rfl
    · rw [Equiv.swap_apply_def]
      by_cases hml : m = l
      · subst hml
        rw [(hprnt x).1 hx]
        simp [h1.ne']
      · have hnl := hother m x hm hx l hlT (Ne.symm hml)
        by_cases hmc : m = c
        · subst hmc
          rw [(hprnt x).2.1 hnl hx, if_pos rfl]
        · rw [(hprnt x).2.2 hnl (hother m x hm hx c hc (Ne.symm hmc)), if_neg hmc, if_neg hml]
          exact h.prntAt_child hm hx
    · exact (hprnt _).2.2 (h.not_childOf_root hlT) (h.not_childOf_root hc)

/-! ## What a level keeps -/

namespace CodeTable.Raised

variable (hr : t.Raised t' c l) (h : t.Linked) (hw : t.Weighed c)
include hr

theorem swap_lt_nodeCount {m : Nat} (hm : m < nodeCount n) : Equiv.swap c l m < nodeCount n :=
  swap_lt (lt_of_le_of_lt hr.le hr.lt) hr.lt hm

/-- The exchange keeps every node's frequency. -/
theorem freqAt_swap (m : Nat) : t.freqAt (Equiv.swap c l m) = t.freqAt m := by
  rw [Equiv.swap_apply_def]
  split_ifs with h1 h2
  · rw [h1, hr.same]
  · rw [h2, hr.same]
  · rfl

theorem childOf_iff {x m : Nat} : t'.ChildOf x m ↔ t.ChildOf x (Equiv.swap c l m) := by
  simp only [CodeTable.ChildOf, hr.son]

/-- A child of node `m` now names `m`. -/
theorem prntAt_child (m x : Nat) (hm : m < nodeCount n) (hx : t'.ChildOf x m) : t'.prntAt x = m := by
  rw [hr.child _ x (hr.swap_lt_nodeCount hm) (hr.childOf_iff.1 hx), Equiv.swap_apply_self]

include h hw

/-- Children stand below their parent after the exchange too: those of `l` are of lower frequency than `c`. -/
theorem below (k : Nat) (hk : k < nodeCount n) (hs : t'.sonAt k < nodeCount n) : t'.sonAt k + 1 < k := by
  have hT : nodeCount n = 2 * n - 1 := rfl
  have hR : rootNode n = 2 * n - 2 := rfl
  have hcl := hr.le
  have hl := hr.lt
  have hb := h.below _ (hr.swap_lt_nodeCount hk) (by rwa [← hr.son])
  rw [← hr.son] at hb
  by_cases hkc : k = c
  · subst hkc
    rw [Equiv.swap_apply_left] at hb
    by_cases hcl : k = l
    · omega
    · have e := hr.son k
      rw [Equiv.swap_apply_left] at e
      have := (hw.child_lt hl (Ne.symm hcl) (by omega)).2
      rw [hr.same, ← e] at this
      exact hw.lt_of_freqAt_lt (by omega) this
  · by_cases hkl : k = l
    · subst hkl
      rw [Equiv.swap_apply_right] at hb
      omega
    · rwa [Equiv.swap_apply_of_ne_of_ne hkc hkl] at hb

/-- The links make a tree after the level. -/
theorem linked (hsized : t'.sized = true) : t'.Linked where
  sized := hsized
  root := hr.root.trans h.root
  son_lt k hk := by rw [hr.son]; exact h.son_lt _ (hr.swap_lt_nodeCount hk)
  leaf s hs := by
    obtain ⟨h1, h2⟩ := h.leaf s hs
    have e : t'.leafOf s = Equiv.swap c l (t.leafOf s) := hr.child _ _ h1 (Or.inl h2.symm)
    rw [e, hr.son, Equiv.swap_apply_self]
    exact ⟨hr.swap_lt_nodeCount h1, h2⟩
  even k hk hs := by
    rw [hr.son] at hs ⊢
    exact h.even _ (hr.swap_lt_nodeCount hk) hs
  first k hk := hr.prntAt_child k _ hk (Or.inl rfl)
  second k hk hs := hr.prntAt_child k _ hk (Or.inr ⟨hs, rfl⟩)
  below := hr.below h hw

/-- What is left to do after the level is to raise the parent of the node that has risen. -/
theorem weighed (hsized : t'.sized = true) : t'.Weighed (t'.prntAt l) where
  sentinel := by
    have := hr.lt
    rw [hr.freq, if_neg (by omega)]
    exact hw.sentinel
  ordered i hi := by
    have h1 := hw.ordered i hi
    have h2 := hr.next
    rw [hr.freq, hr.freq]
    by_cases hi : i = l
    · subst hi
      rw [if_pos rfl, if_neg (by omega)]
      omega
    · rw [if_neg hi]
      omega
  summed k hk hs := by
    have hT : nodeCount n = 2 * n - 1 := rfl
    have hR : rootNode n = 2 * n - 2 := rfl
    have h' := hr.linked h hw hsized
    have hsum := hw.summed _ (hr.swap_lt_nodeCount hk) (by rwa [← hr.son])
    rw [← hr.son, hr.freqAt_swap] at hsum
    have hkl : Equiv.swap c l k = c ↔ k = l := by
      rw [← Equiv.eq_symm_apply, Equiv.symm_swap, Equiv.swap_apply_left]
    have hchild : k = t'.prntAt l ↔ l = t'.sonAt k ∨ l = t'.sonAt k + 1 := by
      constructor
      · rintro rfl
        by_cases hlR : l = rootNode n
        · rw [hlR, h'.root] at hs hk
          have := h'.below 0 hk hs
          omega
        · have := (h'.parent (by have := hr.lt; omega : l < rootNode n)).2
          omega
      · rintro (e | e)
        · exact (hr.prntAt_child k l hk (Or.inl e)).symm
        · exact (hr.prntAt_child k l hk (Or.inr ⟨hs, e⟩)).symm
    rw [hr.freq, hr.freq, hr.freq]
    simp only [hkl] at hsum
    simp only [hchild]
    split_ifs at hsum ⊢ <;> omega
  positive i hi := by
    rw [hr.freq]
    exact le_trans (hw.positive i hi) (Nat.le_add_right _ _)

end CodeTable.Raised

/-! ## The loop -/

/-- One turn of the loop. -/
theorem CodeTable.bumpFrom_succ (fuel : Nat) (t : CodeTable n w) (c : Nat) :
    CodeTable.bumpFrom (fuel + 1) t c =
      if (t.bumpLevel c).1.prntAt (t.bumpLevel c).2 = 0 then (t.bumpLevel c).1
      else CodeTable.bumpFrom fuel (t.bumpLevel c).1 ((t.bumpLevel c).1.prntAt (t.bumpLevel c).2) := rfl

/-- The loop of `Bump` from a node that has yet to rise, in a tree whose root may still rise by 1. -/
theorem CodeTable.wf_bumpFrom (hn : 1 ≤ n) (hwidth : nodeCount n + n ≤ 2 ^ w) :
    ∀ (fuel c : Nat) (t : CodeTable n w), t.Linked → t.Weighed c → t.freqAt (rootNode n) < Config.maxFreq →
      c < nodeCount n → nodeCount n ≤ fuel + c → (CodeTable.bumpFrom fuel t c).wf = true
  | 0, c, t, _, _, _, hc, hfuel => by omega
  | fuel + 1, c, t, h, hw, hf, hc, hfuel => by
    have hT : nodeCount n = 2 * n - 1 := rfl
    have hR : rootNode n = 2 * n - 2 := rfl
    have hfc := hw.mono (by omega : c ≤ rootNode n) (le_refl _)
    have hf' : t.freqAt (rootNode n) < 0x8000 := hf
    have hr := (CodeTable.bumpLevel_levelDone h.sized hn hc (by omega) hw.sentinel h.son_lt hwidth).raised h hw hc hf
    have hsized : (t.bumpLevel c).1.sized = true := by simp [h.sized]
    have h' := hr.linked h hw hsized
    have hw' := hr.weighed h hw hsized
    have hfroot := hr.freq (rootNode n)
    rw [CodeTable.bumpFrom_succ]
    generalize (t.bumpLevel c).1 = t', (t.bumpLevel c).2 = l at *
    have hl := hr.lt
    have hcl := hr.le
    by_cases hp : t'.prntAt l = 0
    · have hleaf : ∀ k, k = 0 → k < nodeCount n → nodeCount n ≤ t'.sonAt k := fun k hk0 hk => by
        by_contra hs
        have := h'.below k hk (by omega)
        omega
      have hmax : t'.freqAt (rootNode n) ≤ Config.maxFreq := by
        rw [hfroot]
        split_ifs <;> omega
      rw [if_pos hp]
      exact (CodeTable.wf_iff hn t').2 ⟨h', hw'.of_leaf (hleaf _ hp) fun hk => absurd hk (lt_irrefl _), hmax⟩
    · have hlR : l < rootNode n := by
        by_contra hge
        have e : l = rootNode n := by omega
        rw [e, h'.root] at hp
        exact hp rfl
      have hlp := h'.lt_prntAt hlR
      rw [if_neg hp]
      refine CodeTable.wf_bumpFrom hn hwidth fuel _ t' h' hw' ?_ (h'.parent hlR).1 (by omega)
      rw [hfroot, if_neg (by omega), Nat.add_zero]
      exact hf

end Sys2Proof.Machine

/-! SUPPORT. Step 2 of `Rebuild` (rule R260): pairing nodes in order and inserting each sum where the order wants it
makes a sorted forest, and in the end one tree. -/

namespace Sys2Proof.Machine

variable {n w : Nat}

/-! ## Entries of a node list -/

/-- The `son` entry of node `i` of a node list. -/
def nodeSon (nodes : List (BitVec 16 × BitVec w)) (i : Nat) : Nat := (nodes.getD i (0, 0)).2.toNat

/-- The sum of the frequencies of a node list. -/
def freqSum (nodes : List (BitVec 16 × BitVec w)) : Nat := (nodes.map fun p => p.1.toNat).sum

/-- The sons of a node list. -/
def sonsOf (nodes : List (BitVec 16 × BitVec w)) : List Nat := nodes.map fun p => p.2.toNat

theorem nodeSon_mem_sonsOf {P : List (BitVec 16 × BitVec w)} {i : Nat} (hi : i < P.length) :
    nodeSon P i ∈ sonsOf P :=
  List.mem_map_of_mem (f := fun p : BitVec 16 × BitVec w => p.2.toNat) (getD_mem_of_lt hi)

theorem nodeSon_eq_getElem {P : List (BitVec 16 × BitVec w)} {i : Nat} (hi : i < (sonsOf P).length) :
    nodeSon P i = (sonsOf P)[i] := by
  have hi' : i < P.length := by simpa [sonsOf] using hi
  rw [nodeSon, List.getD_eq_getElem _ _ hi']
  simp [sonsOf]

theorem nodeFreq_append_left {P Q : List (BitVec 16 × BitVec w)} {i : Nat} (h : i < P.length) :
    nodeFreq (P ++ Q) i = nodeFreq P i := by
  rw [nodeFreq, List.getD_append _ _ _ _ h, nodeFreq]

section
variable {P : List (BitVec 16 × BitVec w)} {k : Nat} (x : BitVec 16 × BitVec w) (hk : k ≤ P.length)
include hk

theorem getD_insertIdx (i : Nat) :
    (P.insertIdx k x).getD i (0, 0) =
      if i < k then P.getD i (0, 0) else if i = k then x else P.getD (i - 1) (0, 0) := by
  simp only [List.getD_eq_getElem?_getD, List.getElem?_insertIdx]
  by_cases h1 : i < k
  · rw [if_pos h1, if_pos h1]
  · rw [if_neg h1, if_neg h1]
    by_cases h2 : i = k
    · rw [if_pos h2, if_pos h2, if_pos (by omega), Option.getD_some]
    · rw [if_neg h2, if_neg h2]

theorem nodeFreq_insertIdx (i : Nat) : nodeFreq (P.insertIdx k x) i =
    if i < k then nodeFreq P i else if i = k then x.1.toNat else nodeFreq P (i - 1) := by
  rw [nodeFreq, getD_insertIdx x hk]
  split_ifs <;> rfl

theorem nodeSon_insertIdx (i : Nat) : nodeSon (P.insertIdx k x) i =
    if i < k then nodeSon P i else if i = k then x.2.toNat else nodeSon P (i - 1) := by
  rw [nodeSon, getD_insertIdx x hk]
  split_ifs <;> rfl

theorem freqSum_insertIdx : freqSum (P.insertIdx k x) = x.1.toNat + freqSum P := by
  rw [freqSum, ((List.perm_insertIdx x P hk).map _).sum_eq, List.map_cons, List.sum_cons, freqSum]

theorem sonsOf_insertIdx : (sonsOf (P.insertIdx k x)).Perm (x.2.toNat :: sonsOf P) :=
  (List.perm_insertIdx x P hk).map _

end

/-- The sum of one entry more. -/
theorem freqSum_take_succ {P : List (BitVec 16 × BitVec w)} {i : Nat} (hi : i < P.length) :
    freqSum (P.take (i + 1)) = freqSum (P.take i) + nodeFreq P i := by
  rw [freqSum, List.take_succ_eq_append_getElem hi, List.map_append, List.sum_append, nodeFreq,
    List.getD_eq_getElem _ _ hi]
  simp [freqSum]

theorem freqSum_take_le (P : List (BitVec 16 × BitVec w)) (i : Nat) : freqSum (P.take i) ≤ freqSum P :=
  ((List.take_sublist i P).map _).sum_le_sum (by simp)

/-! ## The insert position -/

/-- Every node from the insert position up is of higher frequency, and the node below it is not. -/
theorem insertPos_spec (P : List (BitVec 16 × BitVec w)) (f : Nat) : ∀ j,
    (∀ i, insertPos P f j ≤ i → i < j → f < nodeFreq P i) ∧
      (0 < insertPos P f j → nodeFreq P (insertPos P f j - 1) ≤ f)
  | 0 => ⟨fun i _ hi => absurd hi (Nat.not_lt_zero i), fun h => absurd h (lt_irrefl 0)⟩
  | j + 1 => by
    obtain ⟨h1, h2⟩ := insertPos_spec P f j
    rw [insertPos]
    by_cases h : f < nodeFreq P j
    · rw [if_pos h]
      refine ⟨fun i hi hij => ?_, h2⟩
      rcases Nat.lt_succ_iff_lt_or_eq.1 hij with hij | rfl
      · exact h1 i hi hij
      · exact h
    · rw [if_neg h]
      exact ⟨fun i hi hij => by omega, fun _ => by simpa using h⟩

theorem insertPos_append {P Q : List (BitVec 16 × BitVec w)} {f : Nat} : ∀ {j}, j ≤ P.length →
    insertPos (P ++ Q) f j = insertPos P f j
  | 0, _ => rfl
  | j + 1, h => by rw [insertPos, insertPos, nodeFreq_append_left h, insertPos_append (by omega)]

/-! ## Growing the forest -/

/-- One turn of step 2 of `Rebuild` on the nodes made so far: the sum of nodes `i` and `i + 1` takes its place. -/
def pairUp (i : Nat) (P : List (BitVec 16 × BitVec w)) : List (BitVec 16 × BitVec w) :=
  P.insertIdx (insertPos P (nodeFreq P i + nodeFreq P (i + 1)) P.length)
    (BitVec.ofNat 16 (nodeFreq P i + nodeFreq P (i + 1)), BitVec.ofNat w i)

theorem length_pairUp (i : Nat) (P : List (BitVec 16 × BitVec w)) : (pairUp i P).length = P.length + 1 :=
  List.length_insertIdx_of_le_length (insertPos_le P _ _) _

/-- `m` turns of step 2 of `Rebuild`. -/
def pairUps : Nat → Nat → List (BitVec 16 × BitVec w) → List (BitVec 16 × BitVec w)
  | 0, _, P => P
  | m + 1, i, P => pairUps m (i + 2) (pairUp i P)

theorem insertIdx_append {α : Type} (x : α) (Q : List α) : ∀ (P : List α) (k : Nat), k ≤ P.length →
    (P ++ Q).insertIdx k x = P.insertIdx k x ++ Q
  | _, 0, _ => by simp
  | [], k + 1, h => by simp at h
  | a :: P, k + 1, h => by
    simp only [List.cons_append, List.insertIdx_succ_cons, List.cons.injEq, true_and]
    exact insertIdx_append x Q P k (by simpa using h)

/-- The model's loop overwrites the entries behind the nodes made so far, one each turn. -/
theorem buildInternals_append : ∀ (m i : Nat) (P Q : List (BitVec 16 × BitVec w)), m ≤ Q.length → i + m < P.length →
    buildInternals m P.length i (P ++ Q) = pairUps m i P ++ Q.drop m
  | 0, _, _, _, _, _ => rfl
  | m + 1, i, P, [], h, _ => by simp at h
  | m + 1, i, P, y :: Q, h, hi => by
    have hle := insertPos_le P (nodeFreq P i + nodeFreq P (i + 1)) P.length
    have he : (P ++ y :: Q).eraseIdx P.length = P ++ Q := by
      rw [List.eraseIdx_append_of_length_le (le_refl _), Nat.sub_self, List.eraseIdx_cons_zero]
    rw [buildInternals, nodeFreq_append_left (by omega), nodeFreq_append_left (by omega), insertPos_append (le_refl _),
      he, insertIdx_append _ _ _ _ hle]
    have ih := buildInternals_append m (i + 2) (pairUp i P) Q (by simpa using h) (by rw [length_pairUp]; omega)
    rw [length_pairUp] at ih
    exact ih

/-- What the nodes are after `q` turns: in order, none of frequency 0, the leaves and the first `q` pairs among their
sons, and each internal node above its children with their sum for its frequency. `S` is the sum of the nodes not yet
paired, and stays. -/
structure Forest (n S q : Nat) (P : List (BitVec 16 × BitVec w)) : Prop where
  sorted : ∀ i j, i ≤ j → j < P.length → nodeFreq P i ≤ nodeFreq P j
  positive : ∀ i, i < P.length → 1 ≤ nodeFreq P i
  sons : (sonsOf P).Perm ((List.range n).map (· + nodeCount n) ++ (List.range q).map (2 * ·))
  above : ∀ i, i < P.length → nodeSon P i < nodeCount n → nodeSon P i + 1 < i
  summed : ∀ i, i < P.length → nodeSon P i < nodeCount n →
    nodeFreq P i = nodeFreq P (nodeSon P i) + nodeFreq P (nodeSon P i + 1)
  unpaired : freqSum (P.take (2 * q)) + S = freqSum P

namespace Forest

variable {S q : Nat} {P : List (BitVec 16 × BitVec w)} (h : Forest n S q P)
include h

theorem length_eq : P.length = n + q := by
  simpa [sonsOf] using h.sons.length_eq

/-- The son of an internal node is one of the first `q` pairs. -/
theorem son_lt {i : Nat} (hi : i < P.length) (hs : nodeSon P i < nodeCount n) : ∃ r, r < q ∧ nodeSon P i = 2 * r := by
  rcases List.mem_append.1 (h.sons.mem_iff.1 (nodeSon_mem_sonsOf hi)) with hm | hm
  · obtain ⟨s, _, e⟩ := List.mem_map.1 hm
    omega
  · obtain ⟨r, hr, e⟩ := List.mem_map.1 hm
    exact ⟨r, List.mem_range.1 hr, e.symm⟩

variable (hq : q + 1 < n)
include hq

/-- The next pair of nodes stands unpaired, and its sum is part of `S`. -/
theorem pair_le : nodeFreq P (2 * q) + nodeFreq P (2 * q + 1) ≤ S := by
  have hl := h.length_eq
  have h1 := freqSum_take_succ (P := P) (i := 2 * q) (by omega)
  have h2 := freqSum_take_succ (P := P) (i := 2 * q + 1) (by omega)
  have h3 := freqSum_take_le P (2 * q + 1 + 1)
  have h4 := h.unpaired
  omega

/-- The sum of the next pair is inserted behind that pair. -/
theorem lt_insertPos : 2 * q + 1 < insertPos P (nodeFreq P (2 * q) + nodeFreq P (2 * q + 1)) P.length := by
  have hl := h.length_eq
  by_contra hc
  have := (insertPos_spec P (nodeFreq P (2 * q) + nodeFreq P (2 * q + 1)) P.length).1 (2 * q + 1) (by omega) (by omega)
  omega

/-- A turn of step 2 of `Rebuild` makes the next forest. -/
theorem pairUp (hS : S < 2 ^ 16) (hw : nodeCount n + n ≤ 2 ^ w) : Forest n S (q + 1) (pairUp (2 * q) P) := by
  have hT : nodeCount n = 2 * n - 1 := rfl
  have hl := h.length_eq
  have hl' := length_pairUp (2 * q) P
  have hfS := h.pair_le hq
  have hpos := h.lt_insertPos hq
  obtain ⟨hhigh, hlow⟩ := insertPos_spec P (nodeFreq P (2 * q) + nodeFreq P (2 * q + 1)) P.length
  have hle := insertPos_le P (nodeFreq P (2 * q) + nodeFreq P (2 * q + 1)) P.length
  have hf16 : (BitVec.ofNat 16 (nodeFreq P (2 * q) + nodeFreq P (2 * q + 1))).toNat =
      nodeFreq P (2 * q) + nodeFreq P (2 * q + 1) := by
    rw [BitVec.toNat_ofNat, Nat.mod_eq_of_lt (by omega)]
  have hsw : (BitVec.ofNat w (2 * q)).toNat = 2 * q := by
    rw [BitVec.toNat_ofNat, Nat.mod_eq_of_lt (by omega)]
  have hp1 := h.positive (2 * q) (by omega)
  rw [Machine.pairUp] at hl' ⊢
  generalize hfe : nodeFreq P (2 * q) + nodeFreq P (2 * q + 1) = f at *
  generalize insertPos P f P.length = k at *
  have hfreq := nodeFreq_insertIdx (BitVec.ofNat 16 f, BitVec.ofNat w (2 * q)) hle
  have hson := nodeSon_insertIdx (BitVec.ofNat 16 f, BitVec.ofNat w (2 * q)) hle
  have hsum := freqSum_insertIdx (BitVec.ofNat 16 f, BitVec.ofNat w (2 * q)) hle
  have hsons := sonsOf_insertIdx (BitVec.ofNat 16 f, BitVec.ofNat w (2 * q)) hle
  have htake := List.take_insertIdx_eq_take_of_le P (BitVec.ofNat 16 f, BitVec.ofNat w (2 * q)) (2 * (q + 1)) k
    (by omega)
  simp only [hf16, hsw] at hfreq hson hsum hsons
  generalize P.insertIdx k (BitVec.ofNat 16 f, BitVec.ofNat w (2 * q)) = P' at *
  have hbelow : ∀ i, i < k → nodeFreq P i ≤ f := fun i hi =>
    le_trans (h.sorted i (k - 1) (by omega) (by omega)) (hlow (by omega))
  refine ⟨fun i j hij hj => ?_, fun i hi => ?_, ?_, fun i hi hs => ?_, fun i hi hs => ?_, ?_⟩
  · rw [hfreq, hfreq]
    rcases Nat.lt_trichotomy j k with hjk | rfl | hjk
    · rw [if_pos (by omega), if_pos hjk]
      exact h.sorted i j hij (by omega)
    · rw [if_neg (lt_irrefl j), if_pos rfl]
      split_ifs with h1 h2
      · exact hbelow i h1
      · exact le_refl _
      · omega
    · rw [if_neg (by omega : ¬j < k), if_neg (by omega : ¬j = k)]
      have := hhigh (j - 1) (by omega) (by omega)
      split_ifs with h1 h2
      · exact h.sorted i (j - 1) (by omega) (by omega)
      · omega
      · exact h.sorted (i - 1) (j - 1) (by omega) (by omega)
  · rw [hfreq]
    split_ifs with h1 h2
    · exact h.positive i (by omega)
    · omega
    · exact h.positive (i - 1) (by omega)
  · refine hsons.trans ?_
    rw [List.range_succ, List.map_append, ← List.append_assoc, List.map_singleton]
    exact ((h.sons.cons (2 * q)).trans (List.perm_append_singleton _ _).symm)
  · rw [hson] at hs ⊢
    split_ifs at hs ⊢ with h1 h2
    · exact h.above i (by omega) hs
    · omega
    · have := h.above (i - 1) (by omega) hs
      omega
  · have hold : ∀ j, j < k → nodeFreq P' j = nodeFreq P j := fun j hj => by rw [hfreq, if_pos hj]
    rw [hson] at hs
    rw [hfreq i, hson i]
    split_ifs at hs ⊢ with h1 h2
    · have := h.above i (by omega) hs
      rw [hold _ (by omega), hold _ (by omega)]
      exact h.summed i (by omega) hs
    · rw [hold _ (by omega), hold _ (by omega), hfe]
    · obtain ⟨r, hr, e⟩ := h.son_lt (by omega : i - 1 < P.length) hs
      rw [hold _ (by omega), hold _ (by omega)]
      exact h.summed (i - 1) (by omega) hs
  · have h1 := freqSum_take_succ (P := P) (i := 2 * q) (by omega)
    have h2 := freqSum_take_succ (P := P) (i := 2 * q + 1) (by omega)
    have h3 := h.unpaired
    rw [htake, hsum, show 2 * (q + 1) = 2 * q + 1 + 1 by ring]
    omega

end Forest

/-- All the turns of step 2 of `Rebuild`. -/
theorem Forest.pairUps {S : Nat} (hS : S < 2 ^ 16) (hw : nodeCount n + n ≤ 2 ^ w) :
    ∀ (m q : Nat) (P : List (BitVec 16 × BitVec w)), Forest n S q P → q + m + 1 ≤ n →
      Forest n S (q + m) (pairUps m (2 * q) P)
  | 0, _, _, h, _ => h
  | m + 1, q, P, h, hq => by
    have := Forest.pairUps hS hw m (q + 1) _ (h.pairUp (by omega) hS hw) (by omega)
    rwa [show q + 1 + m = q + (m + 1) by ring] at this

end Sys2Proof.Machine

/-! SUPPORT. `Rebuild` keeps the invariants of rule R55, and leaves the root below the threshold of rule R254. -/

namespace Sys2Proof.Machine

variable {n w : Nat} {t : CodeTable n w}

/-! ## The leaves weigh as much as the root -/

/-- A sum over the first `2m` numbers, pair by pair. -/
theorem sum_range_two_mul (f : Nat → Nat) : ∀ m, ∑ i ∈ Finset.range (2 * m), f i =
    ∑ q ∈ Finset.range m, (f (2 * q) + f (2 * q + 1))
  | 0 => rfl
  | m + 1 => by
    rw [Finset.sum_range_succ, ← sum_range_two_mul f m, show 2 * (m + 1) = 2 * m + 1 + 1 by ring,
      Finset.sum_range_succ, Finset.sum_range_succ, add_assoc]

/-- The children of the internal nodes are the nodes below the root. -/
theorem CodeTable.Linked.sum_innerNodes (h : t.Linked) (f : Nat → Nat) :
    ∑ k ∈ t.innerNodes, (f (t.sonAt k) + f (t.sonAt k + 1)) = ∑ i ∈ Finset.range (rootNode n), f i := by
  have hT : nodeCount n = 2 * n - 1 := rfl
  have hR : rootNode n = 2 * (n - 1) := by simp only [rootNode]; omega
  rw [hR, sum_range_two_mul]
  refine Finset.sum_bij (fun k _ => t.sonAt k / 2) (fun k hk => ?_) (fun k hk l hl e => ?_) (fun q hq => ?_)
    fun k hk => ?_
  · obtain ⟨hk, hs⟩ := CodeTable.mem_innerNodes.1 hk
    have := h.below k hk hs
    exact Finset.mem_range.2 (by omega)
  · obtain ⟨hk, hsk⟩ := CodeTable.mem_innerNodes.1 hk
    obtain ⟨hl, hsl⟩ := CodeTable.mem_innerNodes.1 hl
    have h1 := h.even k hk hsk
    have h2 := h.even l hl hsl
    exact h.sonAt_inj hk hl (by omega)
  · have hq := Finset.mem_range.1 hq
    obtain ⟨k, hk, e⟩ := h.exists_parent hq
    exact ⟨k, CodeTable.mem_innerNodes.2 ⟨hk, by omega⟩, by omega⟩
  · obtain ⟨hk, hs⟩ := CodeTable.mem_innerNodes.1 hk
    have := h.even k hk hs
    rw [show 2 * (t.sonAt k / 2) = t.sonAt k by omega]

/-- The root's frequency is the sum of the leaves' (rule R53). -/
theorem CodeTable.Linked.sum_leafNodes (h : t.Linked) (hw : t.Weighed (nodeCount n)) (hn : 1 ≤ n) :
    ∑ k ∈ t.leafNodes, t.freqAt k = t.freqAt (rootNode n) := by
  have hT : nodeCount n = rootNode n + 1 := by simp only [nodeCount, rootNode]; omega
  have hall : ∑ k ∈ t.leafNodes, t.freqAt k + ∑ k ∈ t.innerNodes, t.freqAt k =
      ∑ k ∈ Finset.range (nodeCount n), t.freqAt k := Finset.sum_filter_add_sum_filter_not _ _ _
  have hinner : ∑ k ∈ t.innerNodes, t.freqAt k = ∑ i ∈ Finset.range (rootNode n), t.freqAt i := by
    rw [← h.sum_innerNodes]
    refine Finset.sum_congr rfl fun k hk => ?_
    obtain ⟨hk, hs⟩ := CodeTable.mem_innerNodes.1 hk
    exact (hw.summed_of_ne hk (by omega) hs).symm
  have hsucc : ∑ k ∈ Finset.range (nodeCount n), t.freqAt k =
      ∑ i ∈ Finset.range (rootNode n), t.freqAt i + t.freqAt (rootNode n) := by
    rw [hT, Finset.sum_range_succ]
  omega

/-! ## The gathered leaves -/

/-- The leaves in node order. -/
def CodeTable.leafList (t : CodeTable n w) : List Nat :=
  (List.range (nodeCount n)).filter fun i => decide (nodeCount n ≤ t.sonAt i)

theorem CodeTable.mem_leafList {k : Nat} : k ∈ t.leafList ↔ k < nodeCount n ∧ nodeCount n ≤ t.sonAt k := by
  rw [CodeTable.leafList, List.mem_filter, List.mem_range, decide_eq_true_eq]

theorem CodeTable.pairwise_leafList (t : CodeTable n w) : t.leafList.Pairwise (· < ·) :=
  List.pairwise_lt_range.filter _

theorem CodeTable.sum_leafList (t : CodeTable n w) (f : Nat → Nat) :
    (t.leafList.map f).sum = ∑ k ∈ t.leafNodes, f k := by
  have e : t.leafList.toFinset = t.leafNodes := by
    ext k
    rw [List.mem_toFinset, CodeTable.mem_leafList, CodeTable.mem_leafNodes]
  rw [← e, List.sum_toFinset f (t.pairwise_leafList.imp Nat.ne_of_lt)]

/-- The sons of the leaves are the symbols. -/
theorem CodeTable.Linked.perm_leafList (h : t.Linked) :
    (t.leafList.map t.sonAt).Perm ((List.range n).map (· + nodeCount n)) := by
  refine (List.perm_ext_iff_of_nodup ?_ ?_).2 fun x => ?_
  · refine List.Nodup.map_on (fun k hk l hl e => ?_) (t.pairwise_leafList.imp Nat.ne_of_lt)
    exact h.sonAt_inj (CodeTable.mem_leafList.1 hk).1 (CodeTable.mem_leafList.1 hl).1 e
  · exact List.nodup_range.map (add_left_injective _)
  · simp only [List.mem_map, CodeTable.mem_leafList, List.mem_range]
    constructor
    · rintro ⟨k, ⟨hk, hs⟩, rfl⟩
      have := h.son_lt k hk
      exact ⟨t.sonAt k - nodeCount n, by omega, by omega⟩
    · rintro ⟨s, hs, rfl⟩
      obtain ⟨h1, h2⟩ := h.leaf s hs
      exact ⟨t.leafOf s, ⟨h1, by omega⟩, h2⟩

/-- A frequency halved, a half rounded up (rule R260). -/
def CodeTable.halved (t : CodeTable n w) (k : Nat) : Nat := (t.freqAt k + 1) / 2

theorem CodeTable.toNat_halved (t : CodeTable n w) (k : Nat) : (BitVec.ofNat 16 (t.halved k)).toNat = t.halved k := by
  have : t.freqAt k < 2 ^ 16 := BitVec.isLt _
  rw [BitVec.toNat_ofNat]
  exact Nat.mod_eq_of_lt (by rw [CodeTable.halved]; omega)

theorem CodeTable.gatherLeaves_eq (t : CodeTable n w) :
    t.gatherLeaves = t.leafList.map fun k => (BitVec.ofNat 16 (t.halved k), t.son.getD k 0) := rfl

theorem CodeTable.sonsOf_gatherLeaves (t : CodeTable n w) : sonsOf t.gatherLeaves = t.leafList.map t.sonAt := by
  rw [CodeTable.gatherLeaves_eq, sonsOf, List.map_map]
  rfl

theorem CodeTable.freqSum_gatherLeaves (t : CodeTable n w) :
    freqSum t.gatherLeaves = (t.leafList.map t.halved).sum := by
  rw [CodeTable.gatherLeaves_eq, freqSum, List.map_map]
  exact congrArg List.sum (List.map_congr_left fun k _ => t.toNat_halved k)

theorem CodeTable.length_gatherLeaves (h : t.Linked) : t.gatherLeaves.length = n := by
  have := h.perm_leafList.length_eq
  rw [CodeTable.gatherLeaves, List.length_map]
  simpa [CodeTable.leafList] using this

/-- The halved leaves weigh half of the root, and the halves rounded up. -/
theorem CodeTable.freqSum_gatherLeaves_le (h : t.Linked) (hw : t.Weighed (nodeCount n)) (hn : 1 ≤ n) :
    2 * freqSum t.gatherLeaves ≤ t.freqAt (rootNode n) + n := by
  have hcard : t.leafNodes.card ≤ n := h.card_leafNodes_le
  rw [t.freqSum_gatherLeaves, t.sum_leafList, ← h.sum_leafNodes hw hn, Finset.mul_sum]
  calc ∑ k ∈ t.leafNodes, 2 * t.halved k ≤ ∑ k ∈ t.leafNodes, (t.freqAt k + 1) :=
        Finset.sum_le_sum fun k _ => by rw [CodeTable.halved]; omega
    _ = ∑ k ∈ t.leafNodes, t.freqAt k + t.leafNodes.card := by rw [Finset.sum_add_distrib, Finset.card_eq_sum_ones]
    _ ≤ ∑ k ∈ t.leafNodes, t.freqAt k + n := Nat.add_le_add_left hcard _

/-- The gathered leaves are the forest that step 2 of `Rebuild` starts from. -/
theorem CodeTable.forest_gatherLeaves (h : t.Linked) (hw : t.Weighed (nodeCount n)) :
    Forest n (freqSum t.gatherLeaves) 0 t.gatherLeaves := by
  have hT : nodeCount n = 2 * n - 1 := rfl
  have hR : rootNode n = 2 * n - 2 := rfl
  have hlen : t.gatherLeaves.length = t.leafList.length := List.length_map _
  have hfreq : ∀ i (hi : i < t.gatherLeaves.length), nodeFreq t.gatherLeaves i = t.halved (t.leafList[i]'(hlen ▸ hi)) :=
    fun i hi => by
      rw [nodeFreq, List.getD_eq_getElem _ _ hi, ← t.toNat_halved]
      simp [CodeTable.gatherLeaves_eq]
  have hmem : ∀ i (hi : i < t.gatherLeaves.length), t.leafList[i]'(hlen ▸ hi) < nodeCount n := fun i hi =>
    (CodeTable.mem_leafList.1 (List.getElem_mem _)).1
  have hsons : (sonsOf t.gatherLeaves).Perm ((List.range n).map (· + nodeCount n)) := by
    rw [t.sonsOf_gatherLeaves]
    exact h.perm_leafList
  have hleaf : ∀ i, i < t.gatherLeaves.length → nodeCount n ≤ nodeSon t.gatherLeaves i := fun i hi => by
    obtain ⟨s, _, e⟩ := List.mem_map.1 (hsons.mem_iff.1 (nodeSon_mem_sonsOf hi))
    omega
  refine ⟨fun i j hij hj => ?_, fun i hi => ?_, by simpa using hsons, fun i hi hs => ?_, fun i hi hs => ?_, ?_⟩
  · rw [hfreq i (by omega), hfreq j hj, CodeTable.halved, CodeTable.halved]
    have hle : t.leafList[i] ≤ t.leafList[j] := by
      rcases Nat.eq_or_lt_of_le hij with rfl | hij
      · exact le_refl _
      · exact le_of_lt (List.pairwise_iff_getElem.1 t.pairwise_leafList i j _ _ hij)
    have := hmem j hj
    have := hw.mono hle (by omega)
    omega
  · have := hw.positive _ (hmem i hi)
    rw [hfreq i hi, CodeTable.halved]
    omega
  · exact absurd hs (by simpa using hleaf i hi)
  · exact absurd hs (by simpa using hleaf i hi)
  · simp [freqSum]

/-! ## The rebuilt table, before its parent links -/

/-- The nodes that step 2 of `Rebuild` makes. -/
def CodeTable.rebuiltNodes (t : CodeTable n w) : List (BitVec 16 × BitVec w) := pairUps (n - 1) 0 t.gatherLeaves

/-- A table with the nodes of a node list, its parent links as they were. -/
def CodeTable.withNodes (t : CodeTable n w) (nodes : List (BitVec 16 × BitVec w)) : CodeTable n w :=
  { t with freq := nodes.map Prod.fst ++ t.freq.drop (nodeCount n), son := nodes.map Prod.snd }

theorem CodeTable.rebuild_eq (h : t.Linked) :
    t.rebuild = (List.range (nodeCount n)).foldl CodeTable.linkNode (t.withNodes t.rebuiltNodes) := by
  obtain ⟨hf, hs, _⟩ := (t.sized_iff).1 h.sized
  have hlen := CodeTable.length_gatherLeaves h
  have hrest : (((t.freq.take (nodeCount n)).zip t.son).drop n).length = n - 1 := by
    simp only [List.length_drop, List.length_zip, List.length_take, hf, hs, nodeCount]
    omega
  have hb : buildInternals (n - 1) n 0 (t.gatherLeaves ++ ((t.freq.take (nodeCount n)).zip t.son).drop n) =
      t.rebuiltNodes := by
    rcases Nat.eq_zero_or_pos n with rfl | hn
    · simp [buildInternals, CodeTable.rebuiltNodes, pairUps]
    · have e := buildInternals_append (n - 1) 0 t.gatherLeaves _ (le_of_eq hrest.symm) (by omega)
      rw [hlen] at e
      rw [e, List.drop_of_length_le (le_of_eq hrest), List.append_nil, CodeTable.rebuiltNodes]
  rw [CodeTable.rebuild]
  simp only [hlen, hb, hs]
  rfl

/-- What step 2 of `Rebuild` ends with: one tree. -/
theorem CodeTable.forest_rebuiltNodes (h : t.Linked) (hw : t.Weighed (nodeCount n)) (hn : 1 ≤ n)
    (hS : freqSum t.gatherLeaves < 2 ^ 16) (hwidth : nodeCount n + n ≤ 2 ^ w) :
    Forest n (freqSum t.gatherLeaves) (n - 1) t.rebuiltNodes := by
  have := Forest.pairUps hS hwidth (n - 1) 0 _ (CodeTable.forest_gatherLeaves h hw) (by omega)
  rwa [Nat.zero_add] at this

section
variable {N : List (BitVec 16 × BitVec w)}

@[simp] theorem CodeTable.sonAt_withNodes (t : CodeTable n w) (i : Nat) : (t.withNodes N).sonAt i = nodeSon N i := by
  rw [CodeTable.sonAt, CodeTable.withNodes, nodeSon]
  by_cases hi : i < N.length
  · rw [List.getD_eq_getElem _ _ (by simpa using hi), List.getD_eq_getElem _ _ hi, List.getElem_map]
  · rw [List.getD_eq_default _ _ (by simpa using hi), List.getD_eq_default _ _ (by simpa using hi)]

@[simp] theorem CodeTable.prntAt_withNodes (t : CodeTable n w) (i : Nat) : (t.withNodes N).prntAt i = t.prntAt i := rfl

theorem CodeTable.freqAt_withNodes (hN : N.length = nodeCount n) (i : Nat) :
    (t.withNodes N).freqAt i = if i < nodeCount n then nodeFreq N i else t.freqAt i := by
  rw [CodeTable.freqAt, CodeTable.withNodes, nodeFreq, List.getD_eq_getElem?_getD, List.getD_eq_getElem?_getD,
    List.getElem?_append, List.length_map, hN]
  by_cases hi : i < nodeCount n
  · rw [if_pos hi, if_pos hi, List.getElem?_map, List.getElem?_eq_getElem (hN ▸ hi)]
    rfl
  · rw [if_neg hi, if_neg hi, List.getElem?_drop, show nodeCount n + (i - nodeCount n) = i by omega,
      CodeTable.freqAt, List.getD_eq_getElem?_getD]

theorem CodeTable.sized_withNodes (hs : t.sized = true) (hN : N.length = nodeCount n) :
    (t.withNodes N).sized = true := by
  obtain ⟨hf, _, hp⟩ := (t.sized_iff).1 hs
  refine (CodeTable.sized_iff _).2 ⟨?_, ?_, hp⟩
  · simp only [CodeTable.withNodes, List.length_append, List.length_map, List.length_drop, hN, hf, nodeCount]
    omega
  · simp only [CodeTable.withNodes, List.length_map, hN]

end

/-! ## The parent links -/

theorem CodeTable.linkNode_eq_relink (t : CodeTable n w) (i : Nat) : t.linkNode i = t.relink (t.sonAt i) i := by
  rw [CodeTable.linkNode, CodeTable.relink]
  by_cases h : t.sonAt i < nodeCount n
  · rw [if_neg (by omega), if_pos h]
  · rw [if_pos (by omega), if_neg h]

theorem CodeTable.childOf_linkNode {x i k : Nat} : (t.linkNode i).ChildOf x k ↔ t.ChildOf x k := by
  simp only [CodeTable.ChildOf, CodeTable.sonAt_linkNode]

@[simp] theorem CodeTable.sonAt_linkNodes (L : List Nat) (j : Nat) :
    ∀ t : CodeTable n w, (L.foldl CodeTable.linkNode t).sonAt j = t.sonAt j := by
  induction L with
  | nil => exact fun _ => rfl
  | cons i L ih => intro t; rw [List.foldl_cons, ih, CodeTable.sonAt_linkNode]

@[simp] theorem CodeTable.freqAt_linkNodes (L : List Nat) (j : Nat) :
    ∀ t : CodeTable n w, (L.foldl CodeTable.linkNode t).freqAt j = t.freqAt j := by
  induction L with
  | nil => exact fun _ => rfl
  | cons i L ih => intro t; rw [List.foldl_cons, ih, CodeTable.freqAt_linkNode]

/-- Step 3 of `Rebuild`, where no node is the child of two: a child of a node names that node, and what is no node's
child keeps its link. -/
theorem CodeTable.prntAt_linkNodes (hn : 1 ≤ n) (hw : nodeCount n + n ≤ 2 ^ w) (x : Nat) :
    ∀ (L : List Nat) (t : CodeTable n w), t.sized = true → (∀ k ∈ L, k < nodeCount n) →
      (∀ k ∈ L, t.sonAt k < nodeCount n + n) → (∀ k ∈ L, ∀ l ∈ L, t.ChildOf x k → t.ChildOf x l → k = l) →
      ((∀ k ∈ L, ¬t.ChildOf x k) → (L.foldl CodeTable.linkNode t).prntAt x = t.prntAt x) ∧
        ∀ k ∈ L, t.ChildOf x k → (L.foldl CodeTable.linkNode t).prntAt x = k
  | [], _, _, _, _, _ => ⟨fun _ => rfl, fun k hk => absurd hk (by simp)⟩
  | i :: L, t, hs, hL, hson, huniq => by
    have hstep : (t.linkNode i).prntAt x = if t.ChildOf x i then i else t.prntAt x := by
      have hi := hL i (by simp)
      rw [CodeTable.linkNode_eq_relink, CodeTable.prntAt_relink hs hn (hson i (by simp)) (by omega)]
    obtain ⟨h1, h2⟩ := CodeTable.prntAt_linkNodes hn hw x L (t.linkNode i) (by simp [hs])
      (fun k hk => hL k (by simp [hk])) (fun k hk => by rw [CodeTable.sonAt_linkNode]; exact hson k (by simp [hk]))
      (fun k hk l hl hck hcl => huniq k (by simp [hk]) l (by simp [hl])
        (CodeTable.childOf_linkNode.1 hck) (CodeTable.childOf_linkNode.1 hcl))
    simp only [CodeTable.childOf_linkNode] at h1 h2
    refine ⟨fun h => ?_, fun k hk hc => ?_⟩
    · rw [List.foldl_cons, h1 fun k hk => h k (by simp [hk]), hstep, if_neg (h i (by simp))]
    · rw [List.foldl_cons]
      by_cases hx : ∃ l ∈ L, t.ChildOf x l
      · obtain ⟨l, hl, hcl⟩ := hx
        rw [h2 l hl hcl]
        exact huniq l (by simp [hl]) k hk hcl hc
      · have hki : k = i := by
          rcases List.mem_cons.1 hk with hk | hk
          · exact hk
          · exact absurd ⟨k, hk, hc⟩ hx
        subst hki
        rw [h1 fun l hl hcl => hx ⟨l, hl, hcl⟩, hstep, if_pos hc]

/-! ## The invariants -/

namespace Forest

variable {S : Nat} {N : List (BitVec 16 × BitVec w)} (h : Forest n S (n - 1) N) (hn : 1 ≤ n)
include h hn

theorem length_tree : N.length = nodeCount n := by
  rw [h.length_eq]
  simp only [nodeCount]
  omega

theorem son_inner {i : Nat} (hi : i < nodeCount n) (hs : nodeSon N i < nodeCount n) :
    nodeSon N i % 2 = 0 ∧ nodeSon N i + 1 < rootNode n := by
  obtain ⟨r, hr, e⟩ := h.son_lt (by rwa [h.length_tree hn]) hs
  simp only [rootNode]
  omega

theorem son_lt_all {i : Nat} (hi : i < nodeCount n) : nodeSon N i < nodeCount n + n := by
  have hm := h.sons.mem_iff.1 (nodeSon_mem_sonsOf (by rwa [h.length_tree hn]))
  simp only [List.mem_append, List.mem_map, List.mem_range] at hm
  simp only [nodeCount]
  simp only [nodeCount] at hm
  omega

theorem son_inj {i j : Nat} (hi : i < nodeCount n) (hj : j < nodeCount n) (e : nodeSon N i = nodeSon N j) : i = j := by
  have hl : (sonsOf N).length = nodeCount n := by rw [sonsOf, List.length_map, h.length_tree hn]
  have hnd : (sonsOf N).Nodup := by
    refine h.sons.nodup_iff.2 (List.Nodup.append ?_ ?_ fun x hx hx' => ?_)
    · exact List.nodup_range.map (add_left_injective _)
    · exact List.nodup_range.map (mul_right_injective₀ two_ne_zero)
    · obtain ⟨s, _, rfl⟩ := List.mem_map.1 hx
      obtain ⟨r, hr, e⟩ := List.mem_map.1 hx'
      have := List.mem_range.1 hr
      simp only [nodeCount] at e
      omega
  rw [nodeSon_eq_getElem (by omega), nodeSon_eq_getElem (by omega)] at e
  exact (hnd.getElem_inj_iff).1 e

theorem exists_leaf {s : Nat} (hs : s < n) : ∃ k, k < nodeCount n ∧ nodeSon N k = s + nodeCount n := by
  have hm : s + nodeCount n ∈ sonsOf N :=
    h.sons.mem_iff.2 (List.mem_append_left _ (List.mem_map_of_mem (f := (· + nodeCount n)) (List.mem_range.2 hs)))
  obtain ⟨k, hk, e⟩ := List.mem_iff_getElem.1 hm
  have hk' : k < N.length := by simpa [sonsOf] using hk
  exact ⟨k, by rwa [h.length_tree hn] at hk', by rw [nodeSon_eq_getElem hk, e]⟩

/-- The root is the sum of all the leaves. -/
theorem freq_root : nodeFreq N (rootNode n) = S := by
  have hl := h.length_tree hn
  have hR : nodeCount n = rootNode n + 1 := by simp only [nodeCount, rootNode]; omega
  have h1 := freqSum_take_succ (P := N) (i := rootNode n) (by omega)
  have h2 := h.unpaired
  rw [← hR, ← hl, List.take_length] at h1
  rw [show 2 * (n - 1) = rootNode n by simp only [rootNode]; omega] at h2
  omega

end Forest

section
variable {S : Nat} {N : List (BitVec 16 × BitVec w)}

/-- The links that step 3 of `Rebuild` writes make the nodes of step 2 a tree. -/
theorem CodeTable.linked_linkNodes (hN : Forest n S (n - 1) N) (hn : 1 ≤ n) (hw : nodeCount n + n ≤ 2 ^ w)
    (hs : t.sized = true) (hroot : t.prntAt (rootNode n) = 0) :
    ((List.range (nodeCount n)).foldl CodeTable.linkNode (t.withNodes N)).Linked := by
  have hT : nodeCount n = 2 * n - 1 := rfl
  have hR : rootNode n = 2 * n - 2 := rfl
  have hsized := CodeTable.sized_withNodes hs (hN.length_tree hn)
  have huniq : ∀ x k l, k < nodeCount n → l < nodeCount n → (t.withNodes N).ChildOf x k →
      (t.withNodes N).ChildOf x l → k = l := fun x k l hk hl hck hcl => by
    simp only [CodeTable.ChildOf, CodeTable.sonAt_withNodes] at hck hcl
    refine hN.son_inj hn hk hl ?_
    have h1 := hN.son_inner hn hk
    have h2 := hN.son_inner hn hl
    omega
  have hprnt := fun x => CodeTable.prntAt_linkNodes hn hw x (List.range (nodeCount n)) (t.withNodes N) hsized
    (fun k hk => List.mem_range.1 hk)
    (fun k hk => by rw [CodeTable.sonAt_withNodes]; exact hN.son_lt_all hn (List.mem_range.1 hk))
    (fun k hk l hl => huniq x k l (List.mem_range.1 hk) (List.mem_range.1 hl))
  have hchild : ∀ x k, k < nodeCount n → (t.withNodes N).ChildOf x k →
      ((List.range (nodeCount n)).foldl CodeTable.linkNode (t.withNodes N)).prntAt x = k := fun x k hk hc =>
    (hprnt x).2 k (List.mem_range.2 hk) hc
  have hnoroot : ∀ k ∈ List.range (nodeCount n), ¬(t.withNodes N).ChildOf (rootNode n) k := fun k hk hc => by
    have := hN.son_inner hn (List.mem_range.1 hk)
    simp only [CodeTable.ChildOf, CodeTable.sonAt_withNodes] at hc
    omega
  refine ⟨?_, ?_, fun k hk => ?_, fun s hs' => ?_, fun k hk hs' => ?_, fun k hk => ?_, fun k hk hs' => ?_,
    fun k hk hs' => ?_⟩
  · rw [CodeTable.sized_linkNodes, hsized]
  · rw [(hprnt (rootNode n)).1 hnoroot, CodeTable.prntAt_withNodes, hroot]
  · rw [CodeTable.sonAt_linkNodes, CodeTable.sonAt_withNodes]
    exact hN.son_lt_all hn hk
  · obtain ⟨k, hk, e⟩ := hN.exists_leaf hn hs'
    have : ((List.range (nodeCount n)).foldl CodeTable.linkNode (t.withNodes N)).leafOf s = k :=
      hchild _ k hk (Or.inl (by rw [CodeTable.sonAt_withNodes, e]))
    rw [this, CodeTable.sonAt_linkNodes, CodeTable.sonAt_withNodes]
    exact ⟨hk, e⟩
  · rw [CodeTable.sonAt_linkNodes, CodeTable.sonAt_withNodes] at hs' ⊢
    exact (hN.son_inner hn hk hs').1
  · exact hchild _ k hk (Or.inl (by rw [CodeTable.sonAt_linkNodes]))
  · rw [CodeTable.sonAt_linkNodes] at hs' ⊢
    exact hchild _ k hk (Or.inr ⟨hs', rfl⟩)
  · rw [CodeTable.sonAt_linkNodes, CodeTable.sonAt_withNodes] at hs' ⊢
    exact hN.above k (by rwa [hN.length_tree hn]) hs'

/-- The frequencies that step 2 of `Rebuild` writes weigh its tree. -/
theorem CodeTable.weighed_linkNodes (hN : Forest n S (n - 1) N) (hn : 1 ≤ n) (L : List Nat)
    (hsent : t.freqAt (nodeCount n) = 0xFFFF) :
    (L.foldl CodeTable.linkNode (t.withNodes N)).Weighed (nodeCount n) := by
  have hT : nodeCount n = 2 * n - 1 := rfl
  have hR : rootNode n = 2 * n - 2 := rfl
  have hl := hN.length_tree hn
  refine ⟨?_, fun i hi => ?_, fun k hk hs => ?_, fun i hi => ?_⟩
  · rw [CodeTable.freqAt_linkNodes, CodeTable.freqAt_withNodes hl, if_neg (lt_irrefl _), hsent]
  · rw [CodeTable.freqAt_linkNodes, CodeTable.freqAt_linkNodes, CodeTable.freqAt_withNodes hl,
      CodeTable.freqAt_withNodes hl, if_pos (by omega), if_pos (by omega)]
    exact hN.sorted i (i + 1) (by omega) (by omega)
  · rw [CodeTable.sonAt_linkNodes, CodeTable.sonAt_withNodes] at hs
    have := hN.son_inner hn hk hs
    simp only [CodeTable.freqAt_linkNodes, CodeTable.sonAt_linkNodes, CodeTable.sonAt_withNodes,
      CodeTable.freqAt_withNodes hl]
    rw [if_pos hs, if_pos (by omega), if_pos hk, if_neg (by omega), hN.summed k (by omega) hs]
    rfl
  · rw [CodeTable.freqAt_linkNodes, CodeTable.freqAt_withNodes hl, if_pos hi]
    exact hN.positive i (by omega)

end

/-- `Rebuild` keeps the invariants of rule R55, and the root then holds the sum of the halved leaves. -/
theorem CodeTable.wf_rebuild (hn : 1 ≤ n) (hwidth : nodeCount n + n ≤ 2 ^ w) (hmax : n < Config.maxFreq)
    (ht : t.wf = true) :
    t.rebuild.wf = true ∧ t.rebuild.freqAt (rootNode n) = freqSum t.gatherLeaves ∧
      freqSum t.gatherLeaves < Config.maxFreq := by
  obtain ⟨hl, hw, hf⟩ := (CodeTable.wf_iff hn t).1 ht
  have hsum := CodeTable.freqSum_gatherLeaves_le hl hw hn
  have hS : freqSum t.gatherLeaves < Config.maxFreq := by omega
  have hN := CodeTable.forest_rebuiltNodes hl hw hn (lt_trans hS (by decide)) hwidth
  have hroot : t.rebuild.freqAt (rootNode n) = freqSum t.gatherLeaves := by
    rw [CodeTable.rebuild_eq hl, CodeTable.freqAt_linkNodes, CodeTable.freqAt_withNodes (hN.length_tree hn),
      if_pos (by simp only [rootNode, nodeCount]; omega), hN.freq_root hn]
  refine ⟨(CodeTable.wf_iff hn _).2 ⟨?_, ?_, by omega⟩, hroot, hS⟩
  · rw [CodeTable.rebuild_eq hl]
    exact CodeTable.linked_linkNodes hN hn hwidth hl.sized hl.root
  · rw [CodeTable.rebuild_eq hl]
    exact CodeTable.weighed_linkNodes hN hn _ hw.sentinel

/-- `Bump` keeps the invariants of rule R55. -/
theorem CodeTable.wf_bump (hn : 1 ≤ n) (hwidth : nodeCount n + n ≤ 2 ^ w) (hmax : n < Config.maxFreq)
    (ht : t.wf = true) {s : Nat} (hs : s < n) : (t.bump s).wf = true := by
  have hfrom : ∀ u : CodeTable n w, u.wf = true → u.freqAt (rootNode n) < Config.maxFreq →
      (CodeTable.bumpFrom (nodeCount n) u (u.leafOf s)).wf = true := fun u hu hfu => by
    obtain ⟨hl, hw, _⟩ := (CodeTable.wf_iff hn u).1 hu
    obtain ⟨hlt, hson⟩ := hl.leaf s hs
    refine CodeTable.wf_bumpFrom hn hwidth _ _ u hl ?_ hfu hlt (Nat.le_add_right _ _)
    exact hw.of_leaf (fun hc => absurd hc (lt_irrefl _)) fun _ => by omega
  rw [CodeTable.bump]
  by_cases h : Config.maxFreq ≤ t.freqAt (rootNode n)
  · obtain ⟨h1, h2, h3⟩ := CodeTable.wf_rebuild hn hwidth hmax ht
    simp only [if_pos h]
    exact hfrom _ h1 (by omega)
  · simp only [if_neg h]
    exact hfrom t ht (by omega)

end Sys2Proof.Machine

/-! SUPPORT. A symbol's code leads back to the symbol (rule R144), and the bits of a number give the number back (rule
R175). -/

namespace Sys2Proof.Machine

variable {n w : Nat} {t : CodeTable n w}

/-! ## Codes -/

/-- The link of a leaf ends the walk (rule R247). -/
theorem CodeTable.walkBits_of_le {c : Nat} (hc : nodeCount n ≤ c) (bits : List Bool) :
    t.walkBits c bits = some (c - nodeCount n, bits) := by
  cases bits <;> rw [CodeTable.walkBits, if_neg (by omega)]

/-- The link of an internal node takes a bit (rule R247). -/
theorem CodeTable.walkBits_cons {c : Nat} (hc : c < nodeCount n) (b : Bool) (bits : List Bool) :
    t.walkBits c (b :: bits) = t.walkBits (t.sonAt (c + b.toNat)) bits := by
  rw [CodeTable.walkBits, if_pos hc]

theorem two_mul_div_add_parity (k : Nat) : 2 * (k / 2) + (decide (k % 2 = 1)).toNat = k := by
  rcases Nat.mod_two_eq_zero_or_one k with h | h <;> simp [h] <;> omega

/-- Going down from the root along the bits that going up from node `k` has put in front leads to node `k`. -/
theorem CodeTable.Linked.walkBits_codeFrom (h : t.Linked) (rest : List Bool) : ∀ (fuel k : Nat) (bits : List Bool),
    k < nodeCount n → nodeCount n ≤ fuel + k →
      t.walkBits (t.sonAt (rootNode n)) (t.codeFrom fuel k bits ++ rest) = t.walkBits (t.sonAt k) (bits ++ rest)
  | 0, k, bits, hk, hf => by omega
  | fuel + 1, k, bits, hk, hf => by
    have hT : nodeCount n = 2 * n - 1 := rfl
    have hR : rootNode n = 2 * n - 2 := rfl
    rw [CodeTable.codeFrom]
    by_cases hroot : k = rootNode n
    · rw [if_pos hroot, hroot]
    · have hkR : k < rootNode n := by omega
      obtain ⟨hp, hs⟩ := h.parent hkR
      have := h.lt_prntAt hkR
      rw [if_neg hroot, h.walkBits_codeFrom rest fuel _ _ hp (by omega), List.cons_append,
        CodeTable.walkBits_cons (by omega), hs, two_mul_div_add_parity]

/-- The code of a symbol, followed by any bits, decodes to that symbol and leaves those bits (rule R144). -/
theorem CodeTable.decodeBits_code (hn : 1 ≤ n) (ht : t.wf = true) {s : Nat} (hs : s < n) (rest : List Bool) :
    t.decodeBits (t.code s ++ rest) = some (s, rest) := by
  obtain ⟨hl, _, _⟩ := (CodeTable.wf_iff hn t).1 ht
  obtain ⟨hlt, hson⟩ := hl.leaf s hs
  rw [CodeTable.decodeBits, CodeTable.code, hl.walkBits_codeFrom rest _ _ _ hlt (Nat.le_add_right _ _), hson,
    List.nil_append, CodeTable.walkBits_of_le (Nat.le_add_left _ _), Nat.add_sub_cancel]

/-! ## Fields -/

@[simp] theorem bytesBits_nil : bytesBits [] = [] := rfl

@[simp] theorem bytesBits_cons (b : Byte) (bs : List Byte) :
    bytesBits (b :: bs) = fieldBits b.toNat 8 ++ bytesBits bs := rfl

@[simp] theorem bytesBits_append (xs ys : List Byte) : bytesBits (xs ++ ys) = bytesBits xs ++ bytesBits ys :=
  List.flatMap_append

@[simp] theorem length_bytesBits : ∀ bytes : List Byte, (bytesBits bytes).length = 8 * bytes.length
  | [] => rfl
  | b :: bs => by rw [bytesBits_cons, List.length_append, length_fieldBits, length_bytesBits bs, List.length_cons]; ring

/-- A field with one bit more at its low end. -/
theorem fieldBits_succ_low (v : Nat) (b : Bool) : ∀ n, fieldBits (2 * v + b.toNat) (n + 1) = fieldBits v n ++ [b]
  | 0 => by cases b <;> simp [fieldBits, Nat.testBit_zero]
  | n + 1 => by
    rw [fieldBits, fieldBits_succ_low v b n, fieldBits, List.cons_append, Nat.testBit_succ]
    congr 2
    have := Bool.toNat_lt b
    omega

/-- The number of bits read one after another, `v` read so far (rule R175). -/
theorem foldl_fieldBits (x : Nat) : ∀ n v : Nat,
    (fieldBits x n).foldl (fun v b => 2 * v + b.toNat) v = v * 2 ^ n + x % 2 ^ n
  | 0, v => by simp [fieldBits, Nat.mod_one]
  | n + 1, v => by
    rw [fieldBits, List.foldl_cons, foldl_fieldBits x n, Nat.mod_pow_succ, Nat.toNat_testBit]
    ring

/-- The field of a number's bits is those bits. -/
theorem fieldBits_bitsValue (bits : List Bool) : fieldBits (bitsValue bits) bits.length = bits := by
  induction bits using List.reverseRecOn with
  | nil => rfl
  | append_singleton bits b ih =>
    rw [bitsValue, List.foldl_append, List.foldl_cons, List.foldl_nil, List.length_append, List.length_singleton,
      fieldBits_succ_low]
    exact congrArg (· ++ [b]) ih

/-- Only as many low bits as the field has count. -/
theorem fieldBits_mod (v : Nat) {m : Nat} : ∀ {n}, n ≤ m → fieldBits (v % 2 ^ m) n = fieldBits v n
  | 0, _ => rfl
  | n + 1, h => by
    rw [fieldBits, fieldBits, fieldBits_mod v (by omega), Nat.testBit_mod_two_pow]
    simp [show n < m by omega]

/-- A byte's bits name the byte. -/
theorem fieldBits_byte_inj {a b : Byte} (h : fieldBits a.toNat 8 = fieldBits b.toNat 8) : a = b := by
  have e := congrArg (List.foldl (fun v b => 2 * v + b.toNat) 0) h
  rw [foldl_fieldBits, foldl_fieldBits, Nat.mod_eq_of_lt a.isLt, Nat.mod_eq_of_lt b.isLt] at e
  exact BitVec.eq_of_toNat_eq (by omega)

/-- The bits of bytes name the bytes. -/
theorem bytesBits_inj : ∀ {xs ys : List Byte}, bytesBits xs = bytesBits ys → xs = ys
  | [], [], _ => rfl
  | [], y :: ys, h => by
    have := congrArg List.length h
    rw [length_bytesBits, length_bytesBits, List.length_cons, List.length_nil] at this
    omega
  | x :: xs, [], h => by
    have := congrArg List.length h
    rw [length_bytesBits, length_bytesBits, List.length_cons, List.length_nil] at this
    omega
  | x :: xs, y :: ys, h => by
    rw [bytesBits_cons, bytesBits_cons] at h
    obtain ⟨h1, h2⟩ := List.append_inj h (by rw [length_fieldBits, length_fieldBits])
    rw [fieldBits_byte_inj h1, bytesBits_inj h2]

/-! ## Packed bits -/

/-- The bits of packed bytes are the bits packed, and fewer than 8 zeros (rule R151). -/
theorem bytesBits_packBits : ∀ (n : Nat) (bits : List Bool), bits.length ≤ 8 * n →
    ∃ z, z < 8 ∧ bytesBits (packBits n bits) = bits ++ List.replicate z false
  | 0, [], _ => ⟨0, by omega, rfl⟩
  | 0, b :: bs, h => by simp at h
  | n + 1, [], _ => ⟨0, by omega, rfl⟩
  | n + 1, b :: bs, h => by
    have hbyte : fieldBits (BitVec.ofNat 8 (bitsValue (((b :: bs) ++ List.replicate 7 false).take 8))).toNat 8 =
        ((b :: bs) ++ List.replicate 7 false).take 8 := by
      have := fieldBits_bitsValue (((b :: bs) ++ List.replicate 7 false).take 8)
      rw [show (((b :: bs) ++ List.replicate 7 false).take 8).length = 8 by simp] at this
      rw [BitVec.toNat_ofNat, fieldBits_mod _ (le_refl 8), this]
    rw [packBits, bytesBits_cons, hbyte]
    by_cases hs : 8 ≤ (b :: bs).length
    · obtain ⟨z, hz, e⟩ := bytesBits_packBits n ((b :: bs).drop 8) (by rw [List.length_drop]; omega)
      refine ⟨z, hz, ?_⟩
      rw [e, List.take_append_of_le_length hs, ← List.append_assoc, List.take_append_drop]
    · have hd : (b :: bs).drop 8 = [] := List.drop_of_length_le (by omega)
      refine ⟨8 - (b :: bs).length, by simp only [List.length_cons]; omega, ?_⟩
      rw [hd, List.take_append, List.take_of_length_le (by omega), List.take_replicate]
      cases n <;> simp [packBits]

/-- Bytes whose bits are these bits and fewer than 8 zeros are these bits packed. -/
theorem eq_packBits {out : List Byte} {bits : List Bool} {z : Nat} (hz : z < 8)
    (h : bytesBits out = bits ++ List.replicate z false) : out = packBits bits.length bits := by
  obtain ⟨z', hz', e⟩ := bytesBits_packBits bits.length bits (by omega)
  have h1 := congrArg List.length h
  have h2 := congrArg List.length e
  simp only [length_bytesBits, List.length_append, List.length_replicate] at h1 h2
  refine bytesBits_inj ?_
  rw [h, e, show z = z' by omega]

end Sys2Proof.Machine

/-! SUPPORT. Reading the input: bits, symbols and tokens that the source is about to give are read, and nothing else of
the state changes. -/

namespace Sys2Proof.Machine

variable {n w : Nat}

/-! ## What the ports are about to do -/

@[simp] theorem Ports.sinkAt_withSink (p : Ports) (bytes : List Byte) (k : Nat) :
    ({ p with sink := bytes } : Ports).sinkAt k = p.sinkAt k := rfl

theorem Ports.supplies_cons {p : Ports} {b : Byte} {bytes : List Byte} :
    p.supplies (b :: bytes) ↔ p.srcAt 0 = some (.byte b) ∧ (p.srcAfter 1).supplies bytes := by
  constructor
  · intro h
    refine ⟨h 0 (by simp), fun k hk => ?_⟩
    rw [Ports.srcAt_srcAfter, Nat.add_comm]
    exact h (k + 1) (by simpa using hk)
  · rintro ⟨h0, h⟩ k hk
    cases k with
    | zero => exact h0
    | succ k =>
      have := h k (by simpa using hk)
      rwa [Ports.srcAt_srcAfter, Nat.add_comm] at this

/-- A byte that the source is about to give. -/
theorem srcRead_of_byte {s : State} {b : Byte} (h : s.ports.srcAt 0 = some (.byte b)) :
    srcRead s = .ok (.byte b) (s.took 1) := by
  rw [← Ports.nextSrc_eq] at h
  simp [srcRead, h, State.took, Ports.srcDone_eq]

/-! ## Bits -/

/-- These are all the bits that reading the input is about to give: the unread ones, and those of bytes that the source
is about to give (rule R174). -/
def State.carries (s : State) (bits : List Bool) : Prop :=
  s.bits.ibits.toNat ≤ 8 ∧ ∃ bytes, s.ports.supplies bytes ∧ s.bits.unread ++ bytesBits bytes = bits

/-- The state differs in the Bit Channel, and in what has been taken from the source. -/
def State.ReadTo (s t : State) : Prop := ∃ b m, t = ({ s with bits := b } : State).took m

theorem State.ReadTo.refl (s : State) : s.ReadTo s := ⟨s.bits, 0, by rw [State.took_zero]⟩

theorem State.ReadTo.trans {a b c : State} (h : a.ReadTo b) (h' : b.ReadTo c) : a.ReadTo c := by
  obtain ⟨_, m, rfl⟩ := h
  obtain ⟨x, k, rfl⟩ := h'
  exact ⟨x, m + k, State.took_took { a with bits := x } m k⟩

theorem State.ReadTo.sonAt_eq {s u : State} (h : s.ReadTo u) (t : TableSel) (i : Nat) : u.sonAt t i = s.sonAt t i := by
  obtain ⟨_, _, rfl⟩ := h
  cases t <;> rfl

/-- An unread bit is taken. -/
theorem takeBit_of_unread {s : State} {b : Bool} {bs : List Bool} (hb : s.bits.unread = b :: bs) :
    ∃ c : BitChannel, takeBit s = .ok b { s with bits := c } ∧ c.unread = bs ∧ c.ibits.toNat ≤ s.bits.ibits.toNat := by
  have hlen : s.bits.ibits.toNat = bs.length + 1 := by
    rw [← length_fieldBits s.bits.ibuf.toNat s.bits.ibits.toNat, ← BitChannel.unread, hb, List.length_cons]
  have hsub : (s.bits.ibits - 1).toNat = bs.length := by
    have := s.bits.ibits.isLt
    rw [BitVec.toNat_sub]
    simp
    omega
  rw [BitChannel.unread, hlen, fieldBits, List.cons.injEq] at hb
  refine ⟨{ s.bits with ibits := s.bits.ibits - 1 }, ?_, ?_, ?_⟩
  · rw [takeBit, hlen, Nat.add_sub_cancel, ← hb.1]
    rfl
  · rw [BitChannel.unread, hsub, hb.2]
  · simp only [hsub]
    omega

/-- A bit that the input is about to give is read. -/
theorem readBit_of_carries {s : State} {b : Bool} {bs : List Bool} (h : s.carries (b :: bs)) :
    ∃ t, readBit s = .ok b t ∧ t.carries bs ∧ s.ReadTo t := by
  obtain ⟨h8, bytes, hsup, hbits⟩ := h
  by_cases hz : s.bits.ibits = 0
  · have hnil : s.bits.unread = [] := by rw [BitChannel.unread, hz]; rfl
    rw [hnil, List.nil_append] at hbits
    cases bytes with
    | nil => simp at hbits
    | cons c bytes =>
      obtain ⟨hc, hsup⟩ := Ports.supplies_cons.1 hsup
      obtain ⟨x, hx, hbs⟩ : ∃ x, fieldBits c.toNat 8 = b :: x ∧ x ++ bytesBits bytes = bs := by
        rw [bytesBits_cons, fieldBits, List.cons_append, List.cons.injEq] at hbits
        exact ⟨_, by rw [fieldBits, hbits.1], hbits.2⟩
      obtain ⟨d, h1, h2, h3⟩ := takeBit_of_unread
        (s := { s.took 1 with bits := { s.bits with ibuf := c, ibits := 8 } }) (b := b) (bs := x) hx
      refine ⟨({ s with bits := d } : State).took 1, ?_, ⟨h3, bytes, hsup, ?_⟩, d, 1, rfl⟩
      · rw [readBit, if_pos hz, srcRead_of_byte hc]
        exact h1
      · exact (congrArg (· ++ bytesBits bytes) h2).trans hbs
  · obtain ⟨x, hx, hbs⟩ : ∃ x, s.bits.unread = b :: x ∧ x ++ bytesBits bytes = bs := by
      have hpos : s.bits.ibits.toNat ≠ 0 := fun e => hz (BitVec.eq_of_toNat_eq e)
      obtain ⟨k, hk⟩ := Nat.exists_eq_succ_of_ne_zero hpos
      rw [BitChannel.unread, hk, fieldBits, List.cons_append, List.cons.injEq] at hbits
      exact ⟨_, by rw [BitChannel.unread, hk, fieldBits, hbits.1], hbits.2⟩
    obtain ⟨d, h1, h2, h3⟩ := takeBit_of_unread hx
    refine ⟨{ s with bits := d }, ?_, ⟨le_trans h3 h8, bytes, hsup, ?_⟩, d, 0, (State.took_zero _).symm⟩
    · rw [readBit, if_neg hz, h1]
    · exact (congrArg (· ++ bytesBits bytes) h2).trans hbs

/-- Bits that the input is about to give are read as a number, `v` read so far (rule R175). -/
theorem readBitsFrom_of_carries (rest : List Bool) : ∀ (bits : List Bool) (v : Nat) (s : State),
    s.carries (bits ++ rest) →
    ∃ t, readBitsFrom bits.length v s = .ok (bits.foldl (fun v b => 2 * v + b.toNat) v) t ∧ t.carries rest ∧ s.ReadTo t
  | [], _, s, h => ⟨s, rfl, h, State.ReadTo.refl s⟩
  | b :: bits, v, s, h => by
    obtain ⟨s1, h1, hc, hr⟩ := readBit_of_carries h
    obtain ⟨t, h2, hc', hr'⟩ := readBitsFrom_of_carries rest bits (2 * v + b.toNat) s1 hc
    refine ⟨t, ?_, hc', hr.trans hr'⟩
    rw [List.length_cons, readBitsFrom, h1, Res.andThen_ok, h2, List.foldl_cons]

/-- A field that the input is about to give is read (rule R175). -/
theorem readBits_of_carries {x k : Nat} (hx : x < 2 ^ k) {rest : List Bool} {s : State}
    (h : s.carries (fieldBits x k ++ rest)) : ∃ t, readBits k s = .ok x t ∧ t.carries rest ∧ s.ReadTo t := by
  obtain ⟨t, h1, h2, h3⟩ := readBitsFrom_of_carries rest (fieldBits x k) 0 s h
  rw [length_fieldBits, foldl_fieldBits, Nat.zero_mul, Nat.zero_add, Nat.mod_eq_of_lt hx] at h1
  exact ⟨t, h1, h2, h3⟩

/-! ## Symbols -/

/-- The walk of the machine takes the bits that the walk over a list of bits takes (rule R247), from a link `c` of a
tree. -/
theorem walkFrom_of_carries {sel : TableSel} {tab : CodeTable n w} (hl : tab.Linked)
    (hT : tableNodes sel = nodeCount n) {sym : Nat} {rest : List Bool} :
    ∀ (fuel c : Nat) (bits : List Bool) (s : State), (∀ i, s.sonAt sel i = tab.sonAt i) →
      (c < nodeCount n → c + 1 < nodeCount n ∧ c < fuel) → s.carries bits →
      tab.walkBits c bits = some (sym, rest) → ∃ t, walkFrom sel fuel c s = .ok sym t ∧ t.carries rest ∧ s.ReadTo t
  | fuel, c, bits, s, hson, hc, hbits, hw => by
    by_cases hlt : c < nodeCount n
    · obtain ⟨hc1, hcf⟩ := hc hlt
      obtain ⟨fuel, rfl⟩ : ∃ f, fuel = f + 1 := ⟨fuel - 1, by omega⟩
      cases bits with
      | nil => rw [CodeTable.walkBits, if_pos hlt] at hw; cases hw
      | cons b bits =>
        rw [CodeTable.walkBits_cons hlt] at hw
        obtain ⟨s1, h1, hcar, hr⟩ := readBit_of_carries hbits
        have hb : b.toNat ≤ 1 := Bool.toNat_le b
        obtain ⟨t, h2, hcar', hr'⟩ := walkFrom_of_carries hl hT fuel (tab.sonAt (c + b.toNat)) bits s1
          (fun i => by rw [hr.sonAt_eq, hson])
          (fun hs => by have := hl.below (c + b.toNat) (by omega) hs; omega) hcar hw
        refine ⟨t, ?_, hcar', hr.trans hr'⟩
        rw [walkFrom, if_pos (by omega), h1, Res.andThen_ok, hr.sonAt_eq, hson, h2]
    · rw [CodeTable.walkBits_of_le (by omega)] at hw
      obtain ⟨rfl, rfl⟩ : c - nodeCount n = sym ∧ bits = rest := by simpa using hw
      refine ⟨s, ?_, hbits, State.ReadTo.refl s⟩
      cases fuel with
      | zero => rw [walkFrom, hT]
      | succ fuel => rw [walkFrom, if_neg (by omega), hT]
  termination_by fuel => fuel

/-- A symbol whose code the input is about to give is read, over the table `tab` that is selected (rule R247). -/
theorem walkSymbol_of_carries {sel : TableSel} {tab : CodeTable n w} (hn : 1 ≤ n) (ht : tab.wf = true)
    (hT : tableNodes sel = nodeCount n) {s : State} (hson : ∀ i, s.sonAt sel i = tab.sonAt i) {sym : Nat} (hs : sym < n)
    {rest : List Bool} (h : s.carries (tab.code sym ++ rest)) :
    ∃ t, walkSymbol sel s = .ok sym t ∧ t.carries rest ∧ s.ReadTo t := by
  obtain ⟨hl, _, _⟩ := (CodeTable.wf_iff hn tab).1 ht
  have hTn : nodeCount n = 2 * n - 1 := rfl
  have hroot : tableNodes sel - 1 = rootNode n := by rw [hT]; simp only [rootNode]; omega
  rw [walkSymbol, hson, hroot, hT]
  refine walkFrom_of_carries hl hT _ _ _ s hson (fun hc => ?_) h (CodeTable.decodeBits_code hn ht hs rest)
  have := hl.below (rootNode n) (by simp only [rootNode]; omega) hc
  simp only [rootNode] at *
  omega

/-! ## Tokens -/

theorem symbolLength_lengthSymbol (len : BitVec 6) : symbolLength (lengthSymbol len.toNat) = len := by
  rw [symbolLength, lengthSymbol, Nat.add_sub_cancel, BitVec.ofNat_toNat, BitVec.setWidth_eq]

theorem classDist_distClass {dist : BitVec 13} (h : 1 ≤ dist.toNat) :
    classDist (distClass dist.toNat) (distExtra dist.toNat) = dist := by
  rw [classDist, distClass, distExtra, Nat.div_add_mod', Nat.sub_add_cancel h, BitVec.ofNat_toNat, BitVec.setWidth_eq]

/-- A well-formed token has symbols of its tables. -/
theorem symbols_of_wellFormed {len : BitVec 6} {dist : BitVec 13}
    (h : (Token.copy len dist).toInstr.wellFormed = true) : 3 ≤ len.toNat ∧ lengthSymbol len.toNat < Config.symbolsA ∧
      1 ≤ dist.toNat ∧ distClass dist.toNat < Config.symbolsB := by
  simp only [Token.toInstr, Instr.wellFormed, Bool.and_eq_true, decide_eq_true_eq, Config.minLen, Config.maxLen,
    Config.windowSize] at h
  simp only [lengthSymbol, distClass, Config.symbolsA, Config.symbolsB, Config.distLowBits]
  omega

/-- A token whose bits the input is about to give is fetched (rule R310). -/
theorem fetchToken_of_carries {s : State} (ht : s.tablesOk) {tok : Token} (hwf : tok.toInstr.wellFormed = true)
    {rest : List Bool} (h : s.carries (s.tokenBits tok ++ rest)) :
    ∃ u, fetchToken s = .ok tok (u.setFsm .reconstructing) ∧ u.carries rest ∧ s.ReadTo u := by
  obtain ⟨htA, htB⟩ := ht
  cases tok with
  | lit b =>
    obtain ⟨u, h1, hc, hr⟩ := walkSymbol_of_carries (sel := .a) (by decide) htA rfl (fun i => rfl)
      (show b.toNat < Config.symbolsA by have := b.isLt; simp only [Config.symbolsA]; omega) h
    refine ⟨u, ?_, hc, hr⟩
    have hb : b.toNat < 256 := b.isLt
    rw [fetchToken, h1, Res.andThen_ok]
    simp only [if_pos hb, BitVec.ofNat_toNat, BitVec.setWidth_eq]
  | copy len dist =>
    obtain ⟨hlen, hsymA, hdist, hsymB⟩ := symbols_of_wellFormed hwf
    simp only [State.tokenBits, Token.toInstr, encodeToken, List.append_assoc] at h
    obtain ⟨u1, h1, hc1, hr1⟩ := walkSymbol_of_carries (sel := .a) (by decide) htA rfl (fun i => rfl) hsymA h
    obtain ⟨b1, m1, e1⟩ := hr1
    obtain ⟨u2, h2, hc2, hr2⟩ := walkSymbol_of_carries (sel := .b) (s := u1.setFsm .reconstructing) (by decide) htB rfl
      (fun i => by rw [e1]; rfl) hsymB hc1
    obtain ⟨u3, h3, hc3, hr3⟩ := readBits_of_carries (Nat.mod_lt _ (by decide)) hc2
    obtain ⟨b3, m3, e3⟩ := hr2.trans hr3
    refine ⟨u3.setFsm s.fsm, ?_, hc3, b3, m1 + m3, ?_⟩
    · have e : (u3.setFsm s.fsm).setFsm .reconstructing = u3 := by rw [e3]; rfl
      rw [fetchToken, h1, Res.andThen_ok]
      simp only [if_neg (show ¬lengthSymbol len.toNat < 256 by rw [lengthSymbol]; omega)]
      rw [fetchCopy, h2]
      simp only [Res.orBump, Res.andThen_ok]
      rw [h3]
      simp only [Res.andThen_ok, symbolLength_lengthSymbol, e]
      rw [show classDist (distClass dist.toNat) ((dist.toNat - 1) % 2 ^ 6) = dist from classDist_distClass hdist]
    · rw [e3, e1, ← State.took_took]
      rfl

end Sys2Proof.Machine

/-! SUPPORT. The window as the bytes before a position of a text, and the decoder's tokens as the bytes they emit after
those. -/

namespace Sys2Proof.Machine

/-! ## The window -/

/-- The window holds the last `W` of the bytes `past`, each at its position modulo `W` (rule R40 to rule R43). -/
structure Window.Holds (w : Window) (past : List Byte) : Prop where
  wf : w.hist.wf Config.windowSize = true
  cursor : w.wcur.toNat = past.length % 4096
  fill : w.wfill.toNat = min past.length 4096
  bytes : ∀ i, i < past.length → past.length ≤ i + 4096 → w.hist.read (i % 4096) = past.getD i 0

/-- `Advance` makes the window that of one byte more (rule R190). -/
theorem Window.Holds.advance {w : Window} {past : List Byte} (h : w.Holds past) (b : Byte) :
    (w.advance b).Holds (past ++ [b]) := by
  have hc := h.cursor
  have hf := h.fill
  refine ⟨?_, ?_, ?_, fun i hi hi' => ?_⟩
  · exact Memory.wf_write b h.wf (by rw [hc]; exact Nat.mod_lt _ (by decide))
  · rw [Window.advance_wcur, BitVec.toNat_add, hc, List.length_append, List.length_singleton]
    exact Nat.mod_add_mod _ _ _
  · rw [Window.advance_wfill, BitVec.toNat_ofNat, hf, List.length_append, List.length_singleton]
    simp only [Config.windowSize]
    omega
  · rw [List.length_append, List.length_singleton] at hi hi'
    rw [Window.advance_hist, Memory.read_write h.wf, hc]
    by_cases hlast : i = past.length
    · rw [hlast, if_pos rfl, List.getD_append_right _ _ _ _ (le_refl _), Nat.sub_self]
      rfl
    · rw [if_neg (by omega), List.getD_append _ _ _ _ (by omega)]
      exact h.bytes i (by omega) (by omega)

/-- `HistByte` reads the text back from its end (rule R192). -/
theorem histByte_of_holds {s : State} {past : List Byte} (h : s.win.Holds past) {d : Nat} (h1 : 1 ≤ d)
    (hd : d ≤ past.length) (hW : d ≤ 4096) : histByte s d = past.getD (past.length - d) 0 := by
  rw [histByte, ← h.bytes (past.length - d) (by omega) (by omega)]
  congr 1
  rw [BitVec.toNat_sub, h.cursor, BitVec.toNat_ofNat]
  omega

/-! ## Emitting bytes -/

/-- One turn of the copy loop as bytes: the byte `d` positions back is repeated (rule R310). -/
def repeatByte (d : Nat) (out : List Byte) : List Byte := out ++ [out.getD (out.length - d) 0]

@[simp] theorem length_repeatByte (d : Nat) (out : List Byte) : (repeatByte d out).length = out.length + 1 := by
  rw [repeatByte, List.length_append, List.length_singleton]

/-- The bytes after a token (rule R140). -/
def emitToken (out : List Byte) : Token → List Byte
  | .lit b => out ++ [b]
  | .copy len dist => (repeatByte dist.toNat)^[len.toNat] out

theorem tokensOutput_cons (out : List Byte) (tok : Token) (toks : List Token) :
    tokensOutput out (tok :: toks) = tokensOutput (emitToken out tok) toks := by
  cases tok with
  | lit b => rfl
  | copy len dist =>
    have e := List.foldl_const (repeatByte dist.toNat) out (List.range len.toNat)
    rw [List.length_range] at e
    rw [tokensOutput, emitToken, ← e]
    rfl

theorem length_iterate_repeatByte (d : Nat) : ∀ (n : Nat) (out : List Byte),
    ((repeatByte d)^[n] out).length = out.length + n
  | 0, _ => rfl
  | n + 1, out => by rw [Function.iterate_succ_apply, length_iterate_repeatByte d n, length_repeatByte]; omega

theorem length_emitToken (out : List Byte) (tok : Token) : (emitToken out tok).length = out.length + tok.size := by
  cases tok with
  | lit b => rw [emitToken, List.length_append, List.length_singleton, Token.size]
  | copy len dist => exact length_iterate_repeatByte _ _ _

/-- The decoder has emitted the bytes `past` of the `N` that are declared, and the sink, which held `before`, accepts
the rest. -/
structure State.Emitting (s : State) (before : List Byte) (N : Nat) (past : List Byte) : Prop where
  len : s.len.toNat = N
  count : s.count.toNat = past.length
  le : past.length ≤ N
  window : s.win.Holds past
  sink : s.ports.sink = before ++ past
  accepts : s.ports.accepts (N - past.length)

namespace State.Emitting

variable {s : State} {before past : List Byte} {N : Nat} (h : s.Emitting before N past)
include h

/-- A byte is sent, advanced into the window and counted (rule R310). -/
theorem emitByte (hlt : past.length < N) (b : Byte) :
    sinkWrite b s = .ok () (s.delivered [b]) ∧
      ((Machine.advance b (s.delivered [b])).countUp).Emitting before N (past ++ [b]) := by
  have hN := s.len.isLt
  have hlen := h.len
  refine ⟨sinkWrite_of_ok (h.accepts 0 (by omega)), h.len, ?_, ?_, h.window.advance b, ?_, fun k hk => ?_⟩
  · show (s.count + 1).toNat = _
    rw [BitVec.toNat_add, h.count, List.length_append, List.length_singleton]
    exact Nat.mod_eq_of_lt (by simp; omega)
  · rw [List.length_append, List.length_singleton]
    exact hlt
  · show s.ports.sink ++ [b] = _
    rw [h.sink, List.append_assoc]
  · rw [List.length_append, List.length_singleton] at hk
    show ({ s.ports.sinkAfter 1 with sink := s.ports.sink ++ [b] } : Ports).sinkAt k = _
    rw [Ports.sinkAt_withSink, Ports.sinkAt_sinkAfter, Nat.add_comm]
    exact h.accepts (k + 1) (by omega)

/-- The tables do not matter. -/
theorem bumpSym (t : TableSel) (x : Nat) : (s.bumpSym t x).Emitting before N past := by
  cases t <;> exact ⟨h.len, h.count, h.le, h.window, h.sink, h.accepts⟩

theorem bumpedFor (tok : Token) : (s.bumpedFor tok).Emitting before N past := by
  cases tok with
  | lit b => exact h.bumpSym .a _
  | copy len dist => exact (h.bumpSym .a _).bumpSym .b _

end State.Emitting

/-- The copy loop repeats bytes of the text (rule R310). -/
theorem State.Emitting.copyBytes {before : List Byte} {N d : Nat} (h1 : 1 ≤ d) (hW : d ≤ 4096) :
    ∀ (n : Nat) (s : State) (past : List Byte), s.Emitting before N past → d ≤ past.length → past.length + n ≤ N →
      copyBytes d n s = .ok () (State.copied d n s) ∧
        (State.copied d n s).Emitting before N ((repeatByte d)^[n] past)
  | 0, s, past, h, _, _ => ⟨rfl, h⟩
  | n + 1, s, past, h, hd, hn => by
    have hbyte := histByte_of_holds h.window h1 hd hW
    have hfill : d ≤ s.win.wfill.toNat := by rw [h.window.fill]; omega
    obtain ⟨hs, he⟩ := h.emitByte (by omega) (histByte s d)
    rw [hbyte, ← repeatByte] at he
    obtain ⟨h2, h3⟩ := State.Emitting.copyBytes h1 hW n _ _ he (by rw [length_repeatByte]; omega)
      (by rw [length_repeatByte]; omega)
    rw [Function.iterate_succ_apply, State.copied, hbyte]
    refine ⟨?_, h3⟩
    rw [Machine.copyBytes, copyByte, byteAt, distOk, decide_eq_true ⟨h1, hfill⟩]
    simp only [if_true, Res.andThen_ok]
    rw [hs, hbyte]
    exact h2

/-- A token whose bytes are to come, and whose distance the text has, emits its bytes (rule R315, rule R316). -/
theorem State.Emitting.run {s : State} {before past : List Byte} {N : Nat} (h : s.Emitting before N past) {tok : Token}
    (hwf : tok.toInstr.wellFormed = true) (hsize : past.length + tok.size ≤ N)
    (hdist : ∀ len dist, tok = .copy len dist → dist.toNat ≤ past.length) :
    tok.run s = .ok () (State.emitted tok (s.bumpedFor tok)) ∧
      (State.emitted tok (s.bumpedFor tok)).Emitting before N (emitToken past tok) := by
  have hb := h.bumpedFor tok
  cases tok with
  | lit b =>
    obtain ⟨h1, h2⟩ := hb.emitByte (by simp only [Token.size] at hsize; omega) b
    refine ⟨?_, h2⟩
    rw [Token.run, runLit, show s.bumpSym .a b.toNat = s.bumpedFor (.lit b) from rfl, h1]
    rfl
  | copy len dist =>
    have hd := hdist len dist rfl
    simp only [Token.toInstr, Instr.wellFormed, Bool.and_eq_true, decide_eq_true_eq] at hwf
    obtain ⟨h1, h2⟩ := State.Emitting.copyBytes hwf.2.1 hwf.2.2 len.toNat _ _ hb hd hsize
    refine ⟨?_, h2⟩
    have hl := hb.len
    have hc := hb.count
    have hf := hb.window.fill
    have hW : dist.toNat ≤ 4096 := hwf.2.2
    simp only [Token.size] at hsize
    rw [Token.run, runMatch, show bumpMatch len dist s = s.bumpedFor (.copy len dist) from rfl,
      if_neg (by omega), if_neg (by omega)]
    exact h1

/-- Copying touches the window, `COUNT` and the sink. -/
theorem State.copied_eq (d : Nat) : ∀ (n : Nat) (s : State),
    ∃ w c bytes, State.copied d n s = ({ s with win := w, count := c } : State).delivered bytes
  | 0, s => ⟨s.win, s.count, [], (State.delivered_nil s).symm⟩
  | n + 1, s => by
    obtain ⟨w, c, bytes, e⟩ := State.copied_eq d n (Machine.advance (histByte s d) (s.delivered [histByte s d])).countUp
    refine ⟨w, c, [histByte s d] ++ bytes, ?_⟩
    rw [State.copied, e, ← State.delivered_append]
    rfl

/-- A token's bytes touch the window, `COUNT` and the sink. -/
theorem State.emitted_eq (tok : Token) (s : State) :
    ∃ w c bytes, State.emitted tok s = ({ s with win := w, count := c } : State).delivered bytes := by
  cases tok with
  | lit b => exact ⟨s.win.advance b, s.count + 1, [b], rfl⟩
  | copy len dist => exact State.copied_eq _ _ _

end Sys2Proof.Machine

/-! SUPPORT. Runs of a transform: how one ends, and that `DECODE` executes a well-formed token program (rule R156, rule
R321). -/

namespace Sys2Proof.Machine

/-! ## How a run ends -/

/-- From here the run ends after some steps and succeeds, the sink then holding `sink` (rule R378). -/
def State.Completes (s : State) (sink : List Byte) : Prop :=
  ∃ k t, core.run k s = .next t ∧ t.atRunEnd = true ∧ (∀ j u, j < k → core.run j s = .next u → u.atRunEnd = false) ∧
    t.succeeded = true ∧ t.ports.sink = sink

theorem run_succ {s u : State} (h : step s = .next u) (k : Nat) : core.run (k + 1) s = core.run k u := by
  have h' : core.step s = .next u := h
  simp only [Host.Core.run, h']

/-- A run that has ended in `DONE`. -/
theorem State.completes_of_done {s : State} (hb : s.busy = false) (hw : s.waiting = false) (hf : s.fsm = .done)
    (he : s.err = .none) : s.Completes s.ports.sink :=
  ⟨0, s, rfl, by simp [State.atRunEnd, hb, hw, hf], fun j _ hj => absurd hj (Nat.not_lt_zero j),
    by simp [State.succeeded, hf, he], rfl⟩

/-- A step of a busy block is no end of its run. -/
theorem State.completes_of_step {s u : State} {sink : List Byte} (hb : s.busy = true) (h : step s = .next u)
    (hu : u.Completes sink) : s.Completes sink := by
  obtain ⟨k, t, hrun, hend, hfirst, hs⟩ := hu
  refine ⟨k + 1, t, (run_succ h k).trans hrun, hend, fun j v hj hv => ?_, hs⟩
  cases j with
  | zero =>
    obtain rfl : s = v := by
      have e : (.next s : Host.Outcome State Fault Refusal) = .next v := hv
      exact Host.Outcome.next.inj e
    simp [State.atRunEnd, hb]
  | succ j => exact hfirst j v (by omega) ((run_succ h j).symm.trans hv)

/-- The step that a placed command takes: it executes. -/
theorem step_placeCommand {w : Word} {i : Instr} (hw : Sys2Proof.decode w = .ok i) (s : State) :
    step (placeCommand w s) = exec i { s with busy := false, waiting := false } := by
  have h1 : step (placeCommand w s) = issueWord w (placeCommand w s).popHost := rfl
  rw [h1, issueWord, hw]
  rfl

/-- A transform command, from what its first step leaves. -/
theorem State.transforms_of_step {s u : State} {w : Word} {i : Instr} {output : List Byte}
    (hw : Sys2Proof.decode w = .ok i) (hi : i ∈ [Instr.encode, .decode, .encinit, .decinit])
    (h : exec i { s with busy := false, waiting := false } = .next u) (hu : u.Completes (s.ports.sink ++ output)) :
    s.transforms w output := by
  obtain ⟨k, t, hrun, hend, hfirst, hs, hsink⟩ := hu
  have hstep : step (placeCommand w s) = .next u := (step_placeCommand hw s).trans h
  refine ⟨k + 1, t, ⟨⟨rfl, rfl, w, s.host.queue, i, rfl, hw, hi⟩, by omega, (run_succ hstep k).trans hrun, hend,
    fun j v hj hjk hv => ?_⟩, hs, hsink⟩
  obtain ⟨j, rfl⟩ : ∃ m, j = m + 1 := ⟨j - 1, by omega⟩
  exact hfirst j v (by omega) ((run_succ hstep j).symm.trans hv)

/-- The step of a busy block that the host leaves alone is the transform's. -/
theorem step_of_busy {s : State} (hb : s.busy = true) (hw : s.waiting = false) (hq : s.host.queue = []) :
    step s = transformStep s := by
  rcases step_cases s with ⟨h, _⟩ | ⟨_, _, h⟩ | ⟨op, rest, _, h, _⟩
  · rw [hw] at h; cases h
  · rw [h, blockStep, hb, hw]
    rfl
  · rw [hq] at h; cases h

/-! ## Tables and tokens -/

/-- A well-formed token's bump keeps the invariants of rule R55. -/
theorem State.tablesOk_bumpedFor {s : State} (h : s.tablesOk) {tok : Token} (hwf : tok.toInstr.wellFormed = true) :
    (s.bumpedFor tok).tablesOk := by
  have hA : ∀ x, x < Config.symbolsA → (s.tabA.bump x).wf = true := fun x hx =>
    CodeTable.wf_bump (by decide) (by decide) (by decide) h.1 hx
  have hB : ∀ x, x < Config.symbolsB → (s.tabB.bump x).wf = true := fun x hx =>
    CodeTable.wf_bump (by decide) (by decide) (by decide) h.2 hx
  cases tok with
  | lit b => exact ⟨hA b.toNat (lt_trans b.isLt (by decide)), h.2⟩
  | copy len dist =>
    obtain ⟨_, hsymA, _, hsymB⟩ := symbols_of_wellFormed hwf
    exact ⟨hA _ hsymA, hB _ hsymB⟩

/-- A token's bump and its bytes touch the tables, the window, `COUNT` and the sink. -/
theorem State.emitted_bumpedFor_eq (tok : Token) (s : State) : ∃ w c bytes, State.emitted tok (s.bumpedFor tok) =
    ({ s with win := w, count := c, tabA := (s.bumpedFor tok).tabA, tabB := (s.bumpedFor tok).tabB } :
      State).delivered bytes := by
  obtain ⟨w, c, bytes, e⟩ := State.emitted_eq tok (s.bumpedFor tok)
  refine ⟨w, c, bytes, e.trans ?_⟩
  cases tok <;> rfl

/-- The bits of a program are its first token's and then those over the tables it leaves (rule R143). -/
theorem tokensBits_cons (s : State) (tok : Token) (toks : List Token) :
    tokensBits s.tabA s.tabB (tok :: toks) =
      s.tokenBits tok ++ tokensBits (s.bumpedFor tok).tabA (s.bumpedFor tok).tabB toks := by
  cases tok <;> rfl

/-- A token of a well-formed program is well-formed, and its distance lies within the bytes before it (rule R156). -/
theorem tokensWf_cons {N p : Nat} {tok : Token} {toks : List Token} (h : tokensWf N p (tok :: toks) = true) :
    tok.toInstr.wellFormed = true ∧ 1 ≤ tok.size ∧ (∀ len dist, tok = .copy len dist → dist.toNat ≤ p) ∧
      tokensWf N (p + tok.size) toks = true := by
  cases tok with
  | lit b => exact ⟨rfl, le_refl 1, fun _ _ e => (by cases e), h⟩
  | copy len dist =>
    simp only [tokensWf, Bool.and_eq_true, decide_eq_true_eq] at h
    obtain ⟨⟨⟨hlen, hdist⟩, hp⟩, hrest⟩ := h
    refine ⟨?_, le_trans (by decide) hlen.1, fun l d e => ?_, hrest⟩
    · simp only [Token.toInstr, Instr.wellFormed, Bool.and_eq_true, decide_eq_true_eq]
      exact ⟨hlen, hdist⟩
    · cases e; exact hp

/-- A well-formed program does not pass its declared length. -/
theorem tokensWf_le {N : Nat} : ∀ {p : Nat} {toks : List Token}, tokensWf N p toks = true → p ≤ N
  | p, [], h => by simp only [tokensWf, decide_eq_true_eq] at h; omega
  | p, tok :: toks, h => by
    obtain ⟨_, _, _, hrest⟩ := tokensWf_cons h
    have := tokensWf_le hrest
    omega

/-- Nothing is left of a well-formed program that has reached its declared length. -/
theorem tokensWf_self {N : Nat} {toks : List Token} (h : tokensWf N N toks = true) : toks = [] := by
  cases toks with
  | nil => rfl
  | cons tok toks =>
    obtain ⟨_, hsize, _, hrest⟩ := tokensWf_cons h
    have := tokensWf_le hrest
    omega

/-! ## The steps of a decode -/

/-- A transform is in progress, without an error, and the host leaves the block alone. -/
structure State.Running (s : State) (mode : Mode) : Prop where
  mode : s.mode = mode
  busy : s.busy = true
  waiting : s.waiting = false
  queue : s.host.queue = []
  err : s.err = .none

/-- A decode is in progress, with the bytes `past` of `N` emitted and the bits `rest` to come. -/
structure State.Decoding (s : State) (before : List Byte) (N : Nat) (past : List Byte) (rest : List Bool) : Prop
    extends s.Running .decode where
  fsm : s.fsm = .reading
  tables : s.tablesOk
  emitting : s.Emitting before N past
  carries : s.carries rest

/-- What is read of the input does not matter to what is emitted. -/
theorem State.Emitting.readTo {s t : State} {before past : List Byte} {N : Nat} (h : s.Emitting before N past)
    (hr : s.ReadTo t) : t.Emitting before N past := by
  obtain ⟨_, _, rfl⟩ := hr
  exact ⟨h.len, h.count, h.le, h.window, h.sink, h.accepts⟩

theorem State.Emitting.setFsm {s : State} {before past : List Byte} {N : Nat} (h : s.Emitting before N past) (x : Fsm) :
    (s.setFsm x).Emitting before N past := ⟨h.len, h.count, h.le, h.window, h.sink, h.accepts⟩

theorem State.Emitting.count_eq_len_iff {s : State} {before past : List Byte} {N : Nat} (h : s.Emitting before N past) :
    s.count = s.len ↔ past.length = N := by
  rw [← h.count, ← h.len]
  exact ⟨congrArg BitVec.toNat, BitVec.eq_of_toNat_eq⟩

/-- One step of a decode: the next token's bytes are emitted, and the decode goes on or, at the declared length, ends.
-/
theorem State.Decoding.step {s : State} {before past : List Byte} {N : Nat} {tok : Token} {rest : List Bool}
    (h : s.Decoding before N past (s.tokenBits tok ++ rest)) (hwf : tok.toInstr.wellFormed = true)
    (hsize : past.length + tok.size ≤ N) (hdist : ∀ len dist, tok = .copy len dist → dist.toNat ≤ past.length) :
    ∃ u, Machine.step s = .next u ∧
      (past.length + tok.size = N → u.Completes (before ++ emitToken past tok)) ∧
      (past.length + tok.size ≠ N → u.Decoding before N (emitToken past tok) rest ∧
        u.tabA = (s.bumpedFor tok).tabA ∧ u.tabB = (s.bumpedFor tok).tabB) := by
  obtain ⟨v, hfetch, hcar, hread⟩ := fetchToken_of_carries h.tables hwf h.carries
  have hv : (v.setFsm .reconstructing).Emitting before N past := (h.emitting.readTo hread).setFsm _
  obtain ⟨hrun, hemit⟩ := hv.run hwf hsize hdist
  have hdone := hemit.count_eq_len_iff
  rw [length_emitToken] at hdone
  have hstep : Machine.step s =
      .next (endTransformStep (closeDecode tok (State.emitted tok ((v.setFsm .reconstructing).bumpedFor tok)))) := by
    rw [step_of_busy h.busy h.waiting h.queue, transformStep, h.mode]
    simp only [decStep, h.fsm, h.mode, and_self, if_true, hfetch, Res.andThen_ok, hrun]
    rfl
  have htabs := State.tablesOk_bumpedFor h.tables hwf
  have hA : ((v.setFsm .reconstructing).bumpedFor tok).tabA = (s.bumpedFor tok).tabA := by
    obtain ⟨_, _, rfl⟩ := hread
    cases tok <;> rfl
  have hB : ((v.setFsm .reconstructing).bumpedFor tok).tabB = (s.bumpedFor tok).tabB := by
    obtain ⟨_, _, rfl⟩ := hread
    cases tok <;> rfl
  obtain ⟨w, c, bytes, e⟩ := State.emitted_bumpedFor_eq tok (v.setFsm .reconstructing)
  rw [hA, hB] at e
  obtain ⟨htA, htB⟩ := htabs
  generalize (s.bumpedFor tok).tabA = tA, (s.bumpedFor tok).tabB = tB at *
  obtain ⟨b, m, rfl⟩ := hread
  refine ⟨_, hstep, fun hN => ?_, fun hN => ?_⟩
  · rw [closeDecode, if_pos (hdone.2 hN), ← hemit.sink, e]
    exact State.completes_of_done rfl h.waiting rfl h.err
  · rw [closeDecode, if_neg fun hc => hN (hdone.1 hc)]
    rw [e] at hemit ⊢
    exact ⟨⟨⟨h.mode, h.busy, h.waiting, h.queue, h.err⟩, rfl, ⟨htA, htB⟩, ⟨hemit.len, hemit.count, hemit.le,
      hemit.window, hemit.sink, hemit.accepts⟩, hcar⟩, rfl, rfl⟩

/-- A decode in progress ends with the bytes of the tokens to come (rule R321). -/
theorem State.Decoding.completes {before : List Byte} {N : Nat} (pad : List Bool) :
    ∀ (toks : List Token) (s : State) (past : List Byte),
      s.Decoding before N past (tokensBits s.tabA s.tabB toks ++ pad) → tokensWf N past.length toks = true →
      past.length < N → s.Completes (before ++ tokensOutput past toks)
  | [], s, past, _, hwf, hN => by
    simp only [tokensWf, decide_eq_true_eq] at hwf
    omega
  | tok :: toks, s, past, h, hwf, hN => by
    obtain ⟨htok, _, hdist, hrest⟩ := tokensWf_cons hwf
    rw [tokensBits_cons, List.append_assoc] at h
    obtain ⟨u, hu, hend, hgo⟩ := h.step htok (tokensWf_le hrest) hdist
    rw [tokensOutput_cons]
    refine State.completes_of_step h.busy hu ?_
    by_cases hlast : past.length + tok.size = N
    · rw [hlast] at hrest
      rw [tokensWf_self hrest]
      exact hend hlast
    · obtain ⟨hdec, hA, hB⟩ := hgo hlast
      rw [← hA, ← hB] at hdec
      have := tokensWf_le hrest
      exact State.Decoding.completes pad toks u _ hdec (by rwa [length_emitToken]) (by rw [length_emitToken]; omega)

end Sys2Proof.Machine

/-! SUPPORT. The start of a decode, and the whole of one: `DECODE` executes any well-formed token program (rule R156,
rule R157). -/

namespace Sys2Proof.Machine

/-! ## The header -/

/-- The header's bytes give the declared length back (rule R150). -/
theorem header_word (len : Word) :
    (((0 ||| (len.extractLsb' 0 8).setWidth 32 <<< 0) ||| (len.extractLsb' 8 8).setWidth 32 <<< 8) |||
      (len.extractLsb' 16 8).setWidth 32 <<< 16) ||| (len.extractLsb' 24 8).setWidth 32 <<< 24 = len := by
  apply BitVec.eq_of_getLsbD_eq
  intro i hi
  simp only [BitVec.getLsbD_or, BitVec.getLsbD_shiftLeft, BitVec.getLsbD_setWidth, BitVec.getLsbD_extractLsb']
  rcases (by omega : i < 8 ∨ (8 ≤ i ∧ i < 16) ∨ (16 ≤ i ∧ i < 24) ∨ 24 ≤ i) with h | ⟨h, h'⟩ | ⟨h, h'⟩ | h
  · simp [h, hi, show i < 16 by omega, show i < 24 by omega]
  · simp [h', hi, show ¬i < 8 by omega, show i - 8 < 8 by omega, show i - 8 < 32 by omega,
      show 8 + (i - 8) = i by omega, show i < 24 by omega]
  · simp [h', hi, show ¬i < 8 by omega, show ¬i < 16 by omega, show ¬i - 8 < 8 by omega, show i - 16 < 8 by omega,
      show i - 16 < 32 by omega, show 16 + (i - 16) = i by omega]
  · simp [hi, show ¬i < 8 by omega, show ¬i < 16 by omega, show ¬i < 24 by omega, show ¬i - 8 < 8 by omega,
      show ¬i - 16 < 8 by omega, show i - 24 < 8 by omega, show i - 24 < 32 by omega, show 24 + (i - 24) = i by omega]

theorem readHeader_succ {s : State} {b : Byte} {bytes : List Byte} (h : s.ports.supplies (b :: bytes)) (n shift : Nat)
    (v : Word) : (s.took 1).ports.supplies bytes ∧
      readHeader (n + 1) shift v s = readHeader n (shift + 8) (v ||| b.setWidth 32 <<< shift) (s.took 1) := by
  obtain ⟨h0, h1⟩ := Ports.supplies_cons.1 h
  refine ⟨h1, ?_⟩
  rw [readHeader, srcRead_of_byte h0]
  rfl

/-- A header that the source is about to give is read (rule R300). -/
theorem readHeader_of_supplies {s : State} {len : Word} {bytes : List Byte}
    (h : s.ports.supplies (headerOf len ++ bytes)) :
    readHeader 4 0 0 s = .ok len (s.took 4) ∧ (s.took 4).ports.supplies bytes := by
  obtain ⟨h1, e1⟩ := readHeader_succ h 3 0 0
  obtain ⟨h2, e2⟩ := readHeader_succ h1 2 8 _
  obtain ⟨h3, e3⟩ := readHeader_succ h2 1 16 _
  obtain ⟨h4, e4⟩ := readHeader_succ h3 0 24 _
  rw [e1, e2, e3, e4, readHeader]
  simp only [State.took_took] at h4 ⊢
  exact ⟨congrArg (Res.ok · (s.took 4)) (header_word len), h4⟩

/-! ## The start -/

/-- A fresh window holds nothing. -/
theorem holds_fresh {s : State} (h : s.win.hist.wf Config.windowSize = true) : s.fresh.win.Holds [] :=
  ⟨h, rfl, rfl, fun i hi => absurd hi (Nat.not_lt_zero i)⟩

/-- The tables of a fresh start meet the invariants of rule R55 (rule R242). -/
theorem tablesOk_fresh (s : State) : s.fresh.tablesOk :=
  ⟨wf_treeInit (by decide) (by decide) (by decide), wf_treeInit (by decide) (by decide) (by decide)⟩

/-- The bits of a token program's body (rule R143, rule R150). -/
def TokenProgram.bits (p : TokenProgram) : List Bool := tokensBits (treeInit _ _) (treeInit _ _) p.toks

/-- A file is the header and the body's bits, packed (rule R150, rule R151). -/
theorem TokenProgram.file_eq (p : TokenProgram) : p.file = headerOf p.len ++ packBits p.bits.length p.bits := rfl

/-- `DECODE` executes any well-formed token program. -/
theorem decode_transforms {p : TokenProgram} (hp : p.wf = true) {s : State} (hw : s.win.ok) (hq : s.host.queue = [])
    (hsrc : s.sourceReady p.file) (hsink : s.sinkReady p.len.toNat) :
    s.transforms 0x0C000000 (tokensOutput [] p.toks) := by
  obtain ⟨len, toks⟩ := p
  obtain ⟨z, hz, hbits⟩ := bytesBits_packBits _ (TokenProgram.bits ⟨len, toks⟩) (Nat.le_mul_of_pos_left _ (by decide))
  obtain ⟨hhead, hbody⟩ := readHeader_of_supplies
    (s := ({ { s with busy := true, waiting := false } with mode := .decode }.fresh).setFsm .header) hsrc
  have hexec : exec .decode { s with busy := false, waiting := false } = .next (endTransformStep
      ({ ({ { s with busy := true, waiting := false } with mode := .decode }.fresh).took 4 with
        len := len, result := len, fsm := if len = 0 then .done else .reading })) := by
    show endStep _ _ (decInit { s with busy := true, waiting := false }) = _
    simp only [decInit, Config.headerBytes, hhead, Res.andThen_ok]
    rfl
  refine State.transforms_of_step (i := .decode) (by decide) (by decide) hexec ?_
  by_cases h0 : len = 0
  · subst h0
    rw [tokensWf_self (N := 0) hp, tokensOutput, List.append_nil, if_pos rfl]
    exact State.completes_of_done rfl rfl rfl rfl
  · have hlen : 0 < len.toNat := Nat.pos_of_ne_zero fun e => h0 (BitVec.eq_of_toNat_eq e)
    rw [if_neg h0]
    refine State.Decoding.completes (N := len.toNat) (List.replicate z false) toks _ [] ?_ hp hlen
    exact ⟨⟨rfl, rfl, rfl, hq, rfl⟩, rfl, tablesOk_fresh s,
      ⟨rfl, rfl, Nat.zero_le _, holds_fresh hw.1, (List.append_nil _).symm, hsink⟩, Nat.zero_le _, _, hbody, hbits⟩

end Sys2Proof.Machine

/-! SUPPORT. Writing the output: bits are sent to a sink that accepts them, and nothing else of the state changes. -/

namespace Sys2Proof.Machine

/-! ## Pending bits -/

/-- A pending bit joins those before it (rule R170). -/
theorem toNat_shiftIn {buf : BitVec 8} {k : Nat} (h : buf.toNat < 2 ^ k) (hk : k < 8) (b : Bool) :
    ((buf <<< 1) ||| (BitVec.ofBool b).setWidth 8).toNat = 2 * buf.toNat + b.toNat := by
  have h7 : buf.toNat < 2 ^ 7 := lt_of_lt_of_le h (Nat.pow_le_pow_right (by decide) (by omega))
  have hb : ((BitVec.ofBool b).setWidth 8).toNat = b.toNat := by cases b <;> rfl
  rw [BitVec.toNat_or, BitVec.toNat_shiftLeft, hb, Nat.shiftLeft_eq, Nat.mod_eq_of_lt (by omega), pow_one, mul_comm,
    ← Nat.two_pow_add_eq_or_of_lt (i := 1) (Bool.toNat_lt b), pow_one]

theorem fieldBits_mul_two_pow (v k : Nat) : ∀ z, fieldBits (v * 2 ^ z) (k + z) = fieldBits v k ++ List.replicate z false
  | 0 => by simp
  | z + 1 => by
    have e := fieldBits_succ_low (v * 2 ^ z) false (k + z)
    rw [fieldBits_mul_two_pow v k z, List.append_assoc, ← List.replicate_succ'] at e
    rw [← e]
    congr 1
    rw [Nat.pow_succ]
    simp
    ring

/-- The byte of a flush is the pending bits and zeros (rule R171). -/
theorem fieldBits_flushed (c : BitChannel) :
    fieldBits (c.obuf <<< (8 - c.obits.toNat)).toNat 8 = c.pending ++ List.replicate (8 - c.obits.toNat) false := by
  have hk := c.obits.isLt
  rw [BitVec.toNat_shiftLeft, Nat.shiftLeft_eq, fieldBits_mod _ (le_refl 8), BitChannel.pending,
    ← fieldBits_mul_two_pow, show c.obits.toNat + (8 - c.obits.toNat) = 8 by omega]

/-! ## Written bits -/

/-- Since the sink held `before`, the bits `bits` have been written, and the sink accepts bytes up to `N` in all. -/
structure State.Written (s : State) (before : List Byte) (N : Nat) (bits : List Bool) (out : List Byte) : Prop where
  small : s.bits.obuf.toNat < 2 ^ s.bits.obits.toNat
  sink : s.ports.sink = before ++ out
  bits : bytesBits out ++ s.bits.pending = bits
  accepts : ∀ k, out.length + k < N → s.ports.sinkAt k = some .ok

/-- The state differs in the Bit Channel, and in what has been delivered to the sink. -/
def State.WroteTo (s t : State) : Prop := ∃ b bytes, t = ({ s with bits := b } : State).delivered bytes

theorem State.WroteTo.refl (s : State) : s.WroteTo s := ⟨s.bits, [], (State.delivered_nil s).symm⟩

theorem State.WroteTo.trans {a b c : State} (h : a.WroteTo b) (h' : b.WroteTo c) : a.WroteTo c := by
  obtain ⟨_, xs, rfl⟩ := h
  obtain ⟨x, ys, rfl⟩ := h'
  exact ⟨x, xs ++ ys, State.delivered_append { a with bits := x } xs ys⟩

namespace State.Written

variable {s : State} {before out : List Byte} {N : Nat} {bits : List Bool} (h : s.Written before N bits out)
include h

theorem length_eq : bits.length = 8 * out.length + s.bits.obits.toNat := by
  rw [← h.bits, List.length_append, length_bytesBits, BitChannel.pending, length_fieldBits]

/-- A byte is delivered: the pending bits, filled up with `x`. -/
theorem deliver {b : Byte} {x : List Bool} (hlt : out.length < N) (hb : fieldBits b.toNat 8 = s.bits.pending ++ x) :
    sinkWrite b { s with bits := { s.bits with obuf := 0, obits := 0 } } =
        .ok () (({ s with bits := { s.bits with obuf := 0, obits := 0 } } : State).delivered [b]) ∧
      (({ s with bits := { s.bits with obuf := 0, obits := 0 } } : State).delivered [b]).Written before N (bits ++ x)
        (out ++ [b]) := by
  refine ⟨sinkWrite_of_ok (h.accepts 0 (by omega)), Nat.zero_lt_one, ?_, ?_, fun k hk => ?_⟩
  · show s.ports.sink ++ [b] = _
    rw [h.sink, List.append_assoc]
  · rw [bytesBits_append, bytesBits_cons, bytesBits_nil, hb, ← h.bits]
    simp [BitChannel.pending, fieldBits]
  · rw [List.length_append, List.length_singleton] at hk
    show ({ s.ports.sinkAfter 1 with sink := s.ports.sink ++ [b] } : Ports).sinkAt k = _
    rw [Ports.sinkAt_withSink, Ports.sinkAt_sinkAfter, Nat.add_comm]
    exact h.accepts (k + 1) (by omega)

/-- A bit is written (rule R170). -/
theorem writeBit {b : Bool} (hN : (bits.length + 1) / 8 ≤ N) :
    ∃ t out', Machine.writeBit b s = .ok () t ∧ t.Written before N (bits ++ [b]) out' ∧ s.WroteTo t := by
  have hlen := h.length_eq
  have hbuf := toNat_shiftIn h.small s.bits.obits.isLt b
  have hfield : fieldBits ((s.bits.obuf <<< 1) ||| (BitVec.ofBool b).setWidth 8).toNat (s.bits.obits.toNat + 1) =
      s.bits.pending ++ [b] := by rw [hbuf, fieldBits_succ_low, BitChannel.pending]
  rcases writeBit_cases b s with ⟨h7, e⟩ | ⟨h7, e⟩
  · have hsucc : (s.bits.obits + 1).toNat = s.bits.obits.toNat + 1 := by
      rw [BitVec.toNat_add]
      exact Nat.mod_eq_of_lt (by simp; omega)
    refine ⟨_, out, e, ⟨?_, h.sink, ?_, h.accepts⟩, _, [], (State.delivered_nil _).symm⟩
    · have := h.small
      have := Bool.toNat_lt b
      simp only [hbuf, hsucc, Nat.pow_succ]
      omega
    · rw [BitChannel.pending, hsucc, hfield, ← List.append_assoc, h.bits]
  · rw [h7] at hfield
    obtain ⟨h1, h2⟩ := h.deliver (by omega) hfield
    exact ⟨_, _, e.trans h1, h2, _, _, rfl⟩

/-- The last bits are flushed with zeros (rule R171). -/
theorem flush (hN : (bits.length + 7) / 8 ≤ N) :
    ∃ t out' z, flushBits s = .ok () t ∧ t.ports.sink = before ++ out' ∧ s.WroteTo t ∧ z < 8 ∧
      bytesBits out' = bits ++ List.replicate z false := by
  have hlen := h.length_eq
  rcases flushBits_cases s with ⟨h0, e⟩ | ⟨hpos, e⟩
  · refine ⟨s, out, 0, e, h.sink, State.WroteTo.refl s, by decide, ?_⟩
    rw [← h.bits, BitChannel.pending, h0]
    simp [fieldBits]
  · obtain ⟨h1, h2⟩ := h.deliver (by omega) (fieldBits_flushed s.bits)
    refine ⟨_, _, 8 - s.bits.obits.toNat, e.trans h1, h2.sink, ⟨_, _, rfl⟩, by omega, ?_⟩
    rw [← h2.bits]
    exact (List.append_nil _).symm

end State.Written

/-- Bits are written (rule R170). -/
theorem State.Written.writeBitList {before : List Byte} {N : Nat} : ∀ (xs : List Bool) {s : State} {bits : List Bool}
    {out : List Byte}, s.Written before N bits out → (bits.length + xs.length) / 8 ≤ N →
      ∃ t out', Machine.writeBitList xs s = .ok () t ∧ t.Written before N (bits ++ xs) out' ∧ s.WroteTo t
  | [], s, bits, out, h, _ => ⟨s, out, rfl, by rwa [List.append_nil], State.WroteTo.refl s⟩
  | x :: xs, s, bits, out, h, hN => by
    rw [List.length_cons] at hN
    obtain ⟨s1, out1, h1, hw1, hf1⟩ := h.writeBit (b := x) (le_trans (Nat.div_le_div_right (by omega)) hN)
    obtain ⟨t, out2, h2, hw2, hf2⟩ := State.Written.writeBitList xs hw1
      (by rw [List.length_append, List.length_singleton]; omega)
    refine ⟨t, out2, ?_, ?_, hf1.trans hf2⟩
    · rw [Machine.writeBitList, h1, Res.andThen_ok, h2]
    · rwa [List.append_assoc] at hw2

/-! ## Tokens -/

/-- A bump does not matter to what is written. -/
theorem State.Written.bumpSym {s : State} {before out : List Byte} {N : Nat} {bits : List Bool}
    (h : s.Written before N bits out) (t : TableSel) (x : Nat) : (s.bumpSym t x).Written before N bits out := by
  cases t <;> exact ⟨h.small, h.sink, h.bits, h.accepts⟩

theorem State.WroteTo.bumpSym {s u : State} (h : s.WroteTo u) (t : TableSel) (x : Nat) :
    (s.bumpSym t x).WroteTo (u.bumpSym t x) := by
  obtain ⟨b, bytes, rfl⟩ := h
  cases t <;> exact ⟨b, bytes, rfl⟩

theorem State.WroteTo.code_eq {s u : State} (h : s.WroteTo u) (t : TableSel) (x : Nat) : u.code t x = s.code t x := by
  obtain ⟨b, bytes, rfl⟩ := h
  cases t <;> rfl

/-- A symbol's code is written and its table bumped (rule R245). -/
theorem State.Written.encodeSymbol {s : State} {before out : List Byte} {N : Nat} {bits : List Bool}
    (h : s.Written before N bits out) (t : TableSel) (x : Nat) (hN : (bits.length + (s.code t x).length) / 8 ≤ N) :
    ∃ u out', Machine.encodeSymbol t x s = .ok () u ∧ u.Written before N (bits ++ s.code t x) out' ∧
      (s.bumpSym t x).WroteTo u := by
  obtain ⟨u, out', h1, h2, h3⟩ := State.Written.writeBitList (s.code t x) h hN
  refine ⟨u.bumpSym t x, out', ?_, h2.bumpSym t x, h3.bumpSym t x⟩
  rw [Machine.encodeSymbol, h1, Res.andThen_ok]

/-- A token's bits are written and its tables bumped (rule R143, rule R290). -/
theorem State.Written.sendToken {s : State} {before out : List Byte} {N : Nat} {bits : List Bool}
    (h : s.Written before N bits out) (tok : Token) (hN : (bits.length + (s.tokenBits tok).length) / 8 ≤ N) :
    ∃ u out', Machine.sendToken tok s = .ok () u ∧ u.Written before N (bits ++ s.tokenBits tok) out' ∧
      (s.bumpedFor tok).WroteTo u := by
  cases tok with
  | lit b => exact h.encodeSymbol .a b.toNat hN
  | copy len dist =>
    have hbits : s.tokenBits (.copy len dist) = s.code .a (lengthSymbol len.toNat) ++
        s.code .b (distClass dist.toNat) ++ fieldBits (distExtra dist.toNat) Config.distLowBits := rfl
    rw [hbits] at hN ⊢
    simp only [List.length_append] at hN
    obtain ⟨u1, out1, h1, hw1, hf1⟩ := h.encodeSymbol .a (lengthSymbol len.toNat) (by omega)
    have hcode : u1.code .b (distClass dist.toNat) = s.code .b (distClass dist.toNat) := hf1.code_eq .b _
    obtain ⟨u2, out2, h2, hw2, hf2⟩ := hw1.encodeSymbol .b (distClass dist.toNat)
      (by rw [hcode, List.length_append]; omega)
    rw [hcode, List.append_assoc] at hw2
    obtain ⟨u3, out3, h3, hw3, hf3⟩ := State.Written.writeBitList
      (fieldBits (distExtra dist.toNat) Config.distLowBits) hw2 (by simp only [List.length_append]; omega)
    rw [List.append_assoc] at hw3
    refine ⟨u3, out3, ?_, hw3, (hf1.bumpSym .b _).trans (hf2.trans hf3)⟩
    rw [Machine.sendToken, h1, Res.andThen_ok, h2, Res.andThen_ok, writeBits, h3]

end Sys2Proof.Machine

/-! SUPPORT. The encoder's window and lookahead as a text and a position in it, and the token the encoder chooses as a
function of the two (rule R220, rule R290). -/

namespace Sys2Proof.Machine

/-! ## The lookahead -/

/-- At position `p` of the text `x`: the window holds the bytes before it, the lookahead the next `m`, and the source is
about to give those after them. -/
structure State.Looking (s : State) (x : List Byte) (p m : Nat) : Prop where
  len : s.len.toNat = x.length
  count : s.count.toNat = p
  window : s.win.Holds (x.take p)
  wf : s.win.la.wf Config.lookaheadSize = true
  lacnt : s.win.lacnt.toNat = m
  le : p + m ≤ x.length
  room : m ≤ 60
  ahead : ∀ i, i < m → laByte s i = x.getD (p + i) 0
  source : s.ports.supplies (x.drop (p + m))

/-- The state differs in the window, the lookahead, `COUNT`, and in what has been taken from the source. -/
def State.LookTo (s t : State) : Prop := ∃ w c m, t = ({ s with win := w, count := c } : State).took m

theorem State.LookTo.refl (s : State) : s.LookTo s := ⟨s.win, s.count, 0, (State.took_zero s).symm⟩

theorem State.LookTo.trans {a b c : State} (h : a.LookTo b) (h' : b.LookTo c) : a.LookTo c := by
  obtain ⟨_, _, m, rfl⟩ := h
  obtain ⟨w, x, k, rfl⟩ := h'
  exact ⟨w, x, m + k, State.took_took { a with win := w, count := x } m k⟩

theorem getElem_eq_getD_byte {x : List Byte} {i : Nat} (h : i < x.length) : x[i] = x.getD i 0 :=
  (List.getD_eq_getElem x 0 h).symm

theorem getD_take_of_lt {x : List Byte} {i q : Nat} (h : i < q) : (x.take q).getD i 0 = x.getD i 0 := by
  rw [List.getD_eq_getElem?_getD, List.getElem?_take_of_lt h, ← List.getD_eq_getElem?_getD]

namespace State.Looking

variable {s : State} {x : List Byte} {p m : Nat} (h : s.Looking x p m)
include h

theorem wantsByte_iff : wantsByte s = true ↔ m < 60 ∧ p + m < x.length := by
  simp only [wantsByte, decide_eq_true_eq, h.lacnt, h.count, h.len, Config.lookaheadSize]

/-- There is room and there are bytes: one is taken (rule R200). -/
theorem fillOne_true (hm : m < 60) (hp : p + m < x.length) :
    ∃ t, fillOne s = .ok true t ∧ t.Looking x p (m + 1) ∧ s.LookTo t := by
  have hsrc := h.source
  rw [List.drop_eq_getElem_cons hp] at hsrc
  obtain ⟨hb, hrest⟩ := Ports.supplies_cons.1 hsrc
  have hcnt : (s.win.lacnt + 1).toNat = m + 1 := by
    rw [BitVec.toNat_add, h.lacnt]
    exact Nat.mod_eq_of_lt (by simp; omega)
  have hwin := h.window
  refine ⟨({ s with win := { s.win with la := s.win.la.write s.win.lacnt.toNat x[p + m], lacnt := s.win.lacnt + 1 } } :
    State).took 1, ?_, ⟨h.len, h.count, ⟨hwin.wf, hwin.cursor, hwin.fill, hwin.bytes⟩, ?_, hcnt, hp, hm,
    fun i hi => ?_, hrest⟩, _, s.count, 1, rfl⟩
  · rw [fillOne, if_pos (h.wantsByte_iff.2 ⟨hm, hp⟩), srcRead_of_byte hb]
    rfl
  · exact Memory.wf_write _ h.wf (by rw [h.lacnt]; exact hm)
  · show (s.win.la.write s.win.lacnt.toNat x[p + m]).read i = _
    rw [Memory.read_write h.wf, h.lacnt]
    by_cases hi' : i = m
    · rw [if_pos hi', hi', getElem_eq_getD_byte hp]
    · rw [if_neg hi']
      exact h.ahead i (by omega)

/-- There is no room, or there are no bytes: none is taken (rule R200). -/
theorem fillOne_false (hm : ¬(m < 60 ∧ p + m < x.length)) : fillOne s = .ok false s := by
  rw [fillOne, if_neg (fun hw => hm (h.wantsByte_iff.1 hw))]

/-- A byte moves from the lookahead into the window (rule R205). -/
theorem shiftIn (hm : 1 ≤ m) : (Machine.shiftIn s).Looking x (p + 1) (m - 1) := by
  have hle := h.le
  have hlen := h.len
  have h32 := s.len.isLt
  have hp : p < x.length := by omega
  have h0 := h.ahead 0 hm
  have hcnt : (s.win.lacnt - 1).toNat = m - 1 := by
    have := h.lacnt
    have := s.win.lacnt.isLt
    rw [BitVec.toNat_sub]
    simp
    omega
  have hwin := h.window
  have hmoved : ({ s.win with la := s.win.la.shiftDown s.win.lacnt.toNat, lacnt := s.win.lacnt - 1 } : Window).Holds
      (x.take p) := ⟨hwin.wf, hwin.cursor, hwin.fill, hwin.bytes⟩
  refine ⟨h.len, ?_, ?_, Memory.wf_shiftDown _ h.wf, hcnt, by omega, by have := h.room; omega, fun i hi => ?_, ?_⟩
  · show (s.count + 1).toNat = _
    rw [BitVec.toNat_add, h.count]
    exact Nat.mod_eq_of_lt (by simp; omega)
  · have := hmoved.advance (laByte s 0)
    rw [h0, Nat.add_zero, ← getElem_eq_getD_byte hp, ← List.take_succ_eq_append_getElem hp,
      getElem_eq_getD_byte hp, ← Nat.add_zero p, ← h0, Nat.add_zero] at this
    exact this
  · show (s.win.la.shiftDown s.win.lacnt.toNat).read i = _
    rw [Memory.read_shiftDown h.wf, h.lacnt, if_pos (by omega), show p + 1 + i = p + (i + 1) by ring]
    exact h.ahead (i + 1) (by omega)
  · rw [show p + 1 + (m - 1) = p + m by omega]
    exact h.source

/-- One turn of `Consume` keeps the lookahead as full as the text allows (rule R205). -/
theorem consumeOne (hm : m = min 60 (x.length - p)) (hp : p < x.length) :
    ∃ t, Machine.consumeOne s = .ok () t ∧ t.Looking x (p + 1) (min 60 (x.length - (p + 1))) ∧ s.LookTo t := by
  have hs := h.shiftIn (by omega)
  have hframe : s.LookTo (Machine.shiftIn s) := ⟨_, _, 0, (State.took_zero _).symm⟩
  by_cases hfill : p + m < x.length
  · obtain ⟨t, h1, h2, h3⟩ := hs.fillOne_true (by omega) (by omega)
    refine ⟨t, by rw [Machine.consumeOne, h1, Res.andThen_ok], ?_, hframe.trans h3⟩
    rwa [show m - 1 + 1 = min 60 (x.length - (p + 1)) by omega] at h2
  · refine ⟨_, by rw [Machine.consumeOne, hs.fillOne_false (by omega), Res.andThen_ok], ?_, hframe⟩
    rwa [show m - 1 = min 60 (x.length - (p + 1)) by omega] at hs

end State.Looking

/-- `Consume` moves the position on (rule R205). -/
theorem State.Looking.consumeTurns {x : List Byte} : ∀ (k p : Nat) (s : State),
    s.Looking x p (min 60 (x.length - p)) → p + k ≤ x.length →
      ∃ t, Machine.consumeTurns k s = .ok () t ∧ t.Looking x (p + k) (min 60 (x.length - (p + k))) ∧ s.LookTo t
  | 0, p, s, h, _ => ⟨s, rfl, h, State.LookTo.refl s⟩
  | k + 1, p, s, h, hk => by
    obtain ⟨s1, h1, h2, h3⟩ := h.consumeOne rfl (by omega)
    obtain ⟨t, h4, h5, h6⟩ := State.Looking.consumeTurns k (p + 1) s1 h2 (by omega)
    refine ⟨t, ?_, ?_, h3.trans h6⟩
    · rw [Machine.consumeTurns, h1, Res.andThen_ok, h4]
    · rwa [show p + 1 + k = p + (k + 1) by ring] at h5

/-- `Fill` fills the lookahead as far as the text allows (rule R200). -/
theorem State.Looking.fillUpTo {x : List Byte} {p : Nat} : ∀ (k m : Nat) (s : State), s.Looking x p m →
    ∃ t, Machine.fillUpTo k s = .ok () t ∧ t.Looking x p (min (m + k) (min 60 (x.length - p))) ∧ s.LookTo t
  | 0, m, s, h => by
    have := h.le
    have := h.room
    refine ⟨s, rfl, ?_, State.LookTo.refl s⟩
    rwa [show min (m + 0) (min 60 (x.length - p)) = m by omega]
  | k + 1, m, s, h => by
    by_cases hm : m < 60 ∧ p + m < x.length
    · obtain ⟨s1, h1, h2, h3⟩ := h.fillOne_true hm.1 hm.2
      obtain ⟨t, h4, h5, h6⟩ := State.Looking.fillUpTo k (m + 1) s1 h2
      refine ⟨t, ?_, ?_, h3.trans h6⟩
      · rw [Machine.fillUpTo, h1, Res.andThen_ok, if_pos rfl, h4]
      · rwa [show m + 1 + k = m + (k + 1) by ring] at h5
    · have := h.le
      have := h.room
      refine ⟨s, ?_, ?_, State.LookTo.refl s⟩
      · rw [Machine.fillUpTo, h.fillOne_false hm, Res.andThen_ok]
        rfl
      · rwa [show min (m + (k + 1)) (min 60 (x.length - p)) = m by omega]

/-! ## The token at a position of a text -/

/-- How many bytes of the text from position `p` on are those `d` positions before them, from the `l`-th of them on and
for at most `k` more (rule R221). -/
def textRunFrom (x : List Byte) (p d : Nat) : Nat → Nat → Nat
  | 0, l => l
  | k + 1, l => if x.getD (p + l - d) 0 = x.getD (p + l) 0 then textRunFrom x p d k (l + 1) else l

/-- `MatchLen(d)` at position `p` of a text (rule R221). -/
def textRun (x : List Byte) (p d : Nat) : Nat := textRunFrom x p d (min 60 (x.length - p)) 0

/-- One turn of `FindMatch` at position `p` of a text (rule R220). -/
def textBetter (x : List Byte) (p : Nat) (best : MatchRef) (d : Nat) : MatchRef :=
  if best.len < textRun x p d then ⟨d, textRun x p d⟩ else best

/-- The best match of `FindMatch` at position `p` of a text (rule R220). -/
def textBest (x : List Byte) (p : Nat) : MatchRef := (List.range' 1 (min p 4096)).foldl (textBetter x p) ⟨0, 0⟩

/-- The token that the encoder chooses at position `p` of a text (rule R290). -/
def textToken (x : List Byte) (p : Nat) : Token :=
  if Config.minLen ≤ (textBest x p).len then
    .copy (BitVec.ofNat 6 (textBest x p).len) (BitVec.ofNat 13 (textBest x p).dist)
  else .lit (x.getD p 0)

/-! ## What a state finds is what stands in the text -/

section
variable {s : State} {x : List Byte} {p m : Nat} (h : s.Looking x p m)
include h

/-- The source of a copy is the byte `d` positions back, in the window or in the lookahead (rule R221). -/
theorem State.Looking.copySource_eq {d l : Nat} (h1 : 1 ≤ d) (hd : d ≤ p) (hW : d ≤ 4096) (hl : l < m) :
    copySource s d l = x.getD (p + l - d) 0 := by
  have hle := h.le
  have htake : (x.take p).length = p := by rw [List.length_take]; omega
  rw [copySource]
  by_cases hld : l < d
  · rw [if_pos hld, histByte_of_holds h.window (by omega) (by omega) (by omega), htake,
      getD_take_of_lt (by omega)]
    congr 1
    omega
  · rw [if_neg hld, h.ahead _ (by omega)]
    congr 1
    omega

theorem State.Looking.matchFrom_eq {d : Nat} (h1 : 1 ≤ d) (hd : d ≤ p) (hW : d ≤ 4096) : ∀ k l, l + k ≤ m →
    matchFrom s d k l = textRunFrom x p d k l
  | 0, _, _ => rfl
  | k + 1, l, hk => by
    rw [matchFrom, textRunFrom, h.copySource_eq h1 hd hW (by omega), h.ahead l (by omega),
      State.Looking.matchFrom_eq h1 hd hW k (l + 1) (by omega)]

theorem State.Looking.matchLen_eq (hm : m = min 60 (x.length - p)) {d : Nat} (h1 : 1 ≤ d) (hd : d ≤ p) (hW : d ≤ 4096) :
    matchLen s d = textRun x p d := by
  rw [matchLen, textRun, h.lacnt, ← hm]
  have e : min Config.maxLen m = m := min_eq_right h.room
  rw [e]
  exact h.matchFrom_eq h1 hd hW m 0 (by omega)

/-- The encoder chooses the token of the text (rule R290). -/
theorem State.Looking.chooseToken_eq (hm : m = min 60 (x.length - p)) (hp : p < x.length) :
    chooseToken s = textToken x p := by
  have hlen : (x.take p).length = p := by rw [List.length_take]; omega
  have hbest : bestMatch s s.win.wfill.toNat = textBest x p := by
    rw [bestMatch, textBest, h.window.fill, hlen]
    refine List.foldl_ext _ _ _ fun best d hd => ?_
    rw [List.mem_range'_1] at hd
    rw [betterMatch, textBetter, h.matchLen_eq hm (by omega) (by omega) (by omega)]
  rw [chooseToken, findMatch, textToken, hbest]
  by_cases hmin : Config.minLen ≤ (textBest x p).len
  · simp only [if_pos hmin]
  · simp only [if_neg hmin]
    rw [h.ahead 0 (by omega), Nat.add_zero]

end

/-! ## The token of a text stands for the text's bytes -/

/-- The bytes counted are equal to those before them, and no more than asked for. -/
theorem textRunFrom_spec (x : List Byte) (p d : Nat) : ∀ k l, textRunFrom x p d k l ≤ l + k ∧
    ∀ i, l ≤ i → i < textRunFrom x p d k l → x.getD (p + i - d) 0 = x.getD (p + i) 0
  | 0, l => ⟨le_refl _, fun i hi hi' => absurd hi' (by simpa [textRunFrom] using hi)⟩
  | k + 1, l => by
    obtain ⟨h1, h2⟩ := textRunFrom_spec x p d k (l + 1)
    rw [textRunFrom]
    by_cases h : x.getD (p + l - d) 0 = x.getD (p + l) 0
    · rw [if_pos h]
      refine ⟨by omega, fun i hi hi' => ?_⟩
      rcases Nat.eq_or_lt_of_le hi with rfl | hi
      · exact h
      · exact h2 i hi hi'
    · rw [if_neg h]
      exact ⟨by omega, fun i hi hi' => by omega⟩

/-- No match, or one at a distance that the window has at position `p` of a text (rule R220). -/
def IsTextMatch (x : List Byte) (p : Nat) (best : MatchRef) : Prop :=
  best.len = 0 ∨ 1 ≤ best.dist ∧ best.dist ≤ min p 4096 ∧ best.len = textRun x p best.dist

theorem isTextMatch_textBest (x : List Byte) (p : Nat) : IsTextMatch x p (textBest x p) := by
  refine List.foldlRecOn _ (textBetter x p) (Or.inl rfl) fun best hbest d hd => ?_
  rw [List.mem_range'_1] at hd
  rw [textBetter]
  by_cases h : best.len < textRun x p d
  · rw [if_pos h]
    refine Or.inr ⟨hd.1, ?_, rfl⟩
    show d ≤ min p 4096
    omega
  · rwa [if_neg h]

theorem take_append_getD {x : List Byte} {q : Nat} (hq : q < x.length) : x.take q ++ [x.getD q 0] = x.take (q + 1) := by
  rw [List.take_succ_eq_append_getElem hq, getElem_eq_getD_byte hq]

/-- Repeating the bytes `d` positions back gives the text, where those are the text's bytes. -/
theorem iterate_repeatByte_take {x : List Byte} {p d len : Nat} (h1 : 1 ≤ d) (hd : d ≤ p) (hlen : p + len ≤ x.length)
    (heq : ∀ i, i < len → x.getD (p + i - d) 0 = x.getD (p + i) 0) : ∀ k, k ≤ len →
      (repeatByte d)^[k] (x.take p) = x.take (p + k)
  | 0, _ => rfl
  | k + 1, hk => by
    have hq : (x.take (p + k)).length = p + k := by rw [List.length_take]; omega
    rw [Function.iterate_succ_apply', iterate_repeatByte_take h1 hd hlen heq k (by omega), repeatByte, hq,
      getD_take_of_lt (by omega), heq k (by omega), take_append_getD (by omega)]
    rfl

/-- The token of a text is well-formed, its distance within the bytes before it, its bytes those of the text. -/
theorem textToken_spec {x : List Byte} {p : Nat} (hp : p < x.length) :
    (textToken x p).toInstr.wellFormed = true ∧ 1 ≤ (textToken x p).size ∧
      (textToken x p).size ≤ min 60 (x.length - p) ∧ (∀ len dist, textToken x p = .copy len dist → dist.toNat ≤ p) ∧
      emitToken (x.take p) (textToken x p) = x.take (p + (textToken x p).size) := by
  rw [textToken]
  by_cases hmin : Config.minLen ≤ (textBest x p).len
  · rw [if_pos hmin]
    have hmin' : 3 ≤ (textBest x p).len := hmin
    obtain ⟨hd1, hd2, hrun⟩ := (isTextMatch_textBest x p).resolve_left (by omega)
    obtain ⟨hle, heq⟩ := textRunFrom_spec x p (textBest x p).dist (min 60 (x.length - p)) 0
    rw [← textRun, ← hrun] at hle heq
    generalize (textBest x p).len = len at *
    generalize (textBest x p).dist = d at *
    have hlen : (BitVec.ofNat 6 len).toNat = len := by
      rw [BitVec.toNat_ofNat]; exact Nat.mod_eq_of_lt (by omega)
    have hdist : (BitVec.ofNat 13 d).toNat = d := by
      rw [BitVec.toNat_ofNat]; exact Nat.mod_eq_of_lt (by omega)
    refine ⟨?_, ?_, ?_, fun l e he => ?_, ?_⟩
    · simp only [Token.toInstr, Instr.wellFormed, Bool.and_eq_true, decide_eq_true_eq, hlen, hdist, Config.minLen,
        Config.maxLen, Config.windowSize]
      omega
    · rw [Token.size, hlen]; omega
    · rw [Token.size, hlen]; omega
    · cases he; omega
    · rw [emitToken, Token.size, hlen, hdist]
      exact iterate_repeatByte_take hd1 (by omega) (by omega) (fun i hi => heq i (Nat.zero_le i) hi) len (le_refl len)
  · rw [if_neg hmin]
    exact ⟨rfl, le_refl 1, by rw [Token.size]; omega, fun l e he => (by cases he), take_append_getD hp⟩

/-- The tokens that the encoder chooses from position `p` of a text on, at most `k`. -/
def textTokens (x : List Byte) : Nat → Nat → List Token
  | 0, _ => []
  | k + 1, p => if p < x.length then textToken x p :: textTokens x k (p + (textToken x p).size) else []

/-- At the end of a text there are no tokens. -/
theorem textTokens_end (x : List Byte) (k : Nat) : textTokens x k x.length = [] := by
  cases k <;> simp [textTokens]

/-- The tokens of a text are a well-formed program that emits the rest of the text. -/
theorem textTokens_spec (x : List Byte) : ∀ k p, p ≤ x.length → x.length ≤ p + k →
    tokensWf x.length p (textTokens x k p) = true ∧ tokensOutput (x.take p) (textTokens x k p) = x
  | 0, p, hp, hk => by
    obtain rfl : p = x.length := by omega
    rw [textTokens_end]
    exact ⟨by simp [tokensWf], by simp [tokensOutput]⟩
  | k + 1, p, hp, hk => by
    rw [textTokens]
    by_cases hlt : p < x.length
    · obtain ⟨hwf, hsize, hle, hdist, hemit⟩ := textToken_spec hlt
      obtain ⟨h1, h2⟩ := textTokens_spec x k (p + (textToken x p).size) (by omega) (by omega)
      rw [if_pos hlt, tokensOutput_cons, hemit]
      refine ⟨?_, h2⟩
      generalize textToken x p = tok at *
      cases tok with
      | lit b => exact h1
      | copy len dist =>
        simp only [Token.toInstr, Instr.wellFormed, Bool.and_eq_true] at hwf
        simp only [tokensWf, Bool.and_eq_true, decide_eq_true_eq]
        simp only [decide_eq_true_eq] at hwf
        exact ⟨⟨hwf, hdist len dist rfl⟩, h1⟩
    · obtain rfl : p = x.length := by omega
      rw [if_neg hlt]
      exact ⟨by simp [tokensWf], by simp [tokensOutput]⟩

end Sys2Proof.Machine

/-! SUPPORT. The start and the steps of an encode: `ENCODE` sends the file of the text's tokens (rule R280, rule R290,
rule R320). -/

namespace Sys2Proof.Machine

/-! ## What the parts of a step leave alone -/

theorem State.Running.wroteTo {s t : State} {mode : Mode} (h : s.Running mode) (hw : s.WroteTo t) : t.Running mode := by
  obtain ⟨_, _, rfl⟩ := hw
  exact ⟨h.mode, h.busy, h.waiting, h.queue, h.err⟩

theorem State.Running.lookTo {s t : State} {mode : Mode} (h : s.Running mode) (hl : s.LookTo t) : t.Running mode := by
  obtain ⟨_, _, _, rfl⟩ := hl
  exact ⟨h.mode, h.busy, h.waiting, h.queue, h.err⟩

theorem State.Running.setFsm {s : State} {mode : Mode} (h : s.Running mode) (x : Fsm) : (s.setFsm x).Running mode :=
  ⟨h.mode, h.busy, h.waiting, h.queue, h.err⟩

theorem State.Running.setResult {s : State} {mode : Mode} (h : s.Running mode) (v : Word) :
    (s.setResult v).Running mode := ⟨h.mode, h.busy, h.waiting, h.queue, h.err⟩

theorem State.Running.bumpedFor {s : State} {mode : Mode} (h : s.Running mode) (tok : Token) :
    (s.bumpedFor tok).Running mode := by
  cases tok <;> exact ⟨h.mode, h.busy, h.waiting, h.queue, h.err⟩

theorem State.Looking.wroteTo {s t : State} {x : List Byte} {p m : Nat} (h : s.Looking x p m) (hw : s.WroteTo t) :
    t.Looking x p m := by
  obtain ⟨_, _, rfl⟩ := hw
  exact ⟨h.len, h.count, h.window, h.wf, h.lacnt, h.le, h.room, h.ahead, h.source⟩

theorem State.Looking.bumpedFor {s : State} {x : List Byte} {p m : Nat} (h : s.Looking x p m) (tok : Token) :
    (s.bumpedFor tok).Looking x p m := by
  cases tok <;> exact ⟨h.len, h.count, h.window, h.wf, h.lacnt, h.le, h.room, h.ahead, h.source⟩

theorem State.Looking.setFsm {s : State} {x : List Byte} {p m : Nat} (h : s.Looking x p m) (y : Fsm) :
    (s.setFsm y).Looking x p m := ⟨h.len, h.count, h.window, h.wf, h.lacnt, h.le, h.room, h.ahead, h.source⟩

theorem State.Looking.setResult {s : State} {x : List Byte} {p m : Nat} (h : s.Looking x p m) (v : Word) :
    (s.setResult v).Looking x p m := ⟨h.len, h.count, h.window, h.wf, h.lacnt, h.le, h.room, h.ahead, h.source⟩

theorem State.Written.lookTo {s t : State} {before out : List Byte} {N : Nat} {bits : List Bool}
    (h : s.Written before N bits out) (hl : s.LookTo t) : t.Written before N bits out := by
  obtain ⟨_, _, _, rfl⟩ := hl
  exact ⟨h.small, h.sink, h.bits, h.accepts⟩

theorem State.Written.setFsm {s : State} {before out : List Byte} {N : Nat} {bits : List Bool}
    (h : s.Written before N bits out) (x : Fsm) : (s.setFsm x).Written before N bits out :=
  ⟨h.small, h.sink, h.bits, h.accepts⟩

theorem State.Written.setResult {s : State} {before out : List Byte} {N : Nat} {bits : List Bool}
    (h : s.Written before N bits out) (v : Word) : (s.setResult v).Written before N bits out :=
  ⟨h.small, h.sink, h.bits, h.accepts⟩

/-! ## The steps of an encode -/

/-- An encode is in progress at position `p` of the text `x`: since the sink held `before` it has written the bits
`bits`, and the sink accepts `N` bytes in all. -/
structure State.Encoding (s : State) (before : List Byte) (N : Nat) (x : List Byte) (p : Nat) (bits : List Bool) : Prop
    extends s.Running .encode where
  fsm : s.fsm = .searching
  tables : s.tablesOk
  looking : s.Looking x p (min 60 (x.length - p))
  written : ∃ out, s.Written before N bits out

/-- The lookahead's count reads 0 exactly at the end of the text. -/
theorem State.Looking.lacnt_eq_zero_iff {s : State} {x : List Byte} {p : Nat}
    (h : s.Looking x p (min 60 (x.length - p))) : s.win.lacnt = 0 ↔ p = x.length := by
  have h1 := h.lacnt
  have h2 := h.le
  have h3 : s.win.lacnt = 0 ↔ s.win.lacnt.toNat = 0 := ⟨fun e => by rw [e]; rfl, fun e => BitVec.eq_of_toNat_eq e⟩
  rw [h3, h1]
  omega

/-- The `Consume` of an encoder step moves the position on by the token's bytes (rule R205, rule R290). -/
theorem State.Looking.consumeToken {s : State} {x : List Byte} {p : Nat} (h : s.Looking x p (min 60 (x.length - p)))
    {tok : Token} (h1 : 1 ≤ tok.size) (h2 : tok.size ≤ min 60 (x.length - p)) :
    ∃ t, Machine.consumeToken tok s = .ok () t ∧
      t.Looking x (p + tok.size) (min 60 (x.length - (p + tok.size))) ∧ s.LookTo t := by
  obtain ⟨t, ht, hlook, hframe⟩ := State.Looking.consumeTurns tok.size p s h (by omega)
  have hne : s.win.lacnt ≠ 0 := fun e => by
    have := h.lacnt_eq_zero_iff.1 e
    omega
  have hok : consumeOk s tok.size = true := decide_eq_true ⟨h1, by rw [h.lacnt]; exact h2⟩
  exact ⟨t, by rw [Machine.consumeToken, if_neg hne, consume, checkOperand, if_pos hok, ht], hlook, hframe⟩

/-- One step of an encode, up to its end: the token of the text is sent and its bytes are consumed (rule R290). -/
theorem State.Encoding.step {s : State} {before x : List Byte} {N p : Nat} {bits : List Bool}
    (h : s.Encoding before N x p bits) (hp : p < x.length)
    (hN : (bits.length + (s.tokenBits (textToken x p)).length) / 8 ≤ N) :
    ∃ u out, Machine.step s = endStep s endTransformStep (closeEncode u) ∧ u.Running .encode ∧
      u.Looking x (p + (textToken x p).size) (min 60 (x.length - (p + (textToken x p).size))) ∧
      u.Written before N (bits ++ s.tokenBits (textToken x p)) out ∧
      u.tabA = (s.bumpedFor (textToken x p)).tabA ∧ u.tabB = (s.bumpedFor (textToken x p)).tabB := by
  obtain ⟨_, hsize, hle, _, _⟩ := textToken_spec hp
  have hchoose := h.looking.chooseToken_eq rfl hp
  generalize textToken x p = tok at *
  obtain ⟨out, hwr⟩ := h.written
  obtain ⟨v, out', hsend, hwr', hframe⟩ := (hwr.setFsm .emitting).sendToken tok hN
  obtain ⟨u, hcons, hlook, hframe'⟩ :=
    (((h.looking.setFsm .emitting).bumpedFor tok).wroteTo hframe).consumeToken hsize hle
  have hrun := ((((h.toRunning.setFsm .emitting).bumpedFor tok).wroteTo hframe).lookTo hframe').setResult tok.desc
  refine ⟨u.setResult tok.desc, out', ?_, hrun, hlook.setResult _, (hwr'.lookTo hframe').setResult _, ?_⟩
  · rw [step_of_busy h.busy h.waiting h.queue, transformStep, h.mode]
    simp only [encStep, h.fsm, h.mode, and_self, if_true, hchoose, hsend, Res.andThen_ok, hcons]
  · obtain ⟨_, _, rfl⟩ := hframe
    obtain ⟨_, _, _, rfl⟩ := hframe'
    cases tok <;> exact ⟨rfl, rfl⟩

/-- The end of the last step of an encode: the pending bits are flushed (rule R293). -/
theorem closeEncode_last {s u : State} {before x out : List Byte} {N : Nat} {bits : List Bool}
    (hrun : u.Running .encode) (hlook : u.Looking x x.length (min 60 (x.length - x.length)))
    (hwr : u.Written before N bits out) (hN : (bits.length + 7) / 8 ≤ N) :
    ∃ t out' z, endStep s endTransformStep (closeEncode u) = .next t ∧
      t.Completes (before ++ out') ∧ z < 8 ∧ bytesBits out' = bits ++ List.replicate z false := by
  obtain ⟨v, out', z, hflush, hsink, hframe, hz, hbits⟩ := hwr.flush hN
  have hv := hrun.wroteTo hframe
  refine ⟨{ v with fsm := .done, busy := false }, out', z, ?_, ?_, hz, hbits⟩
  · rw [closeEncode, if_pos (hlook.lacnt_eq_zero_iff.2 rfl), hflush]
    rfl
  · rw [← hsink]
    exact State.completes_of_done rfl hv.waiting rfl hv.err

/-- An encode in progress ends with the bits of the tokens to come, packed (rule R151, rule R320). -/
theorem State.Encoding.completes {before x : List Byte} {N : Nat} : ∀ (k p : Nat) (s : State) (bits : List Bool),
    s.Encoding before N x p bits → p < x.length → x.length ≤ p + k →
    (bits.length + (tokensBits s.tabA s.tabB (textTokens x k p)).length + 7) / 8 ≤ N →
      ∃ out z, s.Completes (before ++ out) ∧ z < 8 ∧
        bytesBits out = bits ++ tokensBits s.tabA s.tabB (textTokens x k p) ++ List.replicate z false
  | 0, p, s, bits, _, hp, hk, _ => by omega
  | k + 1, p, s, bits, h, hp, hk, hN => by
    obtain ⟨htok, hsize, hle, _, _⟩ := textToken_spec hp
    rw [textTokens, if_pos hp, tokensBits_cons] at hN ⊢
    rw [List.length_append] at hN
    obtain ⟨u, out, hu, hrun, hlook, hwr, hA, hB⟩ := h.step hp (by omega)
    rw [← hA, ← hB] at hN ⊢
    rw [← List.append_assoc]
    have hlen : (bits ++ s.tokenBits (textToken x p)).length = bits.length + (s.tokenBits (textToken x p)).length :=
      List.length_append
    by_cases hlast : p + (textToken x p).size = x.length
    · rw [hlast] at hlook hN ⊢
      rw [textTokens_end] at hN ⊢
      obtain ⟨t, out', z, ht, hdone, hz, hbits⟩ := closeEncode_last (s := s) hrun hlook hwr
        (by rw [hlen]; simp only [tokensBits, List.length_nil] at hN; omega)
      refine ⟨out', z, State.completes_of_step h.busy (hu.trans ht) hdone, hz, ?_⟩
      rw [hbits, tokensBits, List.append_nil]
    · have hne : u.win.lacnt ≠ 0 := fun e => hlast (hlook.lacnt_eq_zero_iff.1 e)
      have hstep : Machine.step s = .next (u.setFsm .searching) := by
        rw [hu, closeEncode, if_neg hne]
        rfl
      have htabs : (u.setFsm .searching).tablesOk := by
        have := State.tablesOk_bumpedFor h.tables htok
        rwa [State.tablesOk, ← hA, ← hB] at this
      obtain ⟨out', z, hdone, hz, hbits⟩ := State.Encoding.completes k (p + (textToken x p).size)
        (u.setFsm .searching) _ ⟨hrun.setFsm _, rfl, htabs, hlook.setFsm _, out, hwr.setFsm _⟩ (by omega) (by omega)
        (by rw [hlen]; simp only [State.setFsm_tabA, State.setFsm_tabB]; omega)
      exact ⟨out', z, State.completes_of_step h.busy hstep hdone, hz, hbits⟩

end Sys2Proof.Machine

/-! SUPPORT. The transform is lossless (rule R4): `ENCODE` sends the file of the text's tokens, and `DECODE` executes
them. -/

namespace Sys2Proof.Machine

/-- The tokens of a text as a program (rule R156). -/
def textProgram (x : List Byte) : TokenProgram := ⟨BitVec.ofNat 32 x.length, textTokens x x.length 0⟩

/-- The program of a text that one file can carry is well-formed and emits the text. -/
theorem textProgram_spec {x : List Byte} (hx : x.length < 2 ^ 32) :
    (textProgram x).len.toNat = x.length ∧ (textProgram x).wf = true ∧ tokensOutput [] (textProgram x).toks = x := by
  have hlen : (BitVec.ofNat 32 x.length).toNat = x.length := by rw [BitVec.toNat_ofNat]; exact Nat.mod_eq_of_lt hx
  obtain ⟨h1, h2⟩ := textTokens_spec x x.length 0 (Nat.zero_le _) (by omega)
  refine ⟨hlen, ?_, h2⟩
  rw [TokenProgram.wf, textProgram, hlen, h1]

/-- The state in which `EncInit` has sent the header (rule R280). -/
def State.headerSent (s : State) : State :=
  (({ s with mode := .encode }.fresh).setFsm .filling).delivered (headerOf s.len)

/-- A state in which the text can be encoded, once the header has been sent. -/
theorem headerSent_spec {s : State} {x : List Byte} {N : Nat} (hb : s.busy = true) (hw : s.waiting = false)
    (hq : s.host.queue = []) (hwin : s.win.ok) (hlen : s.len.toNat = x.length) (hsrc : s.sourceReady x)
    (hsink : s.sinkReady (4 + N)) : s.headerSent.Running .encode ∧ s.headerSent.Looking x 0 0 ∧
      s.headerSent.Written (s.ports.sink ++ headerOf s.len) N [] [] := by
  refine ⟨⟨rfl, hb, hw, hq, rfl⟩, ⟨hlen, rfl, holds_fresh hwin.1, hwin.2.1, rfl, Nat.zero_le _, Nat.zero_le _,
    fun i hi => absurd hi (Nat.not_lt_zero i), hsrc⟩, ⟨Nat.zero_lt_one, (List.append_nil _).symm, rfl, fun k hk => ?_⟩⟩
  show (s.ports.sinkAfter 4).sinkAt k = _
  rw [Ports.sinkAt_sinkAfter]
  exact hsink (4 + k) (by rw [List.length_nil] at hk; omega)

/-- `EncInit` (rule R280) as the state it leaves: the header sent and the lookahead filled as far as the text allows. -/
theorem encInit_of_ready {s : State} {x : List Byte} (hl : s.headerSent.Looking x 0 0) (hsink : s.sinkReady 4) :
    ∃ t, encInit s = .ok () ((t.setResult t.len).setFsm (if t.win.lacnt = 0 then .done else .searching)) ∧
      t.Looking x 0 (min 60 (x.length - 0)) ∧ s.headerSent.LookTo t := by
  obtain ⟨t, hfill, hlook, hframe⟩ := State.Looking.fillUpTo 60 0 s.headerSent hl
  refine ⟨t, ?_, by rwa [Nat.zero_add, ← min_assoc, min_self] at hlook, hframe⟩
  have hsend : sendBytes (headerOf s.len) (({ s with mode := .encode }.fresh).setFsm .filling) = .ok () s.headerSent :=
    sendBytes_of_accepts _ _ hsink
  have hfill' : fill s.headerSent = .ok () t := hfill
  rw [encInit]
  simp only [State.setFsm_len, State.fresh_len]
  rw [hsend, Res.andThen_ok, hfill', Res.andThen_ok]

/-- An encode whose header has been sent and whose lookahead has been filled ends with the body of the file. -/
theorem completes_of_filled {s : State} {x before : List Byte} (hrun : s.Running .encode) (hfsm : s.fsm = .searching)
    (htab : s.tabA = treeInit _ _ ∧ s.tabB = treeInit _ _) (hlook : s.Looking x 0 (min 60 (x.length - 0)))
    (hwr : s.Written before (packBits (textProgram x).bits.length (textProgram x).bits).length [] [])
    (h0 : 0 < x.length) :
    s.Completes (before ++ packBits (textProgram x).bits.length (textProgram x).bits) := by
  obtain ⟨z, _, hz⟩ := bytesBits_packBits _ (textProgram x).bits (Nat.le_mul_of_pos_left _ (by decide))
  have hbody := congrArg List.length hz
  rw [length_bytesBits, List.length_append] at hbody
  have hbits : tokensBits s.tabA s.tabB (textTokens x x.length 0) = (textProgram x).bits := by
    rw [htab.1, htab.2]; rfl
  have htabs : s.tablesOk := by
    rw [State.tablesOk, htab.1, htab.2]
    exact tablesOk_fresh s
  obtain ⟨out, z', hdone, hz', hout⟩ := State.Encoding.completes x.length 0 s []
    ⟨hrun, hfsm, htabs, hlook, [], hwr⟩ h0 (by omega) (by rw [hbits, List.length_nil]; omega)
  rw [hbits, List.nil_append] at hout
  rw [← eq_packBits hz' hout]
  exact hdone

/-- `ENCODE` sends the file of the text's tokens. -/
theorem encode_transforms {s : State} {x : List Byte} (hwin : s.win.ok) (hq : s.host.queue = [])
    (hlen : s.len.toNat = x.length) (hsrc : s.sourceReady x) (hsink : s.sinkReady (textProgram x).file.length) :
    s.transforms 0x08000000 (textProgram x).file := by
  have hword : (textProgram x).len = s.len := by
    rw [textProgram, ← hlen, BitVec.ofNat_toNat, BitVec.setWidth_eq]
  rw [TokenProgram.file_eq, hword] at hsink ⊢
  rw [List.length_append] at hsink
  obtain ⟨hrun0, hlook0, hwr0⟩ := headerSent_spec (s := { s with busy := true, waiting := false }) rfl rfl hq hwin hlen
    hsrc hsink
  obtain ⟨t, hinit, hlook, hframe⟩ := encInit_of_ready hlook0 fun k hk => hsink k (Nat.lt_add_right _ hk)
  have hrun := hrun0.lookTo hframe
  have hwr := hwr0.lookTo hframe
  have hexec : exec .encode { s with busy := false, waiting := false } = .next (endTransformStep
      ((t.setResult t.len).setFsm (if t.win.lacnt = 0 then .done else .searching))) := by
    show endStep _ _ (encInit { s with busy := true, waiting := false }) = _
    rw [hinit]
    rfl
  refine State.transforms_of_step (i := .encode) (by decide) (by decide) hexec ?_
  rw [← List.append_assoc]
  rcases Nat.eq_zero_or_pos x.length with h0 | h0
  · obtain rfl := List.length_eq_zero_iff.1 h0
    rw [if_pos (hlook.lacnt_eq_zero_iff.2 rfl), show packBits _ (textProgram []).bits = [] from rfl, ← hwr.sink]
    exact State.completes_of_done rfl hrun.waiting rfl hrun.err
  · rw [if_neg fun e => (Nat.ne_of_lt h0) (hlook.lacnt_eq_zero_iff.1 e)]
    refine completes_of_filled ((hrun.setResult _).setFsm _) rfl ?_ ((hlook.setResult _).setFsm _)
      ((hwr.setResult _).setFsm _) h0
    obtain ⟨_, _, _, rfl⟩ := hframe
    exact ⟨rfl, rfl⟩

/-- Settles O59: the one file is that of the tokens the text's own bytes determine. Every encode is a walk through the
text that sends those tokens, and every decode of the file executes them. -/
theorem transformIsLossless : Obligations.TransformIsLossless := by
  intro x hx
  obtain ⟨hlen, hwf, hout⟩ := textProgram_spec hx
  refine ⟨(textProgram x).file, fun s hw hq hl hsrc hsink => encode_transforms hw hq hl hsrc hsink,
    fun s hw hq hsrc hsink => ?_⟩
  rw [← hout]
  exact decode_transforms hwf hw hq hsrc (by rwa [hlen])

end Sys2Proof.Machine

/-! SUPPORT. The host's operation that a step takes, the fields of `STATUS` (rule R63), and the values of a reset (rule
R76). -/

namespace Sys2Proof.Machine

/-! ## The host's next operation -/

/-- The host's next operation is the step, where it need not wait for the block. -/
theorem step_of_proceeds {s : State} {op : HostOp} {rest : List HostOp} (hq : s.host.queue = op :: rest)
    (hp : s.waiting = true → proceedsWhileWaiting s.busy op = true) : step s = hostStep op s := by
  rcases step_cases s with ⟨hw, hstep⟩ | ⟨_, hnil, _⟩ | ⟨op', rest', _, hq', hstep⟩
  · rw [hstep, waitingStep, hq]
    exact if_pos (hp hw)
  · rw [hq] at hnil
    cases hnil
  · rw [hq] at hq'
    obtain ⟨rfl, _⟩ := List.cons.inj hq'
    exact hstep

theorem State.hostFree.busy_of_waiting {s : State} (h : s.hostFree) (hw : s.waiting = true) : s.busy = true :=
  h.resolve_left (by simp [hw])

/-- A read of a whole word at a multiple of 4 returns the register (rule R60). -/
theorem step_of_read {s : State} {off : BitVec 6} {rest : List HostOp} (hfree : s.hostFree)
    (hq : s.host.queue = .read .word off :: rest) (haligned : off.toNat % 4 = 0) :
    step s = .next { s with host := { queue := rest, reads := s.host.reads ++ [s.readReg off] } } := by
  have hstep : step s = .next (s.popHost.hostRead (s.readReg off)) := by
    rw [step_of_proceeds hq hfree.busy_of_waiting]
    simp only [hostStep, accessRefusal, if_pos haligned]
  rw [hstep, State.popHost, hq]
  rfl

/-- A write of a whole word at a multiple of 4 other than `CMD`'s offset is the register's own (rule R60). -/
theorem step_of_write {s : State} {off : BitVec 6} {v : Word} {rest : List HostOp} (hfree : s.hostFree)
    (hq : s.host.queue = .write .word off v :: rest) (haligned : off.toNat % 4 = 0) (hoff : off ≠ 0) :
    step s = .next (({ s with host := { s.host with queue := rest } } : State).writeReg off v) := by
  have hproceeds (hw : s.waiting = true) : proceedsWhileWaiting s.busy (.write .word off v) = true := by
    simpa [proceedsWhileWaiting, hfree.busy_of_waiting hw] using hoff
  have hstep : step s = .next (s.popHost.writeReg off v) := by
    rw [step_of_proceeds hq hproceeds]
    simp only [hostStep, accessRefusal, if_pos haligned, hostWrite, if_neg hoff]
  rw [hstep, State.popHost, hq]
  rfl

/-- Power-on reset is taken at once, also from a block that waits (rule R370). -/
theorem step_of_powerOnReset {s : State} {rest : List HostOp} (hq : s.host.queue = .powerOnReset :: rest) :
    step s = .next (powerOn { s with host := { s.host with queue := rest } }) := by
  have hstep : step s = .next (powerOn s.popHost) := step_of_proceeds hq fun _ => rfl
  rw [hstep, State.popHost, hq]
  rfl

/-! ## The fields of `STATUS` -/

/-- Every bit of `STATUS`, field by field (rule R63). -/
theorem State.status_getLsbD (s : State) (i : Nat) : s.status.getLsbD i =
    if i < 1 then (BitVec.ofBool s.busy).getLsbD i
    else if i < 2 then (BitVec.ofBool s.doneBit).getLsbD (i - 1)
    else if i < 3 then (BitVec.ofBool s.failBit).getLsbD (i - 2)
    else if i < 4 then false
    else if i < 8 then s.fsm.toBits.getLsbD (i - 4)
    else if i < 12 then s.err.toBits.getLsbD (i - 8)
    else if i < 13 then s.mode.toBits.getLsbD (i - 12)
    else false := by
  have sub_lt (a c : Nat) : i - a < c + 1 ↔ i < a + (c + 1) := by omega
  simp_rw [State.status, BitVec.getLsbD_append, Nat.sub_sub, sub_lt]
  simp

theorem State.status_busy (s : State) : s.status.getLsbD 0 = s.busy := by
  rw [State.status_getLsbD]
  simp

theorem State.status_done (s : State) : s.status.getLsbD 1 = s.doneBit := by
  rw [State.status_getLsbD]
  simp

theorem State.status_fail (s : State) : s.status.getLsbD 2 = s.failBit := by
  rw [State.status_getLsbD]
  simp

theorem State.status_reserved_low (s : State) : s.status.getLsbD 3 = false := by
  rw [State.status_getLsbD]
  simp

theorem State.status_fsm (s : State) : s.status.extractLsb' 4 4 = s.fsm.toBits := by
  ext i hi
  rw [BitVec.getElem_extractLsb', State.status_getLsbD]
  simp (disch := omega) only [if_pos, if_neg, Nat.add_sub_cancel_left, BitVec.getLsbD_eq_getElem]

theorem State.status_err (s : State) : s.status.extractLsb' 8 4 = s.err.toBits := by
  ext i hi
  rw [BitVec.getElem_extractLsb', State.status_getLsbD]
  simp (disch := omega) only [if_pos, if_neg, Nat.add_sub_cancel_left, BitVec.getLsbD_eq_getElem]

theorem State.status_mode (s : State) : s.status.getLsbD 12 = s.mode.toBits.getLsbD 0 := by
  rw [State.status_getLsbD]
  simp

theorem State.status_reserved_high (s : State) : s.status.extractLsb' 13 19 = 0#19 := by
  ext i hi
  rw [BitVec.getElem_extractLsb', State.status_getLsbD]
  simp (disch := omega) only [if_neg, BitVec.getElem_zero]

theorem Mode.toBits_getLsbD_zero (m : Mode) : m.toBits.getLsbD 0 = decide (m = .decode) := by
  cases m <;> rfl

theorem State.status_reset : State.reset.status = 0 := rfl

/-- Settles O11: each field is read off `STATUS` bit by bit, and offset 0x04 selects `STATUS` for a read and no register
for a write. -/
theorem statusHasTheFieldsOfItsRule : Obligations.StatusHasTheFieldsOfItsRule := by
  refine ⟨fun s => ⟨s.status_busy, s.status_done, s.status_fail, s.status_reserved_low, ?fsm, ?err, ?mode,
    s.status_reserved_high⟩, fun s v rest hfree hq => ?write, fun s rest hfree hq => ?read, State.status_reset⟩
  case fsm =>
    rw [s.status_fsm]
    cases s.fsm <;> rfl
  case err =>
    rw [s.status_err]
    cases s.err <;> rfl
  case mode => rw [s.status_mode, s.mode.toBits_getLsbD_zero]
  case write => exact step_of_write hfree hq rfl (by decide)
  case read => exact step_of_read hfree hq rfl

/-! ## The values of a reset -/

/-- Every element of the block but its RAMs has the value of rule R76; the ports, the host's side and whether the block
waits are not the block's. -/
def State.HasResetValues (t : State) : Prop :=
  ∃ hist la ports host waiting, t = { State.reset with
    win := { State.reset.win with hist := hist, la := la }, ports := ports, host := host, waiting := waiting }

theorem powerOn_hasResetValues (s : State) : (powerOn s).HasResetValues := ⟨_, _, _, _, _, rfl⟩

/-- `RESET` leaves `BUSY` as it is (rule R371). -/
theorem resetBlock_hasResetValues {s : State} (hbusy : s.busy = false) : (resetBlock s).HasResetValues := by
  refine ⟨s.win.hist, s.win.la, s.ports, s.host, s.waiting, ?_⟩
  rw [resetBlock, State.fresh, hbusy]
  rfl

theorem State.HasResetValues.status_eq_zero {t : State} (h : t.HasResetValues) : t.status = 0 := by
  obtain ⟨hist, la, ports, host, waiting, rfl⟩ := h
  exact State.status_reset

/-- Settles O17: what either reset leaves differs from the reset state in the RAMs and the host's side only. -/
theorem resetGivesTheResetValues : Obligations.ResetGivesTheResetValues := by
  intro s t hreset
  have hvalues : t.HasResetValues := by
    rcases hreset with ⟨rest, hq, hstep⟩ | ⟨hbusy, hexec⟩
    · rw [step_of_powerOnReset hq] at hstep
      obtain rfl := Host.Outcome.next.inj hstep
      exact powerOn_hasResetValues _
    · have hexec' : Host.Outcome.next (resetBlock s) = .next t := hexec
      obtain rfl := Host.Outcome.next.inj hexec'
      exact resetBlock_hasResetValues hbusy
  have hstatus := hvalues.status_eq_zero
  obtain ⟨hist, la, ports, host, waiting, rfl⟩ := hvalues
  exact ⟨rfl, rfl, rfl, rfl, rfl, rfl, rfl, rfl, rfl, rfl, rfl, rfl, rfl, rfl, rfl, hstatus⟩

end Sys2Proof.Machine

/-! SUPPORT. What the window gives back after an advance (rule R105). -/

namespace Sys2Proof.Machine

/-! ## The cursor and the distances -/

/-- The cursor rises by one, so a distance that rises by one names the same entry. -/
theorem cursor_add_one_sub (c : BitVec 12) (d : Nat) : c + 1 - BitVec.ofNat 12 (d + 1) = c - BitVec.ofNat 12 d := by
  rw [BitVec.ofNat_add]
  exact add_sub_add_right_eq_sub c _ 1

/-- A distance below `W` goes back to another entry than the one at the cursor, which is the one `Advance` writes. -/
theorem cursor_sub_ne {d : Nat} (h1 : 1 ≤ d) (hd : d < 4096) (c : BitVec 12) :
    (c - BitVec.ofNat 12 d).toNat ≠ c.toNat := by
  rw [BitVec.toNat_sub, BitVec.toNat_ofNat]
  omega

/-! ## Reads after an advance -/

/-- Distance `d + 1` after an advance reads the entry that distance `d` named before it. -/
theorem histByte_advance_add_one (s : State) (b : Byte) (d : Nat) :
    histByte (advance b s) (d + 1) =
      (s.win.hist.write s.win.wcur.toNat b).read (s.win.wcur - BitVec.ofNat 12 d).toNat := by
  rw [histByte, State.advance_win, Window.advance_hist, Window.advance_wcur, cursor_add_one_sub]

theorem histByte_advance_newest {s : State} (hwf : s.win.hist.wf Config.windowSize = true) (b : Byte) :
    histByte (advance b s) 1 = b := by
  rw [histByte_advance_add_one s b 0, BitVec.sub_zero]
  exact Memory.read_write_same hwf _ b

theorem histByte_advance_earlier {s : State} (hwf : s.win.hist.wf Config.windowSize = true) (b : Byte) {d : Nat}
    (h1 : 1 ≤ d) (hd : d < 4096) : histByte (advance b s) (d + 1) = histByte s d := by
  rw [histByte_advance_add_one]
  exact Memory.read_write_other hwf b (cursor_sub_ne h1 hd s.win.wcur)

/-- A filled distance below `W`, or 0, is one that `ByteAt` admits once it has risen by one. -/
theorem byteAt_advance_add_one {s : State} (b : Byte) {d : Nat} (hd : d < 4096) (hfill : d ≤ s.win.wfill.toNat) :
    byteAt (d + 1) (advance b s) = .ok (histByte (advance b s) (d + 1)) (advance b s) := by
  have hrange : 1 ≤ d + 1 ∧ d + 1 ≤ (advance b s).win.wfill.toNat := by
    rw [State.advance_win, Window.advance_wfill, BitVec.toNat_ofNat, Config.windowSize]
    omega
  rcases byteAt_cases (d + 1) (advance b s) with ⟨_, _, hok⟩ | ⟨hbad, _⟩
  · exact hok
  · exact absurd hrange hbad

/-- Settles O29: the advance writes the entry at the cursor, which distance 1 then names, and every other distance names
the entry that the distance one below it named before. -/
theorem windowReadsWhatWasAdvanced : Obligations.WindowReadsWhatWasAdvanced := by
  intro s b ⟨hwf, _⟩
  refine ⟨histByte_advance_newest hwf b, ?newest, fun d => histByte_advance_earlier hwf b, fun d h1 hd hfill => ?earlier⟩
  case newest =>
    have h := byteAt_advance_add_one (d := 0) b (by decide) (Nat.zero_le s.win.wfill.toNat)
    rwa [histByte_advance_newest hwf b] at h
  case earlier => rw [byteAt_advance_add_one b hd hfill, histByte_advance_earlier hwf b h1 hd]

end Sys2Proof.Machine

/-! SUPPORT. The decoder opcode by opcode (rule R122 to rule R124), and the errors of a word that is no command and of an
operand outside its range (rule R125). -/

namespace Sys2Proof

/-! ## The format of an opcode -/

/-- The 'uses' column of the opcode map (rule R123), nothing for a reserved opcode. -/
def opFormat : Nat → Option OpFormat
  | 0x00 | 0x01 | 0x02 | 0x03 | 0x04 | 0x05 | 0x06 | 0x07 | 0x0A | 0x12 | 0x15 => some ⟨false, false, 0⟩
  | 0x08 => some ⟨false, true, 20⟩
  | 0x09 => some ⟨false, true, 0⟩
  | 0x10 => some ⟨false, false, 8⟩
  | 0x11 => some ⟨false, false, 13⟩
  | 0x13 | 0x14 => some ⟨false, false, 6⟩
  | 0x19 | 0x1B => some ⟨true, false, 0⟩
  | 0x18 | 0x1A | 0x1D => some ⟨true, false, 9⟩
  | 0x1C => some ⟨true, false, 10⟩
  | _ => none

/-- A word of a reserved opcode is rejected, and any other is decoded under the format checks of its opcode. -/
theorem decode_cases (w : Word) :
    (opFormat (opField w).toNat = none ∧ decode w = .error .reservedOpcode) ∨
    ∃ f i, opFormat (opField w).toNat = some f ∧ decode w = checked f w i := by
  unfold decode
  split
  case h_24 => exact .inl ⟨by simp [opFormat, *], rfl⟩
  all_goals next hop => exact .inr ⟨_, _, by rw [hop]; rfl, rfl⟩

theorem decode_of_opFormat {w : Word} {f : OpFormat} (h : opFormat (opField w).toNat = some f) :
    ∃ i, decode w = checked f w i := by
  rcases decode_cases w with ⟨hnone, _⟩ | ⟨f', i, hf', hdecode⟩
  · cases h.symm.trans hnone
  · cases h.symm.trans hf'
    exact ⟨i, hdecode⟩

theorem decode_of_opFormat_eq_none {w : Word} (h : opFormat (opField w).toNat = none) :
    decode w = .error .reservedOpcode := by
  rcases decode_cases w with ⟨_, hdecode⟩ | ⟨f, _, hf, _⟩
  · exact hdecode
  · cases h.symm.trans hf

/-- The reserved ranges of rule R124. -/
theorem opFormat_of_reserved (op : BitVec 6)
    (h : (0x0B ≤ op.toNat ∧ op.toNat ≤ 0x0F) ∨ (0x16 ≤ op.toNat ∧ op.toNat ≤ 0x17) ∨ 0x1E ≤ op.toNat) :
    opFormat op.toNat = none := by
  revert op
  decide

/-! ## The format checks -/

/-- The words that pass the format checks of rule R122. The check of the bit count excludes nothing more where `CNT` is
unused, and so must be 0. -/
theorem formatReject_eq_none_iff (f : OpFormat) (w : Word) :
    formatReject f w = none ↔
      (f.usesT = false → tField w = 0) ∧ (f.usesCnt = false → cntField w = 0) ∧
        (immField w).toNat < 2 ^ f.immBits ∧ (cntField w).toNat ≤ 20 := by
  have himm (hlt : (immField w).toNat < 2 ^ f.immBits) (h0 : f.immBits = 0) : immField w = 0 := by
    rw [h0, pow_zero, Nat.lt_one_iff] at hlt
    exact BitVec.eq_of_toNat_eq hlt
  have hcount (h0 : cntField w = 0) : (cntField w).toNat ≤ 20 := by simp [h0]
  simp only [formatReject, ite_eq_iff, reduceCtorEq, and_false, false_or, and_true, Bool.not_eq_true, not_and, not_le,
    not_lt, ne_eq, not_not]
  constructor
  · rintro ⟨ht, hcnt, _, hlt, habove⟩
    refine ⟨ht, hcnt, hlt, ?_⟩
    cases hused : f.usesCnt with
    | true => exact habove hused
    | false => exact hcount (hcnt hused)
  · rintro ⟨ht, hcnt, hlt, hle⟩
    exact ⟨ht, hcnt, himm hlt, hlt, fun _ => hle⟩

theorem checked_of_formatReject_ne_none {f : OpFormat} {w : Word} (h : formatReject f w ≠ none) (i : Instr) :
    ∃ r, checked f w i = .error r := by
  obtain ⟨r, hr⟩ := Option.ne_none_iff_exists'.1 h
  exact ⟨r, by rw [checked, hr]⟩

/-- A word is the packing of its fields (rule R120). -/
theorem packWord_fields (w : Word) : packWord (opField w) (tField w) (cntField w) (immField w) = w := by
  unfold packWord opField tField cntField immField
  rw [BitVec.extractLsb'_append_extractLsb'_eq_extractLsb' (by rfl),
    BitVec.extractLsb'_append_extractLsb'_eq_extractLsb' (by rfl),
    BitVec.extractLsb'_append_extractLsb'_eq_extractLsb' (by rfl)]
  exact BitVec.extractLsb'_eq_self

/-- No field is left to hold a bit of a word that passes the checks of `NOP`. -/
theorem eq_zero_of_formatReject {w : Word} (hop : (opField w).toNat = 0)
    (h : formatReject ⟨false, false, 0⟩ w = none) : w = 0 := by
  obtain ⟨ht, hcnt, himm, _⟩ := (formatReject_eq_none_iff _ w).1 h
  have hop' : opField w = 0 := BitVec.eq_of_toNat_eq hop
  have himm' : immField w = 0 := BitVec.eq_of_toNat_eq (Nat.lt_one_iff.1 himm)
  rw [← packWord_fields w, hop', ht rfl, hcnt rfl, himm']
  rfl

end Sys2Proof

namespace Sys2Proof.Machine

/-! ## A word that is no command -/

theorem accepted_raise {s : State} (hs : s.fsm ≠ .failed) (e : ErrCode) (t : State) :
    accepted s (.raise e t) = .next (t.takeError e) := by
  rw [accepted_of_ne _ hs, finish_raise]

/-- A word that the decoder rejects raises `ILLEGAL_CMD` (rule R345, checks 3 and 4). -/
theorem issueWord_of_decode_error {w : Word} {s : State} (hs : s.fsm ≠ .failed) (h : ∃ r, decode w = .error r) :
    issueWord w s = .next (s.takeError .illegalCmd) := by
  obtain ⟨r, hr⟩ := h
  rw [issueWord, hr]
  exact accepted_raise hs _ s

/-- A word whose opcode has a format that the word does not meet (rule R122). -/
theorem issueWord_of_formatReject {w : Word} {s : State} {f : OpFormat} (hs : s.fsm ≠ .failed)
    (hf : opFormat (opField w).toNat = some f) (h : formatReject f w ≠ none) :
    issueWord w s = .next (s.takeError .illegalCmd) := by
  obtain ⟨i, hi⟩ := decode_of_opFormat hf
  exact issueWord_of_decode_error hs (hi ▸ checked_of_formatReject_ne_none h i)

/-- Settles O4: a reserved opcode has no format, and the one word that meets the format of `OP` = 0 is 0. -/
theorem reservedOpcodesRaiseIllegalCmd : Obligations.ReservedOpcodesRaiseIllegalCmd := by
  intro w s hs hreserved
  have hcases : opFormat (opField w).toNat = none ∨ ((opField w).toNat = 0 ∧ w ≠ 0) := by
    rcases hreserved with h | h | h | h
    · exact .inl (opFormat_of_reserved _ (.inl h))
    · exact .inl (opFormat_of_reserved _ (.inr (.inl h)))
    · exact .inl (opFormat_of_reserved _ (.inr (.inr h)))
    · exact .inr h
  rcases hcases with hnone | ⟨hop, hw⟩
  · exact issueWord_of_decode_error hs ⟨_, decode_of_opFormat_eq_none hnone⟩
  · exact issueWord_of_formatReject hs (congrArg opFormat hop) fun h => hw (eq_zero_of_formatReject hop h)

/-- Settles O5: the rows are the formats of the opcodes, and each clause is one that a word which passes excludes. -/
theorem formatChecksRaiseIllegalCmd : Obligations.FormatChecksRaiseIllegalCmd := by
  intro op usesT usesCnt immBits w s hrow hop hs hbad
  have hformat : opFormat op = some ⟨usesT, usesCnt, immBits⟩ :=
    (show ∀ row ∈ _, opFormat row.1 = some ⟨row.2.1, row.2.2.1, row.2.2.2⟩ by decide) _ hrow
  refine issueWord_of_formatReject hs (hop ▸ hformat) fun hpass => ?_
  obtain ⟨ht, hcnt, himm, hcount⟩ := (formatReject_eq_none_iff _ w).1 hpass
  rcases hbad with ⟨hunused, hne⟩ | ⟨hunused, hne⟩ | hwide | ⟨_, habove⟩
  · exact hne (ht hunused)
  · exact hne (hcnt hunused)
  · exact absurd himm (Nat.not_lt.2 hwide)
  · exact absurd hcount (Nat.not_le.2 habove)

/-! ## An operand outside its range -/

theorem symbolOk_eq_false {t : TableSel} {x : BitVec 9} (ha : t = .a → 314 ≤ x.toNat) (hb : t = .b → 64 ≤ x.toNat) :
    symbolOk t x = false := by
  cases t with
  | a => exact decide_eq_false (Nat.not_lt.2 (ha rfl))
  | b => exact decide_eq_false (Nat.not_lt.2 (hb rfl))

theorem nodeOk_eq_false {t : TableSel} {k : BitVec 10} (ha : t = .a → 627 ≤ k.toNat) (hb : t = .b → 127 ≤ k.toNat) :
    nodeOk t k = false := by
  cases t with
  | a => exact decide_eq_false (Nat.not_lt.2 (ha rfl))
  | b => exact decide_eq_false (Nat.not_lt.2 (hb rfl))

/-- An operand that starts at 1 and is 0 or above its limit. -/
theorem not_between_of_zero_or_above {n limit : Nat} {x : BitVec n} (h : x = 0 ∨ limit < x.toNat) :
    ¬(1 ≤ x.toNat ∧ x.toNat ≤ limit) := by
  rcases h with rfl | h
  · simp
  · omega

/-- The value check of a command fails (rule R125), whatever its pseudocode goes on to do. -/
theorem accepted_checkOperand_of_false {s : State} {ok : Bool} (hs : s.fsm ≠ .failed) (hok : ok = false)
    (run : Res Unit) : accepted s (checkOperand ok s run) = .next (s.takeError .invariant) := by
  rw [hok]
  exact accepted_raise hs _ s

/-- Settles O28: in each command the operand's check fails before any write. -/
theorem operandOutOfRangeRaisesInvariant : Obligations.OperandOutOfRangeRaisesInvariant := by
  intro s hs
  refine ⟨fun d hd => ?byteat, fun k hk => ?lapeek, fun k hk => ?lacons, fun t x ha hb => ?symbols,
    fun t k ha hb => ?rdnode⟩
  case byteat =>
    rcases byteAt_cases d.toNat s with ⟨hmin, hmax, _⟩ | ⟨_, hraise⟩
    · exact absurd ⟨hmin, hmax⟩ (not_between_of_zero_or_above hd)
    · rw [exec, execByteat, hraise, Res.andThen_raise]
      exact accepted_raise hs _ s
  case lapeek => exact accepted_checkOperand_of_false hs (decide_eq_false (Nat.not_lt.2 hk)) _
  case lacons =>
    have hok : consumeOk s k.toNat = false := decide_eq_false (not_between_of_zero_or_above hk)
    rw [exec, execLacons, consume, hok]
    exact accepted_raise hs _ s
  case symbols =>
    have hok := symbolOk_eq_false ha hb
    exact ⟨accepted_checkOperand_of_false hs hok _, accepted_checkOperand_of_false hs hok _,
      accepted_checkOperand_of_false hs hok _⟩
  case rdnode => exact accepted_checkOperand_of_false hs (nodeOk_eq_false ha hb) _

end Sys2Proof.Machine

/-! SUPPORT. Writing the output, read backwards: what bits that have been written without an error have left (rule R173). -/

namespace Sys2Proof.Machine

/-- A byte is sent without an error only where the sink accepts it. -/
theorem sinkWrite_eq_ok_iff {b : Byte} {s t : State} :
    sinkWrite b s = .ok () t ↔ s.ports.sinkAt 0 = some .ok ∧ t = s.delivered [b] := by
  constructor
  · intro h
    have haccepts : s.ports.sinkAt 0 = some .ok := by
      rw [← Ports.nextSink_eq]
      rcases sinkWrite_cases b s with ⟨hnext, _⟩ | ⟨_, hraise⟩ | ⟨_, hwaits⟩
      · exact hnext
      · cases hraise.symm.trans h
      · cases hwaits.symm.trans h
    rw [sinkWrite_of_ok haccepts] at h
    exact ⟨haccepts, (Res.ok.inj h).2.symm⟩
  · rintro ⟨haccepts, rfl⟩
    exact sinkWrite_of_ok haccepts

/-! ## Bits -/

/-- A bit that fills a byte is written without an error only where the sink accepts the byte (rule R170). -/
theorem sinkAt_of_writeBit_eq_ok {b : Bool} {s t : State} (hfull : s.bits.obits.toNat = 7)
    (h : writeBit b s = .ok () t) : s.ports.sinkAt 0 = some .ok := by
  rcases writeBit_cases b s with ⟨hlt, _⟩ | ⟨_, hsend⟩
  · exact absurd hfull (Nat.ne_of_lt hlt)
  · exact (sinkWrite_eq_ok_iff.1 (hsend.symm.trans h)).1

/-- A bit written without an error joins those before it, whatever is known of the sink: a byte it fills is accepted. -/
theorem State.Written.of_writeBit {s t : State} {before out : List Byte} {N : Nat} {bits : List Bool} {b : Bool}
    (h : s.Written before N bits out) (hok : Machine.writeBit b s = .ok () t) :
    ∃ out', t.Written before 0 (bits ++ [b]) out' ∧ s.WroteTo t := by
  have hlen := h.length_eq
  have hready : s.Written before ((bits.length + 1) / 8) bits out := by
    refine { h with accepts := fun k hk => ?_ }
    obtain rfl : k = 0 := by omega
    exact sinkAt_of_writeBit_eq_ok (by omega) hok
  obtain ⟨u, out', hu, hwritten, hframe⟩ := hready.writeBit (b := b) (le_refl _)
  obtain rfl : u = t := (Res.ok.inj (hu.symm.trans hok)).2
  exact ⟨out', { hwritten with accepts := fun k hk => absurd hk (Nat.not_lt_zero _) }, hframe⟩

/-- Bits written without an error join those before them. -/
theorem State.Written.of_writeBitList {before : List Byte} : ∀ (xs : List Bool) {s t : State} {bits : List Bool}
    {out : List Byte}, s.Written before 0 bits out → Machine.writeBitList xs s = .ok () t →
      ∃ out', t.Written before 0 (bits ++ xs) out' ∧ s.WroteTo t
  | [], s, t, bits, out, h, hok => by
    obtain rfl : s = t := (Res.ok.inj hok).2
    exact ⟨out, by rwa [List.append_nil], State.WroteTo.refl s⟩
  | x :: xs, s, t, bits, out, h, hok => by
    rw [Machine.writeBitList, Res.andThen_eq_ok] at hok
    obtain ⟨_, s1, hx, hxs⟩ := hok
    obtain ⟨out1, hw1, hf1⟩ := h.of_writeBit hx
    obtain ⟨out2, hw2, hf2⟩ := State.Written.of_writeBitList xs hw1 hxs
    rw [List.append_assoc] at hw2
    exact ⟨out2, hw2, hf1.trans hf2⟩

/-! ## Fields -/

theorem writeBitList_append (ys : List Bool) : ∀ (xs : List Bool) (s : State),
    writeBitList (xs ++ ys) s = (writeBitList xs s).andThen fun _ s1 => writeBitList ys s1
  | [], _ => rfl
  | x :: xs, s => by
    rw [List.cons_append, writeBitList, writeBitList, Res.andThen_assoc]
    simp only [writeBitList_append ys xs]

/-- Fields written one after another are their bits written one after another. -/
theorem foldl_writeBits : ∀ (fields : List (Nat × Nat)) (r : Res Unit),
    fields.foldl (fun r f => r.andThen fun _ x => writeBits f.1 f.2 x) r =
      r.andThen fun _ x => writeBitList (fields.flatMap fun f => fieldBits f.1 f.2) x
  | [], r => by cases r <;> rfl
  | f :: fs, r => by
    rw [List.foldl_cons, foldl_writeBits fs, Res.andThen_assoc]
    simp only [List.flatMap_cons, writeBitList_append, writeBits]

/-! ## The account -/

/-- Nothing has been written yet where no bit is pending. -/
theorem State.Written.of_empty {s : State} (hbuf : s.bits.obuf = 0) (hbits : s.bits.obits = 0) :
    s.Written s.ports.sink 0 [] [] where
  small := by simp [hbuf, hbits]
  sink := (List.append_nil _).symm
  bits := by simp [BitChannel.pending, hbits, fieldBits]
  accepts := fun _ hk => absurd hk (Nat.not_lt_zero _)

section

variable {s : State} {before out : List Byte} {N : Nat} {bits : List Bool} (h : s.Written before N bits out)
include h

/-- Every 8 bits written are a byte sent. -/
theorem State.Written.length_out : out.length = bits.length / 8 := by
  have := h.length_eq
  omega

theorem State.Written.obits_eq : s.bits.obits.toNat = bits.length % 8 := by
  have := h.length_eq
  omega

/-- The pending bits are those after the last byte sent. -/
theorem State.Written.pending_eq : s.bits.pending = bits.drop (8 * (bits.length / 8)) := by
  rw [← h.length_out, ← length_bytesBits, ← h.bits, List.drop_left]

end

/-- `OUTBYTES` has counted the bytes sent (rule R71). -/
theorem State.Written.outbytes_eq {s t : State} {N : Nat} {bits : List Bool} {out : List Byte}
    (h : t.Written s.ports.sink N bits out) (hframe : s.WroteTo t) :
    t.outbytes = s.outbytes + BitVec.ofNat 32 (bits.length / 8) := by
  rw [← h.length_out]
  obtain ⟨c, bytes, rfl⟩ := hframe
  obtain rfl : bytes = out := List.append_cancel_left h.sink
  rfl

/-- A flush without an error counts one byte where bits are pending (rule R171). -/
theorem outbytes_of_flushBits {s t : State} (h : flushBits s = .ok () t) :
    t.outbytes = s.outbytes + if s.bits.obits = 0 then 0 else 1 := by
  rcases flushBits_cases s with ⟨hzero, hflush⟩ | ⟨hpos, hflush⟩
  · obtain rfl : s = t := (Res.ok.inj (hflush.symm.trans h)).2
    have hnone : s.bits.obits = 0 := BitVec.eq_of_toNat_eq hzero
    rw [if_pos hnone]
    exact (BitVec.add_zero _).symm
  · obtain ⟨_, rfl⟩ := sinkWrite_eq_ok_iff.1 (hflush.symm.trans h)
    have hsome : s.bits.obits ≠ 0 := fun hnone => by simp [hnone] at hpos
    rw [if_neg hsome]
    rfl

/-- Settles O21: the fields are one sequence of bits, and what those bits leave is kept bit by bit; the sink, and with it
`OUTBYTES`, has grown by the bytes they fill. -/
theorem outputAccounting : Obligations.OutputAccounting := by
  intro s s1 fields hbuf hbits hrun
  rw [foldl_writeBits, Res.andThen_ok] at hrun
  obtain ⟨out, hwritten, hframe⟩ := (State.Written.of_empty hbuf hbits).of_writeBitList _ hrun
  rw [List.nil_append] at hwritten
  exact ⟨hwritten.outbytes_eq hframe, hwritten.obits_eq, hwritten.pending_eq, fun _ => outbytes_of_flushBits⟩

end Sys2Proof.Machine

/-! SUPPORT. The Match Finder: where the loop of `MatchLen` stops (rule R221), and which of the distances `FindMatch`
keeps (rule R220, rule R222). -/

namespace Sys2Proof.Machine

/-! ## The loop of `MatchLen` -/

/-- The entry `d - l` before the cursor, in the arithmetic of the counters (rule R192). -/
theorem histByte_sub_eq_read (s : State) {d l : Nat} (hl : l < d) (hd : d ≤ s.win.wfill.toNat) :
    histByte s (d - l) = s.win.hist.read ((s.win.wcur.toNat + 8192 + l - d) % 4096) := by
  have hfill := s.win.wfill.isLt
  have hcursor : (s.win.wcur - BitVec.ofNat 12 (d - l)).toNat = (s.win.wcur.toNat + 8192 + l - d) % 4096 := by
    rw [BitVec.toNat_sub, BitVec.toNat_ofNat]
    omega
  rw [histByte, hcursor]

/-- The byte of the candidate copy, in the window or in the lookahead. -/
theorem copySource_eq_read (s : State) {d : Nat} (hd : d ≤ s.win.wfill.toNat) (l : Nat) :
    copySource s d l =
      if l < d then s.win.hist.read ((s.win.wcur.toNat + 8192 + l - d) % 4096) else s.win.la.read (l - d) := by
  rw [copySource]
  by_cases hl : l < d
  · rw [if_pos hl, if_pos hl, histByte_sub_eq_read s hl hd]
  · rw [if_neg hl, if_neg hl, laByte]

/-- The loop passes only equal bytes, and it stops at the first unequal one or at its bound. -/
theorem matchFrom_spec (s : State) (d : Nat) : ∀ m l, matchFrom s d m l ≤ l + m ∧
    (∀ i, l ≤ i → i < matchFrom s d m l → copySource s d i = laByte s i) ∧
    (matchFrom s d m l < l + m → copySource s d (matchFrom s d m l) ≠ laByte s (matchFrom s d m l))
  | 0, l => ⟨le_refl l, fun _ hi hi' => absurd hi' (Nat.not_lt.2 hi), fun h => absurd h (Nat.lt_irrefl l)⟩
  | m + 1, l => by
    rw [matchFrom]
    by_cases heq : copySource s d l = laByte s l
    · obtain ⟨hle, hequal, hstop⟩ := matchFrom_spec s d m (l + 1)
      rw [if_pos heq]
      refine ⟨by omega, fun i hi hi' => ?_, fun h => hstop (by omega)⟩
      rcases Nat.eq_or_lt_of_le hi with rfl | hi
      · exact heq
      · exact hequal i hi hi'
    · rw [if_neg heq]
      exact ⟨Nat.le_add_right l _, fun _ hi hi' => absurd hi' (Nat.not_lt.2 hi), fun _ => heq⟩

theorem matchLen_spec (s : State) (d : Nat) : matchLen s d ≤ min 60 s.win.lacnt.toNat ∧
    (∀ l, l < matchLen s d → copySource s d l = laByte s l) ∧
    (matchLen s d < min 60 s.win.lacnt.toNat → copySource s d (matchLen s d) ≠ laByte s (matchLen s d)) := by
  obtain ⟨hle, hequal, hstop⟩ := matchFrom_spec s d (min Config.maxLen s.win.lacnt.toNat) 0
  rw [Nat.zero_add] at hle hstop
  exact ⟨hle, fun l => hequal l (Nat.zero_le l), hstop⟩

/-- Settles O33: the loop's outcome, with the source of the copy read from the window or the lookahead. -/
theorem matchLenCountsEqualBytes : Obligations.MatchLenCountsEqualBytes := by
  intro s d _ hd
  obtain ⟨hle, hequal, hstop⟩ := matchLen_spec s d
  refine ⟨hle, fun l hl => ?equal, fun hlt => ?stop⟩
  case equal => exact (copySource_eq_read s hd l).symm.trans (hequal l hl)
  case stop => exact fun heq => hstop hlt ((copySource_eq_read s hd _).trans heq)

/-! ## The best of the distances -/

/-- The longest of the matches at the distances `1..n`, and the nearest of that length (rule R220, rule R222); no match
yet where the length is 0. -/
structure State.IsBestMatch (s : State) (n : Nat) (best : MatchRef) : Prop where
  within : best.dist ≤ n
  attained : best.len = 0 ∨ 1 ≤ best.dist ∧ best.len = matchLen s best.dist
  longest : ∀ d, 1 ≤ d → d ≤ n → matchLen s d ≤ best.len
  nearest : ∀ d, 1 ≤ d → d ≤ n → matchLen s d = best.len → best.dist ≤ d

theorem State.IsBestMatch.zero (s : State) : s.IsBestMatch 0 ⟨0, 0⟩ where
  within := le_refl 0
  attained := Or.inl rfl
  longest := fun _ h1 hd => absurd (h1.trans hd) (by decide)
  nearest := fun d _ _ _ => Nat.zero_le d

/-- One turn of `FindMatch` admits the next distance: a longer match there is the best so far, any other leaves the best
as it was, which is nearer. -/
theorem State.IsBestMatch.betterMatch {s : State} {n : Nat} {best : MatchRef} (h : s.IsBestMatch n best) :
    s.IsBestMatch (n + 1) (Machine.betterMatch s best (n + 1)) := by
  rw [Machine.betterMatch]
  by_cases hlt : best.len < matchLen s (n + 1)
  · rw [if_pos hlt]
    refine ⟨le_refl _, Or.inr ⟨Nat.le_add_left 1 n, rfl⟩, fun d h1 hd => ?_, fun d h1 hd heq => ?_⟩
    · rcases Nat.le_add_one_iff.1 hd with hd | rfl
      · exact (h.longest d h1 hd).trans hlt.le
      · exact le_refl _
    · rcases Nat.le_add_one_iff.1 hd with hd | rfl
      · exact absurd heq ((h.longest d h1 hd).trans_lt hlt).ne
      · exact le_refl _
  · rw [if_neg hlt]
    refine ⟨h.within.trans n.le_succ, h.attained, fun d h1 hd => ?_, fun d h1 hd heq => ?_⟩
    · rcases Nat.le_add_one_iff.1 hd with hd | rfl
      · exact h.longest d h1 hd
      · exact Nat.le_of_not_lt hlt
    · rcases Nat.le_add_one_iff.1 hd with hd | rfl
      · exact h.nearest d h1 hd heq
      · exact h.within.trans n.le_succ

/-- `FindMatch` scans the distances nearest first. -/
theorem isBestMatch_bestMatch (s : State) : ∀ n, s.IsBestMatch n (bestMatch s n)
  | 0 => State.IsBestMatch.zero s
  | n + 1 => by
    have hturn : bestMatch s (n + 1) = betterMatch s (bestMatch s n) (n + 1) := by
      rw [bestMatch, List.range'_1_concat, List.foldl_append, Nat.add_comm 1 n, List.foldl_cons, List.foldl_nil,
        bestMatch]
    rw [hturn]
    exact (isBestMatch_bestMatch s n).betterMatch

/-- The longest match and the nearest of that length is the one that is found: no other is both. -/
theorem State.IsBestMatch.eq_of_longest_nearest {s : State} {n d : Nat} {best : MatchRef} (h : s.IsBestMatch n best)
    (h1 : 1 ≤ d) (hd : d ≤ n) (hpos : 0 < matchLen s d)
    (hbest : ∀ d', 1 ≤ d' → d' ≤ n → matchLen s d' ≤ matchLen s d ∧ (matchLen s d' = matchLen s d → d ≤ d')) :
    best = ⟨d, matchLen s d⟩ := by
  have hge := h.longest d h1 hd
  obtain ⟨hdist, hlen⟩ := h.attained.resolve_left (by omega)
  obtain ⟨hle, hnear⟩ := hbest best.dist hdist h.within
  rw [← hlen] at hle hnear
  have heq : best.len = matchLen s d := le_antisymm hle hge
  have hsame : best.dist = d := le_antisymm (h.nearest d h1 hd heq.symm) (hnear heq)
  rw [← hsame, ← hlen]

/-! ## What `FindMatch` answers -/

theorem findMatch_eq_some {s : State} {d : Nat} (h1 : 1 ≤ d) (hd : d ≤ s.win.wfill.toNat) (hmin : 3 ≤ matchLen s d)
    (hbest : ∀ d', 1 ≤ d' → d' ≤ s.win.wfill.toNat →
      matchLen s d' ≤ matchLen s d ∧ (matchLen s d' = matchLen s d → d ≤ d')) :
    findMatch s = some ⟨d, matchLen s d⟩ := by
  have hfound := (isBestMatch_bestMatch s s.win.wfill.toNat).eq_of_longest_nearest h1 hd (by omega) hbest
  rw [findMatch, hfound]
  exact if_pos hmin

theorem findMatch_eq_none {s : State} (hshort : ∀ d, 1 ≤ d → d ≤ s.win.wfill.toNat → matchLen s d < 3) :
    findMatch s = none := by
  obtain ⟨hwithin, hattained, _, _⟩ := isBestMatch_bestMatch s s.win.wfill.toNat
  have hlen : (bestMatch s s.win.wfill.toNat).len < 3 := by
    rcases hattained with hzero | ⟨hdist, hlen⟩
    · omega
    · exact hlen ▸ hshort _ hdist hwithin
  exact if_neg (Nat.not_le.2 hlen)

/-! ## `FINDM` -/

/-- Outside `FAILED`, `FINDM` writes the descriptor of what `FindMatch` answers, and nothing else (rule R224). -/
theorem exec_findm_of_ne {s : State} (hs : s.fsm ≠ .failed) :
    exec .findm s = .next { s with result := findDesc (findMatch s) } := by
  rw [exec, execFindm, accepted_of_ne _ hs, finish_ok, State.setResult]

/-- The fields of a match descriptor hold a length and a distance that fit them (rule R131). -/
theorem matchDesc_ofNat {len dist : Nat} (hlen : len < 64) (hdist : dist < 8192) :
    matchDesc (BitVec.ofNat 6 len) (BitVec.ofNat 13 dist) =
      0xC0000000 ||| BitVec.ofNat 32 len <<< 24 ||| BitVec.ofNat 32 dist := by
  rw [matchDesc, BitVec.setWidth_ofNat_of_le_of_lt (by decide) hlen,
    BitVec.setWidth_ofNat_of_le_of_lt (by decide) hdist]

/-- Settles O34: the distance that is longest and nearest is the one the scan ends with; where every length is below
`MINLEN`, so is that of the best. -/
theorem findmPrefersLongestThenNearest : Obligations.FindmPrefersLongestThenNearest := by
  intro s hs _
  refine ⟨fun d h1 hd hmin hbest => ?found, fun hshort => ?none⟩
  case found =>
    have hlen : matchLen s d ≤ min 60 s.win.lacnt.toNat := (matchLen_spec s d).1
    have hfill := s.win.wfill.isLt
    have hdesc := matchDesc_ofNat (len := matchLen s d) (dist := d) (by omega) (by omega)
    rw [exec_findm_of_ne hs, findMatch_eq_some h1 hd hmin hbest, findDesc, hdesc]
  case none => rw [exec_findm_of_ne hs, findMatch_eq_none hshort, findDesc]

end Sys2Proof.Machine

/-! SUPPORT. The entries of the initial tree (rule R241), from its links and from the invariants it meets (rule R242). -/

namespace Sys2Proof.Machine

/-! ## The leaves -/

section
variable {n w : Nat}

theorem freqAt_treeInit_leaf (hf : n ≤ Config.maxFreq) {i : Nat} (hi : i < n) : (treeInit n w).freqAt i = 1 := by
  have hsum : (List.replicate n 1).sum < 2 ^ 16 := by
    simp only [Config.maxFreq] at hf
    rw [List.sum_replicate, smul_eq_mul]
    omega
  rw [treeInit_eq_treeWith, freqAt_treeWith List.length_replicate (by omega)
    (fun a ha => (List.eq_of_mem_replicate ha).ge) hsum (by simp only [nodeCount]; omega), nodeFreqs,
    List.getD_append _ _ _ _ (by rwa [List.length_replicate]), List.getD_replicate _ hi]

variable (hn : 2 ≤ n) (hw : 3 * n - 1 ≤ 2 ^ w)
include hn hw

theorem sonAt_treeInit_leaf {i : Nat} (hi : i < n) : (treeInit n w).sonAt i = i + nodeCount n := by
  rw [sonAt_treeInit (by omega) hw (by simp only [nodeCount]; omega), if_pos hi]

/-- The leaves are the nodes below `n`. -/
theorem leafNodes_treeInit : (treeInit n w).leafNodes = Finset.range n := by
  have hT : nodeCount n = 2 * n - 1 := rfl
  ext k
  rw [CodeTable.mem_leafNodes, Finset.mem_range]
  constructor
  · rintro ⟨hk, hs⟩
    by_contra hkn
    rw [sonAt_treeInit (by omega) hw hk, if_neg hkn] at hs
    omega
  · intro hk
    rw [sonAt_treeInit_leaf hn hw hk]
    omega

/-! ## The internal nodes -/

theorem sonAt_treeInit_internal {q : Nat} (hq : q < n - 1) : (treeInit n w).sonAt (n + q) = 2 * q := by
  rw [sonAt_treeInit (by omega) hw (by simp only [nodeCount]; omega), if_neg (by omega), Nat.add_sub_cancel_left]

/-- Both nodes of a pair name the internal node that pairs them. -/
theorem prntAt_treeInit_pair {q : Nat} (hq : q < n - 1) :
    (treeInit n w).prntAt (2 * q) = n + q ∧ (treeInit n w).prntAt (2 * q + 1) = n + q := by
  have hR : rootNode n = 2 * n - 2 := rfl
  rw [prntAt_treeInit (by omega) hw (by omega), prntAt_treeInit (by omega) hw (by omega)]
  omega

variable (hf : n ≤ Config.maxFreq)
include hf

/-- The initial tree is a tree whose frequencies weigh it (rule R242). -/
theorem linked_weighed_treeInit : (treeInit n w).Linked ∧ (treeInit n w).Weighed (nodeCount n) := by
  obtain ⟨hlinked, hweighed, _⟩ := (CodeTable.wf_iff (by omega) _).1 (wf_treeInit hn hw hf)
  exact ⟨hlinked, hweighed⟩

theorem freqAt_treeInit_internal {q : Nat} (hq : q < n - 1) :
    (treeInit n w).freqAt (n + q) = (treeInit n w).freqAt (2 * q) + (treeInit n w).freqAt (2 * q + 1) := by
  have hT : nodeCount n = 2 * n - 1 := rfl
  have hson := sonAt_treeInit_internal hn hw hq
  have hsum := (linked_weighed_treeInit hn hw hf).2.summed_of_ne (k := n + q) (by omega) (by omega) (by omega)
  rw [← hsum, hson]

/-- The root weighs as much as the `n` leaves together. -/
theorem freqAt_treeInit_root : (treeInit n w).freqAt (rootNode n) = n := by
  obtain ⟨hlinked, hweighed⟩ := linked_weighed_treeInit hn hw hf
  calc (treeInit n w).freqAt (rootNode n)
      = ∑ i ∈ (treeInit n w).leafNodes, (treeInit n w).freqAt i := (hlinked.sum_leafNodes hweighed (by omega)).symm
    _ = ∑ i ∈ Finset.range n, 1 := by
      rw [leafNodes_treeInit hn hw]
      exact Finset.sum_congr rfl fun i hi => freqAt_treeInit_leaf hf (Finset.mem_range.1 hi)
    _ = n := by rw [Finset.sum_const, Finset.card_range, smul_eq_mul, mul_one]

/-! ## The whole tree -/

/-- Every entry of the initial tree (rule R241). -/
theorem treeInit_entries :
    (∀ i, i < n → (treeInit n w).freqAt i = 1 ∧ (treeInit n w).sonAt i = i + nodeCount n ∧
      (treeInit n w).prntAt (i + nodeCount n) = i) ∧
    (∀ q, q < n - 1 →
      (treeInit n w).freqAt (n + q) = (treeInit n w).freqAt (2 * q) + (treeInit n w).freqAt (2 * q + 1) ∧
      (treeInit n w).sonAt (n + q) = 2 * q ∧
      (treeInit n w).prntAt (2 * q) = n + q ∧ (treeInit n w).prntAt (2 * q + 1) = n + q) ∧
    (treeInit n w).freqAt (rootNode n) = n ∧ (treeInit n w).freqAt (nodeCount n) = 0xFFFF ∧
    (treeInit n w).prntAt (rootNode n) = 0 := by
  refine ⟨fun i hi => ?leaf, fun q hq => ?internal, freqAt_treeInit_root hn hw hf,
    (linked_weighed_treeInit hn hw hf).2.sentinel, prntAt_treeInit_root⟩
  case leaf =>
    exact ⟨freqAt_treeInit_leaf hf hi, sonAt_treeInit_leaf hn hw hi, leafOf_treeInit (by omega) hw hi⟩
  case internal =>
    exact ⟨freqAt_treeInit_internal hn hw hf hq, sonAt_treeInit_internal hn hw hq, prntAt_treeInit_pair hn hw hq⟩

end

/-- Settles O35: both tables are the initial tree at their size, and `Fresh` builds them by `TreeInit`. -/
theorem treeInitBuildsTheInitialTree : Obligations.TreeInitBuildsTheInitialTree := by
  refine ⟨?tableA, ?tableB, fun s => ⟨s.fresh_tabA, s.fresh_tabB⟩⟩
  case tableA => exact treeInit_entries (n := 314) (w := 10) (by decide) (by decide) (by decide)
  case tableB => exact treeInit_entries (n := 64) (w := 8) (by decide) (by decide) (by decide)

end Sys2Proof.Machine

/-! SUPPORT. A unit step of the driver issued out of its sequence (rule R336): the check comes before every other line of
`EncStep` and `DecStep`. -/

namespace Sys2Proof.Machine

theorem encStep_of_out_of_sequence {s : State} (h : s.fsm ≠ .searching ∨ s.mode ≠ .encode) :
    encStep s = .raise .sequence s := by
  rw [encStep, if_neg (not_and_or.2 h)]

theorem decStep_of_out_of_sequence {s : State} (h : s.fsm ≠ .reading ∨ s.mode ≠ .decode) :
    decStep s = .raise .sequence s := by
  rw [decStep, if_neg (not_and_or.2 h)]

/-- Settles O53: in each command the check raises in the state it was given, and outside `FAILED` that error is taken. -/
theorem stepOutOfSequenceRaisesSequence : Obligations.StepOutOfSequenceRaisesSequence := by
  intro s hs
  refine ⟨fun henc => ?encstep, fun hdec => ?decstep⟩
  case encstep =>
    calc exec .encstep s = accepted s (encStep s) := rfl
      _ = accepted s (.raise .sequence s) := by rw [encStep_of_out_of_sequence henc]
      _ = .next (s.takeError .sequence) := accepted_raise hs _ s
  case decstep =>
    calc exec .decstep s = accepted s (decStep s) := rfl
      _ = accepted s (.raise .sequence s) := by rw [decStep_of_out_of_sequence hdec]
      _ = .next (s.takeError .sequence) := accepted_raise hs _ s

end Sys2Proof.Machine

/-! SUPPORT. Commands and their words (rule R120 to rule R123): each is the other's encoding and decoding. -/

namespace Sys2Proof

/-! ## A word from its fields -/

theorem checked_eq_ok_iff {f : OpFormat} {w : Word} {i j : Instr} :
    checked f w i = .ok j ↔ formatReject f w = none ∧ i = j := by
  unfold checked
  cases formatReject f w <;> simp

/-- The fields of a packed word that passes the format checks of rule R122. -/
theorem formatReject_packWord {f : OpFormat} {op : BitVec 6} {t : BitVec 1} {cnt : BitVec 5} {imm : BitVec 20}
    (ht : f.usesT = true ∨ t = 0) (hcnt : f.usesCnt = true ∨ cnt = 0) (himm : imm.toNat < 2 ^ f.immBits)
    (hcount : cnt.toNat ≤ 20) : formatReject f (packWord op t cnt imm) = none := by
  rw [formatReject_eq_none_iff, tField_packWord, cntField_packWord, immField_packWord]
  exact ⟨fun h => ht.resolve_left (by simp [h]), fun h => hcnt.resolve_left (by simp [h]), himm, hcount⟩

theorem toNat_setWidth_lt {k m : Nat} (x : BitVec k) : (x.setWidth m).toNat < 2 ^ k := by
  rw [BitVec.toNat_setWidth]
  exact lt_of_le_of_lt (Nat.mod_le _ _) x.isLt

/-- A word with an operand of `k` bits in `IMM` alone. -/
theorem formatReject_imm (op : BitVec 6) {k : Nat} (x : BitVec k) :
    formatReject ⟨false, false, k⟩ (packWord op 0 0 (x.setWidth 20)) = none :=
  formatReject_packWord (.inr rfl) (.inr rfl) (toNat_setWidth_lt x) (by decide)

/-- A word with a table and an operand of `k` bits in `IMM`. -/
theorem formatReject_table_imm (op : BitVec 6) (t : TableSel) {k : Nat} (x : BitVec k) :
    formatReject ⟨true, false, k⟩ (packWord op (selBit t) 0 (x.setWidth 20)) = none :=
  formatReject_packWord (.inl rfl) (.inr rfl) (toNat_setWidth_lt x) (by decide)

/-- A word with a table alone. -/
theorem formatReject_table (op : BitVec 6) (t : TableSel) :
    formatReject ⟨true, false, 0⟩ (packWord op (selBit t) 0 0) = none :=
  formatReject_packWord (.inl rfl) (.inr rfl) (by decide) (by decide)

/-- Settles O2: the fields of the command's word are its operands, and they pass the checks of its opcode. -/
theorem encodedCommandDecodesToItself : Obligations.EncodedCommandDecodesToItself := by
  intro i hwf hcmd
  cases i
  case nop | reset | encode | decode | encinit | encstep | decinit | decstep | flush | lafill | findm =>
    exact ⟨_, rfl, rfl⟩
  case lit | matchCopy => cases hcmd
  case wrbits cnt value =>
    have hpass := formatReject_packWord (f := ⟨false, true, 20⟩) (op := 0x08) (t := 0) (imm := value) (.inr rfl)
      (.inl rfl) value.isLt (of_decide_eq_true hwf)
    exact ⟨_, rfl, by simpa [decode, checked_eq_ok_iff] using hpass⟩
  case rdbits cnt =>
    have hpass := formatReject_packWord (f := ⟨false, true, 0⟩) (op := 0x09) (t := 0) (imm := 0) (.inr rfl)
      (.inl rfl) (by decide) (of_decide_eq_true hwf)
    exact ⟨_, rfl, by simpa [decode, checked_eq_ok_iff] using hpass⟩
  case wadv x => exact ⟨_, rfl, by simpa [decode, checked_eq_ok_iff] using formatReject_imm 0x10 x⟩
  case byteat x => exact ⟨_, rfl, by simpa [decode, checked_eq_ok_iff] using formatReject_imm 0x11 x⟩
  case lapeek x => exact ⟨_, rfl, by simpa [decode, checked_eq_ok_iff] using formatReject_imm 0x13 x⟩
  case lacons x => exact ⟨_, rfl, by simpa [decode, checked_eq_ok_iff] using formatReject_imm 0x14 x⟩
  case encsym t x => exact ⟨_, rfl, by simpa [decode, checked_eq_ok_iff] using formatReject_table_imm 0x18 t x⟩
  case decsym t => exact ⟨_, rfl, by simpa [decode, checked_eq_ok_iff] using formatReject_table 0x19 t⟩
  case bump t x => exact ⟨_, rfl, by simpa [decode, checked_eq_ok_iff] using formatReject_table_imm 0x1A t x⟩
  case rebuild t => exact ⟨_, rfl, by simpa [decode, checked_eq_ok_iff] using formatReject_table 0x1B t⟩
  case rdnode t x => exact ⟨_, rfl, by simpa [decode, checked_eq_ok_iff] using formatReject_table_imm 0x1C t x⟩
  case rdleaf t x => exact ⟨_, rfl, by simpa [decode, checked_eq_ok_iff] using formatReject_table_imm 0x1D t x⟩

/-! ## The fields of a word that decodes -/

@[simp] theorem selBit_selOf (t : BitVec 1) : selBit (selOf t) = t := by
  revert t
  decide

theorem setWidth_setWidth_of_toNat_lt {k m : Nat} {x : BitVec m} (h : x.toNat < 2 ^ k) :
    (x.setWidth k).setWidth m = x := by
  apply BitVec.eq_of_toNat_eq
  rw [BitVec.toNat_setWidth, BitVec.toNat_setWidth, Nat.mod_eq_of_lt h, Nat.mod_eq_of_lt x.isLt]

theorem setWidth_of_width_zero {m : Nat} (x : BitVec 0) : x.setWidth m = 0 := by
  rw [BitVec.eq_nil x]
  simp

/-- A word that passes the checks of its opcode is the packing of the fields that the opcode uses. -/
theorem eq_packWord_of_checked {f : OpFormat} {w : Word} {i j : Instr} {op : Nat} (hop : (opField w).toNat = op)
    (h : checked f w i = .ok j) : i = j ∧ (cntField w).toNat ≤ 20 ∧
      w = packWord (BitVec.ofNat 6 op) (if f.usesT then tField w else 0) (if f.usesCnt then cntField w else 0)
        (((immField w).setWidth f.immBits).setWidth 20) := by
  obtain ⟨hpass, rfl⟩ := checked_eq_ok_iff.1 h
  obtain ⟨ht, hcnt, himm, hcount⟩ := (formatReject_eq_none_iff f w).1 hpass
  refine ⟨rfl, hcount, ?_⟩
  have hopw : BitVec.ofNat 6 op = opField w := by rw [← hop, BitVec.ofNat_toNat, BitVec.setWidth_eq]
  have htw : (if f.usesT then tField w else 0) = tField w := by
    cases hT : f.usesT <;> simp [hT, ht]
  have hcw : (if f.usesCnt then cntField w else 0) = cntField w := by
    cases hC : f.usesCnt <;> simp [hC, hcnt]
  rw [hopw, htw, hcw, setWidth_setWidth_of_toNat_lt himm, packWord_fields]

/-- Settles O3: line by line of the opcode map, the fields that the line reads are all the word holds. -/
theorem decodedWordIsTheEncoding : Obligations.DecodedWordIsTheEncoding := by
  intro w i h
  unfold decode at h
  split at h
  case h_24 => cases h
  all_goals
    next hop =>
      obtain ⟨rfl, hcount, hw⟩ := eq_packWord_of_checked hop h
      refine ⟨by simp [Instr.wellFormed, hcount], rfl, ?_⟩
      conv_rhs => rw [hw]
      simp [encode, setWidth_of_width_zero]

/-! ## Words and codes written out -/

/-- Settles O1: twelve words, each evaluated. -/
theorem wordsOfTheOpcodeMapDecode : Obligations.WordsOfTheOpcodeMapDecode := by
  unfold Obligations.WordsOfTheOpcodeMapDecode
  decide

end Sys2Proof

/-! SUPPORT. Codes and tokens over legal tables (rule R143, rule R144), and what the invariants of rule R55 outlive. -/

namespace Sys2Proof.Machine

/-! ## Codes -/

/-- Settles O6: over a legal table the walk down undoes the walk up, whichever bits come after. -/
theorem codeDecodesToItsSymbol : Obligations.CodeDecodesToItsSymbol := by
  rintro s sym rest ⟨hA, hB⟩
  exact ⟨fun hsym => CodeTable.decodeBits_code (by decide) hA hsym rest,
    fun hsym => CodeTable.decodeBits_code (by decide) hB hsym rest⟩

/-- The extra bits of a distance give their number back. -/
theorem bitsValue_fieldBits_distExtra (d : Nat) :
    bitsValue (fieldBits (distExtra d) Config.distLowBits) = distExtra d := by
  rw [bitsValue, foldl_fieldBits, Nat.zero_mul, Nat.zero_add]
  exact Nat.mod_eq_of_lt (Nat.mod_lt _ (by decide))

/-- Settles O7: each code of the token decodes to its symbol, and the symbols and extra bits give the operands back. -/
theorem encodedTokenDecodesToItself : Obligations.EncodedTokenDecodesToItself := by
  rintro s tok rest ⟨hA, hB⟩ hwf
  cases tok with
  | lit b =>
    have hb : b.toNat < 256 := b.isLt
    have hcode := CodeTable.decodeBits_code (by decide) hA (show b.toNat < 314 by omega) rest
    simp only [Token.toInstr, encodeToken, decodeToken, hcode, if_pos hb, BitVec.ofNat_toNat, BitVec.setWidth_eq]
  | copy len dist =>
    obtain ⟨hlen, hsymA, hdist, hsymB⟩ := symbols_of_wellFormed hwf
    have hge : ¬lengthSymbol len.toNat < 256 := by rw [lengthSymbol]; omega
    have hcodeA := CodeTable.decodeBits_code (by decide) hA hsymA
    have hcodeB := CodeTable.decodeBits_code (by decide) hB hsymB
    have hextra := length_fieldBits (distExtra dist.toNat) Config.distLowBits
    simp only [Token.toInstr, encodeToken, decodeToken, List.append_assoc, hcodeA, hcodeB, if_neg hge,
      List.length_append, hextra, if_neg (show ¬Config.distLowBits + rest.length < Config.distLowBits by omega),
      List.take_left' hextra, List.drop_left' hextra, bitsValue_fieldBits_distExtra, symbolLength_lengthSymbol,
      classDist_distClass hdist]

/-! ## The initial codes (rule R145) -/

/-- Counted down from the sentinel, the nodes of the initial tree stand as in a heap: the parent of the `z`-th is the
`z / 2`-th, and the root is the first. The walk up from the `z`-th node gives the bits of `z` below its leading one,
each inverted. -/
theorem codeFrom_treeInit {n w : Nat} (hn : 2 ≤ n) (hw : 3 * n - 1 ≤ 2 ^ w) : ∀ (d fuel z : Nat) (bits : List Bool),
    2 ^ d ≤ z → z < 2 ^ (d + 1) → z ≤ nodeCount n → d < fuel →
    (treeInit n w).codeFrom fuel (nodeCount n - z) bits = fieldBits (2 ^ (d + 1) - 1 - z) d ++ bits
  | 0, fuel + 1, z, bits, hlo, hhi, _, _ => by
    obtain rfl : z = 1 := by omega
    rw [CodeTable.codeFrom, if_pos (by simp only [nodeCount, rootNode]; omega)]
    rfl
  | d + 1, fuel + 1, z, bits, hlo, hhi, hz, hfuel => by
    have h2 : 2 ^ (d + 1) = 2 * 2 ^ d := by rw [pow_succ]; ring
    have h4 : 2 ^ (d + 1 + 1) = 2 * 2 ^ (d + 1) := by rw [pow_succ]; ring
    have hpos : 1 ≤ 2 ^ d := Nat.one_le_two_pow
    have hT : nodeCount n = 2 * n - 1 := rfl
    have hR : rootNode n = 2 * n - 2 := rfl
    have hparent : n + (nodeCount n - z) / 2 = nodeCount n - z / 2 := by omega
    have hvalue : 2 ^ (d + 1 + 1) - 1 - z =
        2 * (2 ^ (d + 1) - 1 - z / 2) + (decide ((nodeCount n - z) % 2 = 1)).toNat := by
      rcases Nat.mod_two_eq_zero_or_one z with h | h
      · simp only [show (nodeCount n - z) % 2 = 1 by omega, decide_true, Bool.toNat_true]
        omega
      · simp only [show (nodeCount n - z) % 2 = 0 by omega, Nat.zero_ne_one, decide_false, Bool.toNat_false]
        omega
    rw [CodeTable.codeFrom, if_neg (by omega), prntAt_treeInit (by omega) hw (by omega), hparent,
      codeFrom_treeInit hn hw d fuel (z / 2) _ (by omega) (by omega) (by omega) (by omega), hvalue, fieldBits_succ_low,
      List.append_assoc, List.singleton_append]

/-- The initial code of a symbol whose leaf stands `d` levels below the root. -/
theorem code_treeInit {n w : Nat} (hn : 2 ≤ n) (hw : 3 * n - 1 ≤ 2 ^ w) {s d v : Nat} (hs : s < n)
    (hlo : 2 ^ d ≤ 2 * n - 1 - s) (hhi : 2 * n - 1 - s < 2 ^ (d + 1)) (hd : d < 2 * n - 1)
    (hv : 2 ^ (d + 1) - 1 - (2 * n - 1 - s) = v) : (treeInit n w).code s = fieldBits v d := by
  have hz : nodeCount n - (nodeCount n - s) = s := Nat.sub_sub_self (by simp only [nodeCount]; omega)
  have h := codeFrom_treeInit hn hw d (nodeCount n) (nodeCount n - s) [] hlo hhi (Nat.sub_le _ _) hd
  rw [CodeTable.code, leafOf_treeInit (by omega) hw hs]
  rw [hz, List.append_nil] at h
  rw [h, ← hv]

/-- Settles O36: in table A the leaves of the symbols below 116 stand 9 levels below the root, the others 8, and in table B
all stand 6 levels below. -/
theorem initialCodesAreThoseOfTheRule : Obligations.InitialCodesAreThoseOfTheRule := by
  refine ⟨fun s hs => ?nine, fun s hlo hs => ?eight, fun s hs => ?six⟩
  case nine =>
    exact code_treeInit (by decide) (by decide) (by omega) (by omega) (by omega) (by decide) (by omega)
  case eight =>
    exact code_treeInit (by decide) (by decide) hs (by omega) (by omega) (by decide) (by omega)
  case six =>
    exact code_treeInit (by decide) (by decide) hs (by omega) (by omega) (by decide) (by omega)

/-! ## Bumps -/

/-- Settles O38: a bump, with the rebuild it may begin with, keeps the tree and its weights. -/
theorem bumpKeepsTheTreeInvariants : Obligations.BumpKeepsTheTreeInvariants := by
  rintro s sym ⟨hA, hB⟩
  exact ⟨fun hsym => CodeTable.wf_bump (by decide) (by decide) (by decide) hA hsym,
    fun hsym => CodeTable.wf_bump (by decide) (by decide) (by decide) hB hsym⟩

/-! ## Whole decodes -/

/-- Settles O60, by the run of `DECODE` token by token. -/
theorem decodeExecutesAnyTokenProgram : Obligations.DecodeExecutesAnyTokenProgram :=
  fun _ _ hp hw hq hsrc hsink => decode_transforms hp hw hq hsrc hsink

end Sys2Proof.Machine

/-! SUPPORT. The register window (rule R60, rule R85, rule R345), the commands that complete at once, and what holds right
after reset. -/

namespace Sys2Proof.Machine

/-! ## The host's commands -/

/-- A `CMD` write to a block that is not busy and does not wait runs what the word decodes to (rule R345). -/
theorem step_of_command {s : State} {w : Word} {rest : List HostOp} {i : Instr}
    (hq : s.host.queue = .write .word 0x00 w :: rest) (hb : s.busy = false) (hw : s.waiting = false)
    (hi : decode w = .ok i) : step s = exec i { s with host := { s.host with queue := rest } } := by
  have hissue : step s = issueWord w s.popHost := by
    rw [step_of_proceeds hq (by simp [hw])]
    have halign : accessRefusal .word 0x00 = none := rfl
    simp only [hostStep, halign, hostWrite, if_true, hb, Bool.false_eq_true, if_false]
  rw [hissue, issueWord, hi, State.popHost, hq]
  rfl

theorem withFetchWord_eq (s : State) (w : Word) : s.withFetchWord 32 w.toNat = placeCommand w s := by
  rw [State.withFetchWord, Nat.mod_eq_of_lt w.isLt, BitVec.ofNat_toNat, BitVec.setWidth_eq]

/-- Settles O8: the write leaves the queue and its word is issued; `withFetchWord` sets up such a state. -/
theorem stepRunsTheDecodedCommand : Obligations.StepRunsTheDecodedCommand :=
  ⟨fun _ _ _ _ hq hb hw hi => step_of_command hq hb hw hi, fun s w i hi => by
    rw [withFetchWord_eq, step_placeCommand hi]⟩

/-- Settles O16: a word that is no command is filtered out in `FAILED`, and so is every command but `NOP`, which does
nothing, and the five. -/
theorem failedIgnoresEveryOtherWord : Obligations.FailedIgnoresEveryOtherWord := by
  intro w s hs hleave
  refine ⟨?_, decide_eq_true hs⟩
  have hfilter (run : Host.Outcome State Fault Refusal) : unlessFailed s run = .next s := by rw [unlessFailed, hs]
  cases hw : decode w with
  | error r => rw [issueWord, hw]; exact hfilter _
  | ok i =>
    obtain ⟨_, hcmd, _⟩ := decodedWordIsTheEncoding w i hw
    rw [issueWord, hw]
    cases i
    case nop => rfl
    case reset | encode | decode | encinit | decinit => exact absurd hw (hleave _ (by simp))
    case lit | matchCopy => cases hcmd
    all_goals exact hfilter _

/-! ## The host's reads and writes -/

theorem State.readReg_of_reserved (s : State) {off : BitVec 6} (h : 0x1C ≤ off.toNat) : s.readReg off = 0 := by
  unfold State.readReg
  split
  case h_7 => rfl
  all_goals next hoff => rw [hoff] at h; exact absurd h (by decide)

/-- Settles O10: the offset is that of one register, or of none. -/
theorem hostReadReturnsTheRegister : Obligations.HostReadReturnsTheRegister := by
  intro s off rest v hfree hq hoff
  have hread : off.toNat % 4 = 0 ∧ s.readReg off = v := by
    rcases hoff with ⟨rfl, rfl⟩ | ⟨rfl, rfl⟩ | ⟨rfl, rfl⟩ | ⟨rfl, rfl⟩ | ⟨rfl, rfl⟩ | ⟨rfl, rfl⟩ | ⟨rfl, rfl⟩ |
      ⟨hlo, haligned, rfl⟩
    case inr.inr.inr.inr.inr.inr.inr => exact ⟨haligned, s.readReg_of_reserved hlo⟩
    all_goals exact ⟨rfl, rfl⟩
  rw [step_of_read hfree hq hread.1, hread.2]

/-- A write to a register stores `LEN` while `BUSY` is 0, and nothing else (rule R62, rule R72). -/
theorem State.writeReg_eq (s : State) (off : BitVec 6) (v : Word) :
    s.writeReg off v = { s with len := if off = 0x0C ∧ s.busy = false then v else s.len } := by
  unfold State.writeReg
  split
  case h_1 hoff =>
    obtain rfl : off = 0x0C := BitVec.eq_of_toNat_eq hoff
    cases hb : s.busy with
    | true => rw [if_pos rfl, if_neg (by simp), ← hb]
    | false => rw [if_neg (by simp), if_pos ⟨rfl, rfl⟩]
  case h_2 hoff =>
    have hne : off ≠ 0x0C := fun h => hoff (by rw [h]; rfl)
    rw [if_neg fun h => hne h.1]

/-- Settles O12. -/
theorem hostWriteStoresOnlyLen : Obligations.HostWriteStoresOnlyLen := by
  intro s off v rest hfree hq haligned hoff
  rw [step_of_write hfree hq haligned hoff, State.writeReg_eq]

/-- Settles O13: neither access waits for the block, and the width is looked at before the offset. -/
theorem narrowOrMisalignedAccessIsRefused : Obligations.NarrowOrMisalignedAccessIsRefused := by
  intro s width off v rest hfree hq
  have hrefused {r : Refusal} (hr : accessRefusal width off = some r) (hop : ¬(width = .word ∧ off = 0)) :
      step s = .refused r := by
    rcases hq with hq | hq
    · rw [step_of_proceeds hq hfree.busy_of_waiting, hostStep, hr]
    · have hproceeds (hw : s.waiting = true) : proceedsWhileWaiting s.busy (.write width off v) = true := by
        rw [proceedsWhileWaiting, hfree.busy_of_waiting hw, decide_eq_false hop]
        rfl
      rw [step_of_proceeds hq hproceeds, hostStep, hr]
  refine ⟨fun hwidth => hrefused ?_ fun h => hwidth h.1, fun hwidth hoff => hrefused ?_ fun h => hoff (by rw [h.2]; rfl)⟩
  · cases width
    case word => exact absurd rfl hwidth
    all_goals rfl
  · subst hwidth
    exact if_neg hoff

/-! ## Reset -/

theorem erase_reset_behind_write (w : Word) (rest : List HostOp) :
    (HostOp.write .word 0 w :: .powerOnReset :: rest).erase .powerOnReset = .write .word 0 w :: rest := by
  rw [List.erase_cons_tail (by simp), List.erase_cons_head]

/-- Power-on reset comes from the platform, so a `CMD` write that is held does not keep it back (rule R370). -/
theorem step_of_held_reset {s : State} {w : Word} {rest : List HostOp} (hw : s.waiting = true)
    (hq : s.host.queue = .write .word 0 w :: .powerOnReset :: rest) :
    step s = .next (powerOn { s with host := { s.host with queue := .write .word 0 w :: rest } }) := by
  have hheld : proceedsWhileWaiting s.busy (.write .word 0 w) = false := by simp [proceedsWhileWaiting]
  have hstep : step s = resetOrStuck s := by
    rw [step, if_pos hw, waitingStep, hq]
    simp only [hheld, Bool.false_eq_true, if_false]
  rw [hstep, resetOrStuck, hq, if_pos (by simp), erase_reset_behind_write]

/-- Settles O18. -/
theorem nopAndResetComplete : Obligations.NopAndResetComplete :=
  fun _ => ⟨rfl, rfl, fun _ hq => step_of_powerOnReset hq, fun _ _ hw hq => step_of_held_reset hw hq⟩

/-- Settles O58: the tables are the initial ones, and the rest is evaluated. -/
theorem resetMeetsTheInvariants : Obligations.ResetMeetsTheInvariants :=
  ⟨⟨by decide, by decide, by decide, sized_treeInit _ _ (by decide), sized_treeInit _ _ (by decide)⟩,
    wf_treeInit (by decide) (by decide) (by decide), wf_treeInit (by decide) (by decide) (by decide)⟩

/-! ## Commands that complete at once -/

/-- Outside `FAILED`, a command whose operand is in range and whose pseudocode has no request leaves the state that the
pseudocode makes. -/
theorem accepted_checkOperand_ok {s : State} (hs : s.fsm ≠ .failed) {ok : Bool} (hok : ok = true) (t : State) :
    accepted s (checkOperand ok s (.ok () t)) = .next t := by
  rw [hok, checkOperand, if_pos rfl, accepted_of_ne _ hs, finish_ok]

theorem accepted_ok {s : State} (hs : s.fsm ≠ .failed) (t : State) : accepted s (.ok () t) = .next t := by
  rw [accepted_of_ne _ hs, finish_ok]

/-- Settles O37. -/
theorem bumpAndRebuildChangeOneTable : Obligations.BumpAndRebuildChangeOneTable :=
  fun _ hs => ⟨fun _ hx => accepted_checkOperand_ok hs (decide_eq_true hx) _,
    fun _ hx => accepted_checkOperand_ok hs (decide_eq_true hx) _, accepted_ok hs _, accepted_ok hs _⟩

/-- A distance that the window holds is counted back from the cursor, modulo the window's size (rule R192). -/
theorem histByte_eq_read (s : State) {d : Nat} (hd : d ≤ s.win.wfill.toNat) :
    histByte s d = s.win.hist.read ((s.win.wcur.toNat + 8192 - d) % 4096) := by
  rcases Nat.eq_zero_or_pos d with rfl | hpos
  · have hlt := s.win.wcur.isLt
    have hcur : (s.win.wcur - BitVec.ofNat 12 0).toNat = (s.win.wcur.toNat + 8192 - 0) % 4096 := by
      rw [show BitVec.ofNat 12 0 = 0#12 from rfl, BitVec.sub_zero]
      omega
    rw [histByte, hcur]
  · simpa using histByte_sub_eq_read s (l := 0) hpos hd

/-- Settles O27: in each command the operand's check passes, and one write follows. -/
theorem inspectionWritesOnlyResult : Obligations.InspectionWritesOnlyResult := by
  intro s hs
  refine ⟨fun d h1 hd => ?byteat, fun k hk => accepted_checkOperand_ok hs (decide_eq_true hk) _,
    fun k hk => accepted_checkOperand_ok hs (decide_eq_true hk) _,
    fun k hk => accepted_checkOperand_ok hs (decide_eq_true hk) _,
    fun x hx => accepted_checkOperand_ok hs (decide_eq_true hx) _,
    fun x hx => accepted_checkOperand_ok hs (decide_eq_true hx) _⟩
  case byteat =>
    rcases byteAt_cases d.toNat s with ⟨_, _, hread⟩ | ⟨hout, _⟩
    · rw [exec, execByteat, hread, Res.andThen_ok, accepted_ok hs, histByte_eq_read s hd]
      rfl
    · exact absurd ⟨h1, hd⟩ hout

/-- The eviction descriptor of the state before an advance (rule R191). -/
theorem evictionDesc_evicted (s : State) : evictionDesc (evicted s) =
    if s.win.wfill.toNat = 4096 then 0x100 ||| (s.win.hist.read s.win.wcur.toNat).setWidth 32 else 0 := by
  unfold evicted
  split <;> rfl

/-- Settles O26. -/
theorem wadvAppendsOneByte : Obligations.WadvAppendsOneByte := by
  rintro s b hs ⟨hhist, _⟩
  refine ⟨s.win.hist.write s.win.wcur.toNat b, ?_, Memory.read_write_same hhist _ _,
    fun a ha => Memory.read_write_other hhist _ ha⟩
  rw [exec, execWadv, accepted_ok hs, evictionDesc_evicted]
  rfl

end Sys2Proof.Machine

/-! SUPPORT. The output side, exactly: the state that written bits leave where the sink accepts the bytes they fill (rule
R170), and where it refuses one of them (rule R332). -/

namespace Sys2Proof.Machine

/-! ## Packing -/

theorem bitsValue_append_singleton (bits : List Bool) (b : Bool) :
    bitsValue (bits ++ [b]) = 2 * bitsValue bits + b.toNat := by
  rw [bitsValue, List.foldl_append]
  rfl

theorem bitsValue_fieldBits {v n : Nat} (h : v < 2 ^ n) : bitsValue (fieldBits v n) = v := by
  rw [bitsValue, foldl_fieldBits, Nat.zero_mul, Nat.zero_add, Nat.mod_eq_of_lt h]

theorem bitsValue_lt (bits : List Bool) : bitsValue bits < 2 ^ bits.length := by
  have h := foldl_fieldBits (bitsValue bits) bits.length 0
  rw [fieldBits_bitsValue, Nat.zero_mul, Nat.zero_add] at h
  rw [bitsValue, h]
  exact Nat.mod_lt _ (Nat.two_pow_pos _)

/-- A whole byte packed before the rest. -/
theorem packBits_succ (n : Nat) {bits : List Bool} (h : 8 ≤ bits.length) :
    packBits (n + 1) bits = BitVec.ofNat 8 (bitsValue (bits.take 8)) :: packBits n (bits.drop 8) := by
  obtain ⟨b, bs, rfl⟩ := List.exists_cons_of_ne_nil (List.ne_nil_of_length_pos (by omega : 0 < bits.length))
  rw [packBits, List.take_append_of_le_length h]

/-- Whole bytes are packed one part after another. -/
theorem packBits_add : ∀ (m k : Nat) (bits : List Bool), 8 * m ≤ bits.length →
    packBits (m + k) bits = packBits m bits ++ packBits k (bits.drop (8 * m))
  | 0, k, bits, _ => by rw [Nat.zero_add, Nat.mul_zero, List.drop_zero, packBits, List.nil_append]
  | m + 1, k, bits, h => by
    rw [Nat.add_right_comm, packBits_succ (m + k) (by omega), packBits_succ m (by omega),
      packBits_add m k _ (by rw [List.length_drop]; omega), List.drop_drop, List.cons_append,
      show 8 + 8 * m = 8 * (m + 1) by ring]

/-- Bits after the whole bytes do not matter. -/
theorem packBits_append : ∀ (m : Nat) (xs ys : List Bool), 8 * m ≤ xs.length → packBits m (xs ++ ys) = packBits m xs
  | 0, _, _, _ => by simp only [packBits]
  | m + 1, xs, ys, h => by
    rw [packBits_succ m (by rw [List.length_append]; omega), packBits_succ m (by omega),
      List.take_append_of_le_length (by omega), List.drop_append_of_le_length (by omega),
      packBits_append m _ ys (by rw [List.length_drop]; omega)]

theorem length_packBits : ∀ (m : Nat) (bits : List Bool), 8 * m ≤ bits.length → (packBits m bits).length = m
  | 0, _, _ => by simp only [packBits, List.length_nil]
  | m + 1, bits, h => by
    rw [packBits_succ m (by omega), List.length_cons, length_packBits m _ (by rw [List.length_drop]; omega)]

/-! ## The state after bits written -/

@[simp] theorem BitChannel.length_pending (c : BitChannel) : c.pending.length = c.obits.toNat := length_fieldBits _ _

/-- No more bits pend than `OBITS` says (rule R32). -/
abbrev BitChannel.small (c : BitChannel) : Prop := c.obuf.toNat < 2 ^ c.obits.toNat

section

variable (s : State) (xs : List Bool)

theorem State.length_pending_append : (s.bits.pending ++ xs).length = s.bits.obits.toNat + xs.length := by
  rw [List.length_append, BitChannel.length_pending]

/-- The bytes that bits fill are those packed. -/
theorem State.length_wrote_bytes :
    (packBits (s.bits.bytesFilled xs.length) (s.bits.pending ++ xs)).length = s.bits.bytesFilled xs.length :=
  length_packBits _ _ (by rw [s.length_pending_append, BitChannel.bytesFilled]; omega)

/-- What `wrote` is, the bytes filled counted by `bytesFilled`. -/
theorem State.wrote_eq : s.wrote xs = ({ s with bits := (s.wrote xs).bits } : State).delivered
    (packBits (s.bits.bytesFilled xs.length) (s.bits.pending ++ xs)) := by
  rw [BitChannel.bytesFilled, ← s.length_pending_append]
  rfl

theorem State.wrote_obits : (s.wrote xs).bits.obits.toNat = (s.bits.obits.toNat + xs.length) % 8 := by
  show (BitVec.ofNat 3 _).toNat = _
  rw [BitVec.toNat_ofNat, s.length_pending_append]
  omega

theorem State.wrote_obuf : (s.wrote xs).bits.obuf =
    BitVec.ofNat 8 (bitsValue ((s.bits.pending ++ xs).drop (8 * s.bits.bytesFilled xs.length))) := by
  rw [BitChannel.bytesFilled, ← s.length_pending_append]
  rfl

/-- The bits that pend are those after the bytes filled. -/
theorem State.wrote_pending :
    (s.wrote xs).bits.pending = (s.bits.pending ++ xs).drop (8 * s.bits.bytesFilled xs.length) := by
  have hlen : ((s.bits.pending ++ xs).drop (8 * s.bits.bytesFilled xs.length)).length = (s.wrote xs).bits.obits.toNat := by
    rw [List.length_drop, s.length_pending_append, s.wrote_obits, BitChannel.bytesFilled]
    omega
  have h8 : (s.wrote xs).bits.obits.toNat ≤ 8 := by have := (s.wrote xs).bits.obits.isLt; omega
  rw [BitChannel.pending, s.wrote_obuf, BitVec.toNat_ofNat, fieldBits_mod _ h8, ← hlen, fieldBits_bitsValue]

theorem State.wrote_small : (s.wrote xs).bits.small := by
  have hp : bitsValue (s.wrote xs).bits.pending < 2 ^ (s.wrote xs).bits.obits.toNat :=
    BitChannel.length_pending _ ▸ bitsValue_lt _
  rw [BitChannel.small, s.wrote_obuf, ← s.wrote_pending, BitVec.toNat_ofNat]
  exact lt_of_le_of_lt (Nat.mod_le _ _) hp

end

theorem State.wrote_nil {s : State} (h : s.bits.small) : s.wrote [] = s := by
  have hlt := s.bits.obits.isLt
  have hfull : s.bits.bytesFilled 0 = 0 := by rw [BitChannel.bytesFilled]; omega
  have hbuf : (s.wrote []).bits.obuf = s.bits.obuf := by
    rw [State.wrote_obuf, List.length_nil, hfull, Nat.mul_zero, List.drop_zero, List.append_nil, BitChannel.pending,
      bitsValue_fieldBits h, BitVec.ofNat_toNat, BitVec.setWidth_eq]
  have hbits : (s.wrote []).bits.obits = s.bits.obits := by
    apply BitVec.eq_of_toNat_eq
    rw [State.wrote_obits, List.length_nil, Nat.add_zero, Nat.mod_eq_of_lt hlt]
  have hchan : (s.wrote []).bits = s.bits := by
    show { s.bits with obuf := (s.wrote []).bits.obuf, obits := (s.wrote []).bits.obits } = s.bits
    rw [hbuf, hbits]
  rw [State.wrote_eq, hchan, List.length_nil, hfull, packBits, State.delivered_nil]

/-- Bytes filled by one sequence of bits and then another. -/
theorem State.bytesFilled_add (s : State) (xs : List Bool) (k : Nat) : s.bits.bytesFilled (xs.length + k) =
    s.bits.bytesFilled xs.length + (s.wrote xs).bits.bytesFilled k := by
  rw [BitChannel.bytesFilled, BitChannel.bytesFilled, BitChannel.bytesFilled, State.wrote_obits]
  omega

/-- The whole bytes of a sequence of bits are those of its first part and those of what the first part leaves pending. -/
theorem State.packBits_pending_append (s : State) (xs ys : List Bool) (k : Nat) :
    packBits (s.bits.bytesFilled xs.length + k) (s.bits.pending ++ (xs ++ ys)) =
      packBits (s.bits.bytesFilled xs.length) (s.bits.pending ++ xs) ++
        packBits k ((s.wrote xs).bits.pending ++ ys) := by
  have hle : 8 * s.bits.bytesFilled xs.length ≤ (s.bits.pending ++ xs).length := by
    rw [State.length_pending_append, BitChannel.bytesFilled]
    omega
  rw [← List.append_assoc, packBits_add _ _ _ (by rw [List.length_append]; omega), packBits_append _ _ _ hle,
    List.drop_append_of_le_length hle, State.wrote_pending]

/-- Writing one sequence of bits after another. -/
theorem State.wrote_wrote (s : State) (xs ys : List Bool) : (s.wrote xs).wrote ys = s.wrote (xs ++ ys) := by
  have hfull := s.bytesFilled_add xs ys.length
  rw [← List.length_append] at hfull
  have hpend : (s.wrote (xs ++ ys)).bits.pending = ((s.wrote xs).wrote ys).bits.pending := by
    have hle : 8 * s.bits.bytesFilled xs.length ≤ (s.bits.pending ++ xs).length := by
      rw [State.length_pending_append, BitChannel.bytesFilled]
      omega
    rw [State.wrote_pending, State.wrote_pending, State.wrote_pending, hfull, Nat.mul_add, ← List.drop_drop,
      ← List.append_assoc, List.drop_append_of_le_length hle]
  have hbuf : (s.wrote (xs ++ ys)).bits.obuf = ((s.wrote xs).wrote ys).bits.obuf := by
    rw [State.wrote_obuf, ← State.wrote_pending, hpend, State.wrote_pending, ← State.wrote_obuf]
  have hbits : (s.wrote (xs ++ ys)).bits.obits = ((s.wrote xs).wrote ys).bits.obits := by
    apply BitVec.eq_of_toNat_eq
    rw [State.wrote_obits, State.wrote_obits, State.wrote_obits, List.length_append]
    omega
  have hchan : (s.wrote (xs ++ ys)).bits = ((s.wrote xs).wrote ys).bits := by
    show { s.bits with obuf := (s.wrote (xs ++ ys)).bits.obuf, obits := (s.wrote (xs ++ ys)).bits.obits } = _
    rw [hbuf, hbits]
    rfl
  rw [State.wrote_eq s (xs ++ ys), hchan, hfull, State.packBits_pending_append, ← State.delivered_append,
    State.wrote_eq (s.wrote xs) ys]
  congr 1
  rw [State.wrote_eq s xs]
  rfl

/-! ## Bits that the sink accepts -/

/-- One bit more fills no byte, and joins the pending ones. -/
theorem State.wrote_singleton_of_lt {s : State} (h : s.bits.small) (h7 : s.bits.obits.toNat < 7) (b : Bool) :
    s.wrote [b] = { s with bits := { s.bits with
      obuf := (s.bits.obuf <<< 1) ||| (BitVec.ofBool b).setWidth 8, obits := s.bits.obits + 1 } } := by
  have hfull : s.bits.bytesFilled [b].length = 0 := by
    rw [BitChannel.bytesFilled, List.length_singleton]
    omega
  have hbuf : (s.wrote [b]).bits.obuf = (s.bits.obuf <<< 1) ||| (BitVec.ofBool b).setWidth 8 := by
    apply BitVec.eq_of_toNat_eq
    rw [State.wrote_obuf, hfull, Nat.mul_zero, List.drop_zero, bitsValue_append_singleton, BitChannel.pending,
      bitsValue_fieldBits h, ← toNat_shiftIn h (by omega) b, BitVec.ofNat_toNat, BitVec.setWidth_eq]
  have hbits : (s.wrote [b]).bits.obits = s.bits.obits + 1 := by
    apply BitVec.eq_of_toNat_eq
    rw [State.wrote_obits, List.length_singleton]
    bv_omega
  have hchan : (s.wrote [b]).bits = { s.bits with
      obuf := (s.bits.obuf <<< 1) ||| (BitVec.ofBool b).setWidth 8, obits := s.bits.obits + 1 } := by
    rw [← hbuf, ← hbits]
    rfl
  rw [State.wrote_eq, hchan, hfull, packBits, State.delivered_nil]

/-- An eighth bit fills a byte. -/
theorem State.wrote_singleton_of_seven {s : State} (h : s.bits.small) (h7 : s.bits.obits.toNat = 7) (b : Bool) :
    s.wrote [b] = ({ s with bits := { s.bits with obuf := 0, obits := 0 } } : State).delivered
      [(s.bits.obuf <<< 1) ||| (BitVec.ofBool b).setWidth 8] := by
  have hfull : s.bits.bytesFilled [b].length = 1 := by
    rw [BitChannel.bytesFilled, List.length_singleton, h7]
  have hlen : (s.bits.pending ++ [b]).length = 8 := by rw [State.length_pending_append, h7, List.length_singleton]
  have hbyte : packBits 1 (s.bits.pending ++ [b]) = [(s.bits.obuf <<< 1) ||| (BitVec.ofBool b).setWidth 8] := by
    rw [packBits_succ 0 hlen.ge, List.take_of_length_le hlen.le, packBits, bitsValue_append_singleton,
      BitChannel.pending, bitsValue_fieldBits h, ← toNat_shiftIn h (by omega) b, BitVec.ofNat_toNat, BitVec.setWidth_eq]
  have hbuf : (s.wrote [b]).bits.obuf = 0 := by
    rw [State.wrote_obuf, hfull, List.drop_of_length_le (by omega)]
    rfl
  have hbits : (s.wrote [b]).bits.obits = 0 := by
    apply BitVec.eq_of_toNat_eq
    rw [State.wrote_obits, h7, List.length_singleton]
    rfl
  have hchan : (s.wrote [b]).bits = { s.bits with obuf := 0, obits := 0 } := by
    rw [← hbuf, ← hbits]
    rfl
  rw [State.wrote_eq, hchan, hfull, hbyte]

/-- A bit is written where the sink accepts the byte it fills, if it fills one. -/
theorem writeBit_eq_wrote {s : State} (h : s.bits.small) (b : Bool) (hsink : s.sinkReady (s.bits.bytesFilled 1)) :
    writeBit b s = .ok () (s.wrote [b]) := by
  rcases writeBit_cases b s with ⟨h7, hw⟩ | ⟨h7, hw⟩
  · rw [hw, State.wrote_singleton_of_lt h h7]
  · rw [hw, State.wrote_singleton_of_seven h h7]
    exact sinkWrite_of_ok (hsink 0 (by rw [BitChannel.bytesFilled, h7]; decide))

/-- The requests to the sink that are still to come after some bits have been written. -/
theorem State.wrote_sinkAt (s : State) (xs : List Bool) (k : Nat) :
    (s.wrote xs).ports.sinkAt k = s.ports.sinkAt (s.bits.bytesFilled xs.length + k) := by
  rw [State.wrote_eq, State.delivered_ports, State.length_wrote_bytes, Ports.sinkAt_withSink, Ports.sinkAt_sinkAfter]

/-- Bits are written where the sink accepts the bytes they fill (rule R170). -/
theorem writeBitList_eq_wrote : ∀ (xs : List Bool) {s : State}, s.bits.small →
    s.sinkReady (s.bits.bytesFilled xs.length) → writeBitList xs s = .ok () (s.wrote xs)
  | [], s, h, _ => by rw [writeBitList, State.wrote_nil h]
  | b :: bs, s, h, hsink => by
    have hfull : s.bits.bytesFilled (b :: bs).length =
        s.bits.bytesFilled 1 + (s.wrote [b]).bits.bytesFilled bs.length := by
      rw [List.length_cons, Nat.add_comm]
      exact s.bytesFilled_add [b] bs.length
    rw [hfull] at hsink
    rw [writeBitList, writeBit_eq_wrote h b fun k hk => hsink k (by omega), Res.andThen_ok,
      writeBitList_eq_wrote bs (s.wrote_small [b]) fun k hk => ?_, State.wrote_wrote, List.singleton_append]
    rw [State.wrote_sinkAt, List.length_singleton]
    exact hsink _ (by omega)

/-! ## A byte that the sink refuses -/

/-- Bits have been written up to the byte that the sink refuses after `j` accepted ones, and the error is to be raised. -/
def State.cutOff (j : Nat) (bits : List Bool) (s : State) : State :=
  let s1 := ({ s with bits := { s.bits with obuf := 0, obits := 0 } }).delivered (packBits j (s.bits.pending ++ bits))
  { s1 with ports := s1.ports.sinkAfter 1 }

theorem State.takeError_cutOff (s : State) (j : Nat) (bits : List Bool) :
    (s.cutOff j bits).takeError .sinkIo = s.wroteUpTo j bits := rfl

/-- Bits that were accepted come before the byte that is refused. -/
theorem State.cutOff_wrote (s : State) (xs ys : List Bool) (j : Nat) :
    (s.wrote xs).cutOff j ys = s.cutOff (s.bits.bytesFilled xs.length + j) (xs ++ ys) := by
  have hclear : ({ s.wrote xs with bits := { (s.wrote xs).bits with obuf := 0, obits := 0 } } : State) =
      ({ s with bits := { s.bits with obuf := 0, obits := 0 } } : State).delivered
        (packBits (s.bits.bytesFilled xs.length) (s.bits.pending ++ xs)) := by
    rw [State.wrote_eq s xs]
    rfl
  rw [State.cutOff, State.cutOff, hclear, State.delivered_append, State.packBits_pending_append]

/-- Bits after the refused byte do not matter. -/
theorem State.cutOff_append (s : State) {xs : List Bool} (ys : List Bool) {j : Nat}
    (h : j < s.bits.bytesFilled xs.length) : s.cutOff j (xs ++ ys) = s.cutOff j xs := by
  rw [State.cutOff, State.cutOff, ← List.append_assoc, packBits_append]
  rw [State.length_pending_append]
  rw [BitChannel.bytesFilled] at h
  omega

theorem sinkWrite_of_ioErr {s : State} {b : Byte} (h : s.ports.sinkAt 0 = some .ioErr) :
    sinkWrite b s = .raise .sinkIo { s with ports := s.ports.sinkAfter 1 } := by
  rw [← Ports.nextSink_eq] at h
  simp only [sinkWrite, h, Ports.sinkDone_eq]

/-- Bits are written up to the byte that the sink refuses (rule R332). -/
theorem writeBitList_eq_cutOff : ∀ (xs : List Bool) (j : Nat) {s : State}, s.bits.small →
    j < s.bits.bytesFilled xs.length → s.sinkRefusesAfter j → writeBitList xs s = .raise .sinkIo (s.cutOff j xs)
  | [], j, s, _, hj, _ => by
    have := s.bits.obits.isLt
    rw [BitChannel.bytesFilled, List.length_nil] at hj
    omega
  | b :: bs, j, s, h, hj, ⟨hacc, href⟩ => by
    have hfull : s.bits.bytesFilled (b :: bs).length =
        s.bits.bytesFilled 1 + (s.wrote [b]).bits.bytesFilled bs.length := by
      rw [List.length_cons, Nat.add_comm]
      exact s.bytesFilled_add [b] bs.length
    by_cases hfirst : j < s.bits.bytesFilled 1
    · have h7 : s.bits.obits.toNat = 7 ∧ j = 0 := by
        have := s.bits.obits.isLt
        rw [BitChannel.bytesFilled] at hfirst
        omega
      obtain ⟨h7, rfl⟩ := h7
      rcases writeBit_cases b s with ⟨hlt, _⟩ | ⟨_, hw⟩
      · omega
      · have hraise := sinkWrite_of_ioErr (b := (s.bits.obuf <<< 1) ||| (BitVec.ofBool b).setWidth 8)
          (s := { s with bits := { s.bits with obuf := 0, obits := 0 } }) href
        rw [writeBitList, hw, hraise, Res.andThen_raise, State.cutOff, packBits, State.delivered_nil]
    · obtain ⟨i, rfl⟩ : ∃ i, j = s.bits.bytesFilled 1 + i := ⟨j - s.bits.bytesFilled 1, by omega⟩
      have hrest : (s.wrote [b]).sinkRefusesAfter i :=
        ⟨fun k hk => (s.wrote_sinkAt [b] k).trans (hacc _ (Nat.add_lt_add_left hk _)), (s.wrote_sinkAt [b] i).trans href⟩
      rw [writeBitList, writeBit_eq_wrote h b fun k hk => hacc k (by omega), Res.andThen_ok,
        writeBitList_eq_cutOff bs i (s.wrote_small [b]) (by omega) hrest, State.cutOff_wrote]
      rfl

/-! ## `WRBITS` and `FLUSH` -/

/-- Settles O19. -/
theorem wrbitsAppendsTheLowBits : Obligations.WrbitsAppendsTheLowBits := by
  rintro s cnt value hs ⟨hsmall, _⟩ hsink
  rw [exec, execWrbits, accepted_of_ne _ hs, writeBits,
    writeBitList_eq_wrote _ hsmall (by rwa [length_fieldBits]), finish_ok]

/-- Settles O20. -/
theorem wrbitsStopsAtARefusedByte : Obligations.WrbitsStopsAtARefusedByte := by
  rintro s cnt value j hs ⟨hsmall, _⟩ hsink hj href
  rw [exec, execWrbits, accepted_of_ne _ hs, writeBits,
    writeBitList_eq_cutOff _ j hsmall (by rwa [length_fieldBits]) ⟨hsink, href⟩, finish_raise, State.takeError_cutOff]
  rfl

theorem flushBits_of_none {s : State} (h : s.bits.obits = 0) : flushBits s = .ok () s := by
  rw [flushBits, h]
  rfl

/-- Pending bits are sent as one byte (rule R171). -/
theorem flushBits_of_some {s : State} (h : s.bits.obits ≠ 0) : flushBits s =
    sinkWrite (s.bits.obuf <<< (8 - s.bits.obits.toNat)) { s with bits := { s.bits with obuf := 0, obits := 0 } } :=
  if_pos (Nat.pos_of_ne_zero fun h0 => h (BitVec.eq_of_toNat_eq h0))

/-- Settles O22. -/
theorem flushPadsThePendingBits : Obligations.FlushPadsThePendingBits := by
  rintro s hs _
  refine ⟨fun hnone => ?_, fun hsome hsink => ?_⟩
  · rw [exec, execFlush, accepted_of_ne _ hs, flushBits_of_none hnone, finish_ok]
  · have hsend := sinkWrite_of_ok (b := s.bits.obuf <<< (8 - s.bits.obits.toNat))
      (s := { s with bits := { s.bits with obuf := 0, obits := 0 } }) (hsink 0 Nat.zero_lt_one)
    rw [exec, execFlush, accepted_of_ne _ hs, flushBits_of_some hsome, hsend, finish_ok]

/-! ## `ENCSYM` -/

/-- A symbol's code is sent and its table bumped (rule R245). -/
theorem encodeSymbol_eq_wrote {s : State} (h : s.bits.small) (t : TableSel) (x : Nat)
    (hsink : s.sinkReady (s.bits.bytesFilled (s.code t x).length)) :
    encodeSymbol t x s = .ok () ((s.wrote (s.code t x)).bumpSym t x) := by
  rw [encodeSymbol, writeBitList_eq_wrote _ h hsink, Res.andThen_ok]

/-- A code that the sink refuses a byte of leaves its table (rule R245). -/
theorem encodeSymbol_eq_cutOff {s : State} (h : s.bits.small) (t : TableSel) (x : Nat) {j : Nat}
    (hj : j < s.bits.bytesFilled (s.code t x).length) (href : s.sinkRefusesAfter j) :
    encodeSymbol t x s = .raise .sinkIo (s.cutOff j (s.code t x)) := by
  rw [encodeSymbol, writeBitList_eq_cutOff _ j h hj href, Res.andThen_raise]

/-- `ENCSYM` with a symbol in range, outside `FAILED`. -/
theorem exec_encsym {s : State} (hs : s.fsm ≠ .failed) (t : TableSel) {x : BitVec 9} (hx : x.toNat < tableSymbols t) :
    exec (.encsym t x) s = finish s (encodeSymbol t x.toNat s) := by
  rw [exec, execEncsym, accepted_of_ne _ hs, symbolOk, decide_eq_true hx, checkOperand, if_pos rfl]

/-- Settles O42. -/
theorem encsymSendsTheCurrentCode : Obligations.EncsymSendsTheCurrentCode := by
  rintro s x hs ⟨hsmall, _⟩
  refine ⟨fun hx => ⟨fun hsink => ?_, fun j hj href => ?_⟩, fun hx => ⟨fun hsink => ?_, fun j hj href => ?_⟩⟩
  · rw [exec_encsym hs .a hx, encodeSymbol_eq_wrote hsmall .a _ hsink]
    rfl
  · rw [exec_encsym hs .a hx, encodeSymbol_eq_cutOff hsmall .a _ hj href]
    rfl
  · rw [exec_encsym hs .b hx, encodeSymbol_eq_wrote hsmall .b _ hsink]
    rfl
  · rw [exec_encsym hs .b hx, encodeSymbol_eq_cutOff hsmall .b _ hj href]
    rfl

end Sys2Proof.Machine

/-! SUPPORT. The input side, exactly: the state that read bits leave, where the source gives the bytes they need (rule R174,
rule R175), and where it ends or fails. -/

namespace Sys2Proof.Machine

/-! ## The state after bits read -/

@[simp] theorem BitChannel.length_unread (c : BitChannel) : c.unread.length = c.ibits.toNat := length_fieldBits _ _

@[simp] theorem State.readOff_ports (s : State) (n : Nat) (bytes : List Byte) :
    (s.readOff n bytes).ports = s.ports.srcAfter bytes.length := rfl

theorem State.readOff_zero (s : State) : s.readOff 0 [] = s := by
  have hbits : BitVec.ofNat 4 (s.bits.ibits.toNat + 8 * ([] : List Byte).length - 0) = s.bits.ibits := by
    rw [List.length_nil, Nat.mul_zero, Nat.add_zero, Nat.sub_zero, BitVec.ofNat_toNat, BitVec.setWidth_eq]
  rw [State.readOff, hbits]
  exact State.took_zero s

theorem State.readOff_ibits {s : State} {n : Nat} {bytes : List Byte}
    (h : s.bits.ibits.toNat + 8 * bytes.length < n + 16) :
    (s.readOff n bytes).bits.ibits.toNat = s.bits.ibits.toNat + 8 * bytes.length - n := by
  show (BitVec.ofNat 4 _).toNat = _
  rw [BitVec.toNat_ofNat]
  exact Nat.mod_eq_of_lt (by omega)

/-- Reading some bits and then more. -/
theorem State.readOff_readOff {s : State} {m : Nat} {xs : List Byte} (hm : m ≤ s.bits.ibits.toNat + 8 * xs.length)
    (h : s.bits.ibits.toNat + 8 * xs.length < m + 16) (k : Nat) (ys : List Byte) :
    (s.readOff m xs).readOff k ys = s.readOff (m + k) (xs ++ ys) := by
  have hbuf : ys.getLast?.getD (xs.getLast?.getD s.bits.ibuf) = (xs ++ ys).getLast?.getD s.bits.ibuf := by
    rw [List.getLast?_append]
    cases ys.getLast? <;> rfl
  have hbits : (s.readOff m xs).bits.ibits.toNat + 8 * ys.length - k =
      s.bits.ibits.toNat + 8 * (xs ++ ys).length - (m + k) := by
    rw [State.readOff_ibits h, List.length_append]
    omega
  calc (s.readOff m xs).readOff k ys
      = State.took ys.length (State.took xs.length { s with bits := { s.bits with
          ibuf := ys.getLast?.getD (xs.getLast?.getD s.bits.ibuf)
          ibits := BitVec.ofNat 4 (s.bits.ibits.toNat + 8 * (xs ++ ys).length - (m + k)) } }) := by
        rw [State.readOff, hbits]
        rfl
    _ = s.readOff (m + k) (xs ++ ys) := by
        rw [State.took_took, ← List.length_append, hbuf]
        rfl

/-! ## One bit -/

/-- An unread bit is read. -/
theorem readBit_of_unread {s : State} {b : Bool} {bs : List Bool} (hb : s.bits.unread = b :: bs) :
    readBit s = .ok b (s.readOff 1 []) ∧ (s.readOff 1 []).bits.unread = bs := by
  have hlen : s.bits.ibits.toNat = bs.length + 1 := by rw [← BitChannel.length_unread, hb, List.length_cons]
  have hne : s.bits.ibits ≠ 0 := fun h => by rw [h] at hlen; exact absurd hlen (by simp)
  have hbits : BitVec.ofNat 4 (s.bits.ibits.toNat + 8 * ([] : List Byte).length - 1) = s.bits.ibits - 1 := by
    apply BitVec.eq_of_toNat_eq
    rw [List.length_nil]
    bv_omega
  rw [BitChannel.unread, hlen, fieldBits, List.cons.injEq] at hb
  obtain ⟨hbit, hrest⟩ := hb
  constructor
  · rw [readBit, if_neg hne, takeBit, State.readOff, hbits, hlen, Nat.add_sub_cancel, ← hbit]
    exact congrArg (Res.ok _) (State.took_zero _).symm
  · have hrem := State.readOff_ibits (s := s) (n := 1) (bytes := []) (by rw [hlen]; have := s.bits.ibits.isLt; simp; omega)
    rw [BitChannel.unread, hrem, hlen]
    exact hrest

/-- A bit is read from a new source byte. -/
theorem readBit_of_byte {s : State} {c : Byte} (hz : s.bits.ibits = 0) (hc : s.ports.srcAt 0 = some (.byte c)) :
    ∃ b bs, fieldBits c.toNat 8 = b :: bs ∧ readBit s = .ok b (s.readOff 1 [c]) ∧
      (s.readOff 1 [c]).bits.unread = bs := by
  have hbits : (s.readOff 1 [c]).bits = { s.bits with ibuf := c, ibits := 7 } := by
    show { s.bits with ibuf := c, ibits := BitVec.ofNat 4 (s.bits.ibits.toNat + 8 * [c].length - 1) } = _
    rw [hz]
    rfl
  have htake : takeBit { s.took 1 with bits := { s.bits with ibuf := c, ibits := 8 } } =
      .ok (c.toNat.testBit 7) { s.took 1 with bits := { s.bits with ibuf := c, ibits := 7 } } := by
    rw [takeBit]
    simp only [show (8 : BitVec 4) - 1 = 7 by decide, show (8 : BitVec 4).toNat = 8 by decide]
    rfl
  refine ⟨_, _, rfl, ?_, by rw [hbits]; rfl⟩
  rw [readBit, if_pos hz, srcRead_of_byte hc]
  refine htake.trans ?_
  rw [← hbits]
  rfl

/-- The answer to a source request while a bit is needed that gives no byte, and the error it raises (rule R174). -/
def SrcAnswer.RaisesAs (a : Option SrcAnswer) (e : ErrCode) : Prop :=
  a = some .eof ∧ e = .corruptStream ∨ a = some .ioErr ∧ e = .sourceIo

theorem readBit_of_ended {s : State} {e : ErrCode} (hz : s.bits.ibits = 0)
    (h : SrcAnswer.RaisesAs (s.ports.srcAt 0) e) :
    readBit s = .raise e { s with ports := s.ports.srcAfter 1 } := by
  rw [SrcAnswer.RaisesAs, ← Ports.nextSrc_eq] at h
  rcases h with ⟨ha, rfl⟩ | ⟨ha, rfl⟩ <;>
    simp only [readBit, hz, if_true, srcRead, ha, Res.andThen_ok, Ports.srcDone_eq]

/-! ## Several bits -/

/-- From `s` these bits are read one after another, and `t` is left. -/
inductive State.Reads : State → List Bool → State → Prop
  | nil (s : State) : State.Reads s [] s
  | cons {s s1 t : State} {b : Bool} {bs : List Bool} (head : readBit s = .ok b s1) (tail : State.Reads s1 bs t) :
      State.Reads s (b :: bs) t

theorem State.Reads.append {s t : State} : ∀ {xs ys : List Bool}, s.Reads (xs ++ ys) t → ∃ m, s.Reads xs m ∧ m.Reads ys t
  | [], _, h => ⟨s, .nil s, h⟩
  | _ :: xs, _, .cons head tail =>
    let ⟨m, hx, hy⟩ := State.Reads.append (xs := xs) tail
    ⟨m, .cons head hx, hy⟩

theorem State.Reads.inputSide {s t : State} {bits : List Bool} (h : s.Reads bits t) : s.InputSide t := by
  induction h with
  | nil s => exact State.InputSide.refl s
  | @cons s s1 _ _ _ head _ ih =>
    have hside := readBit_inputSide s
    rw [head] at hside
    exact State.InputSide.trans hside ih

/-- The bits that the input holds are read, the source giving the bytes they need and no more being asked for. -/
theorem State.reads_readOff : ∀ (n : Nat) {s : State} {bytes : List Byte}, s.bits.ibits.toNat ≤ 8 →
    s.sourceReady bytes → bytes.length = s.bits.bytesNeeded n →
    s.Reads ((s.bits.unread ++ bytesBits bytes).take n) (s.readOff n bytes)
  | 0, s, bytes, _, _, hlen => by
    have hnil : bytes = [] := List.eq_nil_of_length_eq_zero (by rw [hlen, BitChannel.bytesNeeded]; omega)
    rw [hnil, State.readOff_zero, List.take_zero]
    exact .nil s
  | n + 1, s, bytes, h8, hsrc, hlen => by
    rw [BitChannel.bytesNeeded] at hlen
    cases hu : s.bits.unread with
    | cons b bs =>
      obtain ⟨hread, hrest⟩ := readBit_of_unread hu
      have hi : s.bits.ibits.toNat = bs.length + 1 := by rw [← BitChannel.length_unread, hu, List.length_cons]
      have hi1 := State.readOff_ibits (s := s) (n := 1) (bytes := []) (by simp; omega)
      have hi1' : (s.readOff 1 []).bits.ibits.toNat = s.bits.ibits.toNat - 1 := hi1
      have ih := State.reads_readOff n (s := s.readOff 1 []) (bytes := bytes) (by omega)
        (by rwa [State.sourceReady, State.readOff_ports, List.length_nil, Ports.srcAfter_zero])
        (by rw [BitChannel.bytesNeeded, hlen]; omega)
      rw [hrest, State.readOff_readOff (by simp; omega) (by simp; omega), Nat.add_comm, List.nil_append] at ih
      exact .cons hread ih
    | nil =>
      have hi : s.bits.ibits.toNat = 0 := by rw [← BitChannel.length_unread, hu, List.length_nil]
      obtain ⟨c, bs, rfl⟩ : ∃ c bs, bytes = c :: bs :=
        List.exists_cons_of_ne_nil (List.ne_nil_of_length_pos (by omega))
      obtain ⟨hc, hsrc1⟩ := Ports.supplies_cons.1 hsrc
      obtain ⟨b, x, hx, hread, hrest⟩ := readBit_of_byte (BitVec.eq_of_toNat_eq hi) hc
      have hi1 := State.readOff_ibits (s := s) (n := 1) (bytes := [c]) (by simp; omega)
      have hi1' : (s.readOff 1 [c]).bits.ibits.toNat = 7 := by rw [hi1, hi]; rfl
      rw [List.length_cons] at hlen
      have ih := State.reads_readOff n (s := s.readOff 1 [c]) (bytes := bs) (by omega) hsrc1
        (by rw [BitChannel.bytesNeeded]; omega)
      rw [hrest, State.readOff_readOff (by simp) (by simp; omega), Nat.add_comm] at ih
      rw [List.nil_append, bytesBits_cons, hx]
      exact .cons hread ih

/-- Everything the input still holds is read, and the request for the next byte raises. -/
theorem State.reads_all {s : State} {bytes : List Byte} {e : ErrCode} (h8 : s.bits.ibits.toNat ≤ 8)
    (hsrc : s.sourceReady bytes) (hend : SrcAnswer.RaisesAs (s.ports.srcAt bytes.length) e) :
    (let n := s.bits.ibits.toNat + 8 * bytes.length
     s.Reads (s.bits.unread ++ bytesBits bytes) (s.readOff n bytes) ∧
       readBit (s.readOff n bytes) =
         .raise e { s.readOff n bytes with ports := (s.readOff n bytes).ports.srcAfter 1 }) := by
  have hlen : (s.bits.unread ++ bytesBits bytes).length = s.bits.ibits.toNat + 8 * bytes.length := by
    rw [List.length_append, BitChannel.length_unread, length_bytesBits]
  have hreads := State.reads_readOff (s.bits.ibits.toNat + 8 * bytes.length) h8 hsrc
    (by rw [BitChannel.bytesNeeded]; omega)
  rw [List.take_of_length_le hlen.le] at hreads
  have hzero := State.readOff_ibits (s := s) (n := s.bits.ibits.toNat + 8 * bytes.length) (bytes := bytes) (by omega)
  rw [Nat.sub_self] at hzero
  refine ⟨hreads, readBit_of_ended (BitVec.eq_of_toNat_eq hzero) ?_⟩
  rw [State.readOff_ports, Ports.srcAt_srcAfter]
  exact hend

/-! ## Fields -/

theorem readBitsFrom_of_reads {s t : State} {bits : List Bool} (h : s.Reads bits t) : ∀ v,
    readBitsFrom bits.length v s = .ok (bits.foldl (fun v b => 2 * v + b.toNat) v) t := by
  induction h with
  | nil s => exact fun v => rfl
  | cons head _ ih =>
    intro v
    rw [List.length_cons, readBitsFrom, head, Res.andThen_ok, ih, List.foldl_cons]

theorem readBitsFrom_of_raise {s t u : State} {bits : List Bool} {e : ErrCode} (h : s.Reads bits t)
    (hend : readBit t = .raise e u) : ∀ n v, bits.length < n → readBitsFrom n v s = .raise e u := by
  induction h with
  | nil s =>
    intro n v hn
    obtain ⟨n, rfl⟩ : ∃ k, n = k + 1 := ⟨n - 1, by rw [List.length_nil] at hn; omega⟩
    rw [readBitsFrom, hend, Res.andThen_raise]
  | cons head _ ih =>
    intro n v hn
    rw [List.length_cons] at hn
    obtain ⟨n, rfl⟩ : ∃ k, n = k + 1 := ⟨n - 1, by omega⟩
    rw [readBitsFrom, head, Res.andThen_ok, ih hend n _ (by omega)]

/-- Settles O23. -/
theorem rdbitsReadsTheNextBits : Obligations.RdbitsReadsTheNextBits := by
  rintro s cnt bytes hs ⟨_, h8⟩ hsrc hlen
  have htake : ((s.bits.unread ++ bytesBits bytes).take cnt.toNat).length = cnt.toNat := by
    rw [List.length_take, List.length_append, BitChannel.length_unread, length_bytesBits, hlen, BitChannel.bytesNeeded]
    omega
  have hread := readBitsFrom_of_reads (State.reads_readOff cnt.toNat h8 hsrc hlen) 0
  rw [htake] at hread
  rw [exec, execRdbits, accepted_of_ne _ hs, readBits, hread, Res.andThen_ok, finish_ok]
  rfl

/-- Settles O24. -/
theorem rdbitsEndsWithTheSource : Obligations.RdbitsEndsWithTheSource := by
  rintro s cnt bytes e hs ⟨_, h8⟩ hsrc hlen hend
  obtain ⟨hreads, hraise⟩ := State.reads_all h8 hsrc hend
  have hshort : (s.bits.unread ++ bytesBits bytes).length < cnt.toNat := by
    rw [BitChannel.bytesNeeded] at hlen
    rw [List.length_append, BitChannel.length_unread, length_bytesBits]
    omega
  rw [exec, execRdbits, accepted_of_ne _ hs, readBits, readBitsFrom_of_raise hreads hraise _ _ hshort,
    Res.andThen_raise, finish_raise]
  rfl

/-! ## Symbols -/

section

variable {n w : Nat} {tab : CodeTable n w} (hl : tab.Linked) {sel : TableSel} (hT : tableNodes sel = nodeCount n)

theorem State.InputSide.sonAt_eq {s t : State} (h : s.InputSide t) (sel : TableSel) (i : Nat) :
    t.sonAt sel i = s.sonAt sel i := by
  obtain ⟨_, _, _, rfl⟩ := h
  cases sel <;> rfl

include hl hT

/-- One bit of a walk, from the link `c` of an internal node of the table `tab` that is selected. -/
theorem walkFrom_of_readBit {s s1 : State} {fuel c : Nat} {b : Bool} (hson : ∀ i, s.sonAt sel i = tab.sonAt i)
    (hlt : c < nodeCount n) (hc : c + 1 < nodeCount n ∧ c < fuel + 1) (hread : readBit s = .ok b s1) :
    walkFrom sel (fuel + 1) c s = walkFrom sel fuel (tab.sonAt (c + b.toNat)) s1 ∧
      (∀ i, s1.sonAt sel i = tab.sonAt i) ∧
      (tab.sonAt (c + b.toNat) < nodeCount n →
        tab.sonAt (c + b.toNat) + 1 < nodeCount n ∧ tab.sonAt (c + b.toNat) < fuel) := by
  have hside := readBit_inputSide s
  rw [hread] at hside
  have hson1 : ∀ i, s1.sonAt sel i = tab.sonAt i := fun i => (State.InputSide.sonAt_eq hside sel i).trans (hson i)
  have hb : b.toNat ≤ 1 := Bool.toNat_le b
  refine ⟨by rw [walkFrom, if_pos (hT ▸ hlt), hread, Res.andThen_ok, hson1], hson1, fun hs => ?_⟩
  have := hl.below (c + b.toNat) (by omega) hs
  omega

/-- A walk over exactly the bits of a symbol. -/
theorem walkFrom_of_reads {s t : State} {bits : List Bool} (h : s.Reads bits t) : ∀ {fuel c sym : Nat},
    (∀ i, s.sonAt sel i = tab.sonAt i) → (c < nodeCount n → c + 1 < nodeCount n ∧ c < fuel) →
    tab.walkBits c bits = some (sym, []) → walkFrom sel fuel c s = .ok sym t := by
  induction h with
  | nil s =>
    intro fuel c sym _ _ hw
    have hge : nodeCount n ≤ c := by
      by_contra hlt
      rw [CodeTable.walkBits, if_pos (by omega)] at hw
      cases hw
    rw [CodeTable.walkBits_of_le hge] at hw
    obtain rfl : c - nodeCount n = sym := by simpa using hw
    cases fuel with
    | zero => rw [walkFrom, hT]
    | succ fuel => rw [walkFrom, if_neg (by omega), hT]
  | cons head _ ih =>
    intro fuel c sym hson hc hw
    by_cases hlt : c < nodeCount n
    · obtain ⟨fuel, rfl⟩ : ∃ f, fuel = f + 1 := ⟨fuel - 1, by have := hc hlt; omega⟩
      rw [CodeTable.walkBits_cons hlt] at hw
      obtain ⟨hstep, hson1, hc1⟩ := walkFrom_of_readBit hl hT hson hlt (hc hlt) head
      rw [hstep, ih hson1 hc1 hw]
    · rw [CodeTable.walkBits_of_le (by omega)] at hw
      simp at hw

/-- A walk whose input ends inside a code. -/
theorem walkFrom_of_raise {s t u : State} {bits : List Bool} {e : ErrCode} (h : s.Reads bits t)
    (hend : readBit t = .raise e u) : ∀ {fuel c : Nat}, (∀ i, s.sonAt sel i = tab.sonAt i) →
    (c < nodeCount n → c + 1 < nodeCount n ∧ c < fuel) → tab.walkBits c bits = none →
    walkFrom sel fuel c s = .raise e u := by
  induction h with
  | nil s =>
    intro fuel c _ hc hw
    have hlt : c < nodeCount n := by
      by_contra hge
      rw [CodeTable.walkBits_of_le (by omega)] at hw
      cases hw
    obtain ⟨fuel, rfl⟩ : ∃ f, fuel = f + 1 := ⟨fuel - 1, by have := hc hlt; omega⟩
    rw [walkFrom, if_pos (hT ▸ hlt), hend, Res.andThen_raise]
  | cons head _ ih =>
    intro fuel c hson hc hw
    by_cases hlt : c < nodeCount n
    · obtain ⟨fuel, rfl⟩ : ∃ f, fuel = f + 1 := ⟨fuel - 1, by have := hc hlt; omega⟩
      rw [CodeTable.walkBits_cons hlt] at hw
      obtain ⟨hstep, hson1, hc1⟩ := walkFrom_of_readBit hl hT hson hlt (hc hlt) head
      rw [hstep, ih hend hson1 hc1 hw]
    · rw [CodeTable.walkBits_of_le (by omega)] at hw
      cases hw

end

theorem CodeTable.walkBits_append {n w : Nat} {t : CodeTable n w} (ys : List Bool) : ∀ {xs rest : List Bool} {c sym : Nat},
    t.walkBits c xs = some (sym, rest) → t.walkBits c (xs ++ ys) = some (sym, rest ++ ys)
  | xs, rest, c, sym, h => by
    by_cases hlt : c < nodeCount n
    · cases xs with
      | nil => rw [CodeTable.walkBits, if_pos hlt] at h; cases h
      | cons x xs =>
        rw [CodeTable.walkBits_cons hlt] at h
        rw [List.cons_append, CodeTable.walkBits_cons hlt, CodeTable.walkBits_append ys h]
    · rw [CodeTable.walkBits_of_le (by omega)] at h ⊢
      obtain ⟨rfl, rfl⟩ : c - nodeCount n = sym ∧ xs = rest := by simpa using h
      rfl
  termination_by xs => xs.length

section

variable {n w : Nat} {tab : CodeTable n w} (hn : 1 ≤ n) (ht : tab.wf = true)
include hn ht

/-- A proper part of a code is no code. -/
theorem CodeTable.decodeBits_of_short {sym : Nat} (hs : sym < n) {bits : List Bool} (hpre : bits <+: tab.code sym)
    (hlen : bits.length < (tab.code sym).length) : tab.decodeBits bits = none := by
  by_contra hne
  obtain ⟨⟨x, rest⟩, hx⟩ := Option.ne_none_iff_exists'.1 hne
  obtain ⟨more, hmore⟩ := hpre
  have hall := CodeTable.walkBits_append more hx
  have hcode := CodeTable.decodeBits_code hn ht hs []
  rw [List.append_nil, CodeTable.decodeBits, ← hmore, hall] at hcode
  simp only [Option.some.injEq, Prod.mk.injEq, List.append_eq_nil_iff] at hcode
  rw [← hmore, hcode.2.2, List.append_nil] at hlen
  exact lt_irrefl _ hlen

variable {sel : TableSel} (hT : tableNodes sel = nodeCount n) {s t : State} (hson : ∀ i, s.sonAt sel i = tab.sonAt i)
include hT hson

/-- The walk of `DecodeSymbol` over the table `tab` that is selected, from the root's link. -/
theorem walkSymbol_eq_walkFrom : walkSymbol sel s = walkFrom sel (nodeCount n) (tab.sonAt (rootNode n)) s ∧
    (tab.sonAt (rootNode n) < nodeCount n →
      tab.sonAt (rootNode n) + 1 < nodeCount n ∧ tab.sonAt (rootNode n) < nodeCount n) := by
  obtain ⟨hl, _, _⟩ := (CodeTable.wf_iff hn tab).1 ht
  have hTn : nodeCount n = 2 * n - 1 := rfl
  have hRn : rootNode n = 2 * n - 2 := rfl
  refine ⟨by rw [walkSymbol, hson, hT, show nodeCount n - 1 = rootNode n by omega], fun hc => ?_⟩
  have := hl.below (rootNode n) (by omega) hc
  omega

/-- A symbol is read from exactly its code (rule R247). -/
theorem walkSymbol_of_reads {sym : Nat} (hs : sym < n) (h : s.Reads (tab.code sym) t) : walkSymbol sel s = .ok sym t := by
  obtain ⟨hl, _, _⟩ := (CodeTable.wf_iff hn tab).1 ht
  obtain ⟨hwalk, hroot⟩ := walkSymbol_eq_walkFrom hn ht hT hson
  have hcode := CodeTable.decodeBits_code hn ht hs []
  rw [List.append_nil] at hcode
  rw [hwalk, walkFrom_of_reads hl hT h hson hroot hcode]

/-- The input ends inside a code. -/
theorem walkSymbol_of_raise {sym : Nat} (hs : sym < n) {u : State} {bits : List Bool} {e : ErrCode} (h : s.Reads bits t)
    (hend : readBit t = .raise e u) (hpre : bits <+: tab.code sym) (hlen : bits.length < (tab.code sym).length) :
    walkSymbol sel s = .raise e u := by
  obtain ⟨hl, _, _⟩ := (CodeTable.wf_iff hn tab).1 ht
  obtain ⟨hwalk, hroot⟩ := walkSymbol_eq_walkFrom hn ht hT hson
  rw [hwalk, walkFrom_of_raise hl hT h hend hson hroot (CodeTable.decodeBits_of_short hn ht hs hpre hlen)]

end

/-! ## `DECSYM` -/

theorem exec_decsym {s : State} (hs : s.fsm ≠ .failed) (t : TableSel) : exec (.decsym t) s =
    finish s ((walkSymbol t s).andThen fun sym s1 => .ok () ((s1.bumpSym t sym).setResult (BitVec.ofNat 32 sym))) := by
  rw [exec, execDecsym, accepted_of_ne _ hs, decodeSymbol, Res.andThen_assoc]
  rfl

/-- The unread bits and the source's bytes begin with a code, and no byte is left over. -/
theorem State.reads_of_prefix {s : State} {bytes : List Byte} {bits : List Bool} (h8 : s.bits.ibits.toNat ≤ 8)
    (hsrc : s.sourceReady bytes) (hlen : bytes.length = s.bits.bytesNeeded bits.length)
    (hpre : bits <+: s.bits.unread ++ bytesBits bytes) : s.Reads bits (s.readOff bits.length bytes) := by
  have hreads := State.reads_readOff bits.length h8 hsrc hlen
  rwa [← List.prefix_iff_eq_take.1 hpre] at hreads

/-- Settles O43. -/
theorem decsymReadsOneSymbol : Obligations.DecsymReadsOneSymbol := by
  rintro s x bytes hs ⟨_, h8⟩ ⟨hA, hB⟩ hsrc
  have hlen : (s.bits.unread ++ bytesBits bytes).length = s.bits.ibits.toNat + 8 * bytes.length := by
    rw [List.length_append, BitChannel.length_unread, length_bytesBits]
  refine ⟨fun hx hneed hpre => ?okA, fun hx hneed hpre => ?okB, fun e hend => ?_⟩
  case okA =>
    have hwalk := walkSymbol_of_reads (sel := .a) (by decide) hA rfl (fun _ => rfl) hx
      (State.reads_of_prefix h8 hsrc hneed hpre)
    rw [exec_decsym hs, hwalk]
    rfl
  case okB =>
    have hwalk := walkSymbol_of_reads (sel := .b) (by decide) hB rfl (fun _ => rfl) hx
      (State.reads_of_prefix h8 hsrc hneed hpre)
    rw [exec_decsym hs, hwalk]
    rfl
  obtain ⟨hreads, hraise⟩ := State.reads_all h8 hsrc hend
  refine ⟨fun hx hpre hshort => ?endA, fun hx hpre hshort => ?endB⟩
  case endA =>
    have hwalk := walkSymbol_of_raise (sel := .a) (by decide) hA rfl (fun _ => rfl) hx hreads hraise hpre hshort
    rw [exec_decsym hs, hwalk, hlen]
    rfl
  case endB =>
    have hwalk := walkSymbol_of_raise (sel := .b) (by decide) hB rfl (fun _ => rfl) hx hreads hraise hpre hshort
    rw [exec_decsym hs, hwalk, hlen]
    rfl

end Sys2Proof.Machine

/-! SUPPORT. The lookahead, exactly: the state that filling (rule R200) and consuming (rule R205) leave, where the source
gives the bytes wanted and where it ends or fails. -/

namespace Sys2Proof.Machine

/-! ## Filling -/

theorem wantsByte_iff (s : State) : wantsByte s = true ↔
    s.win.lacnt.toNat < 60 ∧ s.count.toNat + s.win.lacnt.toNat < s.len.toNat := decide_eq_true_iff

/-- A byte is wanted where there is room for one. -/
theorem wantsByte_iff_fillRoom (s : State) : wantsByte s = true ↔ 0 < s.fillRoom := by
  rw [wantsByte_iff, State.fillRoom]
  simp only [Config.lookaheadSize]
  omega

/-- One byte has joined the lookahead. -/
theorem fillOne_of_byte {s : State} {b : Byte} (hw : wantsByte s = true) (h : s.ports.srcAt 0 = some (.byte b)) :
    fillOne s = .ok true (State.filled [b] s) := by
  rw [fillOne, if_pos hw, srcRead_of_byte h]
  rfl

theorem fillOne_of_not {s : State} (hw : ¬wantsByte s = true) : fillOne s = .ok false s := if_neg hw

/-- The source gives no byte: it has ended, or it has failed. -/
abbrev Ports.ended (p : Ports) (k : Nat) : Prop := p.srcAt k = some .eof ∨ p.srcAt k = some .ioErr

theorem fillOne_of_ended {s : State} (hw : wantsByte s = true) (h : s.ports.ended 0) :
    fillOne s = .raise .sourceIo { s with ports := s.ports.srcAfter 1 } := by
  rw [Ports.ended, ← Ports.nextSrc_eq] at h
  rcases h with h | h <;> simp only [fillOne, hw, if_true, srcRead, h, Res.andThen_ok, Ports.srcDone_eq]

section

variable {s : State} (hw : wantsByte s = true) (b : Byte)
include hw

theorem State.filled_lacnt : (State.filled [b] s).win.lacnt.toNat = s.win.lacnt.toNat + 1 := by
  have hlt := ((wantsByte_iff s).1 hw).1
  show (s.win.lacnt + 1).toNat = _
  bv_omega

theorem State.filled_fillRoom : (State.filled [b] s).fillRoom + 1 = s.fillRoom := by
  have hpos := (wantsByte_iff_fillRoom s).1 hw
  rw [State.fillRoom, State.filled_lacnt hw b]
  rw [State.fillRoom] at hpos ⊢
  show min _ (s.len.toNat - (s.count.toNat + (s.win.lacnt.toNat + 1))) + 1 = _
  omega

end

theorem State.filled_cons (b : Byte) (bs : List Byte) (s : State) :
    State.filled (b :: bs) s = State.filled bs (State.filled [b] s) := rfl

/-- The lookahead takes the bytes there is room for (rule R200). -/
theorem fillUpTo_eq_filled : ∀ (k : Nat) {s : State} {bytes : List Byte}, s.sourceReady bytes →
    bytes.length = s.fillRoom → s.fillRoom ≤ k → fillUpTo k s = .ok () (State.filled bytes s)
  | 0, s, bytes, _, hlen, hk => by
    rw [List.eq_nil_of_length_eq_zero (hlen.trans (Nat.le_zero.1 hk))]
    rfl
  | k + 1, s, [], _, hlen, _ => by
    have hno : ¬wantsByte s = true := fun h => absurd ((wantsByte_iff_fillRoom s).1 h) (by rw [← hlen]; simp)
    rw [fillUpTo, fillOne_of_not hno]
    rfl
  | k + 1, s, b :: bs, hsrc, hlen, hk => by
    obtain ⟨hb, hsrc1⟩ := Ports.supplies_cons.1 hsrc
    have hw : wantsByte s = true := (wantsByte_iff_fillRoom s).2 (by rw [← hlen]; simp)
    have hroom := State.filled_fillRoom hw b
    rw [List.length_cons] at hlen
    rw [fillUpTo, fillOne_of_byte hw hb, Res.andThen_ok, if_pos rfl,
      fillUpTo_eq_filled k (s := State.filled [b] s) hsrc1 (by omega) (by omega)]
    rfl

/-- The lookahead takes the bytes that a short source gives, and the request for the next one raises (rule R331). -/
theorem fillUpTo_of_ended : ∀ (k : Nat) {s : State} {bytes : List Byte}, s.sourceReady bytes →
    s.ports.ended bytes.length → bytes.length < s.fillRoom → s.fillRoom ≤ k →
    fillUpTo k s = .raise .sourceIo
      { State.filled bytes s with ports := (State.filled bytes s).ports.srcAfter 1 }
  | 0, s, bytes, _, _, hlen, hk => by omega
  | k + 1, s, [], _, hend, hlen, _ => by
    have hw : wantsByte s = true := (wantsByte_iff_fillRoom s).2 hlen
    rw [fillUpTo, fillOne_of_ended hw hend]
    rfl
  | k + 1, s, b :: bs, hsrc, hend, hlen, hk => by
    obtain ⟨hb, hsrc1⟩ := Ports.supplies_cons.1 hsrc
    have hw : wantsByte s = true := (wantsByte_iff_fillRoom s).2 (by omega)
    have hroom := State.filled_fillRoom hw b
    have hend1 : (State.filled [b] s).ports.ended bs.length := by
      rw [List.length_cons, Nat.add_comm] at hend
      show (s.ports.srcAfter 1).ended bs.length
      rwa [Ports.ended, Ports.srcAt_srcAfter]
    rw [List.length_cons] at hlen
    rw [fillUpTo, fillOne_of_byte hw hb, Res.andThen_ok, if_pos rfl,
      fillUpTo_of_ended k (s := State.filled [b] s) hsrc1 hend1 (by omega) (by omega)]
    rfl

theorem State.fillRoom_le (s : State) : s.fillRoom ≤ Config.lookaheadSize := by
  rw [State.fillRoom]
  exact le_trans (Nat.min_le_left _ _) (Nat.sub_le _ _)

/-- Bytes stored one after another from an address on. -/
def Memory.writeAll : List Byte → Nat → Memory → Memory
  | [], _, m => m
  | b :: bs, a, m => Memory.writeAll bs (a + 1) (m.write a b)

section

variable {size : Nat}

theorem Memory.wf_writeAll : ∀ (bytes : List Byte) (a : Nat) {m : Memory}, m.wf size = true →
    a + bytes.length ≤ size → (m.writeAll bytes a).wf size = true
  | [], _, _, h, _ => h
  | b :: bs, a, m, h, ha => by
    rw [List.length_cons] at ha
    exact Memory.wf_writeAll bs (a + 1) (Memory.wf_write b h (by omega)) (by omega)

/-- What stands at an address after bytes have been stored from `a` on. -/
theorem Memory.read_writeAll : ∀ (bytes : List Byte) (a : Nat) {m : Memory}, m.wf size = true →
    a + bytes.length ≤ size → ∀ x, (m.writeAll bytes a).read x =
      if a ≤ x ∧ x < a + bytes.length then bytes.getD (x - a) 0 else m.read x
  | [], a, m, _, _, x => by
    rw [if_neg (by rw [List.length_nil]; omega)]
    rfl
  | b :: bs, a, m, h, ha, x => by
    rw [List.length_cons] at ha ⊢
    rw [Memory.writeAll, Memory.read_writeAll bs (a + 1) (Memory.wf_write b h (by omega)) (by omega), Memory.read_write h]
    by_cases hx : x = a
    · subst hx
      rw [if_neg (by omega), if_pos rfl, if_pos (by omega), Nat.sub_self]
      rfl
    · rw [if_neg hx]
      by_cases hin : a + 1 ≤ x ∧ x < a + 1 + bs.length
      · rw [if_pos hin, if_pos (by omega), show x - a = (x - (a + 1)) + 1 by omega, List.getD_cons_succ]
      · rw [if_neg hin, if_neg (by omega)]

end

/-- The state after a fill, its fields written out. -/
theorem State.filled_eq : ∀ (bytes : List Byte) (s : State), s.win.lacnt.toNat + bytes.length < 64 →
    State.filled bytes s = { s.took bytes.length with
      win := { s.win with
        la := s.win.la.writeAll bytes s.win.lacnt.toNat
        lacnt := BitVec.ofNat 6 (s.win.lacnt.toNat + bytes.length) } }
  | [], s, _ => by
    rw [List.length_nil, State.took_zero, Nat.add_zero, BitVec.ofNat_toNat, BitVec.setWidth_eq]
    rfl
  | b :: bs, s, h => by
    rw [List.length_cons] at h ⊢
    have hcnt : (s.win.lacnt + 1).toNat = s.win.lacnt.toNat + 1 := by bv_omega
    have hcnt1 : (State.filled [b] s).win.lacnt.toNat = s.win.lacnt.toNat + 1 := hcnt
    have hsum : s.win.lacnt.toNat + 1 + bs.length = s.win.lacnt.toNat + (bs.length + 1) := by omega
    have htook : (s.took 1).took bs.length = s.took (bs.length + 1) := by rw [State.took_took, Nat.add_comm]
    rw [State.filled_cons, State.filled_eq bs (State.filled [b] s) (by omega), hcnt1, hsum, ← htook]
    rfl

/-! ## `LAFILL` -/

/-- Settles O30. -/
theorem lafillTakesTheDeclaredBytes : Obligations.LafillTakesTheDeclaredBytes := by
  rintro s bytes hs ⟨_, hla, _, hcnt, _⟩ hsrc hlen
  have hroom : s.win.lacnt.toNat + bytes.length ≤ 60 := by
    rw [hlen, State.fillRoom]
    simp only [Config.lookaheadSize] at hcnt ⊢
    omega
  have hread := Memory.read_writeAll bytes s.win.lacnt.toNat hla hroom
  have hresult : (BitVec.ofNat 6 (s.win.lacnt.toNat + bytes.length)).setWidth 32 =
      BitVec.ofNat 32 (s.win.lacnt.toNat + bytes.length) :=
    BitVec.setWidth_ofNat_of_le_of_lt (by decide) (by omega)
  refine ⟨s.win.la.writeAll bytes s.win.lacnt.toNat, ?state, fun i hi => ?new, fun a ha => ?old⟩
  case state =>
    rw [exec, execLafill, accepted_of_ne _ hs, fill, fillUpTo_eq_filled _ hsrc hlen s.fillRoom_le, Res.andThen_ok,
      finish_ok, State.filled_eq bytes s (by omega), ← hresult]
    rfl
  case new => rw [hread, if_pos (by omega), Nat.add_sub_cancel_left]
  case old => rw [hread, if_neg (by omega)]

/-- Settles O31. -/
theorem lafillFailsOnAShortSource : Obligations.LafillFailsOnAShortSource := by
  intro s bytes hs hsrc hlen hend
  rw [exec, execLafill, accepted_of_ne _ hs, fill, fillUpTo_of_ended _ hsrc hend hlen s.fillRoom_le, Res.andThen_raise,
    finish_raise]
  rfl

/-! ## Consuming -/

/-- A byte moved in and none refilled, or one. -/
theorem State.consumed_succ (k : Nat) (s : State) : State.consumed (k + 1) [] s = State.consumed k [] (shiftIn s) := rfl

/-- What stays as it is at every turn of `Consume`: the counts in their ranges, `COUNT` not wrapping. -/
structure State.CanConsume (s : State) (k : Nat) : Prop where
  enough : k ≤ s.win.lacnt.toNat
  room : s.win.lacnt.toNat ≤ 60
  noWrap : s.count.toNat + s.win.lacnt.toNat < 2 ^ 32

namespace State.CanConsume

variable {s : State} {k : Nat} (h : s.CanConsume (k + 1))
include h

theorem shiftIn_lacnt : (shiftIn s).win.lacnt.toNat + 1 = s.win.lacnt.toNat := by
  have := h.enough
  show (s.win.lacnt - 1).toNat + 1 = _
  bv_omega

theorem shiftIn_count : (shiftIn s).count.toNat = s.count.toNat + 1 := by
  have := h.enough
  have := h.noWrap
  show (s.count + 1).toNat = _
  bv_omega

/-- A byte is wanted after a byte has moved in exactly where one is among the refills. -/
theorem wantsByte_shiftIn : wantsByte (shiftIn s) = true ↔ 0 < s.refills (k + 1) := by
  have h1 := h.shiftIn_lacnt
  have h2 := h.shiftIn_count
  have := h.room
  rw [wantsByte_iff, State.refills, State.shiftIn_len]
  omega

theorem shiftIn : (Machine.shiftIn s).CanConsume k := by
  obtain ⟨h1, h2, h3⟩ := h
  have hl := State.CanConsume.shiftIn_lacnt ⟨h1, h2, h3⟩
  have hc := State.CanConsume.shiftIn_count ⟨h1, h2, h3⟩
  exact ⟨by omega, by omega, by omega⟩

theorem filled (hw : 0 < s.refills (k + 1)) (b : Byte) : (State.filled [b] (Machine.shiftIn s)).CanConsume k := by
  have hwant := h.wantsByte_shiftIn.2 hw
  have h1 := State.filled_lacnt hwant b
  have h2 : (State.filled [b] (Machine.shiftIn s)).count.toNat = s.count.toNat + 1 := h.shiftIn_count
  have hl := h.shiftIn_lacnt
  have hlen := s.len.isLt
  obtain ⟨he, hr, hn⟩ := h
  rw [State.refills] at hw
  exact ⟨by omega, by omega, by omega⟩

theorem refills_shiftIn (hw : s.refills (k + 1) = 0) : (Machine.shiftIn s).refills k = 0 := by
  have hl := h.shiftIn_lacnt
  have hc := h.shiftIn_count
  rw [State.refills] at hw ⊢
  rw [State.shiftIn_len]
  omega

theorem refills_filled (hw : 0 < s.refills (k + 1)) (b : Byte) :
    (State.filled [b] (Machine.shiftIn s)).refills k + 1 = s.refills (k + 1) := by
  have h1 := State.filled_lacnt (h.wantsByte_shiftIn.2 hw) b
  have h2 : (State.filled [b] (Machine.shiftIn s)).count.toNat = s.count.toNat + 1 := h.shiftIn_count
  have h3 : (State.filled [b] (Machine.shiftIn s)).len = s.len := rfl
  have hl := h.shiftIn_lacnt
  rw [State.refills] at hw ⊢
  rw [State.refills, h3]
  omega

end State.CanConsume

/-- Bytes are consumed where the source gives the refills (rule R205). -/
theorem consumeTurns_eq_consumed : ∀ (k : Nat) {s : State} {bytes : List Byte}, s.CanConsume k → s.sourceReady bytes →
    bytes.length = s.refills k → consumeTurns k s = .ok () (State.consumed k bytes s)
  | 0, s, bytes, _, _, _ => by
    cases bytes <;> rfl
  | k + 1, s, [], h, _, hlen => by
    have hno : ¬wantsByte (shiftIn s) = true := fun hw => absurd (h.wantsByte_shiftIn.1 hw) (by rw [← hlen]; simp)
    rw [consumeTurns, consumeOne, fillOne_of_not hno, Res.andThen_ok, Res.andThen_ok,
      consumeTurns_eq_consumed k h.shiftIn (bytes := []) (fun _ hk => absurd hk (Nat.not_lt_zero _))
        (h.refills_shiftIn hlen.symm).symm]
    rfl
  | k + 1, s, b :: bs, h, hsrc, hlen => by
    obtain ⟨hb, hsrc1⟩ := Ports.supplies_cons.1 hsrc
    rw [List.length_cons] at hlen
    have hrefill := h.refills_filled (by omega) b
    rw [consumeTurns, consumeOne, fillOne_of_byte (h.wantsByte_shiftIn.2 (by omega)) hb, Res.andThen_ok, Res.andThen_ok,
      consumeTurns_eq_consumed k (s := State.filled [b] (shiftIn s)) (h.filled (by omega) b) hsrc1 (by omega)]
    rfl

/-- The request for a refill raises: the byte that moved in before it stays consumed (rule R331). -/
theorem consumeTurns_of_ended : ∀ (k : Nat) {s : State} {bytes : List Byte}, s.CanConsume k → s.sourceReady bytes →
    s.ports.ended bytes.length → bytes.length < s.refills k → consumeTurns k s = .raise .sourceIo
      { State.consumed (bytes.length + 1) bytes s with
        ports := (State.consumed (bytes.length + 1) bytes s).ports.srcAfter 1 }
  | 0, s, bytes, _, _, _, hlen => by rw [State.refills, Nat.zero_min] at hlen; omega
  | k + 1, s, [], h, _, hend, hlen => by
    rw [consumeTurns, consumeOne, fillOne_of_ended (h.wantsByte_shiftIn.2 hlen) hend]
    rfl
  | k + 1, s, b :: bs, h, hsrc, hend, hlen => by
    obtain ⟨hb, hsrc1⟩ := Ports.supplies_cons.1 hsrc
    rw [List.length_cons] at hlen
    have hrefill := h.refills_filled (by omega) b
    have hend1 : (State.filled [b] (shiftIn s)).ports.ended bs.length := by
      rw [List.length_cons, Nat.add_comm] at hend
      show (s.ports.srcAfter 1).ended bs.length
      rwa [Ports.ended, Ports.srcAt_srcAfter]
    rw [consumeTurns, consumeOne, fillOne_of_byte (h.wantsByte_shiftIn.2 (by omega)) hb, Res.andThen_ok, Res.andThen_ok,
      consumeTurns_of_ended k (s := State.filled [b] (shiftIn s)) (h.filled (by omega) b) hsrc1 hend1 (by omega)]
    rfl

end Sys2Proof.Machine

/-! SUPPORT. The window after several advances, and what `LACONS` leaves (rule R205, rule R206). -/

namespace Sys2Proof.Machine

/-! ## Bytes written round the window -/

/-- Bytes stored one after another from the cursor on, modulo the window's size (rule R190). -/
def Memory.writeRing : List Byte → BitVec 12 → Memory → Memory
  | [], _, m => m
  | b :: bs, c, m => Memory.writeRing bs (c + 1) (m.write c.toNat b)

theorem toNat_cursor_add_one (c : BitVec 12) : (c + 1).toNat = (c.toNat + 1) % 4096 := by
  rw [BitVec.toNat_add]
  rfl

theorem Memory.wf_writeRing : ∀ (bytes : List Byte) (c : BitVec 12) {m : Memory}, m.wf 4096 = true →
    (m.writeRing bytes c).wf 4096 = true
  | [], _, _, h => h
  | b :: bs, c, _, h => Memory.wf_writeRing bs (c + 1) (Memory.wf_write b h c.isLt)

/-- The entries that no byte was stored at. -/
theorem Memory.read_writeRing_other : ∀ (bytes : List Byte) (c : BitVec 12) {m : Memory}, m.wf 4096 = true →
    ∀ a, (∀ i, i < bytes.length → a ≠ (c.toNat + i) % 4096) → (m.writeRing bytes c).read a = m.read a
  | [], _, _, _, _, _ => rfl
  | b :: bs, c, m, h, a, ha => by
    have hc := c.isLt
    have hne : a ≠ c.toNat := by
      have := ha 0 (by simp)
      omega
    rw [Memory.writeRing, Memory.read_writeRing_other bs (c + 1) (Memory.wf_write b h hc) a fun i hi => ?_,
      Memory.read_write_other h b hne]
    have := ha (i + 1) (by simpa using hi)
    rw [toNat_cursor_add_one]
    omega

/-- The entries that the bytes were stored at. -/
theorem Memory.read_writeRing : ∀ (bytes : List Byte) (c : BitVec 12) {m : Memory}, m.wf 4096 = true →
    bytes.length ≤ 4096 → ∀ i, i < bytes.length → (m.writeRing bytes c).read ((c.toNat + i) % 4096) = bytes.getD i 0
  | [], _, _, _, _, i, hi => absurd hi (Nat.not_lt_zero i)
  | b :: bs, c, m, h, hlen, i, hi => by
    have hc := c.isLt
    have hcur := toNat_cursor_add_one c
    rw [List.length_cons] at hlen hi
    rw [Memory.writeRing]
    cases i with
    | zero =>
      rw [Nat.add_zero, Nat.mod_eq_of_lt hc, Memory.read_writeRing_other bs (c + 1) (Memory.wf_write b h hc) _
        fun j hj => by omega, Memory.read_write_same h]
      rfl
    | succ i =>
      have ih := Memory.read_writeRing bs (c + 1) (Memory.wf_write b h hc) (by omega) i (by omega)
      rw [show (c.toNat + (i + 1)) % 4096 = ((c + 1).toNat + i) % 4096 by omega, ih, List.getD_cons_succ]

/-! ## Several advances -/

/-- The window after several advances, field by field. -/
theorem Window.foldl_advance : ∀ (bytes : List Byte) {w : Window}, w.wfill.toNat ≤ 4096 →
    bytes.foldl Window.advance w = { w with
      hist := w.hist.writeRing bytes w.wcur
      wcur := w.wcur + BitVec.ofNat 12 bytes.length
      wfill := BitVec.ofNat 13 (min (w.wfill.toNat + bytes.length) 4096) }
  | [], w, h => by
    have hcur : w.wcur + BitVec.ofNat 12 ([] : List Byte).length = w.wcur := BitVec.add_zero _
    rw [hcur, List.length_nil, Nat.add_zero, Nat.min_eq_left h, BitVec.ofNat_toNat, BitVec.setWidth_eq]
    rfl
  | b :: bs, w, h => by
    have hfill : (w.advance b).wfill.toNat = min (w.wfill.toNat + 1) 4096 := by
      rw [Window.advance_wfill, BitVec.toNat_ofNat]
      exact Nat.mod_eq_of_lt (by omega)
    have hcur : w.wcur + 1 + BitVec.ofNat 12 bs.length = w.wcur + BitVec.ofNat 12 (b :: bs).length := by
      rw [List.length_cons, Nat.add_comm, BitVec.ofNat_add, BitVec.add_assoc]
      rfl
    have hmin : min (min (w.wfill.toNat + 1) 4096 + bs.length) 4096 = min (w.wfill.toNat + (b :: bs).length) 4096 := by
      rw [List.length_cons]
      omega
    rw [List.foldl_cons, Window.foldl_advance bs (by omega), hfill, hmin, Window.advance_wcur, hcur]
    rfl

theorem Window.foldl_advance_la (la : Memory) (n : BitVec 6) : ∀ (bytes : List Byte) (w : Window),
    bytes.foldl Window.advance { w with la := la, lacnt := n } =
      { bytes.foldl Window.advance w with la := la, lacnt := n }
  | [], _ => rfl
  | _ :: bs, w => Window.foldl_advance_la la n bs (w.advance _)

/-- The lookahead that an advance starts with plays no part in the window it leaves. -/
theorem Window.foldl_advance_setLa {bytes : List Byte} {w w0 : Window} {la0 : Memory} {n0 : BitVec 6}
    (h : w0 = { w with la := la0, lacnt := n0 }) (la : Memory) (n : BitVec 6) :
    { bytes.foldl Window.advance w0 with la := la, lacnt := n } =
      { bytes.foldl Window.advance w with la := la, lacnt := n } := by
  rw [h, Window.foldl_advance_la]

theorem shiftIn_win_eq (s : State) : (shiftIn s).win = { s.win.advance (laByte s 0) with
    la := s.win.la.shiftDown s.win.lacnt.toNat, lacnt := s.win.lacnt - 1 } := rfl

theorem filled_shiftIn_win_eq (b : Byte) (s : State) : (State.filled [b] (shiftIn s)).win =
    { s.win.advance (laByte s 0) with
      la := (s.win.la.shiftDown s.win.lacnt.toNat).write (s.win.lacnt - 1).toNat b, lacnt := s.win.lacnt - 1 + 1 } := rfl

/-! ## The lookahead -/

/-- The bytes of the lookahead, and those that the source is about to give (rule R200). -/
def State.ahead (bytes : List Byte) (s : State) : List Byte := (List.range s.win.lacnt.toNat).map s.win.la.read ++ bytes

theorem State.length_ahead (bytes : List Byte) (s : State) : (s.ahead bytes).length = s.win.lacnt.toNat + bytes.length := by
  rw [State.ahead, List.length_append, List.length_map, List.length_range]

theorem State.ahead_getD {s : State} {bytes : List Byte} {i : Nat} (h : i < s.win.lacnt.toNat) :
    (s.ahead bytes).getD i 0 = s.win.la.read i := by
  rw [State.ahead, List.getD_append _ _ _ _ (by simpa using h), List.getD_eq_getElem _ _ (by simpa using h),
    List.getElem_map, List.getElem_range]

section

variable {s : State} (hla : s.win.la.wf 60 = true) (hpos : 0 < s.win.lacnt.toNat)

theorem lacnt_sub_one (hpos : 0 < s.win.lacnt.toNat) : (s.win.lacnt - 1).toNat + 1 = s.win.lacnt.toNat := by
  bv_omega

include hla hpos

/-- The lookahead goes on with the bytes after the first. -/
theorem State.ahead_shiftIn (bytes : List Byte) : s.ahead bytes = laByte s 0 :: (shiftIn s).ahead bytes := by
  have hcnt : (shiftIn s).win.lacnt.toNat + 1 = s.win.lacnt.toNat := lacnt_sub_one hpos
  have hread : (List.range (shiftIn s).win.lacnt.toNat).map (s.win.la.read ∘ Nat.succ) =
      (List.range (shiftIn s).win.lacnt.toNat).map (shiftIn s).win.la.read := by
    refine List.map_congr_left fun i hi => ?_
    rw [State.shiftIn_win, Window.advance_la, Memory.read_shiftDown hla, if_pos (by rw [List.mem_range] at hi; omega)]
    rfl
  rw [State.ahead, ← hcnt, List.range_succ_eq_map, List.map_cons, List.map_map, hread]
  rfl

theorem State.ahead_filled (hroom : s.win.lacnt.toNat ≤ 60) (b : Byte) (bs : List Byte) :
    (shiftIn s).ahead (b :: bs) = (State.filled [b] (shiftIn s)).ahead bs := by
  have hcnt : (shiftIn s).win.lacnt.toNat + 1 = s.win.lacnt.toNat := lacnt_sub_one hpos
  have hfill : (State.filled [b] (shiftIn s)).win.lacnt.toNat = (shiftIn s).win.lacnt.toNat + 1 := by
    show ((shiftIn s).win.lacnt + 1).toNat = _
    bv_omega
  have hwf : (shiftIn s).win.la.wf 60 = true := Memory.wf_shiftDown _ hla
  have hread (x : Nat) : (State.filled [b] (shiftIn s)).win.la.read x =
      if x = (shiftIn s).win.lacnt.toNat then b else (shiftIn s).win.la.read x := Memory.read_write hwf _ x b
  have hold : (List.range (shiftIn s).win.lacnt.toNat).map (State.filled [b] (shiftIn s)).win.la.read =
      (List.range (shiftIn s).win.lacnt.toNat).map (shiftIn s).win.la.read := by
    refine List.map_congr_left fun i hi => ?_
    rw [List.mem_range] at hi
    rw [hread, if_neg (by omega)]
  rw [State.ahead, State.ahead, hfill, List.range_succ, List.map_append, hold, List.map_singleton, hread, if_pos rfl,
    List.append_assoc, List.singleton_append]

end

/-- The state after bytes have been consumed: the first of the lookahead's bytes advanced into the window, the others and
the refills left in it. -/
theorem State.consumed_eq : ∀ (n : Nat) (s : State) (bytes : List Byte), s.win.la.wf 60 = true →
    n ≤ s.win.lacnt.toNat → s.win.lacnt.toNat ≤ 60 → bytes.length ≤ n →
    ∃ la, la.wf 60 = true ∧
      State.consumed n bytes s = { s.took bytes.length with
        win := { ((s.ahead bytes).take n).foldl Window.advance s.win with
          la := la, lacnt := BitVec.ofNat 6 (s.win.lacnt.toNat - n + bytes.length) }
        count := s.count + BitVec.ofNat 32 n } ∧
      ∀ i, i < s.win.lacnt.toNat - n + bytes.length → la.read i = (s.ahead bytes).getD (n + i) 0
  | 0, s, bytes, hla, _, _, hlen => by
    obtain rfl := List.eq_nil_of_length_eq_zero (Nat.le_zero.1 hlen)
    refine ⟨s.win.la, hla, ?_, fun i hi => ?_⟩
    · have hcount : s.count + BitVec.ofNat 32 0 = s.count := BitVec.add_zero _
      rw [List.length_nil, Nat.sub_zero, Nat.add_zero, BitVec.ofNat_toNat, BitVec.setWidth_eq, State.took_zero, hcount]
      rfl
    · rw [Nat.zero_add, State.ahead_getD (by simpa using hi)]
  | n + 1, s, bytes, hla, hn, hroom, hlen => by
    have hcnt : (shiftIn s).win.lacnt.toNat + 1 = s.win.lacnt.toNat := lacnt_sub_one (by omega)
    have hcount : s.count + 1 + BitVec.ofNat 32 n = s.count + BitVec.ofNat 32 (n + 1) := by
      rw [Nat.add_comm n, BitVec.ofNat_add, BitVec.add_assoc]
      rfl
    have hwf : (shiftIn s).win.la.wf 60 = true := Memory.wf_shiftDown _ hla
    rw [State.ahead_shiftIn hla (by omega), List.take_succ_cons]
    cases bytes with
    | nil =>
      obtain ⟨la, hla', hstate, hread⟩ := State.consumed_eq n (shiftIn s) [] hwf (by omega) (by omega) (Nat.zero_le _)
      have hleft : (shiftIn s).win.lacnt.toNat - n = s.win.lacnt.toNat - (n + 1) := by omega
      refine ⟨la, hla', ?_, fun i hi => ?_⟩
      · rw [State.consumed_succ, hstate, hleft, State.shiftIn_count, hcount,
          Window.foldl_advance_setLa (shiftIn_win_eq s)]
        rfl
      · rw [hread i (by rw [List.length_nil] at hi ⊢; omega), show n + 1 + i = n + i + 1 by omega, List.getD_cons_succ]
    | cons b bs =>
      rw [List.length_cons] at hlen
      have hfill : (State.filled [b] (shiftIn s)).win.lacnt.toNat = (shiftIn s).win.lacnt.toNat + 1 := by
        show ((shiftIn s).win.lacnt + 1).toNat = _
        bv_omega
      obtain ⟨la, hla', hstate, hread⟩ := State.consumed_eq n (State.filled [b] (shiftIn s)) bs
        (Memory.wf_write b hwf (by omega)) (by omega) (by omega) (by omega)
      have hleft : (State.filled [b] (shiftIn s)).win.lacnt.toNat - n + bs.length =
          s.win.lacnt.toNat - (n + 1) + (b :: bs).length := by
        rw [List.length_cons]
        omega
      have hcount' : (State.filled [b] (shiftIn s)).count + BitVec.ofNat 32 n = s.count + BitVec.ofNat 32 (n + 1) := hcount
      rw [hleft] at hread
      rw [State.ahead_filled hla (by omega) hroom]
      refine ⟨la, hla', ?_, fun i hi => ?_⟩
      · have htook : (s.took 1).took bs.length = s.took (b :: bs).length := by
          rw [State.took_took, List.length_cons, Nat.add_comm]
        rw [State.consumed, hstate, hleft, hcount', ← htook, Window.foldl_advance_setLa (filled_shiftIn_win_eq b s)]
        rfl
      · rw [hread i hi, show n + 1 + i = n + i + 1 by omega, List.getD_cons_succ]

/-- The lookahead's first bytes, the refills among them, have moved into the window (rule R205). -/
theorem State.consumed_right (n : Nat) {s : State} {bytes : List Byte} (hw : s.win.ok)
    (hn : n ≤ s.win.lacnt.toNat) (hlen : bytes.length ≤ n) :
    ∃ hist la, State.consumed n bytes s = { s.took bytes.length with
        win := { s.win with
          hist := hist, la := la, lacnt := BitVec.ofNat 6 (s.win.lacnt.toNat - n + bytes.length),
          wcur := s.win.wcur + BitVec.ofNat 12 n
          wfill := BitVec.ofNat 13 (min (s.win.wfill.toNat + n) 4096) }
        count := s.count + BitVec.ofNat 32 n } ∧
      (∀ i, i < n → hist.read ((s.win.wcur.toNat + i) % 4096) = (s.ahead bytes).getD i 0) ∧
      (∀ a, (∀ i, i < n → a ≠ (s.win.wcur.toNat + i) % 4096) → hist.read a = s.win.hist.read a) ∧
      ∀ i, i < s.win.lacnt.toNat - n + bytes.length → la.read i = (s.ahead bytes).getD (n + i) 0 := by
  obtain ⟨hhist, hla, hfill, hcnt, -⟩ := hw
  simp only [Config.windowSize, Config.lookaheadSize] at hhist hla hfill hcnt
  obtain ⟨la, -, hstate, hread⟩ := State.consumed_eq n s bytes hla hn hcnt hlen
  have htaken : ((s.ahead bytes).take n).length = n := by
    rw [List.length_take, State.length_ahead]
    omega
  refine ⟨s.win.hist.writeRing ((s.ahead bytes).take n) s.win.wcur, la, ?state, fun i hi => ?moved, fun a ha => ?kept, hread⟩
  case state =>
    rw [hstate, Window.foldl_advance _ hfill, htaken]
  case moved =>
    rw [Memory.read_writeRing _ _ hhist (by omega) i (by omega), List.getD_eq_getElem?_getD, List.getElem?_take_of_lt hi,
      ← List.getD_eq_getElem?_getD]
  case kept => exact Memory.read_writeRing_other _ _ hhist a fun i hi => ha i (by omega)

/-- Settles O32. -/
theorem laconsMovesBytesIntoTheWindow : Obligations.LaconsMovesBytesIntoTheWindow := by
  intro s k bytes hs hw hk hcnt hsum
  have hroom : s.win.lacnt.toNat ≤ 60 := hw.2.2.2.1
  have hok : consumeOk s k.toNat = true := decide_eq_true ⟨hk, hcnt⟩
  have hcan : s.CanConsume k.toNat := ⟨hcnt, hroom, hsum⟩
  refine ⟨fun hsrc hlen => ?gives, fun ⟨hsrc, hend⟩ hlen => ?ends⟩
  case gives =>
    have hle : bytes.length ≤ k.toNat := hlen ▸ Nat.min_le_left _ _
    obtain ⟨hist, la, hstate, hright⟩ := State.consumed_right k.toNat hw hcnt hle
    have hresult : (BitVec.ofNat 6 (s.win.lacnt.toNat - k.toNat + bytes.length)).setWidth 32 =
        BitVec.ofNat 32 (s.win.lacnt.toNat - k.toNat + bytes.length) :=
      BitVec.setWidth_ofNat_of_le_of_lt (by decide) (by omega)
    refine ⟨hist, la, ?_, hright⟩
    rw [exec, execLacons, accepted_of_ne _ hs, consume, hok, checkOperand, if_pos rfl,
      consumeTurns_eq_consumed _ hcan hsrc hlen, Res.andThen_ok, finish_ok, hstate, ← hresult]
    rfl
  case ends =>
    have hle : s.refills k.toNat ≤ k.toNat := Nat.min_le_left _ _
    obtain ⟨hist, la, hstate, hright⟩ := State.consumed_right (bytes.length + 1) hw (by omega) (by omega : bytes.length ≤ _)
    refine ⟨hist, la, ?_, hright⟩
    rw [exec, execLacons, accepted_of_ne _ hs, consume, hok, checkOperand, if_pos rfl,
      consumeTurns_of_ended _ hcan hsrc hend hlen, Res.andThen_raise, finish_raise, hstate]
    rfl

end Sys2Proof.Machine

/-! SUPPORT. The start of an encode and of a decode (rule R280, rule R300), exactly. -/

namespace Sys2Proof.Machine

/-- One more sink request has been answered, and the byte offered is not counted (rule R332). -/
def State.triedSink (s : State) : State := { s with ports := s.ports.sinkAfter 1 }

/-! ## Frames of a fill, and bytes that the sink refuses -/

theorem State.filled_setFsm (x : Fsm) : ∀ (bytes : List Byte) (s : State),
    State.filled bytes { s with fsm := x } = { State.filled bytes s with fsm := x }
  | [], _ => rfl
  | b :: bs, s => State.filled_setFsm x bs (State.filled [b] s)

theorem State.filled_setBusy (busy : Bool) : ∀ (bytes : List Byte) (s : State),
    State.filled bytes { s with busy := busy } = { State.filled bytes s with busy := busy }
  | [], _ => rfl
  | b :: bs, s => State.filled_setBusy busy bs (State.filled [b] s)

/-- Bytes up to the one that the sink refuses (rule R332). -/
theorem sendBytes_of_refuses : ∀ (bytes : List Byte) (j : Nat) {s : State}, j < bytes.length → s.sinkRefusesAfter j →
    sendBytes bytes s = .raise .sinkIo (s.delivered (bytes.take j)).triedSink
  | [], _, _, hj, _ => absurd hj (Nat.not_lt_zero _)
  | b :: bs, 0, s, _, h => by
    rw [sendBytes, sinkWrite_of_ioErr h.2, List.take_zero, State.delivered_nil, Res.andThen_raise, State.triedSink]
  | b :: bs, j + 1, s, hj, h => by
    obtain ⟨hacc, href⟩ := h
    have hrest : (s.delivered [b]).sinkRefusesAfter j := by
      refine ⟨fun k hk => ?_, ?_⟩
      · exact (Ports.sinkAt_sinkAfter s.ports 1 k).trans (hacc (1 + k) (by omega))
      · exact (Ports.sinkAt_sinkAfter s.ports 1 j).trans (by rw [Nat.add_comm]; exact href)
    rw [sendBytes, sinkWrite_of_ok (hacc 0 (by omega)), Res.andThen_ok,
      sendBytes_of_refuses bs j (by simpa using hj) hrest, State.delivered_append, List.take_succ_cons,
      List.singleton_append]

/-! ## The end of a step of a transform -/

theorem endTransformStep_takeError (e : ErrCode) (s : State) :
    endTransformStep (s.takeError e) = { s.takeError e with busy := false } := rfl

theorem endTransformStep_of_done {s : State} (h : s.fsm = .done) : endTransformStep s = { s with busy := false } := by
  rw [endTransformStep, h]

theorem endTransformStep_of_active {s : State} (hd : s.fsm ≠ .done) (hf : s.fsm ≠ .failed) : endTransformStep s = s := by
  rw [endTransformStep]
  cases h : s.fsm with
  | done => exact absurd h hd
  | failed => exact absurd h hf
  | _ => rfl

/-- `BUSY` after the first step of a transform: 1 exactly where tokens are still to come. -/
theorem endTransformStep_begun {s : State} {p : Prop} [Decidable p] {x : Fsm} (hb : s.busy = true)
    (h : s.fsm = if p then .done else x) (hd : x ≠ .done) (hf : x ≠ .failed) :
    endTransformStep s = { s with busy := decide ¬p } := by
  by_cases hp : p
  · rw [endTransformStep_of_done (by rw [h, if_pos hp])]
    simp only [hp, not_true, decide_false]
  · rw [if_neg hp] at h
    rw [endTransformStep_of_active (by rwa [h]) (by rwa [h])]
    simp only [hp, not_false_eq_true, decide_true, ← hb]

/-! ## `ENCINIT` -/

/-- The state at the start of `EncInit`: every counter and table is fresh (rule R280). -/
def State.encodeBegun (s : State) : State := ({ s with mode := .encode }.fresh).setFsm .filling

theorem encInit_eq (s : State) : encInit s = (sendBytes (headerOf s.len) s.encodeBegun).andThen fun _ t =>
    (fill t).andThen fun _ u =>
      .ok () ((u.setResult u.len).setFsm (if u.win.lacnt = 0 then .done else .searching)) := rfl

section

variable {s : State}

theorem encInit_of_refuses {j : Nat} (hj : j < 4) (h : s.sinkRefusesAfter j) :
    encInit s = .raise .sinkIo (s.encodeBegun.delivered ((headerOf s.len).take j)).triedSink := by
  rw [encInit_eq, sendBytes_of_refuses (headerOf s.len) j (s := s.encodeBegun) hj h, Res.andThen_raise]

variable {bytes : List Byte} (hsink : s.sinkReady 4) (hsrc : s.sourceReady bytes)
include hsink hsrc

theorem encInit_of_ended (hend : s.ports.ended bytes.length) (hlen : bytes.length < min 60 s.len.toNat) :
    encInit s = .raise .sourceIo { State.filled bytes s.headerSent with
      ports := (State.filled bytes s.headerSent).ports.srcAfter 1 } := by
  have hsend : sendBytes (headerOf s.len) s.encodeBegun = .ok () s.headerSent := sendBytes_of_accepts _ _ hsink
  have hfill := fillUpTo_of_ended Config.lookaheadSize (s := s.headerSent) hsrc hend hlen (State.fillRoom_le _)
  rw [encInit_eq, hsend, Res.andThen_ok, fill, hfill, Res.andThen_raise]

theorem encInit_eq_encodeStarted (hlen : bytes.length = min 60 s.len.toNat) :
    encInit s = .ok () (s.encodeStarted bytes) := by
  have hsend : sendBytes (headerOf s.len) s.encodeBegun = .ok () s.headerSent := sendBytes_of_accepts _ _ hsink
  have hfill := fillUpTo_eq_filled Config.lookaheadSize (s := s.headerSent) hsrc hlen (State.fillRoom_le _)
  have hcommute : State.filled bytes s.headerSent = _ :=
    State.filled_setFsm .filling bytes (({ s with mode := .encode }.fresh).delivered (headerOf s.len))
  have hcnt : (State.filled bytes s.headerSent).win.lacnt = BitVec.ofNat 6 (0 + bytes.length) := by
    rw [State.filled_eq bytes s.headerSent (by show 0 + _ < 64; omega)]
    rfl
  have hempty : (BitVec.ofNat 6 (0 + bytes.length) = 0) = (bytes.isEmpty = true) := by
    rw [List.isEmpty_iff_length_eq_zero, ← BitVec.toNat_inj, BitVec.toNat_ofNat, Nat.mod_eq_of_lt (by omega), Nat.zero_add]
    rfl
  have hlen' : (State.filled bytes s.headerSent).len = s.len := by
    rw [State.filled_eq bytes s.headerSent (by show 0 + _ < 64; omega)]
    rfl
  rw [encInit_eq, hsend, Res.andThen_ok, fill, hfill, Res.andThen_ok, hcnt, hlen']
  simp only [hempty]
  rw [hcommute]
  rfl

end

theorem State.encodeStarted_busy (bytes : List Byte) (s : State) (b : Bool) :
    { s with busy := b }.encodeStarted bytes = { s.encodeStarted bytes with busy := b } := by
  have h := State.filled_setBusy b bytes (({ s with mode := .encode }.fresh).delivered (headerOf s.len))
  exact congrArg (fun t : State => { t with result := s.len, fsm := if bytes.isEmpty then .done else .searching }) h

theorem State.encodeStarted_sink (bytes : List Byte) (s : State) (h : bytes.length ≤ 60) :
    (s.encodeStarted bytes).ports.sink = s.ports.sink ++ headerOf s.len := by
  have hfilled := State.filled_eq bytes (({ s with mode := .encode }.fresh).delivered (headerOf s.len))
    (by show 0 + _ < 64; omega)
  rw [State.encodeStarted]
  simp only [hfilled]
  rfl

/-- Settles O44. -/
theorem encodeStartsWithTheHeader : Obligations.EncodeStartsWithTheHeader := by
  intro s bytes
  refine ⟨fun hsink hsrc hlen => ⟨?encinit, ?encode, ?sink⟩, fun j hj href => ⟨?refused, ?refusedEncode⟩,
    fun hsink ⟨hsrc, hend⟩ hlen => ⟨?ended, ?endedEncode⟩⟩
  case encinit =>
    rw [exec, execEncinit, encInit_eq_encodeStarted hsink hsrc hlen, finish_ok]
  case encode =>
    have hempty : (bytes.isEmpty = true) = (s.len = 0) := by
      rw [List.isEmpty_iff_length_eq_zero, ← BitVec.toNat_inj]
      exact propext ⟨fun h => by show s.len.toNat = 0; omega, fun h => by have : s.len.toNat = 0 := h; omega⟩
    have hbegun := endTransformStep_begun (s := { s.encodeStarted bytes with busy := true }) (p := bytes.isEmpty = true)
      (x := .searching) rfl rfl (by decide) (by decide)
    rw [exec, execEncode, encInit_eq_encodeStarted (s := { s with busy := true }) hsink hsrc hlen,
      State.encodeStarted_busy, endStep, hbegun]
    simp only [hempty]
  case sink => exact s.encodeStarted_sink bytes (by omega)
  case refused =>
    rw [exec, execEncinit, encInit_of_refuses hj href, finish_raise]
    rfl
  case refusedEncode =>
    rw [exec, execEncode, encInit_of_refuses (s := { s with busy := true }) hj href, endStep, endTransformStep_takeError]
    rfl
  case ended =>
    have h := State.filled_setFsm .filling bytes (({ s with mode := .encode }.fresh).delivered (headerOf s.len))
    rw [exec, execEncinit, encInit_of_ended hsink hsrc hend hlen, finish_raise]
    exact congrArg (fun t : State => Host.Outcome.next (t.sourceFailed .sourceIo)) h
  case endedEncode =>
    have hfsm := State.filled_setFsm .filling bytes
      (({ s with busy := true, mode := .encode }.fresh).delivered (headerOf s.len))
    have hbusy := State.filled_setBusy true bytes (({ s with mode := .encode }.fresh).delivered (headerOf s.len))
    rw [exec, execEncode, encInit_of_ended (s := { s with busy := true }) hsink hsrc hend hlen, endStep,
      endTransformStep_takeError]
    exact congrArg (fun t : State => Host.Outcome.next { t.sourceFailed .sourceIo with busy := false })
      (hfsm.trans (congrArg (State.setFsm · .filling) hbusy))

/-! ## `DECINIT` -/

/-- The state at the start of `DecInit` (rule R300). -/
def State.decodeBegun (s : State) : State := ({ s with mode := .decode }.fresh).setFsm .header

theorem decInit_eq (s : State) : decInit s = (readHeader 4 0 0 s.decodeBegun).andThen fun v t =>
    .ok () (({ t with len := v }.setResult v).setFsm (if v = 0 then .done else .reading)) := rfl

theorem decInit_eq_decodeStarted {s : State} {n : Word} (h : s.sourceReady (headerOf n)) :
    decInit s = .ok () (s.decodeStarted n) := by
  have hread := (readHeader_of_supplies (s := s.decodeBegun) (len := n) (bytes := []) (by rwa [List.append_nil])).1
  rw [decInit_eq, hread]
  rfl

/-- Settles O45. -/
theorem decodeStartsWithTheHeader : Obligations.DecodeStartsWithTheHeader := by
  intro s n hsrc
  have hbegun := endTransformStep_begun (s := { s.decodeStarted n with busy := true }) (p := n = 0)
    (x := .reading) rfl rfl (by decide) (by decide)
  refine ⟨?decinit, ?decode⟩
  case decinit => rw [exec, execDecinit, decInit_eq_decodeStarted hsrc, finish_ok]
  case decode =>
    rw [exec, execDecode, decInit_eq_decodeStarted (s := { s with busy := true }) hsrc, endStep]
    exact congrArg Host.Outcome.next hbegun

/-- The bytes that the source gives of a header, and the answer after them that ends it (rule R301). -/
theorem readHeader_of_raise {e : ErrCode} : ∀ (n shift : Nat) (v : Word) (s : State) (bytes : List Byte),
    s.sourceReady bytes → bytes.length < n →
    (s.ports.srcAt bytes.length = some .eof ∧ e = .corruptStream ∨
      s.ports.srcAt bytes.length = some .ioErr ∧ e = .sourceIo) →
    readHeader n shift v s = .raise e { s.took bytes.length with ports := (s.took bytes.length).ports.srcAfter 1 }
  | 0, _, _, _, _, _, hlen, _ => absurd hlen (Nat.not_lt_zero _)
  | n + 1, shift, v, s, [], _, _, hend => by
    rw [List.length_nil, ← Ports.nextSrc_eq] at hend
    rw [List.length_nil, State.took_zero]
    rcases hend with ⟨h, rfl⟩ | ⟨h, rfl⟩ <;> simp only [readHeader, srcRead, h, Res.andThen_ok, Ports.srcDone_eq]
  | n + 1, shift, v, s, b :: bs, hsrc, hlen, hend => by
    obtain ⟨hsrc1, hstep⟩ := readHeader_succ hsrc n shift v
    have hend1 (a : SrcAnswer) (h : s.ports.srcAt (b :: bs).length = some a) :
        (s.took 1).ports.srcAt bs.length = some a := by
      rw [List.length_cons, Nat.add_comm] at h
      exact (Ports.srcAt_srcAfter s.ports 1 bs.length).trans h
    rw [hstep, readHeader_of_raise n _ _ (s.took 1) bs hsrc1 (by simpa using hlen)
      (hend.imp (And.imp_left (hend1 _)) (And.imp_left (hend1 _))), State.took_took, List.length_cons, Nat.add_comm]

/-- Settles O46. -/
theorem truncatedHeaderLeavesLen : Obligations.TruncatedHeaderLeavesLen := by
  intro s bytes e hsrc hlen hend
  refine ⟨?decinit, ?decode, rfl, rfl, ?inbytes⟩
  case decinit =>
    rw [exec, execDecinit, decInit_eq, readHeader_of_raise 4 0 0 s.decodeBegun bytes hsrc hlen hend, Res.andThen_raise,
      finish_raise]
    rfl
  case decode =>
    rw [exec, execDecode, decInit_eq, readHeader_of_raise 4 0 0 (State.decodeBegun { s with busy := true }) bytes hsrc hlen
      hend, Res.andThen_raise, endStep, endTransformStep_takeError]
    rfl
  case inbytes => exact BitVec.zero_add _

end Sys2Proof.Machine

/-! SUPPORT. The execution of the stream tokens (rule R315, rule R316), exactly. -/

namespace Sys2Proof.Machine

/-! ## The bytes a match copies -/

/-- The window's byte at a distance back from the cursor (rule R192). -/
def Window.back (w : Window) (d : Nat) : Byte := w.hist.read (w.wcur - BitVec.ofNat 12 d).toNat

theorem Window.back_eq_read (w : Window) {d : Nat} (hd : d ≤ 4096) :
    w.back d = w.hist.read ((w.wcur.toNat + 8192 - d) % 4096) := by
  have hlt := w.wcur.isLt
  rw [Window.back, BitVec.toNat_sub, BitVec.toNat_ofNat]
  congr 1
  omega

/-- The bytes that `n` turns of the copy loop copy, each read from the window that holds the one before it (rule R386). -/
def Window.copyOut (d : Nat) : Nat → Window → List Byte
  | 0, _ => []
  | n + 1, w => w.back d :: Window.copyOut d n (w.advance (w.back d))

theorem Window.length_copyOut (d : Nat) : ∀ (n : Nat) (w : Window), (w.copyOut d n).length = n
  | 0, _ => rfl
  | n + 1, _ => congrArg (· + 1) (Window.length_copyOut d n _)

/-- A byte of a match is read from the window that the bytes before it have been advanced into. -/
theorem Window.copyOut_getD (d : Nat) : ∀ (n : Nat) (w : Window) (k : Nat), k < n →
    (w.copyOut d n).getD k 0 = (((w.copyOut d n).take k).foldl Window.advance w).back d
  | _ + 1, _, 0, _ => rfl
  | n + 1, w, k + 1, hk => by
    rw [Window.copyOut, List.getD_cons_succ, List.take_succ_cons, List.foldl_cons,
      Window.copyOut_getD d n _ k (Nat.lt_of_succ_lt_succ hk)]

/-- A byte of a match stood in the window before it, or was copied by it (rule R105). -/
theorem Window.copyOut_getD_eq {w : Window} {d n k : Nat} (hhist : w.hist.wf 4096 = true) (hfill : w.wfill.toNat ≤ 4096)
    (h1 : 1 ≤ d) (hd : d ≤ 4096) (hn : n ≤ 4096) (hk : k < n) : (w.copyOut d n).getD k 0 =
      if k < d then w.hist.read ((w.wcur.toNat + 8192 + k - d) % 4096) else (w.copyOut d n).getD (k - d) 0 := by
  have hlt := w.wcur.isLt
  have hlen : ((w.copyOut d n).take k).length = k := by
    rw [List.length_take, Window.length_copyOut]
    omega
  have hcur : (w.wcur + BitVec.ofNat 12 k).toNat = (w.wcur.toNat + k) % 4096 := by
    rw [BitVec.toNat_add, BitVec.toNat_ofNat]
    omega
  rw [Window.copyOut_getD d n w k hk, Window.foldl_advance _ hfill, hlen, Window.back_eq_read _ hd]
  simp only [hcur]
  split
  · rw [Memory.read_writeRing_other _ _ hhist _ fun i hi => by omega]
    congr 1
    omega
  · rw [show ((w.wcur.toNat + k) % 4096 + 8192 - d) % 4096 = (w.wcur.toNat + (k - d)) % 4096 by omega,
      Memory.read_writeRing _ _ hhist (by omega) (k - d) (by omega), List.getD_eq_getElem?_getD,
      List.getElem?_take_of_lt (by omega), ← List.getD_eq_getElem?_getD]

/-! ## The copy loop -/

/-- The state after `n` turns of the copy loop, its fields written out. -/
theorem State.copied_fields (d : Nat) : ∀ (n : Nat) (s : State),
    State.copied d n s = { s.delivered (s.win.copyOut d n) with
      win := (s.win.copyOut d n).foldl Window.advance s.win
      count := s.count + BitVec.ofNat 32 n }
  | 0, s => by
    have hcount : s.count + BitVec.ofNat 32 0 = s.count := BitVec.add_zero _
    rw [Window.copyOut, State.delivered_nil, hcount]
    rfl
  | n + 1, s => by
    have hcount : s.count + 1 + BitVec.ofNat 32 n = s.count + BitVec.ofNat 32 (n + 1) := by
      rw [Nat.add_comm n, BitVec.ofNat_add, BitVec.add_assoc]
      rfl
    have hsent : s.delivered (s.win.copyOut d (n + 1)) =
        (s.delivered [s.win.back d]).delivered ((s.win.advance (s.win.back d)).copyOut d n) := by
      rw [State.delivered_append, List.singleton_append, Window.copyOut]
    rw [State.copied, State.copied_fields d n, ← hcount, hsent]
    rfl

/-- A distance that the copy loop can read at (rule R194). -/
def State.canCopy (s : State) (d : Nat) : Prop := 1 ≤ d ∧ d ≤ 4096 ∧ d ≤ s.win.wfill.toNat

section

variable {d : Nat} {s : State} (h : s.canCopy d)
include h

theorem State.canCopy.advance (b : Byte) (t : State) (ht : t.win = s.win.advance b) : t.canCopy d := by
  obtain ⟨h1, hd, hfill⟩ := h
  have hw := s.win.wfill.isLt
  refine ⟨h1, hd, ?_⟩
  rw [ht, Window.advance_wfill, BitVec.toNat_ofNat]
  simp only [Config.windowSize]
  omega

theorem byteAt_of_canCopy : byteAt d s = .ok (histByte s d) s := by
  rcases byteAt_cases d s with ⟨_, _, hread⟩ | ⟨hout, _⟩
  · exact hread
  · exact absurd ⟨h.1, h.2.2⟩ hout

/-- One turn of the copy loop is one byte offered to the sink. -/
theorem copyByte_of_canCopy : copyByte d s =
    (sinkWrite (histByte s d) s).andThen fun _ t => .ok () (Machine.advance (histByte s d) t).countUp := by
  rw [copyByte, byteAt_of_canCopy h, Res.andThen_ok]

end

/-- A match is copied where the sink accepts its bytes (rule R310). -/
theorem copyBytes_eq_copied {d : Nat} : ∀ (n : Nat) {s : State}, s.canCopy d → s.sinkReady n →
    copyBytes d n s = .ok () (State.copied d n s)
  | 0, _, _, _ => rfl
  | n + 1, s, h, hacc => by
    have hrest (k : Nat) (hk : k < n) : (s.delivered [histByte s d]).ports.sinkAt k = some .ok :=
      (Ports.sinkAt_sinkAfter s.ports 1 k).trans (hacc (1 + k) (by omega))
    rw [copyBytes, copyByte_of_canCopy h, sinkWrite_of_ok (hacc 0 (Nat.succ_pos n)), Res.andThen_ok, Res.andThen_ok,
      copyBytes_eq_copied n (s := (Machine.advance (histByte s d) (s.delivered [histByte s d])).countUp)
        (h.advance (histByte s d) _ rfl) hrest, State.copied]

/-- A match is copied up to the byte that the sink refuses (rule R332). -/
theorem copyBytes_of_refuses {d : Nat} : ∀ (n j : Nat) {s : State}, s.canCopy d → j < n → s.sinkRefusesAfter j →
    copyBytes d n s = .raise .sinkIo (State.copied d j s).triedSink
  | 0, _, _, _, hj, _ => absurd hj (Nat.not_lt_zero _)
  | n + 1, 0, s, h, _, href => by
    rw [copyBytes, copyByte_of_canCopy h, sinkWrite_of_ioErr href.2]
    rfl
  | n + 1, j + 1, s, h, hj, href => by
    obtain ⟨hacc, href⟩ := href
    have hat (k : Nat) : (s.delivered [histByte s d]).ports.sinkAt k = s.ports.sinkAt (k + 1) := by
      rw [Nat.add_comm]
      exact Ports.sinkAt_sinkAfter s.ports 1 k
    have hrest : (Machine.advance (histByte s d) (s.delivered [histByte s d])).countUp.sinkRefusesAfter j :=
      ⟨fun k hk => (hat k).trans (hacc (k + 1) (Nat.succ_lt_succ hk)), (hat j).trans href⟩
    rw [copyBytes, copyByte_of_canCopy h, sinkWrite_of_ok (hacc 0 (Nat.succ_pos j)), Res.andThen_ok, Res.andThen_ok,
      copyBytes_of_refuses n j (h.advance (histByte s d) _ rfl) (Nat.lt_of_succ_lt_succ hj) hrest, State.copied]

/-- The copy loop raises no error but the sink's: its reads stay within the window (rule R311). -/
theorem copyBytes_raise {d : Nat} {e : ErrCode} {t : State} : ∀ (n : Nat) {s : State}, s.canCopy d →
    copyBytes d n s = .raise e t → e = .sinkIo
  | 0, _, _, hr => nomatch hr
  | n + 1, s, h, hr => by
    rw [copyBytes, copyByte_of_canCopy h] at hr
    rcases sinkWrite_cases (histByte s d) s with ⟨_, hs⟩ | ⟨_, hs⟩ | ⟨_, hs⟩ <;> rw [hs] at hr
    · exact copyBytes_raise n (h.advance (histByte s d) _ rfl) hr
    · exact (Res.raise.inj hr).1.symm
    · exact nomatch hr

theorem State.CopySide.err {s t : State} (h : s.CopySide t) : t.err = s.err := by
  obtain ⟨_, _, _, _, rfl⟩ := h
  rfl

/-! ## `LIT` -/

/-- Settles O50. -/
theorem litEmitsItsByte : Obligations.LitEmitsItsByte := by
  rintro s b ⟨hhist, -⟩
  refine ⟨fun hacc => ⟨s.win.hist.write s.win.wcur.toNat b, ?sent, ?new, fun a ha => ?old⟩, fun href => ?refused⟩
  case sent =>
    rw [exec, execLit, runLit, sinkWrite_of_ok (s := s.bumpSym .a b.toNat) (hacc 0 Nat.zero_lt_one), Res.andThen_ok,
      finish_ok]
    rfl
  case new => exact Memory.read_write_same hhist _ b
  case old => exact Memory.read_write_other hhist b ha
  case refused =>
    rw [exec, execLit, runLit, sinkWrite_of_ioErr (s := s.bumpSym .a b.toNat) href.2, Res.andThen_raise, finish_raise]
    rfl

/-! ## `MATCH` -/

section

variable {s : State} {len : BitVec 6} {dist : BitVec 13}

theorem Instr.wellFormed_matchCopy (h : (Instr.matchCopy len dist).wellFormed = true) :
    (3 ≤ len.toNat ∧ len.toNat ≤ 60) ∧ 1 ≤ dist.toNat ∧ dist.toNat ≤ 4096 := by
  simpa only [Instr.wellFormed, Bool.and_eq_true, decide_eq_true_eq] using h

/-- A match that the decoder admits is the copy loop. -/
theorem runMatch_of_admits (h : s.admits (.copy len dist) = true) :
    runMatch len dist s = copyBytes dist.toNat len.toNat (bumpMatch len dist s) := by
  simp only [State.admits, Bool.and_eq_true, decide_eq_true_eq] at h
  obtain ⟨hlen, -, hdist⟩ := h
  exact (if_neg (Nat.not_lt.2 hlen)).trans (if_neg (Nat.not_lt.2 hdist))

/-- A match past the declared end or before the start of the output (rule R311). -/
theorem runMatch_of_not_admits (h : s.len.toNat - s.count.toNat < len.toNat ∨ s.win.wfill.toNat < dist.toNat) :
    runMatch len dist s = .raise .corruptStream (bumpMatch len dist s) := by
  by_cases hlen : s.len.toNat - s.count.toNat < len.toNat
  · exact if_pos hlen
  · exact (if_neg hlen).trans (if_pos (h.resolve_left hlen))

end

/-- What a match, up to one of its bytes, leaves in the window and sends (rule R105, rule R316). -/
theorem State.copied_right {s : State} {d n : Nat} (hw : s.win.ok) (h1 : 1 ≤ d) (hd : d ≤ 4096) (hn : n ≤ 4096) :
    ∃ hist out, State.copied d n s = { s.delivered out with
        win := { s.win with
          hist := hist, wcur := s.win.wcur + BitVec.ofNat 12 n,
          wfill := BitVec.ofNat 13 (min (s.win.wfill.toNat + n) 4096) }
        count := s.count + BitVec.ofNat 32 n } ∧
      out.length = n ∧
      (∀ i, i < n → out.getD i 0 =
        if i < d then s.win.hist.read ((s.win.wcur.toNat + 8192 + i - d) % 4096) else out.getD (i - d) 0) ∧
      (∀ i, i < n → hist.read ((s.win.wcur.toNat + i) % 4096) = out.getD i 0) ∧
      (∀ a, (∀ i, i < n → a ≠ (s.win.wcur.toNat + i) % 4096) → hist.read a = s.win.hist.read a) := by
  obtain ⟨hhist, -, hfill, -, -⟩ := hw
  simp only [Config.windowSize] at hhist hfill
  have hlen := Window.length_copyOut d n s.win
  refine ⟨s.win.hist.writeRing (s.win.copyOut d n) s.win.wcur, s.win.copyOut d n, ?state, hlen, fun i hi => ?out,
    fun i hi => ?new, fun a ha => ?old⟩
  case state => rw [State.copied_fields, Window.foldl_advance _ hfill, hlen]
  case out => exact Window.copyOut_getD_eq hhist hfill h1 hd hn hi
  case new => exact Memory.read_writeRing _ _ hhist (by omega) i (by omega)
  case old => exact Memory.read_writeRing_other _ _ hhist a fun i hi => ha i (by omega)

/-- Settles O51. -/
theorem matchCopiesByteByByte : Obligations.MatchCopiesByteByByte := by
  intro s len dist hwf hw hadmits
  obtain ⟨⟨-, hlen⟩, h1, hd⟩ := Instr.wellFormed_matchCopy hwf
  have hcan : (bumpMatch len dist s).canCopy dist.toNat := by
    simp only [State.admits, Bool.and_eq_true, decide_eq_true_eq] at hadmits
    exact ⟨h1, hd, hadmits.2.2⟩
  refine ⟨fun hacc => ?sent, fun j hj href => ?refused⟩
  case sent =>
    obtain ⟨hist, out, hstate, hright⟩ := State.copied_right (s := bumpMatch len dist s) (n := len.toNat) hw h1 hd
      (by omega)
    refine ⟨hist, out, ?_, hright⟩
    rw [exec, execMatchCopy, runMatch_of_admits hadmits, copyBytes_eq_copied _ hcan hacc, finish_ok, hstate]
    rfl
  case refused =>
    obtain ⟨hist, out, hstate, hright⟩ := State.copied_right (s := bumpMatch len dist s) (n := j) hw h1 hd (by omega)
    refine ⟨hist, out, ?_, hright⟩
    rw [exec, execMatchCopy, runMatch_of_admits hadmits, copyBytes_of_refuses _ j hcan hj href, finish_raise, hstate]
    rfl

/-- Settles O52. -/
theorem badMatchIsCorruptBeforeAnyCopy : Obligations.BadMatchIsCorruptBeforeAnyCopy := by
  intro s t len dist hwf
  obtain ⟨-, h1, hd⟩ := Instr.wellFormed_matchCopy hwf
  refine ⟨fun hbad => ?bad, fun hrun herr => ?copy, fun b hrun herr => ?lit⟩
  case bad =>
    rw [exec, execMatchCopy, runMatch_of_not_admits hbad, finish_raise]
    rfl
  case copy =>
    by_cases hbad : s.len.toNat - s.count.toNat < len.toNat ∨ s.win.wfill.toNat < dist.toNat
    · rw [exec, execMatchCopy, runMatch_of_not_admits hbad, finish_raise, Host.Outcome.next.injEq] at hrun
      rw [← hrun]
      exact ErrCode.noConfusion
    · obtain ⟨hlen, hdist⟩ := not_or.1 hbad
      have hrun' : finish s (copyBytes dist.toNat len.toNat (bumpMatch len dist s)) = .next t := by
        rw [← hrun, exec, execMatchCopy, runMatch_of_admits]
        simp only [State.admits, Bool.and_eq_true, decide_eq_true_eq]
        omega
      have hcan : (bumpMatch len dist s).canCopy dist.toNat := ⟨h1, hd, Nat.not_lt.1 hdist⟩
      have hside := copyBytes_copySide dist.toNat len.toNat (bumpMatch len dist s)
      cases hr : copyBytes dist.toNat len.toNat (bumpMatch len dist s) with
      | ok a u =>
        rw [hr, finish_ok, Host.Outcome.next.injEq] at hrun'
        rw [hr, Res.state_ok] at hside
        have hkept : (bumpMatch len dist s).err = s.err := rfl
        rw [← hrun', hside.err, hkept, herr]
        exact ErrCode.noConfusion
      | raise e u =>
        rw [hr, finish_raise, Host.Outcome.next.injEq] at hrun'
        rw [← hrun', copyBytes_raise _ hcan hr]
        exact ErrCode.noConfusion
      | waits u =>
        rw [hr, finish_waits, Host.Outcome.next.injEq] at hrun'
        rw [← hrun', State.standsAt_err, herr]
        exact ErrCode.noConfusion
  case lit =>
    have hstep : exec (.lit b) s = finish s (runLit b s) := rfl
    rw [hstep, runLit] at hrun
    rcases sinkWrite_cases b (s.bumpSym .a b.toNat) with ⟨_, h⟩ | ⟨_, h⟩ | ⟨_, h⟩ <;> rw [h] at hrun <;>
      obtain rfl := Host.Outcome.next.inj hrun
    · exact Or.inl herr
    · exact Or.inr rfl
    · exact Or.inl herr

end Sys2Proof.Machine

/-! SUPPORT. What `Bump` does to the frequencies of the symbols and of the root (rule R250, rule R254). -/

namespace Sys2Proof.Machine

variable {n w : Nat} {t t' : CodeTable n w} {c l : Nat}

/-- The frequency of a symbol's leaf. -/
def CodeTable.symFreq (t : CodeTable n w) (x : Nat) : Nat := t.freqAt (t.leafOf x)

/-! ## One level -/

namespace CodeTable.Raised

variable (hr : t.Raised t' c l) (h : t.Linked)
include hr h

/-- A level moves a symbol's leaf with its node. -/
theorem leafOf_eq {x : Nat} (hx : x < n) : t'.leafOf x = Equiv.swap c l (t.leafOf x) := by
  obtain ⟨h1, h2⟩ := h.leaf x hx
  exact hr.child _ _ h1 (Or.inl h2.symm)

/-- A level raises the symbol whose leaf is the node it is at, and no other. -/
theorem symFreq_eq {x : Nat} (hx : x < n) : t'.symFreq x = t.symFreq x + if t.leafOf x = c then 1 else 0 := by
  have hat : Equiv.swap c l (t.leafOf x) = l ↔ t.leafOf x = c := by
    rw [← Equiv.eq_symm_apply, Equiv.symm_swap, Equiv.swap_apply_right]
  rw [CodeTable.symFreq, hr.leafOf_eq h hx, hr.freq, hr.freqAt_swap]
  simp only [hat]
  rfl

end CodeTable.Raised

/-- An internal node is no symbol's leaf. -/
theorem CodeTable.Linked.leafOf_ne {x p : Nat} (h : t.Linked) (hx : x < n) (hp : t.sonAt p < nodeCount n) :
    t.leafOf x ≠ p := by
  rintro rfl
  have := (h.leaf x hx).2
  omega

/-- Two symbols have two leaves. -/
theorem CodeTable.Linked.leafOf_inj {x y : Nat} (h : t.Linked) (hx : x < n) (hy : y < n) :
    t.leafOf x = t.leafOf y ↔ x = y := by
  refine ⟨fun e => ?_, fun e => e ▸ rfl⟩
  have h1 := (h.leaf x hx).2
  have h2 := (h.leaf y hy).2
  rw [e] at h1
  omega

/-! ## The loop -/

/-- The loop of `Bump` from a node raises the root by 1, and the symbol of that node, if it is a leaf. -/
theorem CodeTable.bumpFrom_freqs (hn : 1 ≤ n) (hwidth : nodeCount n + n ≤ 2 ^ w) :
    ∀ (fuel c : Nat) (t : CodeTable n w), t.Linked → t.Weighed c → t.freqAt (rootNode n) < Config.maxFreq →
      c < nodeCount n → nodeCount n ≤ fuel + c →
      (CodeTable.bumpFrom fuel t c).freqAt (rootNode n) = t.freqAt (rootNode n) + 1 ∧
      ∀ x, x < n → (CodeTable.bumpFrom fuel t c).symFreq x = t.symFreq x + if t.leafOf x = c then 1 else 0
  | 0, c, t, _, _, _, hc, hfuel => by omega
  | fuel + 1, c, t, h, hw, hf, hc, hfuel => by
    have hT : nodeCount n = 2 * n - 1 := rfl
    have hR : rootNode n = 2 * n - 2 := rfl
    have hfc := hw.mono (by omega : c ≤ rootNode n) (le_refl _)
    have hf' : t.freqAt (rootNode n) < 0x8000 := hf
    have hr := (CodeTable.bumpLevel_levelDone h.sized hn hc (by omega) hw.sentinel h.son_lt hwidth).raised h hw hc hf
    have hsized : (t.bumpLevel c).1.sized = true := by simp [h.sized]
    have h' := hr.linked h hw hsized
    have hw' := hr.weighed h hw hsized
    rw [CodeTable.bumpFrom_succ]
    generalize (t.bumpLevel c).1 = t', (t.bumpLevel c).2 = l at *
    have hl := hr.lt
    have hcl := hr.le
    have hlevel : ∀ x, x < n → t'.symFreq x = t.symFreq x + if t.leafOf x = c then 1 else 0 := fun x hx =>
      hr.symFreq_eq h hx
    by_cases hp : t'.prntAt l = 0
    · have hlR : l = rootNode n := by
        by_contra hne
        have := h'.lt_prntAt (by omega : l < rootNode n)
        omega
      rw [if_pos hp]
      exact ⟨by rw [hr.freq, if_pos hlR.symm], hlevel⟩
    · have hlR : l < rootNode n := by
        by_contra hge
        have e : l = rootNode n := by omega
        rw [e, h'.root] at hp
        exact hp rfl
      have hlp := h'.lt_prntAt hlR
      obtain ⟨hpar, hson⟩ := h'.parent hlR
      have hroot : t'.freqAt (rootNode n) = t.freqAt (rootNode n) := by
        rw [hr.freq, if_neg (by omega), Nat.add_zero]
      obtain ⟨ih1, ih2⟩ := CodeTable.bumpFrom_freqs hn hwidth fuel _ t' h' hw' (by rwa [hroot]) hpar (by omega)
      rw [if_neg hp]
      refine ⟨by rw [ih1, hroot], fun x hx => ?_⟩
      rw [ih2 x hx, if_neg (h'.leafOf_ne hx (by omega)), Nat.add_zero, hlevel x hx]

section

variable {s : Nat} (hn : 1 ≤ n) (hwidth : nodeCount n + n ≤ 2 ^ w) (ht : t.wf = true) (hs : s < n)
include hn hwidth ht hs

/-- `Bump` below the threshold raises the root and one symbol by 1 (rule R251). -/
theorem CodeTable.bump_freqs (hf : t.freqAt (rootNode n) < Config.maxFreq) :
    (t.bump s).freqAt (rootNode n) = t.freqAt (rootNode n) + 1 ∧
    ∀ x, x < n → (t.bump s).freqAt ((t.bump s).leafOf x) = t.freqAt (t.leafOf x) + if x = s then 1 else 0 := by
  obtain ⟨hl, hw, _⟩ := (CodeTable.wf_iff hn t).1 ht
  obtain ⟨hlt, hson⟩ := hl.leaf s hs
  obtain ⟨hroot, hsym⟩ := CodeTable.bumpFrom_freqs hn hwidth (nodeCount n) (t.leafOf s) t hl
    (hw.of_leaf (fun hc => absurd hc (lt_irrefl _)) fun _ => by omega) hf hlt (Nat.le_add_right _ _)
  have hbump : t.bump s = CodeTable.bumpFrom (nodeCount n) t (t.leafOf s) := by
    rw [CodeTable.bump]
    simp only [if_neg (Nat.not_le.2 hf)]
  rw [hbump]
  refine ⟨hroot, fun x hx => ?_⟩
  have h := hsym x hx
  simp only [hl.leafOf_inj hx hs] at h
  exact h

/-- `Bump` at the threshold rebuilds first (rule R254). -/
theorem CodeTable.bump_of_maxFreq (hmax : n < Config.maxFreq) (hf : t.freqAt (rootNode n) = Config.maxFreq) :
    t.bump s = t.rebuild.bump s ∧ t.rebuild.freqAt (rootNode n) < Config.maxFreq ∧
      (t.bump s).freqAt (rootNode n) = t.rebuild.freqAt (rootNode n) + 1 := by
  obtain ⟨hwf, hroot, hsum⟩ := CodeTable.wf_rebuild hn hwidth hmax ht
  have hlt : t.rebuild.freqAt (rootNode n) < Config.maxFreq := hroot ▸ hsum
  have hbump : t.bump s = t.rebuild.bump s := by
    rw [CodeTable.bump, CodeTable.bump]
    simp only [if_pos hf.ge, if_neg (Nat.not_le.2 hlt)]
  exact ⟨hbump, hlt, hbump ▸ (CodeTable.bump_freqs hn hwidth hwf hs hlt).1⟩

end

/-- Settles O40. -/
theorem bumpRaisesOneSymbolByOne : Obligations.BumpRaisesOneSymbolByOne := by
  refine ⟨fun s sym ⟨ha, hb⟩ => ⟨fun hs hf => ?_, fun hs hf => ?_⟩,
    fun s c ⟨ha, hb⟩ => ⟨fun hc hf hsent hson => ?_, fun hc hf hsent hson => ?_⟩⟩
  · exact CodeTable.bump_freqs (n := 314) (by decide) (by decide) ha hs hf
  · exact CodeTable.bump_freqs (n := 64) (by decide) (by decide) hb hs hf
  · exact CodeTable.bumpLevel_levelDone (n := 314) ha (by decide) hc hf hsent hson (by decide)
  · exact CodeTable.bumpLevel_levelDone (n := 64) hb (by decide) hc hf hsent hson (by decide)

/-- Settles O41. -/
theorem bumpRebuildsAtTheThreshold : Obligations.BumpRebuildsAtTheThreshold := fun _ _ ⟨ha, hb⟩ =>
  ⟨fun hs hf => CodeTable.bump_of_maxFreq (n := 314) (by decide) (by decide) ha hs (by decide) hf,
    fun hs hf => CodeTable.bump_of_maxFreq (n := 64) (by decide) (by decide) hb hs (by decide) hf⟩

end Sys2Proof.Machine

/-! SUPPORT. The order in which `Rebuild` puts the nodes (rule R260, rule R261): what a turn of step 2 keeps beside the
forest. -/

namespace Sys2Proof.Machine

variable {n w : Nat} {t : CodeTable n w}

/-! ## An insertion keeps the order of the nodes there were -/

/-- Where the node at index `i` stood before one was inserted at index `k`. -/
def oldIndex (k i : Nat) : Nat := if i < k then i else i - 1

theorem oldIndex_lt {k i j : Nat} (hi : i ≠ k) (hj : j ≠ k) (h : i < j) : oldIndex k i < oldIndex k j := by
  unfold oldIndex
  split_ifs <;> omega

section

variable {P : List (BitVec 16 × BitVec w)} {k i : Nat} (x : BitVec 16 × BitVec w) (hk : k ≤ P.length) (hi : i ≠ k)
include hk hi

theorem nodeFreq_insertIdx_of_ne : nodeFreq (P.insertIdx k x) i = nodeFreq P (oldIndex k i) := by
  rw [nodeFreq_insertIdx x hk, oldIndex]
  split_ifs <;> rfl

theorem nodeSon_insertIdx_of_ne : nodeSon (P.insertIdx k x) i = nodeSon P (oldIndex k i) := by
  rw [nodeSon_insertIdx x hk, oldIndex]
  split_ifs <;> rfl

end

/-! ## The arrangement -/

/-- The nodes made so far, against the table they are made of: the leaves have their halved frequencies and their old
order, the internal nodes stand in the order they were paired in, and behind the leaves of their frequency. -/
structure Arranged (t : CodeTable n w) (P : List (BitVec 16 × BitVec w)) : Prop where
  leafFreq : ∀ i, i < P.length → nodeCount n ≤ nodeSon P i →
    nodeFreq P i = t.halved (t.leafOf (nodeSon P i - nodeCount n))
  leafOrder : ∀ i j, i < j → j < P.length → nodeCount n ≤ nodeSon P i → nodeCount n ≤ nodeSon P j →
    t.leafOf (nodeSon P i - nodeCount n) < t.leafOf (nodeSon P j - nodeCount n)
  inner : ∀ i j, i < j → j < P.length → nodeSon P i < nodeCount n → nodeSon P j < nodeCount n → nodeSon P i < nodeSon P j
  tie : ∀ k l, k < P.length → l < P.length → nodeSon P k < nodeCount n → nodeCount n ≤ nodeSon P l →
    nodeFreq P k = nodeFreq P l → l < k

/-- The gathered leaves are arranged as they stood. -/
theorem arranged_gatherLeaves (h : t.Linked) : Arranged t t.gatherLeaves := by
  have hlen : t.gatherLeaves.length = t.leafList.length := List.length_map _
  have hentry : ∀ i (hi : i < t.gatherLeaves.length), ∃ hi' : i < t.leafList.length,
      nodeFreq t.gatherLeaves i = t.halved t.leafList[i] ∧ nodeSon t.gatherLeaves i = t.sonAt t.leafList[i] :=
    fun i hi => by
      refine ⟨hlen ▸ hi, ?_, ?_⟩
      · rw [nodeFreq, List.getD_eq_getElem _ _ hi, ← t.toNat_halved]
        simp [CodeTable.gatherLeaves_eq]
      · rw [nodeSon, List.getD_eq_getElem _ _ hi, CodeTable.sonAt]
        simp [CodeTable.gatherLeaves_eq]
  have hleaf : ∀ i (hi : i < t.leafList.length), nodeCount n ≤ t.sonAt t.leafList[i] ∧
      t.leafOf (t.sonAt t.leafList[i] - nodeCount n) = t.leafList[i] := fun i hi => by
    obtain ⟨hk, hs⟩ := CodeTable.mem_leafList.1 (List.getElem_mem hi)
    refine ⟨hs, ?_⟩
    rw [CodeTable.leafOf, Nat.sub_add_cancel hs, h.first _ hk]
  refine ⟨fun i hi _ => ?_, fun i j hij hj _ _ => ?_, fun i j hij hj hs _ => ?_, fun k l hk hl hs _ _ => ?_⟩
  · obtain ⟨hi', hf, hs⟩ := hentry i hi
    rw [hf, hs, (hleaf i hi').2]
  · obtain ⟨hi', -, hsi⟩ := hentry i (by omega)
    obtain ⟨hj', -, hsj⟩ := hentry j hj
    rw [hsi, hsj, (hleaf i hi').2, (hleaf j hj').2]
    exact List.pairwise_iff_getElem.1 t.pairwise_leafList i j hi' hj' hij
  · obtain ⟨hi', -, hsi⟩ := hentry i (by omega)
    have := (hleaf i hi').1
    omega
  · obtain ⟨hk', -, hsk⟩ := hentry k hk
    have := (hleaf k hk').1
    omega

/-- Every internal node made so far is at most as heavy as the next one. -/
theorem Forest.inner_le {S q : Nat} {P : List (BitVec 16 × BitVec w)} (h : Forest n S q P) (hq : q + 1 < n) {i : Nat}
    (hi : i < P.length) (hs : nodeSon P i < nodeCount n) :
    nodeFreq P i ≤ nodeFreq P (2 * q) + nodeFreq P (2 * q + 1) := by
  obtain ⟨r, hr, hson⟩ := h.son_lt hi hs
  have hlen := h.length_eq
  rw [h.summed i hi hs, hson]
  exact Nat.add_le_add (h.sorted _ _ (by omega) (by omega)) (h.sorted _ _ (by omega) (by omega))

/-- A turn of step 2 keeps the arrangement: the new node is the last internal one, and behind the leaves of its
frequency. -/
theorem Arranged.pairUp {S q : Nat} {P : List (BitVec 16 × BitVec w)} (ha : Arranged t P) (h : Forest n S q P)
    (hq : q + 1 < n) (hS : S < 2 ^ 16) (hw : nodeCount n + n ≤ 2 ^ w) : Arranged t (pairUp (2 * q) P) := by
  have hT : nodeCount n = 2 * n - 1 := rfl
  have hfS := h.pair_le hq
  have hheavy := fun i hi hs => h.inner_le hq (i := i) hi hs
  obtain ⟨hhigh, -⟩ := insertPos_spec P (nodeFreq P (2 * q) + nodeFreq P (2 * q + 1)) P.length
  have hle := insertPos_le P (nodeFreq P (2 * q) + nodeFreq P (2 * q + 1)) P.length
  have hlen := length_pairUp (2 * q) P
  rw [Machine.pairUp] at hlen ⊢
  generalize hfe : nodeFreq P (2 * q) + nodeFreq P (2 * q + 1) = f at *
  generalize insertPos P f P.length = k at *
  have hf16 : (BitVec.ofNat 16 f).toNat = f := by rw [BitVec.toNat_ofNat, Nat.mod_eq_of_lt (by omega)]
  have hsw : (BitVec.ofNat w (2 * q)).toNat = 2 * q := by rw [BitVec.toNat_ofNat, Nat.mod_eq_of_lt (by omega)]
  have hfreq := fun i hi => nodeFreq_insertIdx_of_ne (i := i) (BitVec.ofNat 16 f, BitVec.ofNat w (2 * q)) hle hi
  have hson := fun i hi => nodeSon_insertIdx_of_ne (i := i) (BitVec.ofNat 16 f, BitVec.ofNat w (2 * q)) hle hi
  have hfreqk := nodeFreq_insertIdx (BitVec.ofNat 16 f, BitVec.ofNat w (2 * q)) hle k
  have hsonk := nodeSon_insertIdx (BitVec.ofNat 16 f, BitVec.ofNat w (2 * q)) hle k
  simp only [lt_irrefl, if_false, if_true, hf16, hsw] at hfreqk hsonk
  generalize P.insertIdx k (BitVec.ofNat 16 f, BitVec.ofNat w (2 * q)) = P' at *
  have hold : ∀ i, i < P'.length → i ≠ k → oldIndex k i < P.length := fun i hi hne => by
    rw [oldIndex]
    split_ifs <;> omega
  have hlast : ∀ i, k < i → i < P'.length → nodeCount n ≤ nodeSon P' i ∧ f < nodeFreq P' i := fun i hki hi => by
    have hi' := hold i hi (by omega)
    have hge : k ≤ oldIndex k i := by
      rw [oldIndex, if_neg (by omega)]
      omega
    have hgt := hhigh _ hge hi'
    rw [hson i (by omega), hfreq i (by omega)]
    exact ⟨Nat.le_of_not_lt fun hs => absurd (hheavy _ hi' hs) (by omega), hgt⟩
  refine ⟨fun i hi hs => ?leafFreq, fun i j hij hj hsi hsj => ?leafOrder, fun i j hij hj hsi hsj => ?inner,
    fun m l hm hl hsm hsl he => ?tie⟩
  case leafFreq =>
    have hne : i ≠ k := by rintro rfl; omega
    rw [hson i hne] at hs ⊢
    rw [hfreq i hne, ha.leafFreq _ (hold i hi hne) hs]
  case leafOrder =>
    have hnei : i ≠ k := by rintro rfl; omega
    have hnej : j ≠ k := by rintro rfl; omega
    rw [hson i hnei] at hsi ⊢
    rw [hson j hnej] at hsj ⊢
    exact ha.leafOrder _ _ (oldIndex_lt hnei hnej hij) (hold j hj hnej) hsi hsj
  case inner =>
    have hnei : i ≠ k := by
      rintro rfl
      have := (hlast j hij hj).1
      omega
    rw [hson i hnei] at hsi ⊢
    by_cases hjk : j = k
    · obtain ⟨r, hr, hi⟩ := h.son_lt (hold i (by omega) hnei) hsi
      rw [hjk, hsonk]
      omega
    · rw [hson j hjk] at hsj ⊢
      exact ha.inner _ _ (oldIndex_lt hnei hjk hij) (hold j hj hjk) hsi hsj
  case tie =>
    have hnel : l ≠ k := by rintro rfl; omega
    by_cases hmk : m = k
    · rw [hmk, hfreqk] at he
      by_contra hlm
      have := (hlast l (by omega) hl).2
      omega
    · rw [hson m hmk] at hsm
      rw [hson l hnel] at hsl
      rw [hfreq m hmk, hfreq l hnel] at he
      have hlt := ha.tie _ _ (hold m hm hmk) (hold l hl hnel) hsm hsl he
      by_contra hge
      have := oldIndex_lt hmk hnel (by
        rcases Nat.lt_trichotomy m l with h' | rfl | h'
        · exact h'
        · exact absurd hlt (lt_irrefl _)
        · omega)
      omega

/-- All the turns of step 2 keep the arrangement. -/
theorem Arranged.pairUps {S : Nat} (hS : S < 2 ^ 16) (hw : nodeCount n + n ≤ 2 ^ w) :
    ∀ (m q : Nat) (P : List (BitVec 16 × BitVec w)), Arranged t P → Forest n S q P → q + m + 1 ≤ n →
      Arranged t (pairUps m (2 * q) P)
  | 0, _, _, ha, _, _ => ha
  | m + 1, q, _, ha, h, hq =>
    Arranged.pairUps hS hw m (q + 1) _ (ha.pairUp h (by omega) hS hw) (h.pairUp (by omega) hS hw) (by omega)

/-! ## The rebuilt table -/

/-- The leaves, each once, by their symbols. -/
theorem CodeTable.Linked.perm_leafOf (h : t.Linked) : t.leafList.Perm ((List.range n).map t.leafOf) := by
  have hperm := h.perm_leafList.map t.prntAt
  rw [List.map_map, List.map_map] at hperm
  have hself : t.leafList.map (t.prntAt ∘ t.sonAt) = t.leafList :=
    (List.map_congr_left fun k hk => h.first k (CodeTable.mem_leafList.1 hk).1).trans (List.map_id _)
  rwa [hself] at hperm

/-- `Rebuild` does what rule R260 and rule R261 say. -/
theorem CodeTable.rebuiltAs_rebuild (hn : 1 ≤ n) (hwidth : nodeCount n + n ≤ 2 ^ w) (hmax : n < Config.maxFreq)
    (ht : t.wf = true) : t.RebuiltAs t.rebuild := by
  obtain ⟨hl, hw, -⟩ := (CodeTable.wf_iff hn t).1 ht
  obtain ⟨hwf, hroot, hsum⟩ := CodeTable.wf_rebuild hn hwidth hmax ht
  have hS : freqSum t.gatherLeaves < 2 ^ 16 := lt_trans hsum (by decide)
  have hlen := (CodeTable.forest_rebuiltNodes hl hw hn hS hwidth).length_tree hn
  have ha : Arranged t t.rebuiltNodes :=
    Arranged.pairUps hS hwidth (n - 1) 0 _ (arranged_gatherLeaves hl) (CodeTable.forest_gatherLeaves hl hw) (by omega)
  have hl' := ((CodeTable.wf_iff hn _).1 hwf).1
  have hson : ∀ i, t.rebuild.sonAt i = nodeSon t.rebuiltNodes i := fun i => by
    rw [CodeTable.rebuild_eq hl, CodeTable.sonAt_linkNodes, CodeTable.sonAt_withNodes]
  have hfreq : ∀ i, i < nodeCount n → t.rebuild.freqAt i = nodeFreq t.rebuiltNodes i := fun i hi => by
    rw [CodeTable.rebuild_eq hl, CodeTable.freqAt_linkNodes, CodeTable.freqAt_withNodes hlen, if_pos hi]
  have hleaf : ∀ x, x < n → t.rebuild.leafOf x < nodeCount n ∧
      nodeSon t.rebuiltNodes (t.rebuild.leafOf x) = x + nodeCount n := fun x hx =>
    ⟨(hl'.leaf x hx).1, (hson _).symm.trans (hl'.leaf x hx).2⟩
  have horder : ∀ x y, x < n → y < n → t.rebuild.leafOf x < t.rebuild.leafOf y → t.leafOf x < t.leafOf y :=
    fun x y hx hy hlt => by
      obtain ⟨-, hx'⟩ := hleaf x hx
      obtain ⟨hly, hy'⟩ := hleaf y hy
      have := ha.leafOrder _ _ hlt (by omega) (by omega) (by omega)
      rwa [hx', hy', Nat.add_sub_cancel, Nat.add_sub_cancel] at this
  refine ⟨hwf, fun x hx => ?freq, ?root, fun x y hx hy => ⟨horder x y hx hy, fun hlt => ?order⟩,
    fun k l hk hl hsk hsl he => ?tie, fun k k' hkk hk' hsk hsk' => ?inner⟩
  case freq =>
    obtain ⟨hlt, hx'⟩ := hleaf x hx
    rw [hfreq _ hlt, ha.leafFreq _ (by omega) (by omega), hx', Nat.add_sub_cancel]
    rfl
  case root =>
    rw [hroot, t.freqSum_gatherLeaves, (hl.perm_leafOf.map t.halved).sum_eq, List.map_map]
    rfl
  case order =>
    rcases Nat.lt_trichotomy (t.rebuild.leafOf x) (t.rebuild.leafOf y) with h | h | h
    · exact h
    · rw [(hl'.leafOf_inj hx hy).1 h] at hlt
      exact absurd hlt (lt_irrefl _)
    · exact absurd (horder y x hy hx h) (Nat.lt_asymm hlt)
  case tie =>
    rw [hson] at hsk hsl
    rw [hfreq k hk, hfreq l hl] at he
    exact ha.tie k l (by omega) (by omega) hsk hsl he
  case inner =>
    rw [hson] at hsk hsk'
    rw [hson, hson]
    exact ha.inner k k' hkk (by omega) hsk hsk'

/-- Settles O39. -/
theorem rebuildHalvesEveryLeaf : Obligations.RebuildHalvesEveryLeaf := fun _ ⟨ha, hb⟩ =>
  ⟨CodeTable.rebuiltAs_rebuild (n := 314) (by decide) (by decide) (by decide) ha,
    CodeTable.rebuiltAs_rebuild (n := 64) (by decide) (by decide) (by decide) hb⟩

end Sys2Proof.Machine

/-! SUPPORT. What every helper keeps, whether it ends, raises or waits: the driver's and the host's registers, and the part
of the state's invariant that is about the bits, the window and the sizes of the tables. -/

namespace Sys2Proof.Machine

/-! ## The relation -/

/-- The registers that no helper writes: those of the driver and the host's side. -/
def State.driver (s : State) : Fsm × ErrCode × Mode × Bool × Word × Word × HostSide × Bool :=
  (s.fsm, s.err, s.mode, s.busy, s.result, s.len, s.host, s.waiting)

/-- The invariant of a state, the driver apart. -/
def State.parts (s : State) : Prop := s.bits.ok ∧ s.win.ok ∧ s.tablesSized

/-- A helper's work: the driver's registers are as they were, and the invariant's other parts are kept. -/
structure State.Works (s t : State) : Prop where
  driver : t.driver = s.driver
  parts : s.parts → t.parts

namespace State.Works

theorem refl (s : State) : s.Works s := ⟨rfl, id⟩

theorem trans {s t u : State} (h : s.Works t) (h' : t.Works u) : s.Works u :=
  ⟨h'.driver.trans h.driver, fun hs => h'.parts (h.parts hs)⟩

variable {s t : State} (h : s.Works t)
include h

theorem fields : t.fsm = s.fsm ∧ t.err = s.err ∧ t.mode = s.mode ∧ t.busy = s.busy ∧ t.result = s.result ∧
    t.len = s.len ∧ t.host = s.host ∧ t.waiting = s.waiting := by
  simpa only [State.driver, Prod.mk.injEq] using h.driver

theorem setFsm (x : Fsm) : (s.setFsm x).Works (t.setFsm x) := by
  obtain ⟨-, herr, hmode, hbusy, hresult, hlen, hhost, hwaiting⟩ := h.fields
  refine ⟨?_, h.parts⟩
  simp only [State.driver, State.setFsm, Prod.mk.injEq]
  exact ⟨trivial, herr, hmode, hbusy, hresult, hlen, hhost, hwaiting⟩

end State.Works

/-- Two parts of a helper in sequence. -/
theorem Res.works_andThen {α β : Type} {s : State} {r : Res α} {f : α → State → Res β} (h : s.Works r.state)
    (hf : ∀ a t, r = .ok a t → t.Works (f a t).state) : s.Works (r.andThen f).state :=
  Res.state_andThen (R := State.Works) State.Works.trans h hf

/-! ## The ports and the bits -/

theorem sinkWrite_works (b : Byte) (s : State) : s.Works (sinkWrite b s).state := by
  rcases sinkWrite_cases b s with ⟨_, h⟩ | ⟨_, h⟩ | ⟨_, h⟩ <;> rw [h] <;> exact ⟨rfl, id⟩

theorem srcRead_works (s : State) : s.Works (srcRead s).state := by
  rcases srcRead_cases s with ⟨b, _, h⟩ | ⟨_, h⟩ | ⟨_, h⟩ | ⟨_, h⟩ <;> rw [h] <;> exact ⟨rfl, id⟩

theorem State.Works.emptied (s : State) : s.Works { s with bits := { s.bits with obuf := 0, obits := 0 } } :=
  ⟨rfl, fun ⟨⟨_, hin⟩, hrest⟩ => ⟨⟨Nat.zero_lt_one, hin⟩, hrest⟩⟩

/-- One more pending bit fits. -/
theorem obuf_shift_lt {obuf : BitVec 8} {obits : BitVec 3} (h : obuf.toNat < 2 ^ obits.toNat) (h7 : obits.toNat < 7)
    (b : Bool) : ((obuf <<< 1) ||| (BitVec.ofBool b).setWidth 8).toNat < 2 ^ (obits + 1).toNat := by
  have hcnt : (obits + 1).toNat = obits.toNat + 1 := by bv_omega
  have hpow : 2 ^ (obits.toNat + 1) ≤ 2 ^ 8 := Nat.pow_le_pow_right (by decide) (by omega)
  have hbit : ((BitVec.ofBool b).setWidth 8).toNat < 2 ^ (obits.toNat + 1) := by
    have hle : ((BitVec.ofBool b).setWidth 8).toNat ≤ 1 := by cases b <;> decide
    have := Nat.one_lt_two_pow_iff.2 (Nat.succ_ne_zero obits.toNat)
    omega
  have hshift : (obuf <<< 1).toNat < 2 ^ (obits.toNat + 1) := by
    rw [BitVec.toNat_shiftLeft, Nat.shiftLeft_eq]
    refine lt_of_le_of_lt (Nat.mod_le _ _) ?_
    rw [Nat.pow_succ]
    omega
  rw [hcnt, BitVec.toNat_or]
  exact Nat.or_lt_two_pow hshift hbit

theorem writeBit_works (b : Bool) (s : State) : s.Works (writeBit b s).state := by
  rcases writeBit_cases b s with ⟨h7, h⟩ | ⟨_, h⟩ <;> rw [h]
  · exact ⟨rfl, fun ⟨⟨hout, hin⟩, hrest⟩ => ⟨⟨obuf_shift_lt hout h7 b, hin⟩, hrest⟩⟩
  · exact (State.Works.emptied s).trans (sinkWrite_works _ _)

theorem writeBitList_works : ∀ (bits : List Bool) (s : State), s.Works (writeBitList bits s).state
  | [], s => .refl s
  | b :: bs, s => Res.works_andThen (writeBit_works b s) fun _ t _ => writeBitList_works bs t

theorem flushBits_works (s : State) : s.Works (flushBits s).state := by
  rcases flushBits_cases s with ⟨_, h⟩ | ⟨_, h⟩ <;> rw [h]
  · exact .refl s
  · exact (State.Works.emptied s).trans (sinkWrite_works _ _)

theorem sendBytes_works : ∀ (bytes : List Byte) (s : State), s.Works (sendBytes bytes s).state
  | [], s => .refl s
  | b :: bs, s => Res.works_andThen (sinkWrite_works b s) fun _ t _ => sendBytes_works bs t

theorem takeBit_works (s : State) (h : s.bits.ibits ≠ 0) : s.Works (takeBit s).state := by
  refine ⟨rfl, fun ⟨⟨hout, hin⟩, hrest⟩ => ⟨⟨hout, ?_⟩, hrest⟩⟩
  have hle : (s.bits.ibits - 1).toNat ≤ s.bits.ibits.toNat := by
    have : s.bits.ibits.toNat ≠ 0 := fun e => h (BitVec.eq_of_toNat_eq e)
    bv_omega
  exact hle.trans hin

theorem readBit_works (s : State) : s.Works (readBit s).state := by
  rcases readBit_cases s with ⟨hb, h⟩ | ⟨_, b, _, h⟩ | ⟨_, _, h⟩ | ⟨_, _, h⟩ | ⟨_, _, h⟩ <;> rw [h]
  · exact takeBit_works s hb
  · have hread : s.Works { s with
        ports := s.ports.srcDone, inbytes := s.inbytes + 1, bits := { s.bits with ibuf := b, ibits := 8 } } :=
      ⟨rfl, fun ⟨⟨hout, _⟩, hrest⟩ => ⟨⟨hout, le_refl 8⟩, hrest⟩⟩
    exact hread.trans (takeBit_works _ (show (8 : BitVec 4) ≠ 0 by decide))
  all_goals exact ⟨rfl, id⟩

theorem readBitsFrom_works : ∀ (n v : Nat) (s : State), s.Works (readBitsFrom n v s).state
  | 0, _, s => .refl s
  | n + 1, _, s => Res.works_andThen (readBit_works s) fun _ t _ => readBitsFrom_works n _ t

theorem walkFrom_works (t : TableSel) : ∀ (fuel c : Nat) (s : State), s.Works (walkFrom t fuel c s).state
  | 0, _, s => .refl s
  | fuel + 1, c, s => by
    rw [walkFrom]
    split
    · exact Res.works_andThen (readBit_works s) fun _ u _ => walkFrom_works t fuel _ u
    · exact .refl s

/-! ## The code tables -/

theorem bumpSym_works (t : TableSel) (x : Nat) (s : State) : s.Works (s.bumpSym t x) := by
  cases t with
  | a => exact ⟨rfl, fun ⟨hbits, hwin, ha, hb⟩ => ⟨hbits, hwin, CodeTable.sized_bump x ha, hb⟩⟩
  | b => exact ⟨rfl, fun ⟨hbits, hwin, ha, hb⟩ => ⟨hbits, hwin, ha, CodeTable.sized_bump x hb⟩⟩

theorem rebuildTable_works (t : TableSel) (s : State) : s.Works (s.rebuildTable t) := by
  cases t with
  | a => exact ⟨rfl, fun ⟨hbits, hwin, ha, hb⟩ => ⟨hbits, hwin, CodeTable.sized_rebuild ha, hb⟩⟩
  | b => exact ⟨rfl, fun ⟨hbits, hwin, ha, hb⟩ => ⟨hbits, hwin, ha, CodeTable.sized_rebuild hb⟩⟩

theorem encodeSymbol_works (t : TableSel) (x : Nat) (s : State) : s.Works (encodeSymbol t x s).state :=
  Res.works_andThen (writeBitList_works _ s) fun _ u _ => bumpSym_works t x u

theorem decodeSymbol_works (t : TableSel) (s : State) : s.Works (decodeSymbol t s).state :=
  Res.works_andThen (walkFrom_works t _ _ s) fun x u _ => bumpSym_works t x u

/-! ## The window and the lookahead -/

theorem Window.ok_advance {w : Window} (h : w.ok) (b : Byte) : (w.advance b).ok := by
  obtain ⟨hhist, hla, hfill, hcnt, hcur⟩ := h
  simp only [Config.windowSize] at hhist hfill hcur
  have hlt := w.wcur.isLt
  have hfill' : (w.advance b).wfill.toNat = min (w.wfill.toNat + 1) 4096 := by
    rw [Window.advance_wfill, BitVec.toNat_ofNat]
    exact Nat.mod_eq_of_lt (by simp only [Config.windowSize]; omega)
  have hcur' : (w.advance b).wcur.toNat = (w.wcur.toNat + 1) % 4096 := toNat_cursor_add_one _
  refine ⟨Memory.wf_write b hhist hlt, hla, ?_, hcnt, ?_⟩
  · rw [hfill']
    exact Nat.min_le_right _ _
  · rw [hfill', hcur']
    simp only [Config.windowSize]
    omega

theorem advance_works (b : Byte) (s : State) : s.Works (advance b s) :=
  ⟨rfl, fun ⟨hbits, hwin, htab⟩ => ⟨hbits, Window.ok_advance hwin b, htab⟩⟩

theorem countUp_works (s : State) : s.Works s.countUp := ⟨rfl, id⟩

theorem fillOne_works (s : State) : s.Works (fillOne s).state := by
  rcases fillOne_cases s with ⟨_, h⟩ | ⟨hw, b, _, h⟩ | ⟨_, _, h⟩ | ⟨_, _, h⟩ <;> rw [h]
  · exact .refl s
  · have hlt := ((wantsByte_iff s).1 hw).1
    have hcnt : (s.win.lacnt + 1).toNat = s.win.lacnt.toNat + 1 := by bv_omega
    refine ⟨rfl, fun ⟨hbits, ⟨hhist, hla, hfill, _, hcur⟩, htab⟩ => ⟨hbits, ⟨hhist, ?_, hfill, ?_, hcur⟩, htab⟩⟩
    · exact Memory.wf_write b hla hlt
    · exact hcnt.trans_le hlt
  all_goals exact ⟨rfl, id⟩

theorem fillUpTo_works : ∀ (n : Nat) (s : State), s.Works (fillUpTo n s).state
  | 0, s => .refl s
  | n + 1, s => Res.works_andThen (fillOne_works s) fun took t _ => by
    cases took
    · exact .refl t
    · exact fillUpTo_works n t

theorem shiftIn_works {s : State} (h : 0 < s.win.lacnt.toNat) : s.Works (shiftIn s) := by
  have hsub : (s.win.lacnt - 1).toNat ≤ s.win.lacnt.toNat := (Nat.le_succ _).trans (lacnt_sub_one h).le
  have hmoved : s.Works { s with win := { s.win with
      la := s.win.la.shiftDown s.win.lacnt.toNat, lacnt := s.win.lacnt - 1 } } :=
    ⟨rfl, fun ⟨hbits, ⟨hhist, hla, hfill, hcnt, hcur⟩, htab⟩ =>
      ⟨hbits, ⟨hhist, Memory.wf_shiftDown _ hla, hfill, hsub.trans hcnt, hcur⟩, htab⟩⟩
  exact hmoved.trans ((advance_works _ _).trans (countUp_works _))

/-- A fill takes nothing away from the lookahead. -/
theorem fillOne_lacnt {s t : State} {took : Bool} (h : fillOne s = .ok took t) :
    s.win.lacnt.toNat ≤ t.win.lacnt.toNat := by
  rcases fillOne_cases s with ⟨_, h'⟩ | ⟨hw, b, _, h'⟩ | ⟨_, _, h'⟩ | ⟨_, _, h'⟩ <;> rw [h'] at h
  · obtain ⟨_, rfl⟩ := Res.ok.inj h
    exact le_refl _
  · obtain ⟨_, rfl⟩ := Res.ok.inj h
    have := ((wantsByte_iff s).1 hw).1
    show _ ≤ (s.win.lacnt + 1).toNat
    bv_omega
  · exact nomatch h
  · exact nomatch h

theorem consumeTurns_works : ∀ (k : Nat) {s : State}, k ≤ s.win.lacnt.toNat → s.Works (consumeTurns k s).state
  | 0, s, _ => .refl s
  | k + 1, s, hk => by
    have hcnt : (shiftIn s).win.lacnt.toNat + 1 = s.win.lacnt.toNat := lacnt_sub_one (by omega)
    rw [consumeTurns, consumeOne, Res.andThen_assoc]
    refine Res.works_andThen ((shiftIn_works (by omega)).trans (fillOne_works _)) fun took t h => ?_
    have := fillOne_lacnt h
    exact consumeTurns_works k (by omega)

theorem consume_works (k : Nat) (s : State) : s.Works (consume k s).state := by
  rcases checkOperand_cases (consumeOk s k) s (consumeTurns k s) with ⟨hok, h⟩ | ⟨_, h⟩ <;> rw [consume, h]
  · exact consumeTurns_works k (of_decide_eq_true hok).2
  · exact .refl s

theorem copyBytes_works (d : Nat) : ∀ (n : Nat) (s : State), s.Works (copyBytes d n s).state
  | 0, s => .refl s
  | n + 1, s => by
    refine Res.works_andThen (Res.works_andThen ?_ fun b t _ => ?_) fun _ t _ => copyBytes_works d n t
    · rcases byteAt_cases d s with ⟨_, _, h⟩ | ⟨_, h⟩ <;> rw [h] <;> exact .refl s
    · exact Res.works_andThen (sinkWrite_works b t) fun _ u _ => (advance_works b u).trans (countUp_works _)

/-! ## Tokens -/

theorem sendToken_works (tok : Token) (s : State) : s.Works (sendToken tok s).state := by
  cases tok with
  | lit b => exact encodeSymbol_works _ _ s
  | copy len dist =>
    exact Res.works_andThen (encodeSymbol_works _ _ s) fun _ t _ =>
      Res.works_andThen (encodeSymbol_works _ _ t) fun _ u _ => writeBitList_works _ u

theorem consumeToken_works (tok : Token) (s : State) : s.Works (consumeToken tok s).state := by
  rcases consumeToken_cases tok s with ⟨_, h⟩ | ⟨_, h⟩ <;> rw [h]
  · exact .refl s
  · exact consume_works _ s

theorem bumpMatch_works (len : BitVec 6) (dist : BitVec 13) (s : State) : s.Works (bumpMatch len dist s) :=
  (bumpSym_works _ _ s).trans (bumpSym_works _ _ _)

theorem Token.run_works (tok : Token) (s : State) : s.Works (tok.run s).state := by
  cases tok with
  | lit b =>
    exact (bumpSym_works _ _ s).trans
      (Res.works_andThen (sinkWrite_works b _) fun _ u _ => (advance_works b u).trans (countUp_works _))
  | copy len dist =>
    by_cases hbad : s.len.toNat - s.count.toNat < len.toNat ∨ s.win.wfill.toNat < dist.toNat
    · rw [Token.run, runMatch_of_not_admits hbad]
      exact bumpMatch_works len dist s
    · obtain ⟨hlen, hdist⟩ := not_or.1 hbad
      have hrun : runMatch len dist s = copyBytes dist.toNat len.toNat (bumpMatch len dist s) :=
        (if_neg hlen).trans (if_neg hdist)
      rw [Token.run, hrun]
      exact (bumpMatch_works len dist s).trans (copyBytes_works _ _ _)

/-- A fetch part that bumps a table where it does not end. -/
theorem Res.works_orBump {α : Type} {s : State} {r : Res α} {bumps : State → State} (h : s.Works r.state)
    (hb : ∀ t : State, t.Works (bumps t)) : s.Works (r.orBump bumps).state := by
  cases r with
  | ok a t => exact h
  | raise e t => exact h.trans (hb t)
  | waits t => exact h.trans (hb t)

theorem fetchCopy_works (x : Nat) (s : State) : s.Works (fetchCopy x s).state :=
  Res.works_andThen (Res.works_orBump (walkFrom_works .b _ _ s) fun t => bumpSym_works .a x t) fun cls t _ =>
    Res.works_andThen (Res.works_orBump (readBitsFrom_works _ _ t) fun u =>
      (bumpSym_works .a x u).trans (bumpSym_works .b cls _)) fun _ u _ => .refl u

/-- A fetch moves the driver on at most. -/
theorem fetchToken_works (s : State) : ∃ x, (s.setFsm x).Works (fetchToken s).state := by
  have hwalk := walkFrom_works .a (tableNodes .a) (s.sonAt .a (tableNodes .a - 1)) s
  rw [fetchToken, walkSymbol]
  cases hr : walkFrom .a (tableNodes .a) (s.sonAt .a (tableNodes .a - 1)) s with
  | ok symA t =>
    rw [hr] at hwalk
    refine ⟨.reconstructing, (hwalk.setFsm .reconstructing).trans ?_⟩
    rw [Res.andThen_ok]
    dsimp only
    split
    · exact .refl _
    · exact fetchCopy_works symA _
  | raise e t =>
    rw [hr] at hwalk
    exact ⟨s.fsm, hwalk⟩
  | waits t =>
    rw [hr] at hwalk
    exact ⟨s.fsm, hwalk⟩

/-- A decoded token's fetch and execution move the driver on at most. -/
theorem fetchRun_works (s : State) {tok : Token} {t : State} (h : fetchToken s = .ok tok t) :
    ∃ x, (s.setFsm x).Works (tok.run t).state := by
  obtain ⟨x, hx⟩ := fetchToken_works s
  rw [h] at hx
  exact ⟨x, hx.trans (tok.run_works t)⟩

/-! ## The headers -/

theorem readHeader_works : ∀ (n shift : Nat) (v : Word) (s : State), s.Works (readHeader n shift v s).state
  | 0, _, _, s => .refl s
  | n + 1, shift, v, s => by
    refine Res.works_andThen (srcRead_works s) fun answer t _ => ?_
    cases answer with
    | byte b => exact readHeader_works n _ _ t
    | eof => exact .refl t
    | ioErr => exact .refl t

end Sys2Proof.Machine

/-! SUPPORT. The errors that each helper raises (rule R330 to rule R338). -/

namespace Sys2Proof.Machine

/-! ## The relation -/

/-- Where the helper raises an error, it is one of these. -/
def Res.Errs {α : Type} (P : ErrCode → Prop) (r : Res α) : Prop := ∀ e t, r = .raise e t → P e

namespace Res.Errs

variable {α β : Type} {P Q : ErrCode → Prop}

theorem ok (a : α) (s : State) : (Res.ok a s).Errs P := fun _ _ h => nomatch h

theorem waits (s : State) : (Res.waits s : Res α).Errs P := fun _ _ h => nomatch h

theorem raise {e : ErrCode} (he : P e) (s : State) : (Res.raise e s : Res α).Errs P := fun _ _ h =>
  (Res.raise.inj h).1 ▸ he

theorem raise_eq (e : ErrCode) (s : State) : (Res.raise e s : Res α).Errs (· = e) :=
  raise (P := (· = e)) rfl s

theorem mono {r : Res α} (h : r.Errs P) (hPQ : ∀ e, P e → Q e) : r.Errs Q := fun e t hr => hPQ e (h e t hr)

/-- Two parts of a helper in sequence. -/
theorem andThen {r : Res α} {f : α → State → Res β} (h : r.Errs P) (hf : ∀ a t, r = .ok a t → (f a t).Errs P) :
    (r.andThen f).Errs P := fun e t hr => by
  rcases Res.andThen_eq_raise.1 hr with hr | ⟨a, u, hr, hfa⟩
  · exact h e t hr
  · exact hf a u hr e t hfa

theorem orBump {r : Res α} (h : r.Errs P) (bumps : State → State) : (r.orBump bumps).Errs P := by
  cases r with
  | ok a t => exact ok a t
  | raise e t => exact raise (h e t rfl) _
  | waits t => exact waits _

end Res.Errs

/-- An error of reading the input (rule R331, rule R333). -/
def ErrCode.ofInput (e : ErrCode) : Prop := e = .sourceIo ∨ e = .corruptStream

/-! ## The output side -/

theorem sinkWrite_errs (b : Byte) (s : State) : (sinkWrite b s).Errs (· = .sinkIo) := by
  rcases sinkWrite_cases b s with ⟨_, h⟩ | ⟨_, h⟩ | ⟨_, h⟩ <;> rw [h]
  · exact .ok _ _
  · exact .raise_eq _ _
  · exact .waits _

theorem writeBitList_errs : ∀ (bits : List Bool) (s : State), (writeBitList bits s).Errs (· = .sinkIo)
  | [], s => .ok _ s
  | b :: bs, s => by
    refine Res.Errs.andThen ?_ fun _ t _ => writeBitList_errs bs t
    rcases writeBit_cases b s with ⟨_, h⟩ | ⟨_, h⟩ <;> rw [h]
    · exact .ok _ _
    · exact sinkWrite_errs _ _

theorem flushBits_errs (s : State) : (flushBits s).Errs (· = .sinkIo) := by
  rcases flushBits_cases s with ⟨_, h⟩ | ⟨_, h⟩ <;> rw [h]
  · exact .ok _ s
  · exact sinkWrite_errs _ _

theorem sendBytes_errs : ∀ (bytes : List Byte) (s : State), (sendBytes bytes s).Errs (· = .sinkIo)
  | [], s => .ok _ s
  | b :: bs, s => (sinkWrite_errs b s).andThen fun _ t _ => sendBytes_errs bs t

theorem encodeSymbol_errs (t : TableSel) (x : Nat) (s : State) : (encodeSymbol t x s).Errs (· = .sinkIo) :=
  (writeBitList_errs _ s).andThen fun _ _ _ => .ok _ _

theorem sendToken_errs (tok : Token) (s : State) : (sendToken tok s).Errs (· = .sinkIo) := by
  cases tok with
  | lit b => exact encodeSymbol_errs _ _ s
  | copy len dist =>
    exact (encodeSymbol_errs _ _ s).andThen fun _ t _ =>
      (encodeSymbol_errs _ _ t).andThen fun _ u _ => writeBitList_errs _ u

/-! ## The input side -/

theorem readBit_errs (s : State) : (readBit s).Errs ErrCode.ofInput := by
  rcases readBit_cases s with ⟨_, h⟩ | ⟨_, b, _, h⟩ | ⟨_, _, h⟩ | ⟨_, _, h⟩ | ⟨_, _, h⟩ <;> rw [h]
  · exact .ok _ _
  · exact .ok _ _
  · exact .raise (Or.inr rfl) _
  · exact .raise (Or.inl rfl) _
  · exact .waits _

theorem readBitsFrom_errs : ∀ (n v : Nat) (s : State), (readBitsFrom n v s).Errs ErrCode.ofInput
  | 0, _, s => .ok _ s
  | n + 1, _, s => (readBit_errs s).andThen fun _ t _ => readBitsFrom_errs n _ t

theorem walkFrom_errs (t : TableSel) : ∀ (fuel c : Nat) (s : State), (walkFrom t fuel c s).Errs ErrCode.ofInput
  | 0, _, s => .ok _ s
  | fuel + 1, c, s => by
    rw [walkFrom]
    split
    · exact (readBit_errs s).andThen fun _ u _ => walkFrom_errs t fuel _ u
    · exact .ok _ s

theorem decodeSymbol_errs (t : TableSel) (s : State) : (decodeSymbol t s).Errs ErrCode.ofInput :=
  (walkFrom_errs t _ _ s).andThen fun _ _ _ => .ok _ _

theorem readHeader_errs : ∀ (n shift : Nat) (v : Word) (s : State), (readHeader n shift v s).Errs ErrCode.ofInput
  | 0, _, _, s => .ok _ s
  | n + 1, shift, v, s => by
    refine Res.Errs.andThen (fun e t h => ?_) fun answer t _ => ?_
    · rcases srcRead_cases s with ⟨b, _, h'⟩ | ⟨_, h'⟩ | ⟨_, h'⟩ | ⟨_, h'⟩ <;> exact nomatch h'.symm.trans h
    · cases answer with
      | byte b => exact readHeader_errs n _ _ t
      | eof => exact .raise (Or.inr rfl) t
      | ioErr => exact .raise (Or.inl rfl) t

theorem fetchToken_errs (s : State) : (fetchToken s).Errs ErrCode.ofInput := by
  refine (walkFrom_errs .a _ _ s).andThen fun x t _ => ?_
  dsimp only
  split
  · exact .ok _ _
  · exact ((walkFrom_errs .b _ _ _).orBump _).andThen fun _ u _ =>
      ((readBitsFrom_errs _ _ u).orBump _).andThen fun _ _ _ => .ok _ _

/-! ## The lookahead -/

theorem fillOne_errs (s : State) : (fillOne s).Errs (· = .sourceIo) := by
  rcases fillOne_cases s with ⟨_, h⟩ | ⟨_, b, _, h⟩ | ⟨_, _, h⟩ | ⟨_, _, h⟩ <;> rw [h]
  · exact .ok _ s
  · exact .ok _ _
  · exact .raise_eq _ _
  · exact .waits _

theorem fillUpTo_errs : ∀ (n : Nat) (s : State), (fillUpTo n s).Errs (· = .sourceIo)
  | 0, s => .ok _ s
  | n + 1, s => (fillOne_errs s).andThen fun took t _ => by
    cases took
    · exact .ok _ t
    · exact fillUpTo_errs n t

theorem consumeTurns_errs : ∀ (k : Nat) (s : State), (consumeTurns k s).Errs (· = .sourceIo)
  | 0, s => .ok _ s
  | k + 1, s => ((fillOne_errs (shiftIn s)).andThen fun _ t _ => .ok _ t).andThen fun _ t _ => consumeTurns_errs k t

theorem consume_errs {k : Nat} {s : State} (hk : 1 ≤ k ∧ k ≤ s.win.lacnt.toNat) :
    (consume k s).Errs (· = .sourceIo) := by
  have hok : consumeOk s k = true := decide_eq_true hk
  rw [consume, checkOperand, hok, if_pos rfl]
  exact consumeTurns_errs k s

/-! ## Checks before a command -/

theorem checkOperand_errs {P : ErrCode → Prop} (ok : Bool) (s : State) {run : Res Unit} (h : run.Errs P) :
    (checkOperand ok s run).Errs fun e => e = .invariant ∨ P e := by
  rcases checkOperand_cases ok s run with ⟨_, h'⟩ | ⟨_, h'⟩ <;> rw [h']
  · exact h.mono fun _ => Or.inr
  · exact .raise (Or.inl rfl) s

/-! ## The driver's steps -/

/-- The match that is found lies within the lookahead and the window (rule R220, rule R221). -/
theorem findMatch_within {s : State} {m : MatchRef} (h : findMatch s = some m) :
    (3 ≤ m.len ∧ m.len ≤ min 60 s.win.lacnt.toNat) ∧ 1 ≤ m.dist ∧ m.dist ≤ s.win.wfill.toNat := by
  have hbest := isBestMatch_bestMatch s s.win.wfill.toNat
  rw [findMatch] at h
  by_cases hmin : Config.minLen ≤ (bestMatch s s.win.wfill.toNat).len
  · simp only [if_pos hmin, Option.some.injEq] at h
    simp only [Config.minLen] at hmin
    subst h
    obtain ⟨hdist, hlen⟩ := hbest.attained.resolve_left (by omega)
    exact ⟨⟨hmin, hlen ▸ (matchLen_spec s _).1⟩, hdist, hbest.within⟩
  · simp only [if_neg hmin, reduceCtorEq] at h

/-- A copy that is chosen is the match that is found, its fields as they are. -/
theorem chooseToken_cases (s : State) :
    chooseToken s = .lit (laByte s 0) ∨
    ∃ len dist, chooseToken s = .copy len dist ∧ (3 ≤ len.toNat ∧ len.toNat ≤ min 60 s.win.lacnt.toNat) ∧
      1 ≤ dist.toNat ∧ dist.toNat ≤ s.win.wfill.toNat := by
  rw [chooseToken]
  cases hm : findMatch s with
  | none => exact Or.inl rfl
  | some m =>
    obtain ⟨⟨h3, hlen⟩, h1, hdist⟩ := findMatch_within hm
    have hfill := s.win.wfill.isLt
    have hlen' : (BitVec.ofNat 6 m.len).toNat = m.len := by
      rw [BitVec.toNat_ofNat, Nat.mod_eq_of_lt (by omega)]
    have hdist' : (BitVec.ofNat 13 m.dist).toNat = m.dist := by
      rw [BitVec.toNat_ofNat, Nat.mod_eq_of_lt (by omega)]
    exact Or.inr ⟨_, _, rfl, by omega, by omega⟩

/-- A token that is chosen is no longer than the lookahead, where that is not empty. -/
theorem chooseToken_size (s : State) (h : s.win.lacnt ≠ 0) :
    1 ≤ (chooseToken s).size ∧ (chooseToken s).size ≤ s.win.lacnt.toNat := by
  have hpos : s.win.lacnt.toNat ≠ 0 := fun e => h (BitVec.eq_of_toNat_eq e)
  rcases chooseToken_cases s with htok | ⟨len, dist, htok, hlen, -⟩ <;> rw [htok, Token.size]
  · exact ⟨le_refl 1, Nat.one_le_iff_ne_zero.2 hpos⟩
  · omega

theorem consumeToken_errs {tok : Token} {s : State} (h : s.win.lacnt ≠ 0 → 1 ≤ tok.size ∧ tok.size ≤ s.win.lacnt.toNat) :
    (consumeToken tok s).Errs (· = .sourceIo) := by
  rcases consumeToken_cases tok s with ⟨_, h'⟩ | ⟨hne, h'⟩ <;> rw [h']
  · exact .ok _ s
  · exact consume_errs (h hne)

theorem closeEncode_errs (s : State) : (closeEncode s).Errs (· = .sinkIo) := by
  rcases closeEncode_cases s with ⟨_, h⟩ | ⟨_, h⟩ <;> rw [h]
  · exact .ok _ _
  · exact (flushBits_errs s).andThen fun _ _ _ => .ok _ _

/-- Only the Bit Channel, the ports, `OUTBYTES` and the tables differ. -/
def State.CodeSide (s t : State) : Prop :=
  ∃ b p o x y, t = { s with bits := b, ports := p, outbytes := o, tabA := x, tabB := y }

theorem State.CodeSide.trans {s t u : State} (h : s.CodeSide t) (h' : t.CodeSide u) : s.CodeSide u := by
  obtain ⟨_, _, _, _, _, rfl⟩ := h
  obtain ⟨b, p, o, x, y, rfl⟩ := h'
  exact ⟨b, p, o, x, y, rfl⟩

theorem State.OutputSide.codeSide {s t : State} (h : s.OutputSide t) : s.CodeSide t := by
  obtain ⟨b, p, o, rfl⟩ := h
  exact ⟨b, p, o, s.tabA, s.tabB, rfl⟩

theorem State.CodeSide.bumpSym (t : TableSel) (x : Nat) (s : State) : s.CodeSide (s.bumpSym t x) := by
  cases t <;> exact ⟨s.bits, s.ports, s.outbytes, _, _, rfl⟩

theorem encodeSymbol_codeSide (t : TableSel) (x : Nat) (s : State) : s.CodeSide (encodeSymbol t x s).state :=
  Res.state_andThen (R := State.CodeSide) State.CodeSide.trans (writeBitList_outputSide _ s).codeSide fun _ u _ =>
    State.CodeSide.bumpSym t x u

theorem sendToken_codeSide (tok : Token) (s : State) : s.CodeSide (sendToken tok s).state := by
  cases tok with
  | lit b => exact encodeSymbol_codeSide _ _ s
  | copy len dist =>
    exact Res.state_andThen (R := State.CodeSide) State.CodeSide.trans (encodeSymbol_codeSide _ _ s) fun _ t _ =>
      Res.state_andThen (R := State.CodeSide) State.CodeSide.trans (encodeSymbol_codeSide _ _ t) fun _ u _ =>
        (writeBitList_outputSide _ u).codeSide

theorem sendToken_win {tok : Token} {s t : State} (h : sendToken tok s = .ok () t) : t.win = s.win := by
  have hside := sendToken_codeSide tok s
  rw [h] at hside
  obtain ⟨_, _, _, _, _, rfl⟩ := hside
  rfl

/-- An error of an encoder's port (rule R331, rule R332). -/
def ErrCode.ofPort (e : ErrCode) : Prop := e = .sourceIo ∨ e = .sinkIo

/-- An encoder step in sequence raises no error but its ports'. -/
theorem encStep_errs {s : State} (h : s.fsm = .searching ∧ s.mode = .encode) : (encStep s).Errs ErrCode.ofPort := by
  rw [encStep, if_pos h]
  refine ((sendToken_errs _ _).mono fun _ => Or.inr).andThen fun _ t ht => ?_
  refine Res.Errs.andThen ?_ fun _ u _ => (closeEncode_errs _).mono fun _ => Or.inr
  refine (consumeToken_errs fun hne => ?_).mono fun _ => Or.inl
  have hwin : t.win = (s.setFsm .emitting).win := sendToken_win ht
  rw [hwin] at hne ⊢
  exact chooseToken_size s hne

theorem encStep_of_not {s : State} (h : ¬(s.fsm = .searching ∧ s.mode = .encode)) : encStep s = .raise .sequence s :=
  if_neg h

theorem decStep_of_not {s : State} (h : ¬(s.fsm = .reading ∧ s.mode = .decode)) : decStep s = .raise .sequence s :=
  if_neg h

theorem encInit_errs (s : State) : (encInit s).Errs ErrCode.ofPort := by
  rw [encInit_eq]
  exact ((sendBytes_errs _ _).mono fun _ => Or.inr).andThen fun _ t _ =>
    ((fillUpTo_errs _ t).mono fun _ => Or.inl).andThen fun _ _ _ => .ok _ _

theorem decInit_errs (s : State) : (decInit s).Errs ErrCode.ofInput := by
  rw [decInit_eq]
  exact (readHeader_errs _ _ _ _).andThen fun _ _ _ => .ok _ _

/-! ## Decoded tokens -/

theorem runLit_errs (b : Byte) (s : State) : (runLit b s).Errs (· = .sinkIo) :=
  (sinkWrite_errs b _).andThen fun _ _ _ => .ok _ _

/-- A match with a distance that the format has raises no `INVARIANT` (rule R311). -/
theorem runMatch_errs (len : BitVec 6) {dist : BitVec 13} (hdist : 1 ≤ dist.toNat ∧ dist.toNat ≤ 4096) (s : State) :
    (runMatch len dist s).Errs fun e => e = .sinkIo ∨ e = .corruptStream := by
  by_cases hbad : s.len.toNat - s.count.toNat < len.toNat ∨ s.win.wfill.toNat < dist.toNat
  · rw [runMatch_of_not_admits hbad]
    exact .raise (Or.inr rfl) _
  · obtain ⟨hlen, hfill⟩ := not_or.1 hbad
    have hrun : runMatch len dist s = copyBytes dist.toNat len.toNat (bumpMatch len dist s) :=
      (if_neg hlen).trans (if_neg hfill)
    rw [hrun]
    have hcan : (bumpMatch len dist s).canCopy dist.toNat := ⟨hdist.1, hdist.2, Nat.not_lt.1 hfill⟩
    exact fun e t h => Or.inl (copyBytes_raise _ hcan h)

theorem Res.orBump_eq_ok {α : Type} {r : Res α} {bumps : State → State} {a : α} {t : State} :
    r.orBump bumps = .ok a t ↔ r = .ok a t := by
  cases r with
  | ok b u => exact Iff.rfl
  | raise e u => exact ⟨nofun, nofun⟩
  | waits u => exact ⟨nofun, nofun⟩

/-- A distance that is decoded is one that the format has (rule R142). -/
theorem classDist_within {cls low : Nat} (hcls : cls < 64) (hlow : low < 64) :
    1 ≤ (classDist cls low).toNat ∧ (classDist cls low).toNat ≤ 4096 := by
  rw [classDist, BitVec.toNat_ofNat]
  simp only [Config.distLowBits]
  omega

/-- A token that is fetched over legal tables has a length and a distance that the format has, where it is a match. -/
theorem fetchToken_within {s t : State} (hs : s.tablesOk) {len : BitVec 6} {dist : BitVec 13}
    (h : fetchToken s = .ok (.copy len dist) t) : len.toNat ≤ 60 ∧ 1 ≤ dist.toNat ∧ dist.toNat ≤ 4096 := by
  rw [fetchToken] at h
  obtain ⟨symA, u, hwalk, h⟩ := Res.andThen_eq_ok.1 h
  have hsym : symA < 314 := walkSymbol_lt hs hwalk
  have hu : u.tablesOk := by
    have hside := walkFrom_inputSide .a (tableNodes .a) (s.sonAt .a (tableNodes .a - 1)) s
    rw [show walkFrom .a (tableNodes .a) _ s = _ from hwalk] at hside
    exact hside.tablesOk hs
  dsimp only at h
  split at h
  case isTrue => exact nomatch h
  case isFalse hmatch =>
    rw [fetchCopy] at h
    obtain ⟨cls, v, hcls, h⟩ := Res.andThen_eq_ok.1 h
    obtain ⟨low, x, hlow, h⟩ := Res.andThen_eq_ok.1 h
    obtain ⟨hlen, hdist⟩ := Token.copy.inj (Res.ok.inj h).1
    have hlt : cls < tableSymbols .b := walkSymbol_lt (s := u.setFsm .reconstructing) hu (Res.orBump_eq_ok.1 hcls)
    have hlength := (lengthSymbol_symbolLength (Nat.not_lt.1 hmatch) hsym).1
    rw [← hlen, ← hdist]
    exact ⟨by omega, classDist_within hlt (readBits_lt (Res.orBump_eq_ok.1 hlow))⟩

theorem Token.run_errs {s t : State} (hs : s.tablesOk) {tok : Token} (h : fetchToken s = .ok tok t) :
    (tok.run t).Errs fun e => e = .sinkIo ∨ e = .corruptStream := by
  cases tok with
  | lit b => exact (runLit_errs b t).mono fun _ => Or.inl
  | copy len dist => exact runMatch_errs len (fetchToken_within hs h).2 t

/-- A decoder step in sequence, over legal tables, raises no error but its ports' and those of the stream. -/
theorem decStep_errs {s : State} (hs : s.tablesOk) (h : s.fsm = .reading ∧ s.mode = .decode) :
    (decStep s).Errs fun e => e = .sourceIo ∨ e = .sinkIo ∨ e = .corruptStream := by
  rw [decStep, if_pos h]
  refine Res.Errs.andThen ((fetchToken_errs s).mono fun e he => ?_) fun tok t ht =>
    Res.Errs.andThen ((Token.run_errs hs ht).mono fun _ => Or.inr) fun _ _ _ => .ok _ _
  exact he.imp_right Or.inr

end Sys2Proof.Machine

/-! SUPPORT. Which errors each command raises (rule R338). -/

namespace Sys2Proof.Machine

/-! ## A step that ends in `FAILED` -/

/-- A step that ends in `FAILED` has taken an error, where its pseudocode ends in no `FAILED` itself. -/
theorem endStep_failed {α : Type} {s t : State} {last : State → State} {r : Res α} (hs : s.fsm ≠ .failed)
    (hlast : ∀ u, (last u).fsm = u.fsm) (hok : ∀ a u, r = .ok a u → u.fsm ≠ .failed)
    (h : endStep s last r = .next t) (ht : t.fsm = .failed) : ∃ e u, r = .raise e u ∧ t = last (u.takeError e) := by
  rcases endStep_cases s last r with ⟨a, u, hr, hend⟩ | ⟨e, u, hr, hend⟩ | ⟨u, hr, hend⟩ <;> rw [hend] at h <;>
    obtain rfl := Host.Outcome.next.inj h
  · exact absurd ((hlast u).symm.trans ht) (hok a u hr)
  · exact ⟨e, u, hr, rfl⟩
  · exact absurd ht hs

theorem endTransformStep_fsm (s : State) : (endTransformStep s).fsm = s.fsm := by
  rw [endTransformStep]
  split <;> rfl

theorem endTransformStep_err (s : State) : (endTransformStep s).err = s.err := by
  rw [endTransformStep]
  split <;> rfl

/-- A helper's end leaves `FSM` outside `FAILED`. -/
def Res.EndsOutsideFailed {α : Type} (r : Res α) : Prop := ∀ a t, r = .ok a t → t.fsm ≠ .failed

theorem Res.EndsOutsideFailed.andThen {α β : Type} {r : Res α} {f : α → State → Res β}
    (h : ∀ a s, (f a s).EndsOutsideFailed) : (r.andThen f).EndsOutsideFailed := fun b t hb => by
  obtain ⟨a, u, _, hf⟩ := Res.andThen_eq_ok.1 hb
  exact h a u b t hf

theorem Res.EndsOutsideFailed.ok {α : Type} (a : α) {s : State} (h : s.fsm ≠ .failed) :
    (Res.ok a s).EndsOutsideFailed := fun _ _ hr => (Res.ok.inj hr).2 ▸ h

theorem Res.EndsOutsideFailed.raise {α : Type} (e : ErrCode) (s : State) :
    (Res.raise e s : Res α).EndsOutsideFailed := fun _ _ hr => nomatch hr

theorem Res.EndsOutsideFailed.waits {α : Type} (s : State) : (Res.waits s : Res α).EndsOutsideFailed :=
  fun _ _ hr => nomatch hr

/-- A helper that leaves `FSM` alone. -/
theorem Res.EndsOutsideFailed.of_works {α : Type} {s : State} {r : Res α} (hs : s.fsm ≠ .failed)
    (h : s.Works r.state) : r.EndsOutsideFailed := fun a t hr => by
  rw [hr, Res.state_ok] at h
  rw [h.fields.1]
  exact hs

theorem encInit_outsideFailed (s : State) : (encInit s).EndsOutsideFailed := by
  rw [encInit_eq]
  refine .andThen fun _ t => .andThen fun _ u => .ok _ ?_
  show (if u.win.lacnt = 0 then Fsm.done else Fsm.searching) ≠ .failed
  split <;> decide

theorem decInit_outsideFailed (s : State) : (decInit s).EndsOutsideFailed := by
  rw [decInit_eq]
  refine .andThen fun v t => .ok _ ?_
  show (if v = 0 then Fsm.done else Fsm.reading) ≠ .failed
  split <;> decide

theorem closeEncode_outsideFailed (s : State) : (closeEncode s).EndsOutsideFailed := by
  rcases closeEncode_cases s with ⟨_, h⟩ | ⟨_, h⟩ <;> rw [h]
  · exact .ok _ Fsm.noConfusion
  · exact .andThen fun _ u => .ok _ Fsm.noConfusion

theorem encStep_outsideFailed (s : State) : (encStep s).EndsOutsideFailed := by
  rw [encStep]
  split
  · exact .andThen fun _ _ => .andThen fun _ _ => closeEncode_outsideFailed _
  · exact .raise _ _

theorem decStep_outsideFailed (s : State) : (decStep s).EndsOutsideFailed := by
  rw [decStep]
  split
  · refine .andThen fun tok _ => .andThen fun _ u => .ok _ ?_
    show (if u.count = u.len then Fsm.done else Fsm.reading) ≠ .failed
    split <;> decide
  · exact .raise _ _

/-! ## The commands -/

section

variable {s t : State} (hs : s.fsm ≠ .failed) (ht : t.fsm = .failed)
include hs ht

/-- The error of a command that leads to `FAILED`. -/
theorem accepted_err {r : Res Unit} {P : ErrCode → Prop} (h : accepted s r = .next t)
    (herrs : r.Errs P) (hok : r.EndsOutsideFailed) : P t.err := by
  rw [accepted_of_ne _ hs] at h
  obtain ⟨e, u, hr, rfl⟩ := endStep_failed hs (fun _ => rfl) hok h ht
  exact herrs e u hr

/-- The error of a transform's step that leads to `FAILED`. -/
theorem endStep_err {α : Type} {r : Res α} {P : ErrCode → Prop} (h : endStep s endTransformStep r = .next t)
    (herrs : r.Errs P) (hok : r.EndsOutsideFailed) : P t.err := by
  obtain ⟨e, u, hr, rfl⟩ := endStep_failed hs endTransformStep_fsm hok h ht
  rw [endTransformStep_err]
  exact herrs e u hr

theorem finish_err {α : Type} {r : Res α} {P : ErrCode → Prop} (h : finish s r = .next t)
    (herrs : r.Errs P) (hok : r.EndsOutsideFailed) : P t.err := by
  obtain ⟨e, u, hr, rfl⟩ := endStep_failed hs (fun _ => rfl) hok h ht
  exact herrs e u hr

end

/-- A helper that writes `RESULT` at its end. -/
theorem Res.EndsOutsideFailed.of_works_andThen {α : Type} {s : State} {r : Res α} {f : α → State → State}
    (hs : s.fsm ≠ .failed) (h : s.Works r.state) (hf : ∀ a t, (f a t).fsm = t.fsm) :
    (r.andThen fun a t => .ok () (f a t)).EndsOutsideFailed := fun _ t hr => by
  obtain ⟨a, u, hu, ht⟩ := Res.andThen_eq_ok.1 hr
  rw [← (Res.ok.inj ht).2, hf]
  exact Res.EndsOutsideFailed.of_works hs h a u hu

theorem Res.EndsOutsideFailed.checkOperand {s : State} {run : Res Unit} (ok : Bool) (h : run.EndsOutsideFailed) :
    (checkOperand ok s run).EndsOutsideFailed := by
  rcases checkOperand_cases ok s run with ⟨_, h'⟩ | ⟨_, h'⟩ <;> rw [h']
  · exact h
  · exact .raise _ _

theorem never_errs {s : State} : (Res.ok () s).Errs fun _ => False := .ok _ _

/-- A check that fails is the only error of a command that does nothing else that can. -/
theorem checkOperand_ok_errs (ok : Bool) (s t : State) :
    (checkOperand ok s (.ok () t)).Errs (· = .invariant) :=
  (checkOperand_errs ok s (never_errs (s := t))).mono fun _ h => h.resolve_right id

theorem checkOperand_ok_outsideFailed (ok : Bool) {s t : State} (ht : t.fsm ≠ .failed) :
    (checkOperand ok s (.ok () t)).EndsOutsideFailed := .checkOperand ok (.ok _ ht)

/-- The errors of the later steps of a transform (rule R320, rule R338). -/
theorem transformStep_err {s t : State} (htab : s.tablesOk) (h : transformStep s = .next t) (ht : t.fsm = .failed) :
    (s.fsm = .searching → s.mode = .encode → t.err = .sourceIo ∨ t.err = .sinkIo) ∧
    (s.fsm = .reading → s.mode = .decode → t.err = .sourceIo ∨ t.err = .sinkIo ∨ t.err = .corruptStream) := by
  refine ⟨fun hfsm hmode => ?_, fun hfsm hmode => ?_⟩ <;> rw [transformStep, hmode] at h
  · exact endStep_err (by rw [hfsm]; decide) ht h (encStep_errs ⟨hfsm, hmode⟩) (encStep_outsideFailed s)
  · exact endStep_err (by rw [hfsm]; decide) ht h (decStep_errs htab ⟨hfsm, hmode⟩) (decStep_outsideFailed s)

/-- An encoder step raises `SEQUENCE`, or an error of its ports. -/
theorem encStep_errs_all (s : State) : (encStep s).Errs fun e => e = .sequence ∨ e.ofPort := by
  by_cases h : s.fsm = .searching ∧ s.mode = .encode
  · exact (encStep_errs h).mono fun _ => Or.inr
  · rw [encStep_of_not h]
    exact .raise (Or.inl rfl) s

/-- A decoder step raises `SEQUENCE`, or an error of its ports or of the stream. -/
theorem decStep_errs_all {s : State} (htab : s.tablesOk) :
    (decStep s).Errs fun e => e = .sequence ∨ e = .sourceIo ∨ e = .sinkIo ∨ e = .corruptStream := by
  by_cases h : s.fsm = .reading ∧ s.mode = .decode
  · exact (decStep_errs htab h).mono fun _ => Or.inr
  · rw [decStep_of_not h]
    exact .raise (Or.inl rfl) s

/-- Settles O54: for each command, the errors of its helpers. -/
theorem eachCommandRaisesOnlyItsErrors : Obligations.EachCommandRaisesOnlyItsErrors := by
  refine ⟨fun s t _ htab hb hw hq h ht => ?step, fun i s t hs _ htab h ht => ?command⟩
  case step => exact transformStep_err htab ((step_of_busy hb hw hq).symm.trans h) ht
  case command =>
    cases i with
    | nop => exact hs (Host.Outcome.next.inj h ▸ ht)
    | reset => exact Fsm.noConfusion (ht.symm.trans (congrArg State.fsm (Host.Outcome.next.inj h)).symm)
    | encode => exact endStep_err hs ht h (encInit_errs _) (encInit_outsideFailed _)
    | encinit => exact finish_err hs ht h (encInit_errs s) (encInit_outsideFailed s)
    | encstep => exact accepted_err hs ht h (encStep_errs_all s) (encStep_outsideFailed s)
    | decode => exact endStep_err hs ht h (decInit_errs _) (decInit_outsideFailed _)
    | decinit => exact finish_err hs ht h (decInit_errs s) (decInit_outsideFailed s)
    | decstep => exact accepted_err hs ht h (decStep_errs_all htab) (decStep_outsideFailed s)
    | wrbits cnt value =>
      exact accepted_err hs ht h (writeBitList_errs _ s) (.of_works hs (writeBitList_works _ s))
    | flush => exact accepted_err hs ht h (flushBits_errs s) (.of_works hs (flushBits_works s))
    | rdbits cnt =>
      exact accepted_err hs ht h ((readBitsFrom_errs _ _ s).andThen fun _ _ _ => .ok _ _)
        (.of_works_andThen hs (readBitsFrom_works _ _ s) fun _ _ => rfl)
    | decsym tab =>
      exact accepted_err hs ht h ((decodeSymbol_errs tab s).andThen fun _ _ _ => .ok _ _)
        (.of_works_andThen hs (decodeSymbol_works tab s) fun _ _ => rfl)
    | wadv b => exact accepted_err hs ht h never_errs (.ok _ hs)
    | findm => exact accepted_err hs ht h never_errs (.ok _ hs)
    | rebuild tab => exact accepted_err hs ht h never_errs (.of_works hs (rebuildTable_works tab s))
    | lafill =>
      exact accepted_err hs ht h ((fillUpTo_errs _ s).andThen fun _ _ _ => .ok _ _)
        (.of_works_andThen hs (fillUpTo_works _ s) fun _ _ => rfl)
    | byteat dist =>
      have hread : (byteAt dist.toNat s).Errs (· = .invariant) := by
        rcases byteAt_cases dist.toNat s with ⟨_, _, h'⟩ | ⟨_, h'⟩ <;> rw [h']
        · exact .ok _ s
        · exact .raise_eq _ s
      have hworks : s.Works (byteAt dist.toNat s).state := by
        rcases byteAt_cases dist.toNat s with ⟨_, _, h'⟩ | ⟨_, h'⟩ <;> rw [h'] <;> exact .refl s
      exact accepted_err hs ht h (hread.andThen fun _ _ _ => .ok _ _) (.of_works_andThen hs hworks fun _ _ => rfl)
    | lapeek k => exact accepted_err hs ht h (checkOperand_ok_errs _ s _) (checkOperand_ok_outsideFailed _ hs)
    | rdnode tab node => exact accepted_err hs ht h (checkOperand_ok_errs _ s _) (checkOperand_ok_outsideFailed _ hs)
    | rdleaf tab sym => exact accepted_err hs ht h (checkOperand_ok_errs _ s _) (checkOperand_ok_outsideFailed _ hs)
    | bump tab sym =>
      have hkeep : (s.bumpSym tab sym.toNat).fsm ≠ .failed := (bumpSym_works tab _ s).fields.1 ▸ hs
      exact accepted_err hs ht h (checkOperand_ok_errs _ s _) (checkOperand_ok_outsideFailed _ hkeep)
    | lacons k =>
      exact accepted_err hs ht h ((checkOperand_errs _ s (consumeTurns_errs _ s)).andThen fun _ _ _ => .ok _ _)
        (.of_works_andThen hs (consume_works _ s) fun _ _ => rfl)
    | encsym tab sym =>
      exact accepted_err hs ht h (checkOperand_errs _ s (encodeSymbol_errs tab _ s))
        (.checkOperand _ (.of_works hs (encodeSymbol_works tab _ s)))
    | lit b => exact finish_err hs ht h (runLit_errs b s) (.of_works hs (Token.run_works (.lit b) s))
    | matchCopy len dist =>
      intro hwf
      obtain ⟨-, hdist⟩ := Instr.wellFormed_matchCopy hwf
      exact finish_err hs ht h (runMatch_errs len hdist s) (.of_works hs (Token.run_works (.copy len dist) s))

end Sys2Proof.Machine

/-! SUPPORT. What a failing command leaves in `RESULT` (rule R339), and when an encoder step's codes are all sent. -/

namespace Sys2Proof.Machine

/-! ## When bits are all sent -/

/-- `n` bits have been written: the sink has accepted the bytes they filled. -/
structure State.SentBits (s : State) (n : Nat) (t : State) : Prop where
  ready : s.sinkReady (s.bits.bytesFilled n)
  sinkAt : ∀ k, t.ports.sinkAt k = s.ports.sinkAt (s.bits.bytesFilled n + k)
  obits : t.bits.obits.toNat = (s.bits.obits.toNat + n) % 8

/-- Bits are written exactly where the sink accepts the bytes they fill (rule R172). -/
structure Res.Sends (s : State) (n : Nat) (r : Res Unit) : Prop where
  ok : ∀ t, r = .ok () t → s.SentBits n t
  raise : ∀ e t, r = .raise e t → ¬s.sinkReady (s.bits.bytesFilled n)

theorem bytesFilled_add {s t : State} {n : Nat} (h : s.SentBits n t) (m : Nat) :
    s.bits.bytesFilled (n + m) = s.bits.bytesFilled n + t.bits.bytesFilled m := by
  have := h.obits
  simp only [BitChannel.bytesFilled]
  omega

namespace Res.Sends

variable {s : State} {n m : Nat} {r : Res Unit}

theorem of_ok {t : State} (h : s.SentBits n t) : Res.Sends s n (.ok () t) :=
  ⟨fun _ hu => (Res.ok.inj hu).2 ▸ h, fun _ _ hu => (nomatch hu)⟩

theorem of_raise {e : ErrCode} {t : State} (h : ¬s.sinkReady (s.bits.bytesFilled n)) : Res.Sends s n (.raise e t) :=
  ⟨fun _ hu => (nomatch hu), fun _ _ _ => h⟩

theorem of_waits {t : State} : Res.Sends s n (.waits t) := ⟨fun _ hu => (nomatch hu), fun _ _ hu => (nomatch hu)⟩

/-- Bits written after bits. -/
theorem andThen {f : Unit → State → Res Unit} (h : Res.Sends s n r) (hf : ∀ t, r = .ok () t → Res.Sends t m (f () t)) :
    Res.Sends s (n + m) (r.andThen f) where
  ok u hu := by
    obtain ⟨⟨⟩, t, hr, hft⟩ := Res.andThen_eq_ok.1 hu
    have ht := h.ok t hr
    have hu := (hf t hr).ok u hft
    have hsum := bytesFilled_add ht m
    have hobits := ht.obits
    refine ⟨fun k hk => ?_, fun k => ?_, ?_⟩
    · by_cases hlt : k < s.bits.bytesFilled n
      · exact ht.ready k hlt
      · obtain ⟨i, rfl⟩ : ∃ i, k = s.bits.bytesFilled n + i := ⟨k - s.bits.bytesFilled n, by omega⟩
        exact (ht.sinkAt i).symm.trans (hu.ready i (by omega))
    · rw [hu.sinkAt, ht.sinkAt, hsum, Nat.add_assoc]
    · rw [hu.obits]
      omega
  raise e u hu hready := by
    rcases Res.andThen_eq_raise.1 hu with hr | ⟨⟨⟩, t, hr, hft⟩
    · refine h.raise e u hr fun k hk => hready k (hk.trans_le ?_)
      simp only [BitChannel.bytesFilled]
      omega
    · have ht := h.ok t hr
      have hsum := bytesFilled_add ht m
      exact (hf t hr).raise e u hft fun k hk => (ht.sinkAt k).trans (hready _ (by omega))

/-- What follows the bits leaves the Bit Channel and the ports alone. -/
theorem andThen_ok {f : State → State} (h : Res.Sends s n r) (hf : ∀ t, (f t).bits = t.bits ∧ (f t).ports = t.ports) :
    Res.Sends s n (r.andThen fun _ t => .ok () (f t)) where
  ok u hu := by
    obtain ⟨⟨⟩, t, hr, hft⟩ := Res.andThen_eq_ok.1 hu
    obtain ⟨hbits, hports⟩ := hf t
    obtain ⟨h1, h2, h3⟩ := h.ok t hr
    rw [← (Res.ok.inj hft).2]
    exact ⟨h1, by rwa [hports], by rwa [hbits]⟩
  raise e u hu := by
    rcases Res.andThen_eq_raise.1 hu with hr | ⟨⟨⟩, t, hr, hft⟩
    · exact h.raise e u hr
    · exact nomatch hft

end Res.Sends

theorem writeBit_sends (b : Bool) (s : State) : Res.Sends s 1 (writeBit b s) := by
  rcases writeBit_cases b s with ⟨h7, h⟩ | ⟨h7, h⟩ <;> rw [h]
  · have hnone : s.bits.bytesFilled 1 = 0 := by
      simp only [BitChannel.bytesFilled]
      omega
    refine .of_ok ⟨fun k hk => absurd hk (by omega), fun k => by rw [hnone, Nat.zero_add], ?_⟩
    show (s.bits.obits + 1).toNat = _
    bv_omega
  · have hone : s.bits.bytesFilled 1 = 1 := by
      simp only [BitChannel.bytesFilled]
      omega
    have hzero : s.ports.nextSink = s.ports.sinkAt 0 := s.ports.nextSink_eq
    rcases sinkWrite_cases ((s.bits.obuf <<< 1) ||| (BitVec.ofBool b).setWidth 8)
      { s with bits := { s.bits with obuf := 0, obits := 0 } } with ⟨hs, h'⟩ | ⟨hs, h'⟩ | ⟨hs, h'⟩ <;> rw [h'] <;>
      replace hs := hzero.symm.trans hs
    · refine .of_ok ⟨fun k hk => ?_, fun k => ?_, by show 0 = _; omega⟩
      · rw [show k = 0 by omega]
        exact hs
      · rw [hone, Nat.add_comm]
        exact Ports.sinkAt_sinkDone s.ports k
    · refine .of_raise fun hready => ?_
      have hok := hready 0 (by omega)
      rw [hs] at hok
      exact nomatch hok
    · exact .of_waits

theorem writeBitList_sends : ∀ (bits : List Bool) (s : State), Res.Sends s bits.length (writeBitList bits s)
  | [], s => by
    have hnone : s.bits.bytesFilled 0 = 0 := by
      have := s.bits.obits.isLt
      simp only [BitChannel.bytesFilled]
      omega
    refine .of_ok ⟨fun k hk => absurd hk (by rw [List.length_nil]; omega), fun k => ?_, ?_⟩
    · rw [List.length_nil, hnone, Nat.zero_add]
    · exact (Nat.mod_eq_of_lt s.bits.obits.isLt).symm
  | b :: bs, s => by
    rw [List.length_cons, Nat.add_comm]
    exact (writeBit_sends b s).andThen fun t _ => writeBitList_sends bs t

theorem encodeSymbol_sends (t : TableSel) (x : Nat) (s : State) :
    Res.Sends s (s.code t x).length (encodeSymbol t x s) :=
  (writeBitList_sends _ s).andThen_ok fun u => by cases t <;> exact ⟨rfl, rfl⟩

/-- A code of table B is as it was after a code of table A has been sent. -/
theorem code_of_encodeSymbol_a {x y : Nat} {s t : State} (h : encodeSymbol .a x s = .ok () t) :
    t.code .b y = s.code .b y := by
  obtain ⟨⟨⟩, u, hw, hu⟩ := Res.andThen_eq_ok.1 h
  have hside := writeBitList_outputSide (s.code .a x) s
  rw [hw] at hside
  obtain ⟨_, _, _, rfl⟩ := hside
  rw [← (Res.ok.inj hu).2]
  rfl

/-- A token is sent exactly where the sink accepts the bytes its bits fill. -/
theorem sendToken_sends (tok : Token) (s : State) : Res.Sends s (s.tokenBits tok).length (sendToken tok s) := by
  cases tok with
  | lit b => exact encodeSymbol_sends .a b.toNat s
  | copy len dist =>
    have hbits : (s.tokenBits (.copy len dist)).length = (s.code .a (lengthSymbol len.toNat)).length +
        ((s.code .b (distClass dist.toNat)).length + (fieldBits (distExtra dist.toNat) Config.distLowBits).length) := by
      rw [← Nat.add_assoc, ← List.length_append, ← List.length_append]
      rfl
    rw [hbits]
    refine (encodeSymbol_sends .a _ s).andThen fun t ht => ?_
    rw [← code_of_encodeSymbol_a ht]
    exact (encodeSymbol_sends .b _ t).andThen fun u _ => writeBitList_sends _ u

/-! ## `RESULT` where an error is raised -/

/-- Where the helper raises, `RESULT` is as it was in this state. -/
def Res.KeepsResult {α : Type} (s : State) (r : Res α) : Prop := ∀ e t, r = .raise e t → t.result = s.result

namespace Res.KeepsResult

variable {α β : Type} {s : State} {r : Res α}

theorem of_works (h : s.Works r.state) : r.KeepsResult s := fun e t hr => by
  rw [hr, Res.state_raise] at h
  exact h.fields.2.2.2.2.1

theorem ok (a : α) (t : State) : (Res.ok a t).KeepsResult s := fun _ _ hr => nomatch hr

theorem raise (e : ErrCode) : (Res.raise e s : Res α).KeepsResult s := fun _ _ hr => (Res.raise.inj hr).2 ▸ rfl

theorem andThen {f : α → State → Res β} (h : r.KeepsResult s)
    (hf : ∀ a t, r = .ok a t → (f a t).KeepsResult s) : (r.andThen f).KeepsResult s := fun e u hu => by
  rcases Res.andThen_eq_raise.1 hu with hr | ⟨a, t, hr, hft⟩
  · exact h e u hr
  · exact hf a t hr e u hft

theorem checkOperand {run : Res Unit} (ok : Bool) (h : run.KeepsResult s) : (checkOperand ok s run).KeepsResult s := by
  rcases checkOperand_cases ok s run with ⟨_, h'⟩ | ⟨_, h'⟩ <;> rw [h']
  · exact h
  · exact raise _

end Res.KeepsResult

/-! ## A failing encoder step -/

/-- `RESULT` and the error of an encoder step that raises: its codes are all sent and its last flush is refused, or
`RESULT` is as it was (rule R339, log entry 8). -/
theorem encStep_raise {s u : State} {e : ErrCode} (h : encStep s = .raise e u) :
    e = .sinkIo ∧ s.sinkReady (s.bits.bytesFilled (s.tokenBits (chooseToken s)).length) ∧
        u.result = (chooseToken s).desc ∨
      ¬(e = .sinkIo ∧ s.sinkReady (s.bits.bytesFilled (s.tokenBits (chooseToken s)).length)) ∧ u.result = s.result := by
  by_cases hseq : s.fsm = .searching ∧ s.mode = .encode
  · rw [encStep, if_pos hseq] at h
    have hsends := sendToken_sends (chooseToken s) (s.setFsm .emitting)
    have hwork := sendToken_works (chooseToken s) (s.setFsm .emitting)
    rcases Res.andThen_eq_raise.1 h with hsend | ⟨⟨⟩, t, hsend, h⟩
    · exact Or.inr ⟨fun ⟨_, hready⟩ => hsends.raise e u hsend hready, Res.KeepsResult.of_works hwork e u hsend⟩
    · rw [hsend, Res.state_ok] at hwork
      have hresult : t.result = s.result := hwork.fields.2.2.2.2.1
      rcases Res.andThen_eq_raise.1 h with hcons | ⟨⟨⟩, v, hcons, hclose⟩
      · have hsource : e = .sourceIo := by
          refine consumeToken_errs (fun hne => ?_) e u hcons
          have hwin : t.win = (s.setFsm .emitting).win := sendToken_win hsend
          rw [hwin] at hne ⊢
          exact chooseToken_size s hne
        rw [hsource]
        exact Or.inr ⟨fun hsink => ErrCode.noConfusion hsink.1,
          (Res.KeepsResult.of_works (consumeToken_works _ t) e u hcons).trans hresult⟩
      · refine Or.inl ⟨closeEncode_errs _ e u hclose, (hsends.ok t hsend).ready, ?_⟩
        rcases closeEncode_cases (v.setResult (chooseToken s).desc) with ⟨_, h'⟩ | ⟨_, h'⟩ <;> rw [h'] at hclose
        · exact nomatch hclose
        · exact ((Res.KeepsResult.of_works (flushBits_works _)).andThen fun _ _ _ => .ok _ _) e u hclose
  · rw [encStep_of_not hseq] at h
    obtain ⟨rfl, rfl⟩ := Res.raise.inj h
    exact Or.inr ⟨fun hsink => ErrCode.noConfusion hsink.1, rfl⟩

/-- A decoder step that raises keeps `RESULT`. -/
theorem decStep_keepsResult (s : State) : (decStep s).KeepsResult s := by
  by_cases hseq : s.fsm = .reading ∧ s.mode = .decode
  · rw [decStep, if_pos hseq]
    refine Res.KeepsResult.andThen ?_ fun tok t ht => Res.KeepsResult.andThen ?_ fun _ _ _ => .ok _ _
    · obtain ⟨x, hx⟩ := fetchToken_works s
      exact .of_works (s := s.setFsm x) hx
    · obtain ⟨x, hx⟩ := fetchRun_works s ht
      exact .of_works (s := s.setFsm x) hx
  · rw [decStep_of_not hseq]
    exact .raise _

theorem encInit_keepsResult (s : State) : (encInit s).KeepsResult s := by
  rw [encInit_eq]
  refine Res.KeepsResult.andThen (.of_works (s := s.encodeBegun) (sendBytes_works _ _)) fun _ t ht => ?_
  have hwork := sendBytes_works (headerOf s.len) s.encodeBegun
  rw [ht, Res.state_ok] at hwork
  exact Res.KeepsResult.andThen (.of_works (s := s.encodeBegun) (hwork.trans (fillUpTo_works _ t))) fun _ _ _ => .ok _ _

theorem decInit_keepsResult (s : State) : (decInit s).KeepsResult s := by
  rw [decInit_eq]
  exact Res.KeepsResult.andThen (.of_works (s := s.decodeBegun) (readHeader_works _ _ _ _)) fun _ _ _ => .ok _ _

/-! ## The commands -/

theorem endTransformStep_result (s : State) : (endTransformStep s).result = s.result := by
  rw [endTransformStep]
  split <;> rfl

section

variable {s t : State} (hs : s.fsm ≠ .failed) (ht : t.fsm = .failed)
include hs ht

/-- A command that leads to `FAILED` keeps `RESULT` where its pseudocode does. -/
theorem accepted_result {r : Res Unit} (h : accepted s r = .next t) (hr : r.KeepsResult s) (hok : r.EndsOutsideFailed) :
    t.result = s.result := by
  rw [accepted_of_ne _ hs] at h
  obtain ⟨e, u, hraise, rfl⟩ := endStep_failed hs (fun _ => rfl) hok h ht
  exact hr e u hraise

theorem finish_result {α : Type} {r : Res α} (h : finish s r = .next t) (hr : r.KeepsResult s)
    (hok : r.EndsOutsideFailed) : t.result = s.result := by
  obtain ⟨e, u, hraise, rfl⟩ := endStep_failed hs (fun _ => rfl) hok h ht
  exact hr e u hraise

theorem endStep_result {α : Type} {r : Res α} (h : endStep s endTransformStep r = .next t) (hr : r.KeepsResult s)
    (hok : r.EndsOutsideFailed) : t.result = s.result := by
  obtain ⟨e, u, hraise, rfl⟩ := endStep_failed hs endTransformStep_fsm hok h ht
  rw [endTransformStep_result]
  exact hr e u hraise

/-- What an encoder step that leads to `FAILED` leaves in `RESULT`. -/
theorem encStep_result {last : State → State} (hlast : ∀ u : State, (last u).fsm = u.fsm)
    (herr : ∀ u : State, (last u).err = u.err) (hresult : ∀ u : State, (last u).result = u.result)
    (h : endStep s last (encStep s) = .next t) :
    (t.err = .sinkIo ∧ s.sinkReady (s.bits.bytesFilled (s.tokenBits (chooseToken s)).length) →
      t.result = (chooseToken s).desc) ∧
    (¬(t.err = .sinkIo ∧ s.sinkReady (s.bits.bytesFilled (s.tokenBits (chooseToken s)).length)) →
      t.result = s.result) := by
  obtain ⟨e, u, hraise, rfl⟩ := endStep_failed hs hlast (encStep_outsideFailed s) h ht
  have hte : (last (u.takeError e)).err = e := herr _
  have htr : (last (u.takeError e)).result = u.result := hresult _
  rw [hte, htr]
  rcases encStep_raise hraise with ⟨he, hready, hdesc⟩ | ⟨hnot, hkeep⟩
  · exact ⟨fun _ => hdesc, fun hnot => absurd ⟨he, hready⟩ hnot⟩
  · exact ⟨fun hyes => absurd hyes hnot, fun _ => hkeep⟩

end

/-- A command that is no encoder step keeps `RESULT` where it leads to `FAILED`. -/
theorem exec_keepsResult {i : Instr} {s t : State} (hs : s.fsm ≠ .failed) (ht : t.fsm = .failed)
    (hcmd : i.isCommand = true) (hi : i ≠ .encstep) (h : exec i s = .next t) : t.result = s.result := by
  cases i with
  | nop => exact absurd (Host.Outcome.next.inj h ▸ ht) hs
  | reset => exact Fsm.noConfusion (ht.symm.trans (congrArg State.fsm (Host.Outcome.next.inj h)).symm)
  | encode => exact endStep_result hs ht h (encInit_keepsResult { s with busy := true }) (encInit_outsideFailed _)
  | encinit => exact finish_result hs ht h (encInit_keepsResult s) (encInit_outsideFailed s)
  | encstep => exact absurd rfl hi
  | decode => exact endStep_result hs ht h (decInit_keepsResult { s with busy := true }) (decInit_outsideFailed _)
  | decinit => exact finish_result hs ht h (decInit_keepsResult s) (decInit_outsideFailed s)
  | decstep => exact accepted_result hs ht h (decStep_keepsResult s) (decStep_outsideFailed s)
  | wrbits cnt value =>
    exact accepted_result hs ht h (.of_works (writeBitList_works _ s)) (.of_works hs (writeBitList_works _ s))
  | flush => exact accepted_result hs ht h (.of_works (flushBits_works s)) (.of_works hs (flushBits_works s))
  | rdbits cnt =>
    exact accepted_result hs ht h ((Res.KeepsResult.of_works (readBitsFrom_works _ _ s)).andThen fun _ _ _ => .ok _ _)
      (.of_works_andThen hs (readBitsFrom_works _ _ s) fun _ _ => rfl)
  | decsym tab =>
    exact accepted_result hs ht h ((Res.KeepsResult.of_works (decodeSymbol_works tab s)).andThen fun _ _ _ => .ok _ _)
      (.of_works_andThen hs (decodeSymbol_works tab s) fun _ _ => rfl)
  | wadv b => exact accepted_result hs ht h (.ok _ _) (.ok _ hs)
  | findm => exact accepted_result hs ht h (.ok _ _) (.ok _ hs)
  | rebuild tab => exact accepted_result hs ht h (.ok _ _) (.of_works hs (rebuildTable_works tab s))
  | lafill =>
    exact accepted_result hs ht h ((Res.KeepsResult.of_works (fillUpTo_works _ s)).andThen fun _ _ _ => .ok _ _)
      (.of_works_andThen hs (fillUpTo_works _ s) fun _ _ => rfl)
  | byteat dist =>
    have hworks : s.Works (byteAt dist.toNat s).state := by
      rcases byteAt_cases dist.toNat s with ⟨_, _, h'⟩ | ⟨_, h'⟩ <;> rw [h'] <;> exact .refl s
    exact accepted_result hs ht h ((Res.KeepsResult.of_works hworks).andThen fun _ _ _ => .ok _ _)
      (.of_works_andThen hs hworks fun _ _ => rfl)
  | lapeek k => exact accepted_result hs ht h (.checkOperand _ (.ok _ _)) (checkOperand_ok_outsideFailed _ hs)
  | rdnode tab node => exact accepted_result hs ht h (.checkOperand _ (.ok _ _)) (checkOperand_ok_outsideFailed _ hs)
  | rdleaf tab sym => exact accepted_result hs ht h (.checkOperand _ (.ok _ _)) (checkOperand_ok_outsideFailed _ hs)
  | bump tab sym =>
    have hkeep : (s.bumpSym tab sym.toNat).fsm ≠ .failed := (bumpSym_works tab _ s).fields.1 ▸ hs
    exact accepted_result hs ht h (.checkOperand _ (.ok _ _)) (checkOperand_ok_outsideFailed _ hkeep)
  | lacons k =>
    exact accepted_result hs ht h ((Res.KeepsResult.of_works (consume_works _ s)).andThen fun _ _ _ => .ok _ _)
      (.of_works_andThen hs (consume_works _ s) fun _ _ => rfl)
  | encsym tab sym =>
    exact accepted_result hs ht h (.checkOperand _ (.of_works (encodeSymbol_works tab _ s)))
      (.checkOperand _ (.of_works hs (encodeSymbol_works tab _ s)))
  | lit b => exact Bool.noConfusion hcmd
  | matchCopy len dist => exact Bool.noConfusion hcmd

/-- Settles O55. -/
theorem failingCommandKeepsResult : Obligations.FailingCommandKeepsResult := by
  intro s t hs ht
  refine ⟨fun i hcmd h => ?command, fun hb hw hq h => ?step⟩
  case command =>
    by_cases hi : i = .encstep
    · subst hi
      have h' : endStep s id (encStep s) = .next t := (accepted_of_ne _ hs).symm.trans h
      obtain ⟨h1, h2⟩ := encStep_result hs ht (fun _ => rfl) (fun _ => rfl) (fun _ => rfl) h'
      exact ⟨fun hyes => h1 hyes.2, fun hnot => h2 fun hyes => hnot ⟨rfl, hyes⟩⟩
    · exact ⟨fun hyes => absurd hyes.1 hi, fun _ => exec_keepsResult hs ht hcmd hi h⟩
  case step =>
    rw [step_of_busy hb hw hq, transformStep] at h
    cases hmode : s.mode <;> rw [hmode] at h
    · obtain ⟨h1, h2⟩ := encStep_result hs ht endTransformStep_fsm endTransformStep_err endTransformStep_result h
      exact ⟨fun hyes => h1 hyes.2, fun hnot => h2 fun hyes => hnot ⟨rfl, hyes⟩⟩
    · exact ⟨fun hyes => Mode.noConfusion hyes.1,
        fun _ => endStep_result hs ht h (decStep_keepsResult s) (decStep_outsideFailed s)⟩

end Sys2Proof.Machine

/-! SUPPORT. Every step keeps the invariant of a state: a property that the commands, the steps of a transform and the host's
own accesses keep is kept by every step; the invariant is one. -/

namespace Sys2Proof.Machine

/-! ## What every step keeps -/

/-- A property that each kind of step keeps. -/
structure StepKeeps (P : State → Prop) : Prop where
  host : ∀ s h, P s → P { s with host := h }
  len : ∀ s n, P s → P { s with len := n }
  power : ∀ s, P (powerOn s)
  command : ∀ i s t, i.isCommand = true → P s → s.busy = false → exec i s = .next t → P t
  illegal : ∀ s t, P s → s.busy = false → illegalCmd s = .next t → P t
  transform : ∀ s t, P s → s.busy = true → transformStep s = .next t → P t

namespace StepKeeps

variable {P : State → Prop} (h : StepKeeps P) {s t : State} (hs : P s)
include h hs

theorem issueWord {w : Word} (hb : s.busy = false) (ht : issueWord w s = .next t) : P t := by
  rw [Machine.issueWord] at ht
  cases hw : Sys2Proof.decode w with
  | ok i =>
    rw [hw] at ht
    exact h.command i s t (decodedWordIsTheEncoding w i hw).2.1 hs hb ht
  | error e =>
    rw [hw] at ht
    exact h.illegal s t hs hb ht

theorem blockStep (ht : blockStep s = .next t) : P t := by
  rw [Machine.blockStep] at ht
  by_cases hbusy : (s.busy && !s.waiting) = true
  · rw [if_pos hbusy] at ht
    exact h.transform s t hs (Bool.and_eq_true_iff.1 hbusy).1 ht
  · rw [if_neg hbusy] at ht
    exact Host.Outcome.next.inj ht ▸ hs

theorem popHost : P s.popHost := h.host s _ hs

theorem hostWrite {off : BitVec 6} {data : Word} (ht : hostWrite off data s = .next t) : P t := by
  rw [Machine.hostWrite] at ht
  by_cases hoff : off = 0
  · rw [if_pos hoff] at ht
    cases hb : s.busy with
    | true =>
      rw [hb, if_pos rfl] at ht
      exact h.transform s t hs hb ht
    | false =>
      rw [hb, if_neg Bool.false_ne_true] at ht
      exact h.issueWord (h.popHost hs) hb ht
  · rw [if_neg hoff, Host.Outcome.next.injEq, State.writeReg_eq] at ht
    exact ht ▸ h.len _ _ (h.popHost hs)

theorem hostStep {op : HostOp} (ht : hostStep op s = .next t) : P t := by
  cases op with
  | write width off data =>
    rw [Machine.hostStep] at ht
    cases hr : accessRefusal width off with
    | some r => rw [hr] at ht; exact nomatch ht
    | none => rw [hr] at ht; exact h.hostWrite hs ht
  | read width off =>
    rw [Machine.hostStep] at ht
    cases hr : accessRefusal width off with
    | some r => rw [hr] at ht; exact nomatch ht
    | none =>
      rw [hr] at ht
      exact Host.Outcome.next.inj ht ▸ h.host _ _ (h.popHost hs)
  | idle => exact h.blockStep (h.popHost hs) ht
  | powerOnReset => exact Host.Outcome.next.inj ht ▸ h.power _

/-- A property that each kind of step keeps is kept by every step. -/
theorem step (ht : step s = .next t) : P t := by
  rcases step_cases s with ⟨_, hstep⟩ | ⟨_, _, hstep⟩ | ⟨op, _, _, _, hstep⟩ <;> rw [hstep] at ht
  · rcases waitingStep_cases s with ⟨op, _, _, _, hwait⟩ | ⟨_, _, _, _, hwait⟩ | ⟨_, hwait⟩ <;> rw [hwait] at ht
    · exact h.hostStep hs ht
    · rcases resetOrStuck_cases s with ⟨_, hreset⟩ | ⟨_, hreset⟩ <;> rw [hreset] at ht
      · exact Host.Outcome.next.inj ht ▸ h.power _
      · exact nomatch ht
    · exact nomatch ht
  · exact h.blockStep hs ht
  · exact h.hostStep hs ht

end StepKeeps

/-! ## What the pseudocode keeps, the driver state apart -/

/-- The error, the mode and `BUSY` are as they were, and the invariant's parts other than the driver's are kept. -/
structure State.Keeps (s t : State) : Prop where
  err : t.err = s.err
  mode : t.mode = s.mode
  busy : t.busy = s.busy
  parts : s.parts → t.parts

theorem State.Keeps.refl (s : State) : s.Keeps s := ⟨rfl, rfl, rfl, id⟩

theorem State.Keeps.trans {s t u : State} (h : s.Keeps t) (h' : t.Keeps u) : s.Keeps u :=
  ⟨h'.err.trans h.err, h'.mode.trans h.mode, h'.busy.trans h.busy, fun hs => h'.parts (h.parts hs)⟩

theorem State.Works.keeps {s t : State} (h : s.Works t) : s.Keeps t := by
  obtain ⟨-, herr, hmode, hbusy, -⟩ := h.fields
  exact ⟨herr, hmode, hbusy, h.parts⟩

theorem State.inv_iff (s : State) : s.inv ↔ s.parts ∧ s.driverOk :=
  ⟨fun ⟨hbits, hwin, hdriver, htab⟩ => ⟨⟨hbits, hwin, htab⟩, hdriver⟩,
    fun ⟨⟨hbits, hwin, htab⟩, hdriver⟩ => ⟨hbits, hwin, hdriver, htab⟩⟩

/-- The driver stands where a step of a transform may leave it. -/
def State.stopped (s : State) : Prop :=
  s.fsm = .done ∨ s.fsm = .searching ∧ s.mode = .encode ∨ s.fsm = .reading ∧ s.mode = .decode

/-- A transform's pseudocode from a state with no error: it ends where a step may leave the driver, or it raises an error. -/
structure Res.Lands (s : State) (r : Res Unit) : Prop where
  ok : ∀ t, r = .ok () t → s.Keeps t ∧ t.stopped
  raise : ∀ e t, r = .raise e t → s.Keeps t ∧ e ≠ .none

theorem Res.Errs.ne_none {α : Type} {c : ErrCode} {r : Res α} (h : r.Errs (· = c)) (hc : c ≠ .none) :
    r.Errs (· ≠ .none) := h.mono fun _ he => he.symm ▸ hc

theorem Res.Errs.input_ne_none {α : Type} {r : Res α} (h : r.Errs ErrCode.ofInput) : r.Errs (· ≠ .none) :=
  h.mono fun _ he => he.elim (· ▸ ErrCode.noConfusion) (· ▸ ErrCode.noConfusion)

/-! ## The ends of steps -/

theorem State.inv_takeError {s : State} (hs : s.parts) (hb : s.busy = false) {e : ErrCode} (he : e ≠ .none) :
    (s.takeError e).inv := by
  refine (State.inv_iff _).2 ⟨hs, rfl, ⟨fun _ => he, fun _ => rfl⟩, nofun, nofun, fun hbusy => ?_⟩
  exact absurd (hb.symm.trans hbusy) Bool.false_ne_true

theorem State.inv_of_stopped {s : State} (hs : s.parts) (herr : s.err = .none) (hstop : s.stopped)
    (hb : s.busy = true → s.fsm ≠ .done) : s.inv := by
  refine (State.inv_iff _).2 ⟨hs, ?_⟩
  rcases hstop with hfsm | ⟨hfsm, hmode⟩ | ⟨hfsm, hmode⟩ <;> simp only [hfsm, ne_eq, not_true] at hb
  · simp only [State.driverOk, hfsm, herr, Fsm.observable, reduceCtorEq, ne_eq, not_true, false_implies, or_self,
      true_and]
    exact hb
  · simp only [State.driverOk, hfsm, herr, hmode, Fsm.observable, reduceCtorEq, ne_eq, not_true, false_implies, true_or,
      implies_true, and_self]
  · simp only [State.driverOk, hfsm, herr, hmode, Fsm.observable, reduceCtorEq, ne_eq, not_true, false_implies, or_true,
      implies_true, and_self]

section

variable {s t : State} (hs : s.inv)
include hs

/-- A step that waits has changed nothing but the ports. -/
theorem State.inv_standsAt (p : Ports) : (s.standsAt p).inv := hs

/-- A command that leaves the driver state alone. -/
theorem finish_inv {α : Type} {r : Res α} (hb : s.busy = false) (hkeep : s.Keeps r.state)
    (hfsm : ∀ a u, r = .ok a u → u.fsm = s.fsm) (herrs : r.Errs (· ≠ .none)) (h : finish s r = .next t) : t.inv := by
  obtain ⟨hparts, hdriver⟩ := (State.inv_iff s).1 hs
  rcases endStep_cases s id r with ⟨a, u, hr, hend⟩ | ⟨e, u, hr, hend⟩ | ⟨u, hr, hend⟩ <;>
    obtain rfl := Host.Outcome.next.inj (hend.symm.trans h) <;> rw [hr] at hkeep
  · obtain ⟨herr, hmode, hbusy, hp⟩ := hkeep
    simp only [Res.state_ok] at herr hmode hbusy hp
    refine (State.inv_iff _).2 ⟨hp hparts, ?_⟩
    simp only [id, State.driverOk, herr, hmode, hbusy, hfsm a u hr]
    exact hdriver
  · exact State.inv_takeError (hkeep.parts hparts) (hkeep.busy.trans hb) (herrs e u hr)
  · exact State.inv_standsAt hs _

theorem accepted_inv {r : Res Unit} (hb : s.busy = false) (hkeep : s.Keeps r.state)
    (hfsm : ∀ a u, r = .ok a u → u.fsm = s.fsm) (herrs : r.Errs (· ≠ .none)) (h : accepted s r = .next t) : t.inv := by
  rcases unlessFailed_cases s (finish s r) with ⟨_, h'⟩ | ⟨_, h'⟩
  · exact Host.Outcome.next.inj (h'.symm.trans h) ▸ hs
  · exact finish_inv hs hb hkeep hfsm herrs (h'.symm.trans h)

variable {u : State} (hu : u.parts) (herr : u.err = .none)
include hu herr

/-- A unit command of a transform. -/
theorem finish_inv_of_lands {r : Res Unit} (hb : u.busy = false) (hr : r.Lands u) (h : finish s r = .next t) : t.inv := by
  rcases endStep_cases s id r with ⟨⟨⟩, v, hv, hend⟩ | ⟨e, v, hv, hend⟩ | ⟨v, hv, hend⟩ <;>
    obtain rfl := Host.Outcome.next.inj (hend.symm.trans h)
  · obtain ⟨hkeep, hstop⟩ := hr.ok v hv
    refine State.inv_of_stopped (hkeep.parts hu) (hkeep.err.trans herr) hstop fun hbusy => ?_
    exact absurd ((hkeep.busy.trans hb).symm.trans hbusy) Bool.false_ne_true
  · obtain ⟨hkeep, he⟩ := hr.raise e v hv
    exact State.inv_takeError (hkeep.parts hu) (hkeep.busy.trans hb) he
  · exact State.inv_standsAt hs _

/-- A step of a transform. -/
theorem endStep_inv_of_lands {r : Res Unit} (hr : r.Lands u) (h : endStep s endTransformStep r = .next t) : t.inv := by
  rcases endStep_cases s endTransformStep r with ⟨⟨⟩, v, hv, hend⟩ | ⟨e, v, hv, hend⟩ | ⟨v, hv, hend⟩ <;>
    obtain rfl := Host.Outcome.next.inj (hend.symm.trans h)
  · obtain ⟨hkeep, hstop⟩ := hr.ok v hv
    have hparts := hkeep.parts hu
    have hnone := hkeep.err.trans herr
    by_cases hdone : v.fsm = .done
    · rw [endTransformStep_of_done hdone]
      exact State.inv_of_stopped (s := { v with busy := false }) hparts hnone hstop nofun
    · have hactive : v.fsm ≠ .failed := by
        rcases hstop with h' | ⟨h', _⟩ | ⟨h', _⟩ <;> rw [h'] <;> decide
      rw [endTransformStep_of_active hdone hactive]
      exact State.inv_of_stopped hparts hnone hstop fun _ => hdone
  · obtain ⟨hkeep, he⟩ := hr.raise e v hv
    rw [endTransformStep_takeError]
    exact State.inv_takeError (s := { v with busy := false }) (hkeep.parts hu) rfl he
  · exact State.inv_standsAt hs _

end

/-! ## The transforms -/

/-- `Fresh` keeps the memories' form, and empties the rest (rule R242). -/
theorem State.parts_fresh {s : State} (hs : s.parts) : s.fresh.parts := by
  obtain ⟨-, ⟨hhist, hla, -⟩, -⟩ := hs
  have hbits : BitChannel.reset.ok := by decide
  exact ⟨hbits, ⟨hhist, hla, Nat.zero_le _, Nat.zero_le _, Or.inr rfl⟩, sized_treeInit _ _ (by decide),
    sized_treeInit _ _ (by decide)⟩

theorem State.keeps_setFsm (s : State) (x : Fsm) : s.Keeps (s.setFsm x) := ⟨rfl, rfl, rfl, id⟩

theorem State.keeps_setResult (s : State) (v : Word) : s.Keeps (s.setResult v) := ⟨rfl, rfl, rfl, id⟩

/-- A result of a helper in which the state so far and the errors are known. -/
theorem Res.Lands.of_raise {s t : State} {α : Type} {r : Res α} {e : ErrCode} {u : State} (h : s.Keeps t)
    (hwork : t.Works r.state) (herrs : r.Errs (· ≠ .none)) (hr : r = .raise e u) : s.Keeps u ∧ e ≠ .none := by
  have he := herrs e u hr
  rw [hr, Res.state_raise] at hwork
  exact ⟨h.trans hwork.keeps, he⟩

theorem Res.Lands.of_raise_sequence {s : State} : (Res.raise .sequence s : Res Unit).Lands s := by
  refine ⟨fun _ h => (nomatch h), fun e t h => ?_⟩
  obtain ⟨rfl, rfl⟩ := Res.raise.inj h
  exact ⟨.refl s, ErrCode.noConfusion⟩

/-- A part of a pseudocode that ends has done a helper's work. -/
theorem Res.keeps_of_ok {α : Type} {s t u : State} {r : Res α} {a : α} (h : s.Keeps t) (hwork : t.Works r.state)
    (hr : r = .ok a u) : s.Keeps u := by
  rw [hr, Res.state_ok] at hwork
  exact h.trans hwork.keeps

/-- A part of a transform's pseudocode, and the rest. -/
theorem Res.Lands.andThen {α : Type} {s t : State} {r : Res α} {f : α → State → Res Unit} (h : s.Keeps t)
    (hwork : t.Works r.state) (herrs : r.Errs (· ≠ .none))
    (hf : ∀ a u, r = .ok a u → s.Keeps u → (f a u).Lands s) : (r.andThen f).Lands s where
  ok u hu := by
    obtain ⟨a, v, hr, hfv⟩ := Res.andThen_eq_ok.1 hu
    exact (hf a v hr (Res.keeps_of_ok h hwork hr)).ok u hfv
  raise e u hu := by
    rcases Res.andThen_eq_raise.1 hu with hr | ⟨a, v, hr, hfv⟩
    · exact Res.Lands.of_raise h hwork herrs hr
    · exact (hf a v hr (Res.keeps_of_ok h hwork hr)).raise e u hfv

theorem Res.Lands.of_ok {s t : State} (h : s.Keeps t) (hstop : t.stopped) : (Res.ok () t).Lands s :=
  ⟨fun _ hu => (Res.ok.inj hu).2 ▸ ⟨h, hstop⟩, fun _ _ hu => (nomatch hu)⟩

theorem encInit_lands (s : State) : (encInit s).Lands s.encodeBegun := by
  rw [encInit_eq]
  refine .andThen (.refl _) (sendBytes_works _ _) ((sendBytes_errs _ _).ne_none (by decide)) fun _ t _ ht =>
    .andThen ht (fillUpTo_works _ t) ((fillUpTo_errs _ t).ne_none (by decide)) fun _ u _ hu =>
      .of_ok ((hu.trans (u.keeps_setResult _)).trans (State.keeps_setFsm _ _)) ?_
  have hmode : u.mode = .encode := hu.mode
  by_cases hcnt : u.win.lacnt = 0
  · exact Or.inl (if_pos hcnt)
  · exact Or.inr (Or.inl ⟨if_neg hcnt, hmode⟩)

theorem decInit_lands (s : State) : (decInit s).Lands s.decodeBegun := by
  rw [decInit_eq]
  refine .andThen (.refl _) (readHeader_works _ _ _ _) (readHeader_errs _ _ _ _).input_ne_none fun v t _ ht =>
    .of_ok (t := ({ t with len := v }.setResult v).setFsm (if v = 0 then .done else .reading)) ?_ ?_
  · exact ⟨ht.err, ht.mode, ht.busy, ht.parts⟩
  · have hmode : t.mode = .decode := ht.mode
    by_cases hv : v = 0
    · exact Or.inl (if_pos hv)
    · exact Or.inr (Or.inr ⟨if_neg hv, hmode⟩)

theorem closeEncode_lands {s t : State} (h : s.Keeps t) (hmode : s.mode = .encode) : (closeEncode t).Lands s := by
  rcases closeEncode_cases t with ⟨_, h'⟩ | ⟨_, h'⟩ <;> rw [h']
  · exact .of_ok (h.trans (t.keeps_setFsm _)) (Or.inr (Or.inl ⟨rfl, h.mode.trans hmode⟩))
  · exact .andThen h (flushBits_works t) ((flushBits_errs t).ne_none (by decide)) fun _ u _ hu =>
      .of_ok (hu.trans (u.keeps_setFsm _)) (Or.inl rfl)

theorem encStep_lands (s : State) : (encStep s).Lands s := by
  by_cases hseq : s.fsm = .searching ∧ s.mode = .encode
  · rw [encStep, if_pos hseq]
    refine .andThen (s.keeps_setFsm .emitting) (sendToken_works _ _) ((sendToken_errs _ _).ne_none (by decide))
      fun _ t hsend ht => .andThen ht (consumeToken_works _ t) ?_ fun _ u _ hu =>
        closeEncode_lands (hu.trans (u.keeps_setResult _)) hseq.2
    refine (consumeToken_errs fun hne => ?_).ne_none (by decide)
    have hwin : t.win = (s.setFsm .emitting).win := sendToken_win hsend
    rw [hwin] at hne ⊢
    exact chooseToken_size s hne
  · rw [encStep_of_not hseq]
    exact .of_raise_sequence

/-- A token's execution raises an error where it raises: one of the ports, of the stream or of a check. -/
theorem Token.run_ne_none (tok : Token) (s : State) : (tok.run s).Errs (· ≠ .none) := by
  cases tok with
  | lit b => exact (runLit_errs b s).ne_none (by decide)
  | copy len dist =>
    have hcopy : ∀ (n : Nat) (t : State), (copyBytes dist.toNat n t).Errs (· ≠ .none) := fun n => by
      induction n with
      | zero => exact fun t => .ok _ t
      | succ n ih =>
        refine fun t => Res.Errs.andThen (Res.Errs.andThen ?_ fun b u _ => ?_) fun _ u _ => ih u
        · rcases byteAt_cases dist.toNat t with ⟨_, _, h⟩ | ⟨_, h⟩ <;> rw [h]
          · exact .ok _ t
          · exact .raise ErrCode.noConfusion t
        · exact ((sinkWrite_errs b u).ne_none (by decide)).andThen fun _ _ _ => .ok _ _
    by_cases hbad : s.len.toNat - s.count.toNat < len.toNat ∨ s.win.wfill.toNat < dist.toNat
    · rw [Token.run, runMatch_of_not_admits hbad]
      exact .raise ErrCode.noConfusion _
    · obtain ⟨hlen, hfill⟩ := not_or.1 hbad
      have hrun : runMatch len dist s = copyBytes dist.toNat len.toNat (bumpMatch len dist s) :=
        (if_neg hlen).trans (if_neg hfill)
      rw [Token.run, hrun]
      exact hcopy _ _

theorem decStep_lands (s : State) : (decStep s).Lands s := by
  by_cases hseq : s.fsm = .reading ∧ s.mode = .decode
  · rw [decStep, if_pos hseq]
    obtain ⟨x, hx⟩ := fetchToken_works s
    refine .andThen (s.keeps_setFsm x) hx (fetchToken_errs s).input_ne_none fun tok t _ ht =>
      .andThen ht (tok.run_works t) (tok.run_ne_none t) fun _ u _ hu => ?_
    have hmode : u.mode = .decode := hu.mode.trans hseq.2
    refine .of_ok (hu.trans ((u.keeps_setResult tok.desc).trans (State.keeps_setFsm _ _))) ?_
    by_cases hdone : u.count = u.len
    · exact Or.inl (if_pos hdone)
    · exact Or.inr (Or.inr ⟨if_neg hdone, hmode⟩)
  · rw [decStep_of_not hseq]
    exact .of_raise_sequence

/-! ## The invariant -/

/-- Outside `FAILED` there is no error (rule R344). -/
theorem State.err_none {s : State} (hs : s.inv) (hf : s.fsm ≠ .failed) : s.err = .none := by
  obtain ⟨-, -, ⟨-, hiff, -⟩, -⟩ := hs
  exact Decidable.byContradiction fun he => hf (hiff.2 he)

section

variable {s t : State} (hs : s.inv)
include hs

/-- A command that does a helper's work and no more. -/
theorem accepted_inv_of_works {r : Res Unit} (hb : s.busy = false) (h : accepted s r = .next t)
    (hwork : s.Works r.state) (herrs : r.Errs (· ≠ .none)) : t.inv :=
  accepted_inv hs hb hwork.keeps (fun a u hr => by rw [hr, Res.state_ok] at hwork; exact hwork.fields.1) herrs h

/-- A command that does a helper's work and then writes `RESULT`. -/
theorem accepted_inv_of_setResult {α : Type} {r : Res α} {v : α → State → Word} (hb : s.busy = false)
    (h : accepted s (r.andThen fun a u => .ok () (u.setResult (v a u))) = .next t)
    (hwork : s.Works r.state) (herrs : r.Errs (· ≠ .none)) : t.inv := by
  refine accepted_inv hs hb ?_ (fun a u hr => ?_) (herrs.andThen fun _ _ _ => .ok _ _) h
  · cases r with
    | ok a u => exact hwork.keeps.trans (u.keeps_setResult _)
    | raise e u => exact hwork.keeps
    | waits u => exact hwork.keeps
  · obtain ⟨b, w, hrw, hw⟩ := Res.andThen_eq_ok.1 hr
    rw [hrw, Res.state_ok] at hwork
    rw [← (Res.ok.inj hw).2]
    exact hwork.fields.1

/-- A command whose operand is checked first. -/
theorem accepted_inv_of_checkOperand {run : Res Unit} {ok : Bool} (hb : s.busy = false)
    (h : accepted s (checkOperand ok s run) = .next t) (hkeep : s.Keeps run.state)
    (hfsm : ∀ a u, run = .ok a u → u.fsm = s.fsm) (herrs : run.Errs (· ≠ .none)) : t.inv := by
  rcases checkOperand_cases ok s run with ⟨_, h'⟩ | ⟨_, h'⟩ <;> rw [h'] at h
  · exact accepted_inv hs hb hkeep hfsm herrs h
  · exact accepted_inv (r := .raise .invariant s) hs hb (.refl s) (fun _ _ hr => (nomatch hr))
      (.raise ErrCode.noConfusion s) h

/-- A unit command of a transform, outside `FAILED` where it runs. -/
theorem accepted_inv_of_lands {r : Res Unit} (hb : s.busy = false) (h : accepted s r = .next t) (hr : r.Lands s) :
    t.inv := by
  rcases unlessFailed_cases s (finish s r) with ⟨_, h'⟩ | ⟨hf, h'⟩
  · exact Host.Outcome.next.inj (h'.symm.trans h) ▸ hs
  · exact finish_inv_of_lands hs ((State.inv_iff s).1 hs).1 (State.err_none hs hf) hb hr (h'.symm.trans h)

/-- Every command keeps the invariant. -/
theorem exec_inv {i : Instr} (hcmd : i.isCommand = true) (hb : s.busy = false) (h : exec i s = .next t) : t.inv := by
  have hparts := ((State.inv_iff s).1 hs).1
  have hfresh : s.fresh.parts := State.parts_fresh hparts
  cases i with
  | nop => exact Host.Outcome.next.inj h ▸ hs
  | reset =>
    obtain rfl := Host.Outcome.next.inj h
    have hbusy : (resetBlock s).busy = true → (resetBlock s).fsm = .searching ∨ (resetBlock s).fsm = .reading :=
      fun hbusy => absurd (hb.symm.trans hbusy) Bool.false_ne_true
    exact (State.inv_iff _).2 ⟨hfresh, rfl, ⟨fun hf => Fsm.noConfusion hf, fun he => absurd rfl he⟩,
      fun hf => Fsm.noConfusion hf, fun hf => Fsm.noConfusion hf, hbusy⟩
  | encode =>
    exact endStep_inv_of_lands (u := State.encodeBegun { s with busy := true }) hs hfresh rfl (encInit_lands _) h
  | encinit => exact finish_inv_of_lands (u := s.encodeBegun) hs hfresh rfl hb (encInit_lands s) h
  | encstep => exact accepted_inv_of_lands hs hb h (encStep_lands s)
  | decode =>
    exact endStep_inv_of_lands (u := State.decodeBegun { s with busy := true }) hs hfresh rfl (decInit_lands _) h
  | decinit => exact finish_inv_of_lands (u := s.decodeBegun) hs hfresh rfl hb (decInit_lands s) h
  | decstep => exact accepted_inv_of_lands hs hb h (decStep_lands s)
  | wrbits cnt value =>
    exact accepted_inv_of_works hs hb h (writeBitList_works _ s) ((writeBitList_errs _ s).ne_none (by decide))
  | flush => exact accepted_inv_of_works hs hb h (flushBits_works s) ((flushBits_errs s).ne_none (by decide))
  | rdbits cnt =>
    exact accepted_inv_of_setResult hs hb h (readBitsFrom_works _ _ s) (readBitsFrom_errs _ _ s).input_ne_none
  | decsym tab => exact accepted_inv_of_setResult hs hb h (decodeSymbol_works tab s) (decodeSymbol_errs tab s).input_ne_none
  | wadv b =>
    exact accepted_inv (r := .ok () ((advance b s).setResult (evictionDesc (evicted s)))) hs hb
      ((advance_works b s).keeps.trans (State.keeps_setResult _ _)) (fun a u hr => (Res.ok.inj hr).2 ▸ rfl) (.ok _ _) h
  | findm =>
    exact accepted_inv (r := .ok () (s.setResult (findDesc (findMatch s)))) hs hb (s.keeps_setResult _)
      (fun a u hr => (Res.ok.inj hr).2 ▸ rfl) (.ok _ _) h
  | rebuild tab => exact accepted_inv_of_works hs hb h (rebuildTable_works tab s) (.ok _ _)
  | lafill => exact accepted_inv_of_setResult hs hb h (fillUpTo_works _ s) ((fillUpTo_errs _ s).ne_none (by decide))
  | byteat dist =>
    rcases byteAt_cases dist.toNat s with ⟨_, _, h'⟩ | ⟨_, h'⟩
    · exact accepted_inv_of_setResult hs hb h (h' ▸ .refl s) (h' ▸ .ok _ s)
    · exact accepted_inv_of_setResult hs hb h (h' ▸ .refl s) (h' ▸ .raise ErrCode.noConfusion s)
  | lapeek k =>
    exact accepted_inv_of_checkOperand hs hb h (s.keeps_setResult _) (fun a u hr => (Res.ok.inj hr).2 ▸ rfl) (.ok _ _)
  | rdnode tab node =>
    exact accepted_inv_of_checkOperand hs hb h (s.keeps_setResult _) (fun a u hr => (Res.ok.inj hr).2 ▸ rfl) (.ok _ _)
  | rdleaf tab sym =>
    exact accepted_inv_of_checkOperand hs hb h (s.keeps_setResult _) (fun a u hr => (Res.ok.inj hr).2 ▸ rfl) (.ok _ _)
  | bump tab sym =>
    have hwork := bumpSym_works tab sym.toNat s
    exact accepted_inv_of_checkOperand hs hb h hwork.keeps (fun a u hr => (Res.ok.inj hr).2 ▸ hwork.fields.1) (.ok _ _)
  | lacons k =>
    exact accepted_inv_of_setResult hs hb h (consume_works _ s)
      ((checkOperand_errs _ s (consumeTurns_errs _ s)).mono fun _ he =>
        he.elim (· ▸ ErrCode.noConfusion) (· ▸ ErrCode.noConfusion))
  | encsym tab sym =>
    have hwork := encodeSymbol_works tab sym.toNat s
    exact accepted_inv_of_checkOperand hs hb h hwork.keeps
      (fun a u hr => by rw [hr, Res.state_ok] at hwork; exact hwork.fields.1)
      ((encodeSymbol_errs tab _ s).ne_none (by decide))
  | lit b => exact Bool.noConfusion hcmd
  | matchCopy len dist => exact Bool.noConfusion hcmd

/-- Every later step of a transform keeps the invariant: `BUSY` is 1 in no step that begins in `FAILED`. -/
theorem transformStep_inv (hb : s.busy = true) (h : transformStep s = .next t) : t.inv := by
  obtain ⟨hparts, -, -, -, -, hbusy⟩ := (State.inv_iff s).1 hs
  have hf : s.fsm ≠ .failed := by
    rcases hbusy hb with hfsm | hfsm <;> rw [hfsm] <;> decide
  have herr := State.err_none hs hf
  rw [transformStep] at h
  cases hmode : s.mode <;> rw [hmode] at h
  · exact endStep_inv_of_lands hs hparts herr (encStep_lands s) h
  · exact endStep_inv_of_lands hs hparts herr (decStep_lands s) h

end

theorem stepKeeps_inv : StepKeeps State.inv where
  host _ _ hs := hs
  len _ _ hs := hs
  power _ := resetMeetsTheInvariants.1
  command _ _ _ hcmd hs hb h := exec_inv hs hcmd hb h
  illegal s _ hs hb h := accepted_inv (r := .raise .illegalCmd s) hs hb (.refl s) (fun _ _ hr => (nomatch hr))
    (.raise ErrCode.noConfusion s) h
  transform _ _ hs hb h := transformStep_inv hs hb h

/-- Settles O56. -/
theorem everyStepKeepsTheInvariant : Obligations.EveryStepKeepsTheInvariant := fun _ _ hs h => stepKeeps_inv.step hs h

end Sys2Proof.Machine

/-! SUPPORT. Every step keeps both code tables legal (rule R55): no symbol is bumped that its table does not have. -/

namespace Sys2Proof.Machine

/-! ## Helpers that leave the tables alone -/

theorem State.OutputSide.tablesOk {s t : State} (h : s.OutputSide t) (hs : s.tablesOk) : t.tablesOk := by
  obtain ⟨_, _, _, rfl⟩ := h
  exact hs

theorem State.LookaheadSide.tablesOk {s t : State} (h : s.LookaheadSide t) (hs : s.tablesOk) : t.tablesOk := by
  obtain ⟨_, _, _, _, rfl⟩ := h
  exact hs

theorem State.CopySide.tablesOk {s t : State} (h : s.CopySide t) (hs : s.tablesOk) : t.tablesOk := by
  obtain ⟨_, _, _, _, rfl⟩ := h
  exact hs

/-- Two parts of a helper in sequence. -/
theorem Res.tablesOk_andThen {α β : Type} {r : Res α} {f : α → State → Res β} (h : r.state.tablesOk)
    (hf : ∀ a t, r = .ok a t → t.tablesOk → (f a t).state.tablesOk) : (r.andThen f).state.tablesOk := by
  cases r with
  | ok a t => exact hf a t rfl h
  | raise e t => exact h
  | waits t => exact h

theorem sendBytes_tablesOk : ∀ (bytes : List Byte) {s : State}, s.tablesOk → (sendBytes bytes s).state.tablesOk
  | [], _, hs => hs
  | b :: bs, s, hs => Res.tablesOk_andThen ((sinkWrite_outputSide b s).tablesOk hs) fun _ _ _ ht =>
      sendBytes_tablesOk bs ht

theorem readHeader_tablesOk : ∀ (n shift : Nat) (v : Word) {s : State}, s.tablesOk →
    (readHeader n shift v s).state.tablesOk
  | 0, _, _, _, hs => hs
  | n + 1, shift, v, s, hs => by
    refine Res.tablesOk_andThen ?_ fun answer t _ ht => ?_
    · rcases srcRead_cases s with ⟨b, _, h⟩ | ⟨_, h⟩ | ⟨_, h⟩ | ⟨_, h⟩ <;> rw [h] <;> exact hs
    · cases answer with
      | byte b => exact readHeader_tablesOk n _ _ ht
      | eof => exact ht
      | ioErr => exact ht

theorem consume_tablesOk (k : Nat) {s : State} (hs : s.tablesOk) : (consume k s).state.tablesOk := by
  rcases checkOperand_cases (consumeOk s k) s (consumeTurns k s) with ⟨_, h⟩ | ⟨_, h⟩ <;> rw [consume, h]
  · exact (consumeTurns_lookaheadSide k s).tablesOk hs
  · exact hs

/-! ## Bumps -/

theorem State.tablesOk_bumpSym {s : State} (hs : s.tablesOk) {t : TableSel} {x : Nat} (hx : x < tableSymbols t) :
    (s.bumpSym t x).tablesOk := by
  cases t with
  | a => exact ⟨CodeTable.wf_bump (by decide) (by decide) (by decide) hs.1 hx, hs.2⟩
  | b => exact ⟨hs.1, CodeTable.wf_bump (by decide) (by decide) (by decide) hs.2 hx⟩

theorem State.tablesOk_rebuildTable {s : State} (hs : s.tablesOk) (t : TableSel) : (s.rebuildTable t).tablesOk := by
  cases t with
  | a => exact ⟨(CodeTable.wf_rebuild (by decide) (by decide) (by decide) hs.1).1, hs.2⟩
  | b => exact ⟨hs.1, (CodeTable.wf_rebuild (by decide) (by decide) (by decide) hs.2).1⟩

/-- A token whose symbols the tables have (rule R141, rule R142). -/
def Token.hasSymbols : Token → Prop
  | .lit _ => True
  | .copy len dist => len.toNat ≤ 60 ∧ dist.toNat ≤ 4096

theorem Byte.lt_symbols (b : Byte) : b.toNat < tableSymbols .a := lt_trans b.isLt (by decide)

theorem lengthSymbol_lt {len : Nat} (h : len ≤ 60) : lengthSymbol len < tableSymbols .a := by
  show len + 253 < 314
  omega

theorem distClass_lt {dist : Nat} (h : dist ≤ 4096) : distClass dist < tableSymbols .b := by
  show (dist - 1) / 64 < 64
  omega

theorem bumpMatch_tablesOk {s : State} (hs : s.tablesOk) {len : BitVec 6} {dist : BitVec 13}
    (h : (Token.copy len dist).hasSymbols) : (bumpMatch len dist s).tablesOk :=
  State.tablesOk_bumpSym (State.tablesOk_bumpSym hs (lengthSymbol_lt h.1)) (distClass_lt h.2)

/-! ## Coding -/

theorem encodeSymbol_tablesOk {s : State} (hs : s.tablesOk) {t : TableSel} {x : Nat} (hx : x < tableSymbols t) :
    (encodeSymbol t x s).state.tablesOk :=
  Res.tablesOk_andThen ((writeBitList_outputSide _ s).tablesOk hs) fun _ _ _ hu => State.tablesOk_bumpSym hu hx

theorem decodeSymbol_tablesOk {s : State} (hs : s.tablesOk) (t : TableSel) : (decodeSymbol t s).state.tablesOk :=
  Res.tablesOk_andThen ((walkFrom_inputSide t _ _ s).tablesOk hs) fun _ _ hr hu =>
    State.tablesOk_bumpSym hu (walkSymbol_lt hs hr)

theorem sendToken_tablesOk {s : State} (hs : s.tablesOk) {tok : Token} (h : tok.hasSymbols) :
    (sendToken tok s).state.tablesOk := by
  cases tok with
  | lit b => exact encodeSymbol_tablesOk hs (Byte.lt_symbols b)
  | copy len dist =>
    exact Res.tablesOk_andThen (encodeSymbol_tablesOk hs (lengthSymbol_lt h.1)) fun _ _ _ ht =>
      Res.tablesOk_andThen (encodeSymbol_tablesOk ht (distClass_lt h.2)) fun _ u _ hu =>
        (writeBitList_outputSide _ u).tablesOk hu

theorem Token.run_tablesOk {s : State} (hs : s.tablesOk) {tok : Token} (h : tok.hasSymbols) :
    (tok.run s).state.tablesOk := by
  cases tok with
  | lit b =>
    exact Res.tablesOk_andThen
      ((sinkWrite_outputSide b _).tablesOk (State.tablesOk_bumpSym hs (Byte.lt_symbols b))) fun _ _ _ ht => ht
  | copy len dist =>
    have hb := bumpMatch_tablesOk hs h
    by_cases hbad : s.len.toNat - s.count.toNat < len.toNat ∨ s.win.wfill.toNat < dist.toNat
    · rw [Token.run, runMatch_of_not_admits hbad]
      exact hb
    · obtain ⟨hlen, hfill⟩ := not_or.1 hbad
      have hrun : runMatch len dist s = copyBytes dist.toNat len.toNat (bumpMatch len dist s) :=
        (if_neg hlen).trans (if_neg hfill)
      rw [Token.run, hrun]
      exact (copyBytes_copySide _ _ _).tablesOk hb

/-- A fetch part that bumps a table where it does not end. -/
theorem Res.tablesOk_orBump {α : Type} {r : Res α} {bumps : State → State} (h : r.state.tablesOk)
    (hb : ∀ t : State, t.tablesOk → (bumps t).tablesOk) : (r.orBump bumps).state.tablesOk := by
  cases r with
  | ok a t => exact h
  | raise e t => exact hb t h
  | waits t => exact hb t h

theorem fetchToken_tablesOk {s : State} (hs : s.tablesOk) : (fetchToken s).state.tablesOk := by
  refine Res.tablesOk_andThen ((walkFrom_inputSide .a _ _ s).tablesOk hs) fun symA t hwalk ht => ?_
  have hsym : symA < tableSymbols .a := walkSymbol_lt hs hwalk
  dsimp only
  split
  · exact ht
  · refine Res.tablesOk_andThen (Res.tablesOk_orBump ((walkFrom_inputSide .b _ _ _).tablesOk ht)
      fun u hu => State.tablesOk_bumpSym hu hsym) fun cls u hcls hu => ?_
    have hlt : cls < tableSymbols .b := walkSymbol_lt (s := t.setFsm .reconstructing) ht (Res.orBump_eq_ok.1 hcls)
    exact Res.tablesOk_andThen (Res.tablesOk_orBump ((readBitsFrom_inputSide _ _ u).tablesOk hu) fun v hv =>
      State.tablesOk_bumpSym (State.tablesOk_bumpSym hv hsym) hlt) fun _ _ _ hv => hv

theorem fetchToken_hasSymbols {s t : State} (hs : s.tablesOk) {tok : Token} (h : fetchToken s = .ok tok t) :
    tok.hasSymbols := by
  cases tok with
  | lit b => trivial
  | copy len dist =>
    obtain ⟨hlen, -, hdist⟩ := fetchToken_within hs h
    exact ⟨hlen, hdist⟩

theorem chooseToken_hasSymbols {s : State} (hw : s.win.ok) : (chooseToken s).hasSymbols := by
  obtain ⟨-, -, hfill, -, -⟩ := hw
  rcases chooseToken_cases s with htok | ⟨len, dist, htok, ⟨-, hlen⟩, -, hdist⟩ <;> rw [htok]
  · trivial
  · exact ⟨hlen.trans (Nat.min_le_left _ _), hdist.trans hfill⟩

/-! ## The driver -/

theorem tablesOk_treeInit : (treeInit Config.symbolsA Config.linkBitsA).wf = true ∧
    (treeInit Config.symbolsB Config.linkBitsB).wf = true := resetMeetsTheInvariants.2

theorem encInit_tablesOk (s : State) : (encInit s).state.tablesOk := by
  rw [encInit_eq]
  exact Res.tablesOk_andThen (sendBytes_tablesOk _ (s := s.encodeBegun) tablesOk_treeInit) fun _ t _ ht =>
    Res.tablesOk_andThen ((fillUpTo_lookaheadSide _ t).tablesOk ht) fun _ _ _ hu => hu

theorem decInit_tablesOk (s : State) : (decInit s).state.tablesOk := by
  rw [decInit_eq]
  exact Res.tablesOk_andThen (readHeader_tablesOk _ _ _ (s := s.decodeBegun) tablesOk_treeInit) fun _ _ _ ht => ht

theorem closeEncode_tablesOk {s : State} (hs : s.tablesOk) : (closeEncode s).state.tablesOk := by
  rcases closeEncode_cases s with ⟨_, h⟩ | ⟨_, h⟩ <;> rw [h]
  · exact hs
  · exact Res.tablesOk_andThen ((flushBits_outputSide s).tablesOk hs) fun _ _ _ ht => ht

theorem encStep_tablesOk {s : State} (hs : s.tablesOk) (hw : s.win.ok) : (encStep s).state.tablesOk := by
  rw [encStep]
  split
  · refine Res.tablesOk_andThen (sendToken_tablesOk (s := s.setFsm .emitting) hs (chooseToken_hasSymbols hw))
      fun _ t _ ht => Res.tablesOk_andThen ?_ fun _ u _ hu => closeEncode_tablesOk hu
    rcases consumeToken_cases (chooseToken s) t with ⟨_, h⟩ | ⟨_, h⟩ <;> rw [h]
    · exact ht
    · exact consume_tablesOk _ ht
  · exact hs

theorem decStep_tablesOk {s : State} (hs : s.tablesOk) : (decStep s).state.tablesOk := by
  rw [decStep]
  split
  · exact Res.tablesOk_andThen (fetchToken_tablesOk hs) fun tok _ hfetch ht =>
      Res.tablesOk_andThen (Token.run_tablesOk ht (fetchToken_hasSymbols hs hfetch)) fun _ _ _ hu => hu
  · exact hs

/-! ## The commands -/

theorem endStep_tablesOk {α : Type} {s t : State} {last : State → State} {r : Res α} (hs : s.tablesOk)
    (hr : r.state.tablesOk) (hlast : ∀ u : State, u.tablesOk → (last u).tablesOk) (h : endStep s last r = .next t) :
    t.tablesOk := by
  cases r with
  | ok a u => exact Host.Outcome.next.inj h ▸ hlast u hr
  | raise e u => exact Host.Outcome.next.inj h ▸ hlast (u.takeError e) hr
  | waits u => exact Host.Outcome.next.inj h ▸ hs

theorem endTransformStep_tablesOk (s : State) (hs : s.tablesOk) : (endTransformStep s).tablesOk := by
  rw [endTransformStep]
  split <;> exact hs

section

variable {s t : State} (hs : s.tablesOk)
include hs

theorem accepted_tablesOk {r : Res Unit} (h : accepted s r = .next t) (hr : r.state.tablesOk) : t.tablesOk := by
  rcases unlessFailed_cases s (finish s r) with ⟨_, h'⟩ | ⟨_, h'⟩
  · exact Host.Outcome.next.inj (h'.symm.trans h) ▸ hs
  · exact endStep_tablesOk hs hr (fun _ hu => hu) (h'.symm.trans h)

/-- A command whose operand is checked first. -/
theorem accepted_tablesOk_of_checkOperand {ok : Bool} {run : Res Unit}
    (h : accepted s (checkOperand ok s run) = .next t) (hr : ok = true → run.state.tablesOk) : t.tablesOk := by
  rcases checkOperand_cases ok s run with ⟨hok, h'⟩ | ⟨_, h'⟩ <;> rw [h'] at h
  · exact accepted_tablesOk hs h (hr hok)
  · exact accepted_tablesOk (r := .raise .invariant s) hs h hs

/-- Every command keeps the tables legal. -/
theorem exec_tablesOk {i : Instr} (hw : s.win.ok) (hcmd : i.isCommand = true) (h : exec i s = .next t) :
    t.tablesOk := by
  cases i with
  | nop => exact Host.Outcome.next.inj h ▸ hs
  | reset => exact Host.Outcome.next.inj h ▸ tablesOk_treeInit
  | encode => exact endStep_tablesOk hs (encInit_tablesOk _) endTransformStep_tablesOk h
  | encinit => exact endStep_tablesOk hs (encInit_tablesOk s) (fun _ hu => hu) h
  | encstep => exact accepted_tablesOk hs h (encStep_tablesOk hs hw)
  | decode => exact endStep_tablesOk hs (decInit_tablesOk _) endTransformStep_tablesOk h
  | decinit => exact endStep_tablesOk hs (decInit_tablesOk s) (fun _ hu => hu) h
  | decstep => exact accepted_tablesOk hs h (decStep_tablesOk hs)
  | wrbits cnt value => exact accepted_tablesOk hs h ((writeBitList_outputSide _ s).tablesOk hs)
  | flush => exact accepted_tablesOk hs h ((flushBits_outputSide s).tablesOk hs)
  | rdbits cnt =>
    exact accepted_tablesOk hs h
      (Res.tablesOk_andThen ((readBitsFrom_inputSide _ _ s).tablesOk hs) fun _ _ _ ht => ht)
  | decsym tab =>
    exact accepted_tablesOk hs h (Res.tablesOk_andThen (decodeSymbol_tablesOk hs tab) fun _ _ _ ht => ht)
  | wadv b => exact accepted_tablesOk (r := .ok () ((advance b s).setResult (evictionDesc (evicted s)))) hs h hs
  | findm => exact accepted_tablesOk (r := .ok () (s.setResult (findDesc (findMatch s)))) hs h hs
  | rebuild tab => exact accepted_tablesOk hs h (State.tablesOk_rebuildTable hs tab)
  | lafill =>
    exact accepted_tablesOk hs h
      (Res.tablesOk_andThen ((fillUpTo_lookaheadSide _ s).tablesOk hs) fun _ _ _ ht => ht)
  | byteat dist =>
    refine accepted_tablesOk hs h (Res.tablesOk_andThen ?_ fun _ _ _ ht => ht)
    rcases byteAt_cases dist.toNat s with ⟨_, _, h'⟩ | ⟨_, h'⟩ <;> rw [h'] <;> exact hs
  | lapeek k => exact accepted_tablesOk_of_checkOperand hs h fun _ => hs
  | rdnode tab node => exact accepted_tablesOk_of_checkOperand hs h fun _ => hs
  | rdleaf tab sym => exact accepted_tablesOk_of_checkOperand hs h fun _ => hs
  | bump tab sym =>
    exact accepted_tablesOk_of_checkOperand hs h fun hok => State.tablesOk_bumpSym hs (of_decide_eq_true hok)
  | lacons k => exact accepted_tablesOk hs h (Res.tablesOk_andThen (consume_tablesOk _ hs) fun _ _ _ ht => ht)
  | encsym tab sym =>
    exact accepted_tablesOk_of_checkOperand hs h fun hok => encodeSymbol_tablesOk hs (of_decide_eq_true hok)
  | lit b => exact Bool.noConfusion hcmd
  | matchCopy len dist => exact Bool.noConfusion hcmd

theorem transformStep_tablesOk (hw : s.win.ok) (h : transformStep s = .next t) : t.tablesOk := by
  rw [transformStep] at h
  cases hmode : s.mode <;> rw [hmode] at h
  · exact endStep_tablesOk hs (encStep_tablesOk hs hw) endTransformStep_tablesOk h
  · exact endStep_tablesOk hs (decStep_tablesOk hs) endTransformStep_tablesOk h

end

theorem stepKeeps_tablesOk : StepKeeps fun s => s.inv ∧ s.tablesOk where
  host _ _ hs := hs
  len _ _ hs := hs
  power _ := resetMeetsTheInvariants
  command _ _ _ hcmd hs hb h := ⟨exec_inv hs.1 hcmd hb h, exec_tablesOk hs.2 hs.1.2.1 hcmd h⟩
  illegal s t hs hb h := ⟨stepKeeps_inv.illegal s t hs.1 hb h, accepted_tablesOk (r := .raise .illegalCmd s) hs.2 h hs.2⟩
  transform _ _ hs hb h := ⟨transformStep_inv hs.1 hb h, transformStep_tablesOk hs.2 hs.1.2.1 h⟩

/-- Settles O57: the tables stay legal together with the invariant, which keeps every distance in the window. -/
theorem everyStepKeepsTheTrees : Obligations.EveryStepKeepsTheTrees := fun _ _ hs htab h =>
  (stepKeeps_tablesOk.step ⟨hs, htab⟩ h).2

end Sys2Proof.Machine

/-! SUPPORT. The two sides of the Bit Channel share no state (rule R180), and a decode step is a fetch and an execution
(rule R310). -/

namespace Sys2Proof.Machine

/-! ## The sides of the Bit Channel -/

/-- The input side: the unread bits, the bytes counted, and the source. -/
def State.inputRegs (s : State) : BitVec 8 × BitVec 4 × Word × List SrcAnswer × Nat :=
  (s.bits.ibuf, s.bits.ibits, s.inbytes, s.ports.srcAnswers, s.ports.srcAsked)

/-- The output side: the pending bits, the bytes counted, and the sink. -/
def State.outputRegs (s : State) : BitVec 8 × BitVec 3 × Word × List Byte × List SinkAnswer × Nat :=
  (s.bits.obuf, s.bits.obits, s.outbytes, s.ports.sink, s.ports.sinkAnswers, s.ports.sinkAsked)

/-- The input side is as it was. -/
def State.SameInput (s t : State) : Prop := t.inputRegs = s.inputRegs

/-- The output side is as it was. -/
def State.SameOutput (s t : State) : Prop := t.outputRegs = s.outputRegs

theorem State.SameInput.trans {s t u : State} (h : s.SameInput t) (h' : t.SameInput u) : s.SameInput u := Eq.trans h' h

theorem State.SameOutput.trans {s t u : State} (h : s.SameOutput t) (h' : t.SameOutput u) : s.SameOutput u :=
  Eq.trans h' h

theorem sinkWrite_sameInput (b : Byte) (s : State) : s.SameInput (sinkWrite b s).state := by
  rcases sinkWrite_cases b s with ⟨_, h⟩ | ⟨_, h⟩ | ⟨_, h⟩ <;> rw [h] <;> rfl

theorem writeBit_sameInput (b : Bool) (s : State) : s.SameInput (writeBit b s).state := by
  rcases writeBit_cases b s with ⟨_, h⟩ | ⟨_, h⟩ <;> rw [h]
  · rfl
  · exact State.SameInput.trans (t := { s with bits := { s.bits with obuf := 0, obits := 0 } }) rfl (sinkWrite_sameInput _ _)

theorem writeBitList_sameInput : ∀ (bits : List Bool) (s : State), s.SameInput (writeBitList bits s).state
  | [], _ => rfl
  | b :: bs, s => Res.state_andThen (R := State.SameInput) State.SameInput.trans (writeBit_sameInput b s) fun _ t _ =>
      writeBitList_sameInput bs t

theorem flushBits_sameInput (s : State) : s.SameInput (flushBits s).state := by
  rcases flushBits_cases s with ⟨_, h⟩ | ⟨_, h⟩ <;> rw [h]
  · rfl
  · exact State.SameInput.trans (t := { s with bits := { s.bits with obuf := 0, obits := 0 } }) rfl (sinkWrite_sameInput _ _)

theorem readBit_sameOutput (s : State) : s.SameOutput (readBit s).state := by
  rcases readBit_cases s with ⟨_, h⟩ | ⟨_, b, _, h⟩ | ⟨_, _, h⟩ | ⟨_, _, h⟩ | ⟨_, _, h⟩ <;> rw [h] <;> rfl

theorem readBitsFrom_sameOutput : ∀ (n v : Nat) (s : State), s.SameOutput (readBitsFrom n v s).state
  | 0, _, _ => rfl
  | n + 1, _, s => Res.state_andThen (R := State.SameOutput) State.SameOutput.trans (readBit_sameOutput s) fun _ t _ =>
      readBitsFrom_sameOutput n _ t

/-- A command leaves a side alone that its pseudocode and a wait do. -/
theorem accepted_leaves {R : State → State → Prop} {s t : State} {r : Res Unit} (refl : R s s)
    (hend : ∀ u, R s u → ∀ e, R s (u.takeError e)) (hwait : ∀ u, R s u → R s (s.standsAt u.ports)) (hr : R s r.state)
    (h : accepted s r = .next t) : R s t := by
  rcases unlessFailed_cases s (finish s r) with ⟨_, h'⟩ | ⟨_, h'⟩ <;>
    obtain h := h'.symm.trans h
  · exact Host.Outcome.next.inj h ▸ refl
  · cases r with
    | ok a u => exact Host.Outcome.next.inj h ▸ hr
    | raise e u => exact Host.Outcome.next.inj h ▸ hend u hr e
    | waits u => exact Host.Outcome.next.inj h ▸ hwait u hr

theorem State.SameInput.standsAt {s u : State} (h : s.SameInput u) : s.SameInput (s.standsAt u.ports) := by
  simp only [State.SameInput, State.inputRegs, Prod.mk.injEq] at h ⊢
  exact ⟨rfl, rfl, rfl, h.2.2.2⟩

theorem State.SameOutput.standsAt {s u : State} (h : s.SameOutput u) : s.SameOutput (s.standsAt u.ports) := by
  simp only [State.SameOutput, State.outputRegs, Prod.mk.injEq] at h ⊢
  exact ⟨rfl, rfl, rfl, h.2.2.2⟩

/-- Settles O25. -/
theorem outputAndInputSidesAreApart : Obligations.OutputAndInputSidesAreApart := by
  intro s t cnt value
  refine ⟨fun h => ?writes, fun h => ?reads⟩
  case writes =>
    have hsame : s.SameInput t := by
      rcases h with h | h
      · exact accepted_leaves rfl (fun _ hu _ => hu) (fun _ hu => hu.standsAt) (writeBitList_sameInput _ s) h
      · exact accepted_leaves rfl (fun _ hu _ => hu) (fun _ hu => hu.standsAt) (flushBits_sameInput s) h
    simpa only [State.SameInput, State.inputRegs, Prod.mk.injEq] using hsame
  case reads =>
    have hread : s.SameOutput ((readBits cnt.toNat s).andThen fun v u => .ok () (u.setResult (BitVec.ofNat 32 v))).state :=
      Res.state_andThen (R := State.SameOutput) State.SameOutput.trans (readBitsFrom_sameOutput _ _ s) fun _ _ _ => rfl
    have hsame : s.SameOutput t := accepted_leaves rfl (fun _ hu _ => hu) (fun _ hu => hu.standsAt) hread h
    simpa only [State.SameOutput, State.outputRegs, Prod.mk.injEq] using hsame

/-! ## A decode step -/

/-- The end of a step of a transform that is in progress. -/
theorem endTransformStep_of_busy {s : State} (hb : s.busy = true) :
    endTransformStep s = { s with busy := decide (s.fsm ≠ .done ∧ s.fsm ≠ .failed) } := by
  by_cases hactive : s.fsm ≠ .done ∧ s.fsm ≠ .failed
  · rw [endTransformStep_of_active hactive.1 hactive.2, decide_eq_true hactive, ← hb]
  · rw [decide_eq_false hactive]
    rcases not_and_or.1 hactive with hdone | hfailed
    · exact endTransformStep_of_done (not_not.1 hdone)
    · rw [endTransformStep, not_not.1 hfailed]

/-- A token that has been fetched is one that is being reconstructed (rule R310). -/
theorem fetchToken_fsm {s t : State} {tok : Token} (h : fetchToken s = .ok tok t) : t.fsm = .reconstructing := by
  rw [fetchToken] at h
  obtain ⟨symA, u, _, h⟩ := Res.andThen_eq_ok.1 h
  dsimp only at h
  split at h
  · exact (Res.ok.inj h).2 ▸ rfl
  · have hwork := fetchCopy_works symA (u.setFsm .reconstructing)
    rw [h, Res.state_ok] at hwork
    exact hwork.fields.1

section

variable {s : State} (hfsm : s.fsm = .reading) (hmode : s.mode = .decode) (hw : s.waiting = false)
include hfsm hmode

theorem decStep_of_reading : decStep s = (fetchToken s).andThen fun tok t =>
    (tok.run t).andThen fun _ u => .ok () (closeDecode tok u) := if_pos ⟨hfsm, hmode⟩

include hw

/-- `DECSTEP`, and a step of the `DECODE` in progress, whose pseudocode does not wait. -/
theorem decStep_ends {u : State} (hb : u.busy = s.busy)
    (hr : decStep s = .ok () u ∨ ∃ e v, decStep s = .raise e v ∧ u = v.takeError e) :
    exec .decstep s = .next u ∧ (s.busy = true → s.host.queue = [] →
      step s = .next { u with busy := decide (u.fsm ≠ .done ∧ u.fsm ≠ .failed) }) := by
  have hend (last : State → State) : endStep s last (decStep s) = .next (last u) := by
    rcases hr with hr | ⟨e, v, hr, rfl⟩ <;> rw [hr, endStep]
  refine ⟨(accepted_of_ne _ (by rw [hfsm]; decide)).trans (hend id), fun hbusy hq => ?_⟩
  rw [step_of_busy hbusy hw hq, transformStep, hmode, hend, endTransformStep_of_busy (hb.trans hbusy)]

end

/-- Settles O9: the pseudocode of the step is the fetch and then the token's, so its end is theirs. -/
theorem stepRunsTheDecodedToken : Obligations.StepRunsTheDecodedToken := by
  intro s hfsm hmode hw
  refine ⟨fun tok s1 t hfetch hexec hwait => ?runs, fun e s1 hfetch => ?raises⟩
  case runs =>
    have hrun : finish s1 (tok.run s1) = .next t := by
      rw [← hexec]
      cases tok <;> rfl
    obtain ⟨x, hx⟩ := fetchRun_works s hfetch
    have hrunWork := tok.run_works s1
    have hstep : decStep s = (tok.run s1).andThen fun _ u => .ok () (closeDecode tok u) := by
      rw [decStep_of_reading hfsm hmode, hfetch, Res.andThen_ok]
    cases hr : tok.run s1 with
    | ok a u =>
      rw [hr] at hrun hx hrunWork hstep
      obtain rfl := Host.Outcome.next.inj ((finish_ok s1 u a).symm.trans hrun)
      have hu : u.fsm ≠ .failed := by
        rw [← Res.state_ok a u, hrunWork.fields.1, fetchToken_fsm hfetch]
        decide
      rw [if_neg hu]
      exact decStep_ends hfsm hmode hw hx.fields.2.2.2.1 (Or.inl hstep)
    | raise e u =>
      rw [hr] at hrun hx hstep
      obtain rfl := Host.Outcome.next.inj ((finish_raise s1 u e).symm.trans hrun)
      rw [if_pos (show (u.takeError e).fsm = .failed from rfl)]
      exact decStep_ends hfsm hmode hw hx.fields.2.2.2.1 (Or.inr ⟨e, u, hstep, rfl⟩)
    | waits u =>
      rw [hr] at hrun
      obtain rfl := Host.Outcome.next.inj hrun
      exact absurd hwait (show ¬true = false by decide)
  case raises =>
    obtain ⟨x, hx⟩ := fetchToken_works s
    rw [hfetch] at hx
    refine decStep_ends hfsm hmode hw hx.fields.2.2.2.1 (Or.inr ⟨e, s1, ?_, rfl⟩)
    rw [decStep_of_reading hfsm hmode, hfetch, Res.andThen_raise]

end Sys2Proof.Machine

/-! SUPPORT. A token sent, exactly (rule R143, rule R290): the state that its codes and extra bits leave, where the sink
accepts them and where it refuses a byte, and the end of an encoder step. -/

namespace Sys2Proof.Machine

/-! ## The bits of a token -/

theorem State.tokenBits_lit (s : State) (b : Byte) : s.tokenBits (.lit b) = s.code .a b.toNat := rfl

theorem State.tokenBits_copy (s : State) (len : BitVec 6) (dist : BitVec 13) : s.tokenBits (.copy len dist) =
    s.code .a (lengthSymbol len.toNat) ++ s.code .b (distClass dist.toNat) ++
      fieldBits (distExtra dist.toNat) Config.distLowBits := rfl

/-- The first bits have been written and table A bumped. -/
def State.wroteBumpA (xs : List Bool) (x : Nat) (s : State) : State := (s.wrote xs).bumpSym .a x

/-- More bits have been written and table B bumped. -/
def State.wroteBumpB (ys : List Bool) (y : Nat) (s : State) : State := (s.wrote ys).bumpSym .b y

section

variable (s : State) (xs ys zs : List Bool) (x y : Nat)

theorem State.bytesFilled_wroteBumpA (n : Nat) : s.bits.bytesFilled (xs.length + n) =
    s.bits.bytesFilled xs.length + (s.wroteBumpA xs x).bits.bytesFilled n := s.bytesFilled_add xs n

theorem State.bytesFilled_wroteBumpB (n : Nat) : s.bits.bytesFilled (xs.length + ys.length + n) =
    s.bits.bytesFilled (xs.length + ys.length) + ((s.wroteBumpA xs x).wroteBumpB ys y).bits.bytesFilled n := by
  have h := s.bytesFilled_add (xs ++ ys) n
  rw [List.length_append, ← State.wrote_wrote] at h
  exact h

theorem State.wroteBumpA_sinkAt (k : Nat) :
    (s.wroteBumpA xs x).ports.sinkAt k = s.ports.sinkAt (s.bits.bytesFilled xs.length + k) := s.wrote_sinkAt xs k

theorem State.wroteBumpB_sinkAt (k : Nat) : ((s.wroteBumpA xs x).wroteBumpB ys y).ports.sinkAt k =
    s.ports.sinkAt (s.bits.bytesFilled (xs.length + ys.length) + k) := by
  have h := s.wrote_sinkAt (xs ++ ys) k
  rw [List.length_append, ← State.wrote_wrote] at h
  exact h

/-- All the bits and both bumps, in the order of the pseudocode, are the bits and then the bumps. -/
theorem State.wrote_wroteBumpB : ((s.wroteBumpA xs x).wroteBumpB ys y).wrote zs =
    ((s.wrote (xs ++ ys ++ zs)).bumpSym .a x).bumpSym .b y := by
  rw [← State.wrote_wrote, ← State.wrote_wrote]
  rfl

theorem State.cutOff_wroteBumpA (i : Nat) : (s.wroteBumpA xs x).cutOff i ys =
    (s.cutOff (s.bits.bytesFilled xs.length + i) (xs ++ ys)).bumpSym .a x := by
  rw [← State.cutOff_wrote]
  rfl

theorem State.cutOff_wroteBumpB (i : Nat) : ((s.wroteBumpA xs x).wroteBumpB ys y).cutOff i zs =
    ((s.cutOff (s.bits.bytesFilled (xs.length + ys.length) + i) (xs ++ ys ++ zs)).bumpSym .a x).bumpSym .b y := by
  rw [← List.length_append, ← State.cutOff_wrote, ← State.wrote_wrote]
  rfl

end

/-! ## Sending a token -/

/-- What sends a match: a code and its bump, another code and its bump, and the extra bits. -/
def sendParts (xs : List Bool) (x : Nat) (ys : List Bool) (y : Nat) (zs : List Bool) (s : State) : Res Unit :=
  (writeBitList xs s).andThen fun _ t => (writeBitList ys (t.bumpSym .a x)).andThen fun _ u =>
    writeBitList zs (u.bumpSym .b y)

theorem Res.andThen_congr {α β : Type} {r : Res α} {f g : α → State → Res β} (h : ∀ a t, r = .ok a t → f a t = g a t) :
    r.andThen f = r.andThen g := by
  cases r with
  | ok a t => exact h a t rfl
  | raise e t => rfl
  | waits t => rfl

/-- The codes of a match are those of the tables it begins with: the bump of table A does not touch table B. -/
theorem sendToken_copy (len : BitVec 6) (dist : BitVec 13) (s : State) : sendToken (.copy len dist) s =
    sendParts (s.code .a (lengthSymbol len.toNat)) (lengthSymbol len.toNat) (s.code .b (distClass dist.toNat))
      (distClass dist.toNat) (fieldBits (distExtra dist.toNat) Config.distLowBits) s := by
  rw [sendToken, encodeSymbol, Res.andThen_assoc, sendParts]
  refine Res.andThen_congr fun _ t ht => ?_
  have hside := writeBitList_outputSide (s.code .a (lengthSymbol len.toNat)) s
  rw [ht, Res.state_ok] at hside
  obtain ⟨_, _, _, rfl⟩ := hside
  rw [Res.andThen_ok, encodeSymbol, Res.andThen_assoc]
  rfl

/-- A code is written whole before the byte that the sink refuses exactly where it fills no more than the bytes accepted
and seven bits. -/
theorem bytesFilled_le_iff (s : State) (n j : Nat) :
    s.bits.bytesFilled n ≤ j ↔ n ≤ 8 * j + 7 - s.bits.obits.toNat := by
  have := s.bits.obits.isLt
  rw [BitChannel.bytesFilled]
  omega

section

variable {s : State} (h : s.bits.small) (xs ys zs : List Bool) (x y : Nat)
include h

theorem sendParts_eq_wrote (hsink : s.sinkReady (s.bits.bytesFilled (xs ++ ys ++ zs).length)) :
    sendParts xs x ys y zs s = .ok () (((s.wrote (xs ++ ys ++ zs)).bumpSym .a x).bumpSym .b y) := by
  rw [List.length_append, List.length_append] at hsink
  have hA := s.bytesFilled_wroteBumpA xs x ys.length
  have hB := s.bytesFilled_wroteBumpB xs ys x y zs.length
  have hys := writeBitList_eq_wrote ys (s := s.wroteBumpA xs x) (s.wrote_small xs) fun k hk =>
    (s.wroteBumpA_sinkAt xs x k).trans (hsink _ (by omega))
  have hzs := writeBitList_eq_wrote zs (s := (s.wroteBumpA xs x).wroteBumpB ys y) (State.wrote_small _ ys) fun k hk =>
    (s.wroteBumpB_sinkAt xs ys x y k).trans (hsink _ (by omega))
  rw [sendParts, writeBitList_eq_wrote xs h fun k hk => hsink k (by omega), Res.andThen_ok,
    show (s.wrote xs).bumpSym .a x = s.wroteBumpA xs x from rfl, hys, Res.andThen_ok,
    show ((s.wroteBumpA xs x).wrote ys).bumpSym .b y = (s.wroteBumpA xs x).wroteBumpB ys y from rfl, hzs,
    State.wrote_wroteBumpB]

/-- Where the sink refuses a byte, the bump of each code that was written whole has been made. -/
theorem sendParts_eq_cutOff {j : Nat} (hj : j < s.bits.bytesFilled (xs ++ ys ++ zs).length) (href : s.sinkRefusesAfter j) :
    sendParts xs x ys y zs s = .raise .sinkIo
      (if s.bits.bytesFilled (xs.length + ys.length) ≤ j then
        ((s.cutOff j (xs ++ ys ++ zs)).bumpSym .a x).bumpSym .b y
      else if s.bits.bytesFilled xs.length ≤ j then (s.cutOff j (xs ++ ys ++ zs)).bumpSym .a x
      else s.cutOff j (xs ++ ys ++ zs)) := by
  obtain ⟨hacc, href⟩ := href
  rw [List.length_append, List.length_append] at hj
  have hA := s.bytesFilled_wroteBumpA xs x ys.length
  have hB := s.bytesFilled_wroteBumpB xs ys x y zs.length
  by_cases hxs : j < s.bits.bytesFilled xs.length
  · rw [if_neg (by omega), if_neg (by omega), sendParts, writeBitList_eq_cutOff xs j h hxs ⟨hacc, href⟩, Res.andThen_raise,
      List.append_assoc, State.cutOff_append s (ys ++ zs) hxs]
  have hok := writeBitList_eq_wrote xs h fun k hk => hacc k (by omega)
  rw [sendParts, hok, Res.andThen_ok, show (s.wrote xs).bumpSym .a x = s.wroteBumpA xs x from rfl]
  by_cases hys : j < s.bits.bytesFilled (xs.length + ys.length)
  · obtain ⟨i, rfl⟩ : ∃ i, j = s.bits.bytesFilled xs.length + i := ⟨j - s.bits.bytesFilled xs.length, by omega⟩
    have hcut := writeBitList_eq_cutOff ys i (s := s.wroteBumpA xs x) (s.wrote_small xs) (by omega)
      ⟨fun k hk => (s.wroteBumpA_sinkAt xs x k).trans (hacc _ (by omega)), (s.wroteBumpA_sinkAt xs x i).trans href⟩
    rw [if_neg (by omega), if_pos (by omega), hcut, Res.andThen_raise, State.cutOff_wroteBumpA,
      State.cutOff_append s zs (by rwa [List.length_append])]
  · obtain ⟨i, rfl⟩ : ∃ i, j = s.bits.bytesFilled (xs.length + ys.length) + i :=
      ⟨j - s.bits.bytesFilled (xs.length + ys.length), by omega⟩
    have hys := writeBitList_eq_wrote ys (s := s.wroteBumpA xs x) (s.wrote_small xs) fun k hk =>
      (s.wroteBumpA_sinkAt xs x k).trans (hacc _ (by omega))
    have hcut := writeBitList_eq_cutOff zs i (s := (s.wroteBumpA xs x).wroteBumpB ys y) (State.wrote_small _ ys) (by omega)
      ⟨fun k hk => (s.wroteBumpB_sinkAt xs ys x y k).trans (hacc _ (by omega)),
        (s.wroteBumpB_sinkAt xs ys x y i).trans href⟩
    rw [if_pos (by omega), hys, Res.andThen_ok,
      show ((s.wroteBumpA xs x).wrote ys).bumpSym .b y = (s.wroteBumpA xs x).wroteBumpB ys y from rfl, hcut,
      State.cutOff_wroteBumpB]

/-- A token is sent where the sink accepts the bytes its bits fill. -/
theorem sendToken_eq_wrote (tok : Token) (hsink : s.sinkReady (s.bits.bytesFilled (s.tokenBits tok).length)) :
    sendToken tok s = .ok () ((s.wrote (s.tokenBits tok)).bumpedFor tok) := by
  cases tok with
  | lit b => exact encodeSymbol_eq_wrote h .a b.toNat hsink
  | copy len dist => exact (sendToken_copy len dist s).trans (sendParts_eq_wrote h _ _ _ _ _ hsink)

/-- A token of which the sink refuses a byte. -/
theorem sendToken_eq_cutOff (tok : Token) {j : Nat} (hj : j < s.bits.bytesFilled (s.tokenBits tok).length)
    (href : s.sinkRefusesAfter j) : sendToken tok s = .raise .sinkIo
      ((s.cutOff j (s.tokenBits tok)).bumpedWithin tok (8 * j + 7 - s.bits.obits.toNat)) := by
  cases tok with
  | lit b =>
    have hlong : ¬(s.code .a b.toNat).length ≤ 8 * j + 7 - s.bits.obits.toNat := by
      rw [← bytesFilled_le_iff s]
      exact Nat.not_le.2 hj
    exact (encodeSymbol_eq_cutOff h .a b.toNat hj href).trans (congrArg (Res.raise .sinkIo) (if_neg hlong).symm)
  | copy len dist =>
    refine (sendToken_copy len dist s).trans ((sendParts_eq_cutOff h _ _ _ _ _ hj href).trans ?_)
    simp only [bytesFilled_le_iff]
    rfl

end

/-! ## The last byte -/

/-- The pending bits, padded, as the byte that a flush sends (rule R171). -/
theorem packBits_one_pending {c : BitChannel} (h : c.obits ≠ 0) :
    packBits 1 c.pending = [c.obuf <<< (8 - c.obits.toNat)] := by
  have hlt := c.obits.isLt
  have hpos : c.obits.toNat ≠ 0 := fun e => h (BitVec.eq_of_toNat_eq e)
  have hlen := c.length_pending
  have hpad : (c.pending ++ List.replicate 7 false).take 8 = fieldBits (c.obuf <<< (8 - c.obits.toNat)).toNat 8 := by
    rw [fieldBits_flushed, List.take_append, List.take_of_length_le (by omega), List.take_replicate,
      Nat.min_eq_left (by omega), hlen]
  cases hp : c.pending with
  | nil =>
    rw [hp] at hlen
    exact absurd hlen.symm hpos
  | cons b bs =>
    rw [hp] at hpad
    rw [packBits, packBits, hpad, bitsValue_fieldBits (BitVec.isLt _), BitVec.ofNat_toNat, BitVec.setWidth_eq]

/-- The pending bits are flushed where the sink accepts their byte. -/
theorem flushBits_eq_flushed {s : State} (hsink : s.bits.obits ≠ 0 → s.ports.sinkAt 0 = some .ok) :
    flushBits s = .ok () s.flushed := by
  by_cases h : s.bits.obits = 0
  · rw [flushBits_of_none h, State.flushed, if_pos h]
  · rw [flushBits_of_some h, State.flushed, if_neg h, packBits_one_pending h]
    exact sinkWrite_of_ok (s := { s with bits := { s.bits with obuf := 0, obits := 0 } }) (hsink h)

/-- The last byte is refused (rule R332). -/
theorem flushBits_of_refused {s : State} (h : s.bits.obits ≠ 0) (href : s.ports.sinkAt 0 = some .ioErr) :
    flushBits s = .raise .sinkIo (State.triedSink { s with bits := { s.bits with obuf := 0, obits := 0 } }) := by
  rw [flushBits_of_some h]
  exact sinkWrite_of_ioErr (s := { s with bits := { s.bits with obuf := 0, obits := 0 } }) href

end Sys2Proof.Machine

/-! SUPPORT. An encoder step, exactly (rule R290, rule R341): what a token's bits, its bytes and the last flush leave,
where the ports answer and where one fails. -/

namespace Sys2Proof.Machine

/-! ## What the driver's registers do not touch -/

theorem State.consumed_setFsm (x : Fsm) : ∀ (n : Nat) (bytes : List Byte) (s : State),
    State.consumed n bytes (s.setFsm x) = (State.consumed n bytes s).setFsm x
  | 0, _, _ => rfl
  | n + 1, [], s => State.consumed_setFsm x n [] (shiftIn s)
  | n + 1, b :: bs, s => State.consumed_setFsm x n bs (State.filled [b] (shiftIn s))

/-- The registers that `State.flushed` and a flush leave alone. -/
theorem State.flushed_setDriver (s : State) (x : Fsm) (v : Word) :
    ((s.setFsm x).setResult v).flushed = (s.flushed.setFsm x).setResult v := by
  rw [State.flushed, State.flushed]
  by_cases h : s.bits.obits = 0
  · have h' : ((s.setFsm x).setResult v).bits.obits = 0 := h
    rw [if_pos h', if_pos h]
  · have h' : ((s.setFsm x).setResult v).bits.obits ≠ 0 := h
    rw [if_neg h', if_neg h]
    rfl

/-- What touches neither the tables nor what a bump reads commutes with the bumps of a token cut off. -/
theorem State.bumpedWithin_comm {f : State → State} (hA : ∀ s, (f s).tabA = s.tabA) (hB : ∀ s, (f s).tabB = s.tabB)
    (hbump : ∀ sel x s, (f s).bumpSym sel x = f (s.bumpSym sel x)) (tok : Token) (n : Nat) (s : State) :
    (f s).bumpedWithin tok n = f (s.bumpedWithin tok n) := by
  cases tok with
  | lit b =>
    rw [State.bumpedWithin, State.bumpedWithin, hA, hbump, apply_ite f]
  | copy len dist =>
    have hmatch : bumpMatch len dist (f s) = f (bumpMatch len dist s) := by
      rw [bumpMatch, hbump, hbump, ← bumpMatch]
    simp only [State.bumpedWithin, hA, hB, hbump, hmatch, apply_ite f]

theorem State.bumpedWithin_takeError (tok : Token) (n : Nat) (s : State) (e : ErrCode) :
    (s.takeError e).bumpedWithin tok n = (s.bumpedWithin tok n).takeError e :=
  State.bumpedWithin_comm (f := (State.takeError · e)) (fun _ => rfl) (fun _ => rfl) (fun sel _ _ => by cases sel <;> rfl)
    _ _ _

/-! ## The state after a token's bits -/

/-- A token has been sent and its tables bumped; its bytes are still in the lookahead. -/
def State.sentToken (tok : Token) (s : State) : State := (s.wrote (s.tokenBits tok)).bumpedFor tok

theorem State.sentToken_setFsm (tok : Token) (s : State) (x : Fsm) :
    (s.setFsm x).sentToken tok = (s.sentToken tok).setFsm x := by
  cases tok <;> rfl

section

variable (tok : Token) (s : State)

theorem State.sentToken_bits : (s.sentToken tok).bits = (s.wrote (s.tokenBits tok)).bits := by
  cases tok <;> rfl

theorem State.sentToken_win : (s.sentToken tok).win = s.win := by
  cases tok <;> rfl

theorem State.sentToken_len : (s.sentToken tok).len = s.len := by
  cases tok <;> rfl

theorem State.sentToken_count : (s.sentToken tok).count = s.count := by
  cases tok <;> rfl

theorem State.sentToken_srcAt (k : Nat) : (s.sentToken tok).ports.srcAt k = s.ports.srcAt k := by
  cases tok <;> rfl

theorem State.sentToken_sinkAt (k : Nat) : (s.sentToken tok).ports.sinkAt k =
    s.ports.sinkAt (s.bits.bytesFilled (s.tokenBits tok).length + k) := by
  have h : (s.sentToken tok).ports = (s.wrote (s.tokenBits tok)).ports := by cases tok <;> rfl
  rw [h, State.wrote_sinkAt]

theorem State.sentToken_refills (n : Nat) : (s.sentToken tok).refills n = s.refills n := by
  rw [State.refills, State.refills, State.sentToken_win, State.sentToken_len, State.sentToken_count]

end

/-! ## The bytes of a token -/

section

variable {s : State} {tok : Token} {bytes : List Byte} (hpos : s.win.lacnt ≠ 0) (hsize : 1 ≤ tok.size)
  (hcan : s.CanConsume tok.size)

include hpos hsize hcan in
/-- With a byte in the lookahead, the token's bytes are within it, and consuming them is in range (rule R334). -/
theorem consumeToken_eq_turns : consumeToken tok s = consumeTurns tok.size s := by
  have hok : consumeOk s tok.size = true := decide_eq_true ⟨hsize, hcan.enough⟩
  rw [consumeToken, if_neg hpos, consume, hok, checkOperand, if_pos rfl]

include hcan in
/-- What consuming leaves in the lookahead, and what it leaves alone. -/
theorem State.CanConsume.consumed_after (hw : s.win.ok) (hlen : bytes.length ≤ tok.size) :
    (State.consumed tok.size bytes s).win.lacnt.toNat = s.win.lacnt.toNat - tok.size + bytes.length ∧
    (State.consumed tok.size bytes s).bits = s.bits ∧
    ∀ k, (State.consumed tok.size bytes s).ports.sinkAt k = s.ports.sinkAt k := by
  have hroom := hcan.room
  have henough := hcan.enough
  obtain ⟨la, _, hstate, _⟩ := State.consumed_eq tok.size s bytes hw.2.1 henough hroom hlen
  rw [hstate]
  refine ⟨?_, rfl, fun _ => rfl⟩
  show (BitVec.ofNat 6 (s.win.lacnt.toNat - tok.size + bytes.length)).toNat = _
  rw [BitVec.toNat_ofNat, Nat.mod_eq_of_lt (by omega)]

end

/-! ## The step -/

/-- The end of the step, the last byte accepted if there is one (rule R293). -/
theorem closeEncode_eq {u : State} (h : u.win.lacnt = 0 → u.bits.obits ≠ 0 → u.ports.sinkAt 0 = some .ok) :
    closeEncode u = .ok () (if u.win.lacnt = 0 then u.flushed.setFsm .done else u.setFsm .searching) := by
  rw [closeEncode]
  by_cases hz : u.win.lacnt = 0
  · rw [if_pos hz, if_pos hz, flushBits_eq_flushed (h hz), Res.andThen_ok]
  · rw [if_neg hz, if_neg hz]

/-- The end of the step, the last byte refused (rule R332). -/
theorem closeEncode_of_refused {u : State} (hz : u.win.lacnt = 0) (h : u.bits.obits ≠ 0)
    (href : u.ports.sinkAt 0 = some .ioErr) : closeEncode u =
      .raise .sinkIo (State.triedSink { u with bits := { u.bits with obuf := 0, obits := 0 } }) := by
  rw [closeEncode, if_pos hz, flushBits_of_refused h href, Res.andThen_raise]

section

variable {s : State} (hfsm : s.fsm = .searching) (hmode : s.mode = .encode) (hsmall : s.bits.small)
include hfsm hmode

theorem encStep_of_searching : encStep s = (sendToken (chooseToken s) (s.setFsm .emitting)).andThen fun _ t =>
    (consumeToken (chooseToken s) t).andThen fun _ u => closeEncode (u.setResult (chooseToken s).desc) :=
  if_pos ⟨hfsm, hmode⟩

omit hmode in
theorem exec_encstep_of_searching : exec .encstep s = finish s (encStep s) := by
  rw [exec, execEncstep, accepted_of_ne _ (by rw [hfsm]; decide)]

include hsmall

/-- The step once the token has been sent. -/
theorem encStep_of_sent (hsink : s.sinkReady (s.bits.bytesFilled (s.tokenBits (chooseToken s)).length)) :
    encStep s = (consumeToken (chooseToken s) ((s.sentToken (chooseToken s)).setFsm .emitting)).andThen fun _ u =>
      closeEncode (u.setResult (chooseToken s).desc) := by
  have hsend := sendToken_eq_wrote (s := s.setFsm .emitting) hsmall (chooseToken s) hsink
  have hsent : ((s.setFsm .emitting).wrote ((s.setFsm .emitting).tokenBits (chooseToken s))).bumpedFor (chooseToken s) =
      (s.sentToken (chooseToken s)).setFsm .emitting := State.sentToken_setFsm _ s .emitting
  rw [encStep_of_searching hfsm hmode, hsend, hsent, Res.andThen_ok]

end

section

variable {s : State} {bytes : List Byte}

/-- With a byte in the lookahead, the chosen token can be consumed. -/
theorem chooseToken_canConsume (hw : s.win.ok) (hpos : s.win.lacnt ≠ 0)
    (hsum : s.count.toNat + s.win.lacnt.toNat < 2 ^ 32) (x : Fsm) :
    (((s.sentToken (chooseToken s)).setFsm x)).CanConsume (chooseToken s).size := by
  have hwin := State.sentToken_win (chooseToken s) s
  have hcount := State.sentToken_count (chooseToken s) s
  refine ⟨?_, ?_, ?_⟩
  · show _ ≤ (s.sentToken _).win.lacnt.toNat
    rw [hwin]
    exact (chooseToken_size s hpos).2
  · show (s.sentToken _).win.lacnt.toNat ≤ 60
    rw [hwin]
    exact hw.2.2.2.1
  · show (s.sentToken _).count.toNat + (s.sentToken _).win.lacnt.toNat < _
    rwa [hwin, hcount]

/-- The token's bytes, where the source gives the refills. -/
theorem consumeToken_sent (hw : s.win.ok) (hpos : s.win.lacnt ≠ 0) (hsum : s.count.toNat + s.win.lacnt.toNat < 2 ^ 32)
    (hsrc : s.sourceReady bytes) (hlen : bytes.length = s.refills (chooseToken s).size) :
    consumeToken (chooseToken s) ((s.sentToken (chooseToken s)).setFsm .emitting) =
      .ok () ((s.tokenSent (chooseToken s) bytes).setFsm .emitting) := by
  have hwin := State.sentToken_win (chooseToken s) s
  have hcan := chooseToken_canConsume hw hpos hsum .emitting
  have hsrc' : ((s.sentToken (chooseToken s)).setFsm .emitting).sourceReady bytes := fun k hk =>
    (State.sentToken_srcAt _ s k).trans (hsrc k hk)
  have hturns := consumeTurns_eq_consumed _ hcan hsrc' (hlen.trans (State.sentToken_refills _ s _).symm)
  rw [consumeToken_eq_turns (by show (s.sentToken _).win.lacnt ≠ 0; rwa [hwin]) (chooseToken_size s hpos).1 hcan, hturns,
    State.consumed_setFsm]
  rfl

/-- The token's bytes, where the source ends or fails at a refill (rule R331). -/
theorem consumeToken_sent_of_ended (hw : s.win.ok) (hpos : s.win.lacnt ≠ 0)
    (hsum : s.count.toNat + s.win.lacnt.toNat < 2 ^ 32) (hsrc : s.sourceReady bytes) (hend : s.ports.ended bytes.length)
    (hlen : bytes.length < s.refills (chooseToken s).size) :
    ∃ u, consumeToken (chooseToken s) ((s.sentToken (chooseToken s)).setFsm .emitting) = .raise .sourceIo u ∧
      u.takeError .sourceIo =
        (State.consumed (bytes.length + 1) bytes (s.sentToken (chooseToken s))).sourceFailed .sourceIo := by
  have hwin := State.sentToken_win (chooseToken s) s
  have hcan := chooseToken_canConsume hw hpos hsum .emitting
  have hsrc' : ((s.sentToken (chooseToken s)).setFsm .emitting).sourceReady bytes := fun k hk =>
    (State.sentToken_srcAt _ s k).trans (hsrc k hk)
  have hend' : ((s.sentToken (chooseToken s)).setFsm .emitting).ports.ended bytes.length := by
    rw [Ports.ended] at hend ⊢
    rwa [← State.sentToken_srcAt (chooseToken s)] at hend
  have hturns := consumeTurns_of_ended _ hcan hsrc' hend' (hlen.trans_eq (State.sentToken_refills _ s _).symm)
  rw [consumeToken_eq_turns (by show (s.sentToken _).win.lacnt ≠ 0; rwa [hwin]) (chooseToken_size s hpos).1 hcan, hturns]
  refine ⟨_, rfl, ?_⟩
  rw [State.consumed_setFsm]
  rfl

/-- What the step's last lookahead and sink are, once the token's bytes have been consumed. -/
theorem State.tokenSent_after (hw : s.win.ok) (hpos : s.win.lacnt ≠ 0)
    (hsum : s.count.toNat + s.win.lacnt.toNat < 2 ^ 32) (hlen : bytes.length ≤ (chooseToken s).size) :
    (s.tokenSent (chooseToken s) bytes).win.lacnt.toNat + (chooseToken s).size = s.win.lacnt.toNat + bytes.length ∧
    (s.tokenSent (chooseToken s) bytes).bits = (s.wrote (s.tokenBits (chooseToken s))).bits ∧
    (s.tokenSent (chooseToken s) bytes).ports.sinkAt 0 =
      s.ports.sinkAt (s.bits.bytesFilled (s.tokenBits (chooseToken s)).length) := by
  have hcan : (s.sentToken (chooseToken s)).CanConsume (chooseToken s).size := by
    obtain ⟨h1, h2, h3⟩ := chooseToken_canConsume hw hpos hsum .emitting
    exact ⟨h1, h2, h3⟩
  have hwin := State.sentToken_win (chooseToken s) s
  have hle := (chooseToken_size s hpos).2
  obtain ⟨hlacnt, hbits, hports⟩ := hcan.consumed_after (hwin ▸ hw) hlen
  refine ⟨?_, hbits.trans (State.sentToken_bits _ s), (hports 0).trans ((State.sentToken_sinkAt _ s 0).trans ?_)⟩
  · rw [State.tokenSent]
    rw [hwin] at hlacnt
    exact (congrArg (· + _) hlacnt).trans (by omega)
  · rw [Nat.add_zero]

end

end Sys2Proof.Machine

/-! SUPPORT. The encoder step's token and its end, for each outcome of rule R290, rule R292 and rule R341. -/

namespace Sys2Proof.Machine

/-! ## The token chosen -/

theorem chooseToken_of_short {s : State} (h : ∀ d, 1 ≤ d → d ≤ s.win.wfill.toNat → matchLen s d < 3) :
    chooseToken s = .lit (s.win.la.read 0) := by
  rw [chooseToken, findMatch_eq_none h]
  rfl

theorem chooseToken_of_best {s : State} {d : Nat} (h1 : 1 ≤ d) (hd : d ≤ s.win.wfill.toNat) (hmin : 3 ≤ matchLen s d)
    (hbest : ∀ d', 1 ≤ d' → d' ≤ s.win.wfill.toNat →
      matchLen s d' ≤ matchLen s d ∧ (matchLen s d' = matchLen s d → d ≤ d')) :
    chooseToken s = .copy (BitVec.ofNat 6 (matchLen s d)) (BitVec.ofNat 13 d) := by
  rw [chooseToken, findMatch_eq_some h1 hd hmin hbest]

/-- With an empty lookahead no match has a length (rule R221). -/
theorem chooseToken_of_empty {s : State} (h : s.win.lacnt = 0) : chooseToken s = .lit (s.win.la.read 0) := by
  refine chooseToken_of_short fun d _ _ => ?_
  have hle := (matchLen_spec s d).1
  rw [h] at hle
  exact Nat.lt_of_le_of_lt (hle.trans (Nat.min_le_right _ _)) (by decide)

/-! ## The last byte's place in the sink -/

/-- Where bits pend after `n` are written, the byte that pads them comes after those that `n` bits fill (rule R151). -/
theorem bytesFilled_lt_padded {s : State} {xs : List Bool} (h : (s.wrote xs).bits.obits ≠ 0) :
    s.bits.bytesFilled xs.length < (s.bits.obits.toNat + xs.length + 7) / 8 := by
  have hpend : (s.wrote xs).bits.obits.toNat ≠ 0 := fun e => h (BitVec.eq_of_toNat_eq e)
  rw [State.wrote_obits] at hpend
  rw [BitChannel.bytesFilled]
  omega

theorem bytesFilled_le_padded (s : State) (n : Nat) : s.bits.bytesFilled n ≤ (s.bits.obits.toNat + n + 7) / 8 := by
  rw [BitChannel.bytesFilled]
  omega

theorem bytesFilled_le_tokenBytes (s : State) (tok : Token) :
    s.bits.bytesFilled (s.tokenBits tok).length ≤ s.tokenBytes tok := by
  rw [State.tokenBytes]
  split
  · exact bytesFilled_le_padded s _
  · exact le_refl _

/-! ## `ENCSTEP` -/

/-- A refused last byte: what came before it stays, `RESULT` among it (log entry 8). -/
theorem finish_closeEncode_refused (s : State) {u : State} (hz : u.win.lacnt = 0) (h : u.bits.obits ≠ 0)
    (href : u.ports.sinkAt 0 = some .ioErr) (desc : Word) :
    finish s (closeEncode ((u.setFsm .emitting).setResult desc)) =
      .next (State.sinkFailed { u with bits := { u.bits with obuf := 0, obits := 0 }, result := desc }) := by
  have hclose := closeEncode_of_refused (u := (u.setFsm .emitting).setResult desc) hz h href
  rw [hclose, finish_raise]
  rfl

section

variable {s : State} (hfsm : s.fsm = .searching) (hmode : s.mode = .encode) (hsmall : s.bits.small)
include hfsm hmode hsmall

/-- The step where every port answers, with a byte in the lookahead. -/
theorem exec_encstep_eq {bytes : List Byte} (hw : s.win.ok) (hpos : s.win.lacnt ≠ 0)
    (hsum : s.count.toNat + s.win.lacnt.toNat < 2 ^ 32) (hsink : s.sinkReady (s.tokenBytes (chooseToken s)))
    (hsrc : s.sourceReady bytes) (hlen : bytes.length = s.refills (chooseToken s).size) :
    exec .encstep s = .next
      (let s1 := s.tokenSent (chooseToken s) bytes
       if s1.win.lacnt = 0 then { s1.flushed with result := (chooseToken s).desc, fsm := .done }
       else { s1 with result := (chooseToken s).desc, fsm := .searching }) := by
  have hle : bytes.length ≤ (chooseToken s).size := hlen.trans_le (Nat.min_le_left _ _)
  obtain ⟨hlacnt, hbits, hsinkAt⟩ := State.tokenSent_after hw hpos hsum hle
  have hlast (hz : (s.tokenSent (chooseToken s) bytes).win.lacnt = 0)
      (hpend : (s.tokenSent (chooseToken s) bytes).bits.obits ≠ 0) :
      (s.tokenSent (chooseToken s) bytes).ports.sinkAt 0 = some .ok := by
    rw [hz] at hlacnt
    rw [hbits] at hpend
    have hall : s.win.lacnt.toNat + s.refills (chooseToken s).size = (chooseToken s).size :=
      (congrArg _ hlen.symm).trans (hlacnt.symm.trans (Nat.zero_add _))
    rw [hsinkAt]
    refine hsink _ ?_
    rw [State.tokenBytes, if_pos hall]
    exact bytesFilled_lt_padded hpend
  have hclose := closeEncode_eq
    (u := ((s.tokenSent (chooseToken s) bytes).setFsm .emitting).setResult (chooseToken s).desc) hlast
  rw [exec_encstep_of_searching hfsm, encStep_of_sent hfsm hmode hsmall fun k hk =>
      hsink k (hk.trans_le (bytesFilled_le_tokenBytes s _)), consumeToken_sent hw hpos hsum hsrc hlen, Res.andThen_ok,
    hclose, finish_ok, State.flushed_setDriver]
  rfl

/-- The step with an empty lookahead, once its literal has been sent (log entry 10). -/
theorem encStep_of_empty (hz : s.win.lacnt = 0)
    (hsink : s.sinkReady (s.bits.bytesFilled (s.tokenBits (chooseToken s)).length)) :
    encStep s = closeEncode (((s.sentToken (chooseToken s)).setFsm .emitting).setResult (chooseToken s).desc) := by
  have hempty : ((s.sentToken (chooseToken s)).setFsm .emitting).win.lacnt = 0 :=
    (congrArg Window.lacnt (State.sentToken_win _ s)).trans hz
  rw [encStep_of_sent hfsm hmode hsmall hsink, consumeToken, if_pos hempty, Res.andThen_ok]

theorem exec_encstep_of_empty (hz : s.win.lacnt = 0)
    (hsink : s.sinkReady ((s.bits.obits.toNat + (s.tokenBits (chooseToken s)).length + 7) / 8)) :
    exec .encstep s = .next { (s.sentToken (chooseToken s)).flushed with
      result := (chooseToken s).desc, fsm := .done } := by
  have hempty : (s.sentToken (chooseToken s)).win.lacnt = 0 :=
    (congrArg Window.lacnt (State.sentToken_win _ s)).trans hz
  have hlast (hpend : (s.sentToken (chooseToken s)).bits.obits ≠ 0) :
      (s.sentToken (chooseToken s)).ports.sinkAt 0 = some .ok := by
    rw [State.sentToken_bits] at hpend
    rw [State.sentToken_sinkAt]
    exact hsink _ (bytesFilled_lt_padded hpend)
  have hclose := closeEncode_eq
    (u := ((s.sentToken (chooseToken s)).setFsm .emitting).setResult (chooseToken s).desc) fun _ => hlast
  rw [exec_encstep_of_searching hfsm, encStep_of_empty hfsm hmode hsmall hz fun k hk =>
      hsink k (hk.trans_le (bytesFilled_le_padded s _)), hclose, finish_ok, State.flushed_setDriver]
  exact congrArg Host.Outcome.next (if_pos hempty)

/-- A refused byte of the token's bits. -/
theorem exec_encstep_of_cutOff {j : Nat} (hj : j < s.bits.bytesFilled (s.tokenBits (chooseToken s)).length)
    (href : s.sinkRefusesAfter j) : exec .encstep s = .next ((s.wroteUpTo j (s.tokenBits (chooseToken s))).bumpedWithin
      (chooseToken s) (8 * j + 7 - s.bits.obits.toNat)) := by
  have hsend := sendToken_eq_cutOff (s := s.setFsm .emitting) hsmall (chooseToken s) hj href
  rw [exec_encstep_of_searching hfsm, encStep_of_searching hfsm hmode, hsend, Res.andThen_raise, finish_raise,
    ← State.bumpedWithin_takeError]
  rfl

end

/-- Settles O47. -/
theorem encstepEmitsTheChosenToken : Obligations.EncstepEmitsTheChosenToken := by
  rintro s hfsm hmode ⟨hsmall, -⟩ hw
  refine ⟨fun tok desc bytes hpos hsum hchoice hsink hsrc hlen => ?token, fun b hz hb hsink => ?empty⟩
  case token =>
    have htok : tok = chooseToken s ∧ desc = (chooseToken s).desc := by
      rcases hchoice with ⟨hshort, rfl, rfl⟩ | ⟨d, h1, hd, hmin, hbest, rfl, rfl⟩
      · rw [chooseToken_of_short hshort]
        exact ⟨rfl, rfl⟩
      · have hfill := hw.2.2.1
        have hlen60 := (matchLen_spec s d).1
        simp only [Config.windowSize] at hfill
        rw [chooseToken_of_best h1 hd hmin hbest, Token.desc, matchDesc_ofNat (by omega) (by omega)]
        exact ⟨rfl, rfl⟩
    obtain ⟨rfl, rfl⟩ := htok
    exact exec_encstep_eq hfsm hmode hsmall hw hpos hsum hsink hsrc hlen
  case empty =>
    subst hb
    have htok := chooseToken_of_empty hz
    rw [← htok] at hsink ⊢
    rw [exec_encstep_of_empty hfsm hmode hsmall hz hsink, htok]
    rfl

/-- Settles O48. -/
theorem failingEncstepKeepsWhatItDid : Obligations.FailingEncstepKeepsWhatItDid := by
  rintro s bytes hfsm hmode ⟨hsmall, -⟩ hw
  refine ⟨fun j hj href => exec_encstep_of_cutOff hfsm hmode hsmall hj href,
    fun hpos hsum hsink hsrc hlen => ?refill, fun hpend href => ⟨fun hpos hsum hsrc hlen hall => ?last, fun hz => ?empty⟩⟩
  case refill =>
    obtain ⟨hsrc, hend⟩ := hsrc
    obtain ⟨u, hraise, hfailed⟩ := consumeToken_sent_of_ended hw hpos hsum hsrc hend hlen
    rw [exec_encstep_of_searching hfsm, encStep_of_sent hfsm hmode hsmall hsink, hraise, Res.andThen_raise, finish_raise,
      hfailed]
    rfl
  case last =>
    obtain ⟨hsink, href⟩ := href
    obtain ⟨hlacnt, hbits, hsinkAt⟩ := State.tokenSent_after hw hpos hsum (hlen.trans_le (Nat.min_le_left _ _))
    have hzero : (s.tokenSent (chooseToken s) bytes).win.lacnt = 0 := BitVec.eq_of_toNat_eq
      (show (s.tokenSent (chooseToken s) bytes).win.lacnt.toNat = 0 by omega)
    rw [exec_encstep_of_searching hfsm, encStep_of_sent hfsm hmode hsmall hsink, consumeToken_sent hw hpos hsum hsrc hlen,
      Res.andThen_ok]
    exact finish_closeEncode_refused s hzero (hbits ▸ hpend) (hsinkAt.trans href) _
  case empty =>
    obtain ⟨hsink, href⟩ := href
    rw [exec_encstep_of_searching hfsm, encStep_of_empty hfsm hmode hsmall hz hsink]
    exact finish_closeEncode_refused s ((congrArg Window.lacnt (State.sentToken_win _ s)).trans hz)
      (by rwa [State.sentToken_bits]) ((State.sentToken_sinkAt _ s 0).trans href) _

end Sys2Proof.Machine

/-! SUPPORT. A token fetched, exactly (rule R310), from input that begins with its bits and from input that ends inside
them, and the decode step that executes it. -/

namespace Sys2Proof.Machine

/-! ## Reading is blind to the driver's state -/

theorem readBit_setFsm (x : Fsm) (s : State) : readBit (s.setFsm x) = (readBit s).mapState fun u => u.setFsm x := by
  rcases readBit_cases s with ⟨h, e⟩ | ⟨h, b, hb, e⟩ | ⟨h, hb, e⟩ | ⟨h, hb, e⟩ | ⟨h, hb, e⟩ <;> rw [e]
  · exact if_neg h
  all_goals
    rw [readBit, if_pos (show (s.setFsm x).bits.ibits = 0 from h), srcRead, show (s.setFsm x).ports = s.ports from rfl, hb]
    rfl

theorem State.Reads.setFsm (x : Fsm) {s t : State} {bits : List Bool} (h : s.Reads bits t) :
    (s.setFsm x).Reads bits (t.setFsm x) := by
  induction h with
  | nil s => exact .nil _
  | cons head _ ih => exact .cons (by rw [readBit_setFsm, head]; rfl) ih

/-! ## A token whose bits the input begins with -/

/-- A field of `k` bits is its number (rule R175). -/
theorem readBits_of_reads {s t : State} {x k : Nat} (hx : x < 2 ^ k) (h : s.Reads (fieldBits x k) t) :
    readBits k s = .ok x t := by
  have hread := readBitsFrom_of_reads h 0
  rwa [length_fieldBits, foldl_fieldBits, Nat.zero_mul, Nat.zero_add, Nat.mod_eq_of_lt hx] at hread

section

variable {s : State} (ht : s.tablesOk)
include ht

/-- A symbol of table A is read from its code. -/
theorem walkSymbol_a_of_reads {t : State} {sym : Nat} (hs : sym < Config.symbolsA) (h : s.Reads (s.code .a sym) t) :
    walkSymbol .a s = .ok sym t :=
  walkSymbol_of_reads (sel := .a) (by decide) ht.1 rfl (fun _ => rfl) hs h

theorem walkSymbol_b_of_reads {t : State} {sym : Nat} (hs : sym < Config.symbolsB) (h : s.Reads (s.code .b sym) t) :
    walkSymbol .b s = .ok sym t :=
  walkSymbol_of_reads (sel := .b) (by decide) ht.2 rfl (fun _ => rfl) hs h

theorem walkSymbol_a_of_raise {t u : State} {sym : Nat} (hs : sym < Config.symbolsA) {bits : List Bool} {e : ErrCode}
    (h : s.Reads bits t) (hend : readBit t = .raise e u) (hpre : bits <+: s.code .a sym)
    (hlen : bits.length < (s.code .a sym).length) : walkSymbol .a s = .raise e u :=
  walkSymbol_of_raise (sel := .a) (by decide) ht.1 rfl (fun _ => rfl) hs h hend hpre hlen

theorem walkSymbol_b_of_raise {t u : State} {sym : Nat} (hs : sym < Config.symbolsB) {bits : List Bool} {e : ErrCode}
    (h : s.Reads bits t) (hend : readBit t = .raise e u) (hpre : bits <+: s.code .b sym)
    (hlen : bits.length < (s.code .b sym).length) : walkSymbol .b s = .raise e u :=
  walkSymbol_of_raise (sel := .b) (by decide) ht.2 rfl (fun _ => rfl) hs h hend hpre hlen

end

/-- A code is that of the same tables where the input has been read. -/
theorem State.InputSide.code {s t : State} (h : s.InputSide t) (sel : TableSel) (x : Nat) : t.code sel x = s.code sel x := by
  obtain ⟨_, _, _, rfl⟩ := h
  rfl

/-- After the symbol of a match's length, `RECONSTRUCTING` is entered and the rest is read. -/
theorem fetchToken_of_length {s t : State} {sym : Nat} (h : walkSymbol .a s = .ok sym t) (hsym : 256 ≤ sym) :
    fetchToken s = fetchCopy sym (t.setFsm .reconstructing) := by
  rw [fetchToken, h, Res.andThen_ok]
  exact if_neg (Nat.not_lt.2 hsym)

theorem lengthSymbol_ge {len : Nat} (h : 3 ≤ len) : 256 ≤ lengthSymbol len := by
  rw [lengthSymbol]
  omega

section

variable {s t : State} (ht : s.tablesOk)
include ht

theorem fetchToken_lit_of_reads {b : Byte} (h : s.Reads (s.code .a b.toNat) t) :
    fetchToken s = .ok (.lit b) (t.setFsm .reconstructing) := by
  have hsym : b.toNat < Config.symbolsA := lt_trans b.isLt (by decide)
  rw [fetchToken, walkSymbol_a_of_reads ht hsym h, Res.andThen_ok]
  exact (if_pos b.isLt).trans (by rw [BitVec.ofNat_toNat, BitVec.setWidth_eq])

theorem fetchToken_copy_of_reads {len : BitVec 6} {dist : BitVec 13}
    (hwf : (Token.copy len dist).toInstr.wellFormed = true) (h : s.Reads (s.tokenBits (.copy len dist)) t) :
    fetchToken s = .ok (.copy len dist) (t.setFsm .reconstructing) := by
  obtain ⟨hlen, hsymA, hdist, hsymB⟩ := symbols_of_wellFormed hwf
  rw [State.tokenBits_copy] at h
  obtain ⟨m, hab, hc⟩ := h.append
  obtain ⟨l, ha, hb⟩ := hab.append
  have hside := ha.inputSide
  have hwalkB := walkSymbol_b_of_reads (s := l.setFsm .reconstructing) (hside.tablesOk ht) hsymB
    (by rw [← hside.code] at hb; exact hb.setFsm _)
  have hfield := readBits_of_reads (Nat.mod_lt _ (by decide)) (hc.setFsm .reconstructing)
  rw [fetchToken_of_length (walkSymbol_a_of_reads ht hsymA ha) (lengthSymbol_ge hlen), fetchCopy, hwalkB, Res.orBump,
    Res.andThen_ok, hfield, Res.orBump, Res.andThen_ok, symbolLength_lengthSymbol,
    show (dist.toNat - 1) % 2 ^ Config.distLowBits = distExtra dist.toNat from rfl, classDist_distClass hdist]

/-- The token whose bits are read is fetched. -/
theorem fetchToken_of_reads {tok : Token} (hwf : tok.toInstr.wellFormed = true) (h : s.Reads (s.tokenBits tok) t) :
    fetchToken s = .ok tok (t.setFsm .reconstructing) := by
  cases tok with
  | lit b => exact fetchToken_lit_of_reads ht h
  | copy len dist => exact fetchToken_copy_of_reads ht hwf h

end

/-! ## Input that ends inside a token -/

/-- A list that two others, one after the other, begin with is a part of the first or reaches into the second. -/
theorem List.prefix_append_split {α : Type} {l xs ys : List α} (h : l <+: xs ++ ys) :
    l <+: xs ∧ l.length < xs.length ∨ ∃ m, l = xs ++ m ∧ m <+: ys := by
  by_cases hlt : l.length < xs.length
  · exact Or.inl ⟨List.prefix_of_prefix_length_le h (List.prefix_append xs ys) hlt.le, hlt⟩
  · obtain ⟨m, rfl⟩ := List.prefix_of_prefix_length_le (List.prefix_append xs ys) h (Nat.not_lt.1 hlt)
    exact Or.inr ⟨m, rfl, (List.prefix_append_right_inj xs).1 h⟩

section

variable {s t u : State} {e : ErrCode} {bits : List Bool} (ht : s.tablesOk) (h : s.Reads bits t)
  (hend : readBit t = .raise e u)
include ht h hend

theorem fetchToken_lit_of_raise {b : Byte} (hpre : bits <+: s.code .a b.toNat)
    (hlen : bits.length < (s.code .a b.toNat).length) : fetchToken s = .raise e u := by
  have hsym : b.toNat < Config.symbolsA := lt_trans b.isLt (by decide)
  rw [fetchToken, walkSymbol_a_of_raise ht hsym h hend hpre hlen, Res.andThen_raise]

end

section

variable {s t u : State} {e : ErrCode} (ht : s.tablesOk) (hend : readBit t = .raise e u) {len : BitVec 6}
  {dist : BitVec 13} (hwf : (Token.copy len dist).toInstr.wellFormed = true)
include ht hend hwf

/-- The input ends inside the code of the length. -/
theorem fetchToken_copy_raise_a {xs : List Bool} (h : s.Reads xs t) (hpre : xs <+: s.code .a (lengthSymbol len.toNat))
    (hlen : xs.length < (s.code .a (lengthSymbol len.toNat)).length) : fetchToken s = .raise e u := by
  obtain ⟨-, hsymA, -, -⟩ := symbols_of_wellFormed hwf
  rw [fetchToken, walkSymbol_a_of_raise ht hsymA h hend hpre hlen, Res.andThen_raise]

/-- The input ends inside the code of the distance class. -/
theorem fetchToken_copy_raise_b {ys : List Bool} (h : s.Reads (s.code .a (lengthSymbol len.toNat) ++ ys) t)
    (hpre : ys <+: s.code .b (distClass dist.toNat)) (hlen : ys.length < (s.code .b (distClass dist.toNat)).length) :
    fetchToken s = .raise e ((u.setFsm .reconstructing).bumpSym .a (lengthSymbol len.toNat)) := by
  obtain ⟨hlen3, hsymA, -, hsymB⟩ := symbols_of_wellFormed hwf
  obtain ⟨l, ha, hb⟩ := h.append
  have hside := ha.inputSide
  have hendFsm : readBit (t.setFsm .reconstructing) = .raise e (u.setFsm .reconstructing) := by
    rw [readBit_setFsm, hend]
    rfl
  rw [← hside.code] at hpre hlen
  have hwalkB := walkSymbol_b_of_raise (s := l.setFsm .reconstructing) (hside.tablesOk ht) hsymB (hb.setFsm _) hendFsm hpre
    hlen
  rw [fetchToken_of_length (walkSymbol_a_of_reads ht hsymA ha) (lengthSymbol_ge hlen3), fetchCopy, hwalkB, Res.orBump,
    Res.andThen_raise]

/-- The input ends inside the extra bits of the distance. -/
theorem fetchToken_copy_raise_extra {zs : List Bool}
    (h : s.Reads (s.code .a (lengthSymbol len.toNat) ++ s.code .b (distClass dist.toNat) ++ zs) t) (hlen : zs.length < 6) :
    fetchToken s = .raise e (bumpMatch len dist (u.setFsm .reconstructing)) := by
  obtain ⟨hlen3, hsymA, -, hsymB⟩ := symbols_of_wellFormed hwf
  obtain ⟨m, hab, hc⟩ := h.append
  obtain ⟨l, ha, hb⟩ := hab.append
  have hside := ha.inputSide
  have hendFsm : readBit (t.setFsm .reconstructing) = .raise e (u.setFsm .reconstructing) := by
    rw [readBit_setFsm, hend]
    rfl
  have hwalkB := walkSymbol_b_of_reads (s := l.setFsm .reconstructing) (hside.tablesOk ht) hsymB
    (by rw [← hside.code] at hb; exact hb.setFsm _)
  have hfield : readBits Config.distLowBits (m.setFsm .reconstructing) = _ :=
    readBitsFrom_of_raise (hc.setFsm .reconstructing) hendFsm 6 0 hlen
  rw [fetchToken_of_length (walkSymbol_a_of_reads ht hsymA ha) (lengthSymbol_ge hlen3), fetchCopy, hwalkB, Res.orBump,
    Res.andThen_ok, hfield, Res.orBump, Res.andThen_raise, bumpMatch]

end

theorem State.bumpedWithin_sourceFailed (tok : Token) (n : Nat) (s : State) (e : ErrCode) :
    (s.sourceFailed e).bumpedWithin tok n = (s.bumpedWithin tok n).sourceFailed e :=
  State.bumpedWithin_comm (f := State.sourceFailed e) (fun _ => rfl) (fun _ => rfl) (fun sel _ _ => by cases sel <;> rfl)
    _ _ _

theorem State.bumpedWithin_lit (s : State) (b : Byte) (n : Nat) : s.bumpedWithin (.lit b) n =
    if (s.code .a b.toNat).length ≤ n then s.bumpSym .a b.toNat else s := rfl

theorem State.bumpedWithin_copy (s : State) (len : BitVec 6) (dist : BitVec 13) (n : Nat) :
    s.bumpedWithin (.copy len dist) n =
      if (s.code .a (lengthSymbol len.toNat)).length + (s.code .b (distClass dist.toNat)).length ≤ n then
        bumpMatch len dist s
      else if (s.code .a (lengthSymbol len.toNat)).length ≤ n then s.bumpSym .a (lengthSymbol len.toNat) else s := rfl

/-- A token of which the input gives only the first bits: each table is bumped whose code was read whole (rule R312, rule
R341). -/
theorem fetchToken_of_raise {s t u : State} {e : ErrCode} {bits : List Bool} (ht : s.tablesOk) (h : s.Reads bits t)
    (hend : readBit t = .raise e u) (tok : Token) (hwf : tok.toInstr.wellFormed = true) (hpre : bits <+: s.tokenBits tok)
    (hlen : bits.length < (s.tokenBits tok).length) :
    ∃ x, fetchToken s = .raise e ((u.setFsm x).bumpedWithin tok bits.length) := by
  have hside : s.InputSide u := by
    have hlast := readBit_inputSide t
    rw [hend] at hlast
    exact h.inputSide.trans hlast
  have hcode (x : Fsm) (sel : TableSel) (y : Nat) : (u.setFsm x).code sel y = s.code sel y := hside.code sel y
  cases tok with
  | lit b =>
    rw [State.tokenBits_lit] at hpre hlen
    refine ⟨u.fsm, (fetchToken_lit_of_raise ht h hend hpre hlen).trans ?_⟩
    rw [State.bumpedWithin_lit, hcode, if_neg (Nat.not_le.2 hlen)]
    rfl
  | copy len dist =>
    rw [State.tokenBits_copy, List.append_assoc] at hpre
    rw [State.tokenBits_copy, List.length_append, List.length_append, length_fieldBits] at hlen
    simp only [State.bumpedWithin_copy, hcode]
    rcases List.prefix_append_split hpre with ⟨hpreA, hlenA⟩ | ⟨ys, rfl, hpreB⟩
    · refine ⟨u.fsm, (fetchToken_copy_raise_a ht hend hwf h hpreA hlenA).trans ?_⟩
      rw [if_neg (by omega), if_neg (by omega)]
      rfl
    rw [List.length_append] at hlen ⊢
    rcases List.prefix_append_split hpreB with ⟨hpreB, hlenB⟩ | ⟨zs, rfl, -⟩
    · refine ⟨.reconstructing, (fetchToken_copy_raise_b ht hend hwf h hpreB hlenB).trans ?_⟩
      rw [if_neg (by omega), if_pos (by omega)]
    · rw [List.length_append] at hlen ⊢
      rw [← List.append_assoc] at h
      simp only [Config.distLowBits] at hlen
      refine ⟨.reconstructing, (fetchToken_copy_raise_extra ht hend hwf h (by omega)).trans ?_⟩
      rw [if_pos (by omega)]

/-! ## Executing a token -/

/-- A token that the decoder admits and whose bytes the sink accepts (rule R310). -/
theorem Token.run_eq_emitted {s : State} {tok : Token} (hwf : tok.toInstr.wellFormed = true) (hadm : s.admits tok = true)
    (hsink : s.sinkReady tok.size) : tok.run s = .ok () ((s.bumpedFor tok).emitted tok) := by
  cases tok with
  | lit b =>
    rw [Token.run, runLit, sinkWrite_of_ok (s := s.bumpSym .a b.toNat) (hsink 0 Nat.zero_lt_one), Res.andThen_ok]
    rfl
  | copy len dist =>
    obtain ⟨-, h1, hd⟩ := Instr.wellFormed_matchCopy hwf
    have hcan : (bumpMatch len dist s).canCopy dist.toNat := by
      simp only [State.admits, Bool.and_eq_true, decide_eq_true_eq] at hadm
      exact ⟨h1, hd, hadm.2.2⟩
    rw [Token.run, runMatch_of_admits hadm]
    exact copyBytes_eq_copied _ hcan hsink

theorem State.emitted_setFsm (x : Fsm) (s : State) (tok : Token) :
    ((s.setFsm x).bumpedFor tok).emitted tok = ((s.bumpedFor tok).emitted tok).setFsm x := by
  cases tok with
  | lit b => rfl
  | copy len dist =>
    simp only [State.emitted, State.copied_fields]
    rfl

/-! ## `DECSTEP` -/

/-- Settles O49. -/
theorem decstepExecutesTheNextToken : Obligations.DecstepExecutesTheNextToken := by
  rintro s tok bytes hfsm hmode ⟨-, h8⟩ hw ht hwf hsrc
  have hexec : exec .decstep s = finish s (decStep s) := accepted_of_ne _ (by rw [hfsm]; decide)
  refine ⟨fun hadm hneed hpre hsink => ?executes, fun e hend hpre hshort => ?ends⟩
  case executes =>
    have hfetch := fetchToken_of_reads ht hwf (State.reads_of_prefix h8 hsrc hneed hpre)
    have hrun := Token.run_eq_emitted (s := (s.readOff (s.tokenBits tok).length bytes).setFsm .reconstructing) hwf
      (by cases tok <;> exact hadm) hsink
    rw [hexec, decStep_of_reading hfsm hmode, hfetch, Res.andThen_ok, hrun, Res.andThen_ok, finish_ok, State.emitted_setFsm]
    cases tok <;> rfl
  case ends =>
    obtain ⟨hreads, hraise⟩ := State.reads_all h8 hsrc hend
    obtain ⟨x, hfetch⟩ := fetchToken_of_raise ht hreads hraise tok hwf hpre hshort
    have hlen : (s.bits.unread ++ bytesBits bytes).length = s.bits.ibits.toNat + 8 * bytes.length := by
      rw [List.length_append, BitChannel.length_unread, length_bytesBits]
    rw [hexec, decStep_of_reading hfsm hmode, hfetch, Res.andThen_raise, finish_raise, ← State.bumpedWithin_takeError,
      ← hlen]
    exact congrArg Host.Outcome.next (State.bumpedWithin_sourceFailed tok _ (s.readOff _ bytes) e)

end Sys2Proof.Machine

/-! SUPPORT. How a helper depends on the host's side: only through the answers to its port requests, one after another.
Stated once as an inductive predicate over what a helper does with the ports and the register window's host side, and
proved for every helper; the busy hold (rule R345) and the unanswered request (rule R92) follow from it. -/

namespace Sys2Proof.Machine

/-- The block of this state between these ports and this host. -/
def State.between (s : State) (p : Ports) (h : HostSide) : State := { s with ports := p, host := h }

/-- One more byte has been accepted by the sink. -/
def Ports.sinkTook (b : Byte) (p : Ports) : Ports := { p.sinkDone with sink := p.sink ++ [b] }

/-- The next part of a helper, which a source request's answer selects. -/
def onSource {α : Type} (s : State) (k : SrcAnswer → Ports → HostSide → Res α) (p : Ports) (h : HostSide) : Res α :=
  match p.nextSrc with
  | some a => k a p.srcDone h
  | none => .waits (s.between p.srcUnanswered h)

/-- The next part of a helper, where the sink accepts the byte `b`; a refused byte is its error. -/
def onSink {α : Type} (s t : State) (b : Byte) (k : Ports → HostSide → Res α) (p : Ports) (h : HostSide) : Res α :=
  match p.nextSink with
  | some .ok => k (p.sinkTook b) h
  | some .ioErr => .raise .sinkIo (s.between p.sinkDone h)
  | none => .waits (t.between p.sinkUnanswered h)

/-- What a helper does with the ports and the host's side: it ends, raises, or makes a request and goes on by its answer.
Nothing else of the two is read, and nothing else of them changes. -/
inductive Interacts {α : Type} : (Ports → HostSide → Res α) → Prop
  | ok (a : α) (s : State) : Interacts fun p h => .ok a (s.between p h)
  | raise (e : ErrCode) (s : State) : Interacts fun p h => .raise e (s.between p h)
  | src (s : State) {k : SrcAnswer → Ports → HostSide → Res α} (hk : ∀ a, Interacts (k a)) : Interacts (onSource s k)
  | sink (s t : State) (b : Byte) {k : Ports → HostSide → Res α} (hk : Interacts k) : Interacts (onSink s t b k)

namespace Interacts

variable {α β : Type}

/-- Two parts of a helper in sequence. -/
theorem andThen {r : Ports → HostSide → Res α} {f : α → State → Res β} (hr : Interacts r)
    (hf : ∀ a (s : State), Interacts fun p h => f a (s.between p h)) : Interacts fun p h => (r p h).andThen f := by
  induction hr with
  | ok a s => exact hf a s
  | raise e s => exact .raise e s
  | @src s k hk ih =>
    have hsame : (fun p h => (onSource s k p h).andThen f) = onSource s fun a p h => (k a p h).andThen f := by
      funext p h
      rw [onSource, onSource]
      cases p.nextSrc <;> rfl
    rw [hsame]
    exact .src s ih
  | @sink s t b k hk ih =>
    have hsame : (fun p h => (onSink s t b k p h).andThen f) = onSink s t b fun p h => (k p h).andThen f := by
      funext p h
      rw [onSink, onSink]
      rcases p.nextSink with _ | _ | _ <;> rfl
    rw [hsame]
    exact .sink s t b ih

/-- A branch on something that is not the host's. -/
theorem branch {c : Prop} [Decidable c] {f g : Ports → HostSide → Res α} (hf : Interacts f) (hg : Interacts g) :
    Interacts fun p h => if c then f p h else g p h := by
  by_cases hc : c
  · simpa only [if_pos hc] using hf
  · simpa only [if_neg hc] using hg

/-- A part that changes the block where it does not end. -/
theorem orBump {r : Ports → HostSide → Res α} (hr : Interacts r) {bumps : State → State}
    (hb : ∀ s p h, bumps (s.between p h) = (bumps s).between p h) : Interacts fun p h => (r p h).orBump bumps := by
  induction hr with
  | ok a s => exact .ok a s
  | raise e s =>
    have hsame : (fun p h => (Res.raise e (s.between p h) : Res α).orBump bumps) =
        fun p h => .raise e ((bumps s).between p h) := by
      funext p h
      rw [Res.orBump, hb]
    rw [hsame]
    exact .raise e _
  | @src s k hk ih =>
    have hsame : (fun p h => (onSource s k p h).orBump bumps) = onSource (bumps s) fun a p h => (k a p h).orBump bumps := by
      funext p h
      rw [onSource, onSource, ← hb]
      cases p.nextSrc <;> rfl
    rw [hsame]
    exact .src _ ih
  | @sink s t b k hk ih =>
    have hsame : (fun p h => (onSink s t b k p h).orBump bumps) =
        onSink (bumps s) (bumps t) b fun p h => (k p h).orBump bumps := by
      funext p h
      rw [onSink, onSink, ← hb, ← hb]
      rcases p.nextSink with _ | _ | _ <;> rfl
    rw [hsame]
    exact .sink _ _ b ih

end Interacts

/-! ## The ports and the bits -/

theorem srcRead_interacts (s : State) : Interacts fun p h => srcRead (s.between p h) := by
  have hsame : (fun p h => srcRead (s.between p h)) = onSource s fun a p h =>
      .ok a (({ s with inbytes := match a with | .byte _ => s.inbytes + 1 | _ => s.inbytes } : State).between p h) := by
    funext p h
    rw [onSource, srcRead, show (s.between p h).ports = p from rfl]
    rcases p.nextSrc with _ | _ | _ | _ <;> rfl
  rw [hsame]
  exact .src s fun a => .ok a _

theorem sinkWrite_interacts (b : Byte) (s : State) : Interacts fun p h => sinkWrite b (s.between p h) := by
  have hsame : (fun p h => sinkWrite b (s.between p h)) = onSink s s b fun p h =>
      .ok () (({ s with outbytes := s.outbytes + 1 } : State).between p h) := by
    funext p h
    rw [onSink, sinkWrite, show (s.between p h).ports = p from rfl]
    rcases p.nextSink with _ | _ | _ <;> rfl
  rw [hsame]
  exact .sink s s b (.ok () _)

theorem sendBytes_interacts : ∀ (bytes : List Byte) (s : State), Interacts fun p h => sendBytes bytes (s.between p h)
  | [], s => .ok () s
  | b :: bs, s => (sinkWrite_interacts b s).andThen fun _ t => sendBytes_interacts bs t

theorem writeBit_interacts (bit : Bool) (s : State) : Interacts fun p h => writeBit bit (s.between p h) :=
  let buf : BitVec 8 := (s.bits.obuf <<< 1) ||| (BitVec.ofBool bit).setWidth 8
  .branch (c := s.bits.obits.toNat + 1 = 8)
    (sinkWrite_interacts buf { s with bits := { s.bits with obuf := 0, obits := 0 } })
    (.ok () { s with bits := { s.bits with obuf := buf, obits := s.bits.obits + 1 } })

theorem writeBitList_interacts : ∀ (bits : List Bool) (s : State), Interacts fun p h => writeBitList bits (s.between p h)
  | [], s => .ok () s
  | b :: bs, s => (writeBit_interacts b s).andThen fun _ t => writeBitList_interacts bs t

theorem flushBits_interacts (s : State) : Interacts fun p h => flushBits (s.between p h) :=
  .branch (c := 0 < s.bits.obits.toNat) (sinkWrite_interacts (s.bits.obuf <<< (8 - s.bits.obits.toNat))
    { s with bits := { s.bits with obuf := 0, obits := 0 } }) (.ok () s)

theorem takeBit_interacts (s : State) : Interacts fun p h => takeBit (s.between p h) :=
  .ok (s.bits.ibuf.getLsbD (s.bits.ibits.toNat - 1)) { s with bits := { s.bits with ibits := s.bits.ibits - 1 } }

theorem readBit_interacts (s : State) : Interacts fun p h => readBit (s.between p h) :=
  .branch (c := s.bits.ibits = 0) ((srcRead_interacts s).andThen fun answer t => match answer with
    | .byte b => takeBit_interacts { t with bits := { t.bits with ibuf := b, ibits := 8 } }
    | .eof => .raise .corruptStream t
    | .ioErr => .raise .sourceIo t) (takeBit_interacts s)

theorem readBitsFrom_interacts : ∀ (n v : Nat) (s : State), Interacts fun p h => readBitsFrom n v (s.between p h)
  | 0, v, s => .ok v s
  | n + 1, _, s => (readBit_interacts s).andThen fun _ t => readBitsFrom_interacts n _ t

theorem walkFrom_interacts (t : TableSel) : ∀ (fuel c : Nat) (s : State),
    Interacts fun p h => walkFrom t fuel c (s.between p h)
  | 0, c, s => .ok (c - tableNodes t) s
  | fuel + 1, c, s => .branch (c := c < tableNodes t)
      ((readBit_interacts s).andThen fun bit u => walkFrom_interacts t fuel (u.sonAt t (c + bit.toNat)) u)
      (.ok (c - tableNodes t) s)

theorem readHeader_interacts : ∀ (n shift : Nat) (v : Word) (s : State),
    Interacts fun p h => readHeader n shift v (s.between p h)
  | 0, _, v, s => .ok v s
  | n + 1, shift, v, s => (srcRead_interacts s).andThen fun answer t => match answer with
    | .byte b => readHeader_interacts n (shift + 8) (v ||| (b.setWidth 32 <<< shift)) t
    | .eof => .raise .corruptStream t
    | .ioErr => .raise .sourceIo t

/-! ## The code tables -/

theorem bumpSym_between (t : TableSel) (x : Nat) (s : State) (p : Ports) (h : HostSide) :
    (s.between p h).bumpSym t x = (s.bumpSym t x).between p h := by
  cases t <;> rfl

theorem encodeSymbol_interacts (t : TableSel) (x : Nat) (s : State) :
    Interacts fun p h => encodeSymbol t x (s.between p h) :=
  (writeBitList_interacts (s.code t x) s).andThen fun _ u => by
    simp only [bumpSym_between]
    exact .ok () _

theorem walkSymbol_interacts (t : TableSel) (s : State) : Interacts fun p h => walkSymbol t (s.between p h) :=
  walkFrom_interacts t (tableNodes t) (s.sonAt t (tableNodes t - 1)) s

theorem decodeSymbol_interacts (t : TableSel) (s : State) : Interacts fun p h => decodeSymbol t (s.between p h) :=
  (walkSymbol_interacts t s).andThen fun _ u => by
    simp only [bumpSym_between]
    exact .ok _ _

/-! ## The window and the lookahead -/

theorem fillOne_interacts (s : State) : Interacts fun p h => fillOne (s.between p h) :=
  .branch (c := wantsByte s = true) ((srcRead_interacts s).andThen fun answer t => match answer with
    | .byte b => .ok true { t with win := { t.win with la := t.win.la.write t.win.lacnt.toNat b, lacnt := t.win.lacnt + 1 } }
    | .eof => .raise .sourceIo t
    | .ioErr => .raise .sourceIo t) (.ok false s)

theorem fillUpTo_interacts : ∀ (n : Nat) (s : State), Interacts fun p h => fillUpTo n (s.between p h)
  | 0, s => .ok () s
  | n + 1, s => (fillOne_interacts s).andThen fun took t => .branch (c := took = true) (fillUpTo_interacts n t) (.ok () t)

theorem consumeTurns_interacts : ∀ (k : Nat) (s : State), Interacts fun p h => consumeTurns k (s.between p h)
  | 0, s => .ok () s
  | k + 1, s => ((fillOne_interacts (shiftIn s)).andThen fun _ t => .ok () t).andThen fun _ t => consumeTurns_interacts k t

theorem checkOperand_interacts (ok : Bool) (s : State) {r : Ports → HostSide → Res Unit} (hr : Interacts r) :
    Interacts fun p h => checkOperand ok (s.between p h) (r p h) :=
  .branch (c := ok = true) hr (.raise .invariant s)

theorem consume_interacts (k : Nat) (s : State) : Interacts fun p h => consume k (s.between p h) :=
  checkOperand_interacts (consumeOk s k) s (consumeTurns_interacts k s)

theorem byteAt_interacts (d : Nat) (s : State) : Interacts fun p h => byteAt d (s.between p h) :=
  .branch (c := distOk s d = true) (.ok (histByte s d) s) (.raise .invariant s)

theorem copyBytes_interacts (d : Nat) : ∀ (n : Nat) (s : State), Interacts fun p h => copyBytes d n (s.between p h)
  | 0, s => .ok () s
  | n + 1, s => ((byteAt_interacts d s).andThen fun b t => (sinkWrite_interacts b t).andThen fun _ u =>
      .ok () (advance b u).countUp).andThen fun _ t => copyBytes_interacts d n t

/-! ## Tokens -/

theorem matchFrom_between (s : State) (d : Nat) (p : Ports) (h : HostSide) : ∀ m l,
    matchFrom (s.between p h) d m l = matchFrom s d m l
  | 0, _ => rfl
  | m + 1, l => by
    rw [matchFrom, matchFrom, matchFrom_between s d p h m]
    rfl

theorem findMatch_between (s : State) (p : Ports) (h : HostSide) : findMatch (s.between p h) = findMatch s := by
  have hlen (d : Nat) : matchLen (s.between p h) d = matchLen s d := matchFrom_between s d p h _ _
  have hturn : betterMatch (s.between p h) = betterMatch s := by
    funext best d
    rw [betterMatch, betterMatch, hlen]
  rw [findMatch, findMatch, bestMatch, bestMatch, hturn]
  rfl

theorem chooseToken_between (s : State) (p : Ports) (h : HostSide) : chooseToken (s.between p h) = chooseToken s := by
  rw [chooseToken, chooseToken, findMatch_between]
  rfl

theorem sendToken_interacts (tok : Token) (s : State) : Interacts fun p h => sendToken tok (s.between p h) := by
  cases tok with
  | lit b => exact encodeSymbol_interacts .a b.toNat s
  | copy len dist =>
    exact (encodeSymbol_interacts .a _ s).andThen fun _ t => (encodeSymbol_interacts .b _ t).andThen fun _ u =>
      writeBitList_interacts _ u

theorem consumeToken_interacts (tok : Token) (s : State) : Interacts fun p h => consumeToken tok (s.between p h) :=
  .branch (c := s.win.lacnt = 0) (.ok () s) (consume_interacts tok.size s)

theorem Token.run_interacts (tok : Token) (s : State) : Interacts fun p h => tok.run (s.between p h) := by
  cases tok with
  | lit b =>
    exact (sinkWrite_interacts b (s.bumpSym .a b.toNat)).andThen fun _ t => .ok () (advance b t).countUp
  | copy len dist =>
    exact .branch (c := s.len.toNat - s.count.toNat < len.toNat) (.raise .corruptStream (bumpMatch len dist s))
      (.branch (c := s.win.wfill.toNat < dist.toNat) (.raise .corruptStream (bumpMatch len dist s))
      (copyBytes_interacts dist.toNat len.toNat (bumpMatch len dist s)))

theorem fetchCopy_interacts (symA : Nat) (s : State) : Interacts fun p h => fetchCopy symA (s.between p h) :=
  ((walkSymbol_interacts .b s).orBump (bumpSym_between .a symA)).andThen fun cls t =>
    ((readBitsFrom_interacts Config.distLowBits 0 t).orBump fun u p h => by
      rw [bumpSym_between, bumpSym_between]).andThen fun low u => .ok (Token.copy (symbolLength symA) (classDist cls low)) u

theorem fetchToken_interacts (s : State) : Interacts fun p h => fetchToken (s.between p h) :=
  (walkSymbol_interacts .a s).andThen fun symA t =>
    .branch (c := symA < 256) (.ok (Token.lit (BitVec.ofNat 8 symA)) (t.setFsm .reconstructing))
       (fetchCopy_interacts symA (t.setFsm .reconstructing))

/-! ## The driver -/

theorem closeEncode_interacts (s : State) : Interacts fun p h => closeEncode (s.between p h) :=
  .branch (c := s.win.lacnt = 0) ((flushBits_interacts s).andThen fun _ t => .ok () (t.setFsm .done)) (.ok () (s.setFsm .searching))

theorem encStep_interacts (s : State) : Interacts fun p h => encStep (s.between p h) := by
  simp only [encStep, chooseToken_between]
  let tok := chooseToken s
  exact .branch (c := s.fsm = .searching ∧ s.mode = .encode)
    ((sendToken_interacts tok (s.setFsm .emitting)).andThen fun _ t => (consumeToken_interacts tok t).andThen fun _ u =>
      closeEncode_interacts (u.setResult tok.desc)) (.raise .sequence s)

theorem decStep_interacts (s : State) : Interacts fun p h => decStep (s.between p h) :=
  .branch (c := s.fsm = .reading ∧ s.mode = .decode)
    ((fetchToken_interacts s).andThen fun tok t => (tok.run_interacts t).andThen fun _ u => .ok () (closeDecode tok u))
    (.raise .sequence s)

theorem encInit_interacts (s : State) : Interacts fun p h => encInit (s.between p h) := by
  simp only [encInit_eq]
  exact (sendBytes_interacts (headerOf s.len) s.encodeBegun).andThen fun _ t =>
    (fillUpTo_interacts Config.lookaheadSize t).andThen fun _ u =>
      .ok () ((u.setResult u.len).setFsm (if u.win.lacnt = 0 then .done else .searching))

theorem decInit_interacts (s : State) : Interacts fun p h => decInit (s.between p h) := by
  simp only [decInit_eq]
  exact (readHeader_interacts 4 0 0 s.decodeBegun).andThen fun v t =>
    .ok () ((({ t with len := v } : State).setResult v).setFsm (if v = 0 then .done else .reading))

/-! ## The instructions -/

/-- What a step adds at its end reads and changes nothing of the host's side. -/
def EndsApart (last : State → State) : Prop := ∀ (s : State) p h, last (s.between p h) = (last s).between p h

theorem EndsApart.id : EndsApart id := fun _ _ _ => rfl

theorem EndsApart.transform : EndsApart endTransformStep := by
  intro s p h
  rw [endTransformStep, endTransformStep, show (s.between p h).fsm = s.fsm from rfl]
  cases s.fsm <;> rfl

/-- A step from this block: pseudocode that interacts with the host's side, and what the step adds at its end. -/
def StepInteracts (f : State → Host.Outcome State Fault Refusal) (s : State) : Prop :=
  ∃ (r : Ports → HostSide → Res Unit) (last : State → State), Interacts r ∧ EndsApart last ∧
    ∀ p h, f (s.between p h) = endStep (s.between p h) last (r p h)

namespace StepInteracts

variable {s : State} {r : State → Res Unit} (hr : Interacts fun p h => r (s.between p h))
include hr

theorem finish : StepInteracts (fun t => finish t (r t)) s := ⟨_, _, hr, .id, fun _ _ => rfl⟩

theorem transform : StepInteracts (fun t => endStep t endTransformStep (r t)) s := ⟨_, _, hr, .transform, fun _ _ => rfl⟩

/-- An ignored command is one that ends at once. -/
theorem accepted : StepInteracts (fun t => accepted t (r t)) s := by
  by_cases hf : s.fsm = .failed
  · refine ⟨_, _, .ok () s, .id, fun p h => ?_⟩
    have hf' : (s.between p h).fsm = .failed := hf
    simp only [Machine.accepted, unlessFailed, hf']
    rfl
  · exact ⟨_, _, hr, .id, fun p h => accepted_of_ne _ (show (s.between p h).fsm ≠ .failed from hf)⟩

end StepInteracts

theorem transformStep_interacts (s : State) : StepInteracts transformStep s := by
  cases hm : s.mode with
  | encode =>
    obtain ⟨r, last, hr, hlast, hstep⟩ := StepInteracts.transform (encStep_interacts s)
    refine ⟨r, last, hr, hlast, fun p h => ?_⟩
    rw [transformStep, show (s.between p h).mode = .encode from hm]
    exact hstep p h
  | decode =>
    obtain ⟨r, last, hr, hlast, hstep⟩ := StepInteracts.transform (decStep_interacts s)
    refine ⟨r, last, hr, hlast, fun p h => ?_⟩
    rw [transformStep, show (s.between p h).mode = .decode from hm]
    exact hstep p h

end Sys2Proof.Machine

/-! SUPPORT. The busy hold and the unanswered request (rule R345, rule R92), from how a step interacts with the host. -/

namespace Sys2Proof.Machine

/-! ## The instructions interact -/

theorem bumpSym_interacts (t : TableSel) (x : Nat) (s : State) :
    Interacts fun p h => (.ok () ((s.between p h).bumpSym t x) : Res Unit) := by
  simp only [bumpSym_between]
  exact .ok () _

theorem exec_interacts (i : Instr) (s : State) : StepInteracts (exec i) s := by
  cases i with
  | nop => exact .finish (r := fun t => .ok () t) (.ok () s)
  | reset => exact .finish (r := fun t => .ok () (resetBlock t)) (.ok () (resetBlock s))
  | encode => exact .transform (r := fun t => encInit { t with busy := true }) (encInit_interacts { s with busy := true })
  | decode => exact .transform (r := fun t => decInit { t with busy := true }) (decInit_interacts { s with busy := true })
  | encinit => exact .finish (encInit_interacts s)
  | encstep => exact .accepted (encStep_interacts s)
  | decinit => exact .finish (decInit_interacts s)
  | decstep => exact .accepted (decStep_interacts s)
  | wrbits cnt value => exact .accepted (writeBitList_interacts (fieldBits value.toNat cnt.toNat) s)
  | rdbits cnt =>
    exact .accepted ((readBitsFrom_interacts cnt.toNat 0 s).andThen fun v t => .ok () (t.setResult (BitVec.ofNat 32 v)))
  | flush => exact .accepted (flushBits_interacts s)
  | wadv byte => exact .accepted (.ok () ((advance byte s).setResult (evictionDesc (evicted s))))
  | byteat dist =>
    exact .accepted ((byteAt_interacts dist.toNat s).andThen fun b t => .ok () (t.setResult (b.setWidth 32)))
  | lafill => exact .accepted ((fillUpTo_interacts Config.lookaheadSize s).andThen fun _ t => .ok () (lacntResult t))
  | lapeek k =>
    exact .accepted (checkOperand_interacts (indexOk s k.toNat) s (.ok () (s.setResult ((laByte s k.toNat).setWidth 32))))
  | lacons k => exact .accepted ((consume_interacts k.toNat s).andThen fun _ t => .ok () (lacntResult t))
  | findm =>
    refine .accepted (r := fun t => .ok () (t.setResult (findDesc (findMatch t)))) ?_
    simp only [findMatch_between]
    exact .ok () (s.setResult (findDesc (findMatch s)))
  | encsym t sym => exact .accepted (checkOperand_interacts (symbolOk t sym) s (encodeSymbol_interacts t sym.toNat s))
  | decsym t =>
    exact .accepted ((decodeSymbol_interacts t s).andThen fun x u => .ok () (u.setResult (BitVec.ofNat 32 x)))
  | bump t sym =>
    exact .accepted (checkOperand_interacts (symbolOk t sym) s (bumpSym_interacts t sym.toNat s))
  | rebuild t => cases t with
    | a => exact .accepted (.ok () (s.rebuildTable .a))
    | b => exact .accepted (.ok () (s.rebuildTable .b))
  | rdnode t node =>
    exact .accepted (checkOperand_interacts (nodeOk t node) s
      (.ok () (s.setResult (nodeDesc (s.sonAt t node.toNat) (s.freqAt t node.toNat)))))
  | rdleaf t sym =>
    exact .accepted (checkOperand_interacts (symbolOk t sym) s
      (.ok () (s.setResult (BitVec.ofNat 32 (s.leafOf t sym.toNat)))))
  | lit b => exact .finish (Token.run_interacts (.lit b) s)
  | matchCopy len dist => exact .finish (Token.run_interacts (.copy len dist) s)

/-! ## The busy hold -/

theorem EndsApart.sides {last : State → State} (h : EndsApart last) (s : State) :
    (last s).ports = s.ports ∧ (last s).host = s.host := by
  have hsame : last s = (last s).between s.ports s.host := h s s.ports s.host
  rw [hsame]
  exact ⟨rfl, rfl⟩

/-- Another host's side in the place of this one. -/
def State.withHost (h : HostSide) (s : State) : State := { s with host := h }

theorem Interacts.otherHost {α : Type} {r : Ports → HostSide → Res α} (hr : Interacts r) (h h' : HostSide) :
    ∀ p, r p h' = (r p h).mapState (State.withHost h') ∧ (r p h).state.host = h := by
  induction hr with
  | ok a s => exact fun p => ⟨rfl, rfl⟩
  | raise e s => exact fun p => ⟨rfl, rfl⟩
  | src s _ ih =>
    intro p
    rw [onSource, onSource]
    cases p.nextSrc with
    | none => exact ⟨rfl, rfl⟩
    | some a => exact ih a _
  | sink s t b _ ih =>
    intro p
    rw [onSink, onSink]
    rcases p.nextSink with _ | _ | _
    · exact ⟨rfl, rfl⟩
    · exact ih _
    · exact ⟨rfl, rfl⟩

/-- The host's side takes no part in a step of the block. -/
theorem StepInteracts.otherHost {f : State → Host.Outcome State Fault Refusal} {s t : State} (hf : StepInteracts f s)
    (h : HostSide) (hstep : f s = .next t) : t.host = s.host ∧ f (s.withHost h) = .next (t.withHost h) := by
  obtain ⟨r, last, hr, hlast, hends⟩ := hf
  obtain ⟨hother, hhost⟩ := hr.otherHost s.host h s.ports
  have hs : endStep s last (r s.ports s.host) = .next t := (hends s.ports s.host).symm.trans hstep
  have hlastHost (u : State) : last (u.withHost h) = (last u).withHost h := by
    obtain ⟨hports, -⟩ := hlast.sides u
    calc last (u.withHost h) = (last u).between u.ports h := hlast u u.ports h
      _ = (last u).withHost h := by rw [← hports]; rfl
  have hs' : f (s.withHost h) = endStep (s.withHost h) last ((r s.ports s.host).mapState (State.withHost h)) :=
    (hends s.ports h).trans (by rw [hother]; rfl)
  rw [hs']
  cases hrun : r s.ports s.host with
  | ok a u =>
    rw [hrun] at hs hhost
    obtain rfl := Host.Outcome.next.inj hs
    exact ⟨(hlast.sides u).2.trans hhost, congrArg Host.Outcome.next (hlastHost u)⟩
  | raise e u =>
    rw [hrun] at hs hhost
    obtain rfl := Host.Outcome.next.inj hs
    exact ⟨(hlast.sides _).2.trans hhost, congrArg Host.Outcome.next (hlastHost (u.takeError e))⟩
  | waits u =>
    rw [hrun] at hs
    obtain rfl := Host.Outcome.next.inj hs
    exact ⟨rfl, rfl⟩

/-! ### `LEN` during a transform -/

/-- `LEN` is as it was. -/
def State.SameLen (s t : State) : Prop := t.len = s.len

theorem State.SameLen.trans {s t u : State} (h : s.SameLen t) (h' : t.SameLen u) : s.SameLen u := Eq.trans h' h

theorem State.Works.sameLen {s t : State} (h : s.Works t) : s.SameLen t := h.fields.2.2.2.2.2.1

theorem closeEncode_sameLen (s : State) : s.SameLen (closeEncode s).state := by
  rcases closeEncode_cases s with ⟨_, h⟩ | ⟨_, h⟩ <;> rw [h]
  · exact Eq.refl s.len
  · exact Res.state_andThen (R := State.SameLen) State.SameLen.trans (flushBits_works s).sameLen fun _ t _ => Eq.refl t.len

theorem encStep_sameLen (s : State) : s.SameLen (encStep s).state := by
  rw [encStep]
  split
  · refine Res.state_andThen (R := State.SameLen) State.SameLen.trans ?_ fun _ t _ =>
      Res.state_andThen (R := State.SameLen) State.SameLen.trans (consumeToken_works _ t).sameLen fun _ u _ => ?_
    · exact (sendToken_works (chooseToken s) (s.setFsm .emitting)).sameLen
    · exact closeEncode_sameLen (u.setResult (chooseToken s).desc)
  · exact Eq.refl s.len

theorem fetchToken_sameLen (s : State) : s.SameLen (fetchToken s).state := by
  obtain ⟨x, hx⟩ := fetchToken_works s
  exact hx.sameLen

theorem decStep_sameLen (s : State) : s.SameLen (decStep s).state := by
  rw [decStep]
  split
  · exact Res.state_andThen (R := State.SameLen) State.SameLen.trans (fetchToken_sameLen s) fun tok t _ =>
      Res.state_andThen (R := State.SameLen) State.SameLen.trans (tok.run_works t).sameLen fun _ u _ => Eq.refl u.len
  · exact Eq.refl s.len

theorem endTransformStep_len (s : State) : (endTransformStep s).len = s.len := by
  rw [endTransformStep]
  cases s.fsm <;> rfl

theorem endStep_sameLen {s t : State} {r : Res Unit} (hr : s.SameLen r.state) (h : endStep s endTransformStep r = .next t) :
    s.SameLen t := by
  cases r with
  | ok a u => exact Host.Outcome.next.inj h ▸ (endTransformStep_len u).trans hr
  | raise e u => exact Host.Outcome.next.inj h ▸ (endTransformStep_len (u.takeError e)).trans hr
  | waits u => exact Host.Outcome.next.inj h ▸ Eq.refl s.len

theorem transformStep_sameLen {s t : State} (h : transformStep s = .next t) : s.SameLen t := by
  rw [transformStep] at h
  cases hm : s.mode with
  | encode =>
    rw [hm] at h
    exact endStep_sameLen (encStep_sameLen s) h
  | decode =>
    rw [hm] at h
    exact endStep_sameLen (decStep_sameLen s) h

/-- A write to `CMD` is held while a transform is in progress (rule R345, check 1). -/
theorem step_of_held_write {s : State} {w : Word} {rest : List HostOp} (hb : s.busy = true) (hw : s.waiting = false)
    (hq : s.host.queue = .write .word 0x00 w :: rest) : step s = transformStep s := by
  have hfirst : step s = hostWrite 0x00 w s := step_of_proceeds hq (by simp [hw])
  rw [hfirst, hostWrite, if_pos rfl, if_pos hb]

/-- Settles O14. -/
theorem busyBlockHoldsCommandWrites : Obligations.BusyBlockHoldsCommandWrites := by
  intro s t w rest hb hw hq hstep
  rw [step_of_held_write hb hw hq] at hstep
  obtain ⟨hhost, hother⟩ := (transformStep_interacts s).otherHost { s.host with queue := [] } hstep
  refine ⟨hhost, transformStep_sameLen hstep, ?_⟩
  rw [step_of_busy (s := { s with host := { s.host with queue := [] } }) hb hw rfl]
  exact hother

end Sys2Proof.Machine

/-! SUPPORT. The unanswered request (rule R92, rule R342): a helper under this host beside the same helper under one that
answers every request. -/

namespace Sys2Proof.Machine

/-! ## Ports, and ports that a step leads to -/

/-- The same host, answering every request. -/
def Ports.answered (p : Ports) : Ports := { p with srcSilentAt := [], sinkSilentAt := [] }

/-- These ports with the silences of `p`. -/
def Ports.silentAs (p q : Ports) : Ports := { q with srcSilentAt := p.srcSilentAt, sinkSilentAt := p.sinkSilentAt }

/-- Requests have been made since, and bytes accepted. -/
structure Ports.Leads (p q : Ports) : Prop where
  src : p.srcAsked ≤ q.srcAsked
  sink : p.sinkAsked ≤ q.sinkAsked
  bytes : p.sink <+: q.sink

namespace Ports

variable {p q r : Ports}

theorem Leads.refl (p : Ports) : p.Leads p := ⟨le_refl _, le_refl _, List.prefix_rfl⟩

theorem Leads.trans (h : p.Leads q) (h' : q.Leads r) : p.Leads r :=
  ⟨h.src.trans h'.src, h.sink.trans h'.sink, h.bytes.trans h'.bytes⟩

theorem leads_srcDone (p : Ports) : p.Leads p.srcDone := ⟨Nat.le_succ _, le_refl _, List.prefix_rfl⟩

theorem leads_sinkTook (b : Byte) (p : Ports) : p.Leads (p.sinkTook b) :=
  ⟨le_refl _, Nat.le_succ _, List.prefix_append _ _⟩

theorem leads_answered (p : Ports) : p.Leads p.answered := ⟨le_refl _, le_refl _, List.prefix_rfl⟩

theorem leads_refused (p : Ports) : p.Leads p.answered.sinkDone := ⟨le_refl _, Nat.le_succ _, List.prefix_rfl⟩

theorem refused_leads (p : Ports) : p.sinkUnanswered.Leads p.answered.sinkDone := ⟨le_refl _, le_refl _, List.prefix_rfl⟩

/-- No request, no silence. -/
theorem not_meetsSilence_self (hsrc : q.srcAsked = p.srcAsked) (hsink : q.sinkAsked = p.sinkAsked) : ¬p.meetsSilence q := by
  rintro (⟨k, _, hle, hlt⟩ | ⟨k, _, hle, hlt⟩) <;> omega

/-- A source request that is answered meets no silence. -/
theorem meetsSilence_srcDone (h : p.srcAsked ∉ p.srcSilentAt) : p.meetsSilence q ↔ p.srcDone.meetsSilence q := by
  refine or_congr ⟨fun ⟨k, hk, hle, hlt⟩ => ⟨k, hk, ?_, hlt⟩, fun ⟨k, hk, hle, hlt⟩ => ⟨k, hk, ?_, hlt⟩⟩ Iff.rfl
  · exact Nat.lt_of_le_of_ne hle fun e => h (e ▸ hk)
  · exact Nat.le_of_succ_le hle

/-- A sink request that is answered meets no silence. -/
theorem meetsSilence_sinkTook (b : Byte) (h : p.sinkAsked ∉ p.sinkSilentAt) :
    p.meetsSilence q ↔ (p.sinkTook b).meetsSilence q := by
  refine or_congr Iff.rfl ⟨fun ⟨k, hk, hle, hlt⟩ => ⟨k, hk, ?_, hlt⟩, fun ⟨k, hk, hle, hlt⟩ => ⟨k, hk, ?_, hlt⟩⟩
  · exact Nat.lt_of_le_of_ne hle fun e => h (e ▸ hk)
  · exact Nat.le_of_succ_le hle

theorem nextSrc_answered (p : Ports) :
    p.answered.nextSrc = some (p.srcAnswers.head?.getD (Config.sourceDraw p.srcAsked)) := if_neg List.not_mem_nil

theorem nextSink_answered (p : Ports) :
    p.answered.nextSink = some (p.sinkAnswers.head?.getD (Config.sinkDraw p.sinkAsked)) := if_neg List.not_mem_nil

/-! ## Standing at a request -/

/-- The block stands at its first request. -/
theorem standsAfter_src (h : p.srcAsked ∈ p.srcSilentAt) : p.StandsAfter p.srcUnanswered 0 [] := by
  refine ⟨fun k hk => absurd hk (Nat.not_lt_zero k), fun k hk => absurd hk (Nat.not_lt_zero k), Or.inl ⟨h, ?_⟩⟩
  rw [List.length_nil, srcAfter_zero, sinkAfter_zero, List.append_nil]

theorem standsAfter_sink (h : p.sinkAsked ∈ p.sinkSilentAt) : p.StandsAfter p.sinkUnanswered 0 [] := by
  refine ⟨fun k hk => absurd hk (Nat.not_lt_zero k), fun k hk => absurd hk (Nat.not_lt_zero k), Or.inr ⟨h, ?_⟩⟩
  rw [List.length_nil, srcAfter_zero, sinkAfter_zero, List.append_nil]

/-- One more source request was answered before. -/
theorem StandsAfter.of_srcDone {m : Nat} {sent : List Byte} (hheard : p.srcAsked ∉ p.srcSilentAt)
    (h : p.srcDone.StandsAfter q m sent) : p.StandsAfter q (m + 1) sent := by
  obtain ⟨hsrc, hsink, hlast⟩ := h
  rw [srcDone_eq, srcAfter_srcAfter, Nat.add_comm 1] at hlast
  refine ⟨fun k hk => ?_, hsink, hlast.imp_left fun ⟨hmem, heq⟩ => ⟨?_, heq⟩⟩
  · cases k with
    | zero => exact hheard
    | succ k =>
      have := hsrc k (Nat.lt_of_succ_lt_succ hk)
      rwa [srcDone_srcAsked, Nat.add_right_comm] at this
  · rwa [srcAfter_srcAsked, Nat.add_right_comm] at hmem

/-- One more byte was accepted before. -/
theorem StandsAfter.of_sinkTook {m : Nat} {sent : List Byte} {b : Byte} (hheard : p.sinkAsked ∉ p.sinkSilentAt)
    (h : (p.sinkTook b).StandsAfter q m sent) : p.StandsAfter q m (b :: sent) := by
  obtain ⟨hsrc, hsink, hlast⟩ := h
  have hbefore : { ((p.sinkTook b).srcAfter m).sinkAfter sent.length with sink := (p.sinkTook b).sink ++ sent } =
      { (p.srcAfter m).sinkAfter (b :: sent).length with sink := p.sink ++ b :: sent } := by
    have hcount := sinkAfter_sinkAfter (p.srcAfter m) 1 sent.length
    rw [Nat.add_comm 1, ← sinkDone_eq] at hcount
    rw [List.length_cons, ← hcount, List.append_cons]
    rfl
  rw [hbefore] at hlast
  refine ⟨hsrc, fun k hk => ?_, hlast.imp_right fun ⟨hmem, heq⟩ => ⟨?_, heq⟩⟩
  · cases k with
    | zero => exact hheard
    | succ k =>
      have := hsink k (Nat.lt_of_succ_lt_succ hk)
      rwa [show (p.sinkTook b).sinkAsked = p.sinkAsked + 1 from rfl, Nat.add_right_comm] at this
  · rwa [show (p.sinkTook b).sinkAsked = p.sinkAsked + 1 from rfl, Nat.add_right_comm] at hmem

end Ports

/-! ## A helper beside itself under an answering host -/

/-- `R'` is what a helper does between the ports `p`, and `R` what it does where every request is answered: `R` ends or
raises; where it makes a request that `p` does not answer, `R'` stands at the first such; else the two are the same. -/
structure Shadows {α : Type} (p : Ports) (R R' : Res α) : Prop where
  ends : ∀ u, R ≠ .waits u
  leads : p.Leads R.state.ports
  stands : p.meetsSilence R.state.ports → ∃ u m sent, R' = .waits u ∧ p.StandsAfter u.ports m sent ∧
    u.ports.Leads R.state.ports
  same : ¬p.meetsSilence R.state.ports → R' = R.mapState fun u => { u with ports := p.silentAs u.ports }

namespace Shadows

variable {α : Type} {p q : Ports} {R R' : Res α}

/-- One that makes no request, or whose requests are answered and raise. -/
theorem of_same (hends : ∀ u, R ≠ .waits u) (hleads : p.Leads R.state.ports) (hnone : ¬p.meetsSilence R.state.ports)
    (hsame : R' = R.mapState fun u => { u with ports := p.silentAs u.ports }) : Shadows p R R' :=
  ⟨hends, hleads, fun h => absurd h hnone, fun _ => hsame⟩

/-- A request that is answered comes before. -/
theorem after (h : Shadows q R R') (hleads : p.Leads q) (hsilent : p.silentAs = q.silentAs)
    (hmeets : p.meetsSilence R.state.ports ↔ q.meetsSilence R.state.ports)
    (hstands : ∀ {r m sent}, q.StandsAfter r m sent → ∃ m' sent', p.StandsAfter r m' sent') : Shadows p R R' := by
  refine ⟨h.ends, hleads.trans h.leads, fun hm => ?_, fun hm => ?_⟩
  · obtain ⟨u, m, sent, hR, hst, hlead⟩ := h.stands (hmeets.1 hm)
    obtain ⟨m', sent', hst'⟩ := hstands hst
    exact ⟨u, m', sent', hR, hst', hlead⟩
  · rw [hsilent]
    exact h.same fun hq => hm (hmeets.2 hq)

/-- The first request is never answered. -/
theorem of_stands {u : State} (hends : ∀ u, R ≠ .waits u) (hp : p.Leads R.state.ports) (hu : u.ports.Leads R.state.ports)
    (hmeets : p.meetsSilence R.state.ports) (hst : p.StandsAfter u.ports 0 []) : Shadows p R (.waits u) :=
  ⟨hends, hp, fun _ => ⟨u, 0, [], rfl, hst, hu⟩, fun h => absurd hmeets h⟩

end Shadows

theorem Res.ok_ne_waits {α : Type} (a : α) (s u : State) : (Res.ok a s) ≠ .waits u := nofun

theorem Res.raise_ne_waits {α : Type} (e : ErrCode) (s u : State) : (Res.raise e s : Res α) ≠ .waits u := nofun

/-- Whatever a helper's part `k` does after the source's answer shadows, so does the helper. -/
theorem onSource_shadows {α : Type} {s : State} {k : SrcAnswer → Ports → HostSide → Res α} {h : HostSide}
    (ih : ∀ a p, Shadows p (k a p.answered h) (k a p h)) (p : Ports) :
    Shadows p (onSource s k p.answered h) (onSource s k p h) := by
  rw [onSource, onSource, Ports.nextSrc_answered]
  have hrest := ih (p.srcAnswers.head?.getD (Config.sourceDraw p.srcAsked)) p.srcDone
  by_cases hsil : p.srcAsked ∈ p.srcSilentAt
  · rw [show p.nextSrc = none from if_pos hsil]
    obtain ⟨hsrc, hsink, hbytes⟩ := hrest.leads
    exact .of_stands hrest.ends (p.leads_srcDone.trans hrest.leads) ⟨hsrc, hsink, hbytes⟩
      (Or.inl ⟨p.srcAsked, hsil, le_refl _, hsrc⟩) (Ports.standsAfter_src hsil)
  · rw [show p.nextSrc = some _ from if_neg hsil]
    exact hrest.after p.leads_srcDone rfl (Ports.meetsSilence_srcDone hsil) fun hst => ⟨_, _, hst.of_srcDone hsil⟩

theorem onSink_shadows {α : Type} {s t : State} {b : Byte} {k : Ports → HostSide → Res α} {h : HostSide}
    (ih : ∀ p, Shadows p (k p.answered h) (k p h)) (p : Ports) :
    Shadows p (onSink s t b k p.answered h) (onSink s t b k p h) := by
  rw [onSink, onSink, Ports.nextSink_answered]
  have hrest := ih (p.sinkTook b)
  have htook : (p.answered.sinkTook b) = (p.sinkTook b).answered := rfl
  by_cases hsil : p.sinkAsked ∈ p.sinkSilentAt
  · rw [show p.nextSink = none from if_pos hsil]
    cases p.sinkAnswers.head?.getD (Config.sinkDraw p.sinkAsked) with
    | ok =>
      obtain ⟨hsrc, hsink, hbytes⟩ := hrest.leads
      exact .of_stands hrest.ends ((p.leads_sinkTook b).trans hrest.leads)
        ⟨hsrc, hsink, (List.prefix_append _ _).trans hbytes⟩ (Or.inr ⟨p.sinkAsked, hsil, le_refl _, hsink⟩)
        (Ports.standsAfter_sink hsil)
    | ioErr =>
      exact .of_stands (Res.raise_ne_waits _ _) p.leads_refused p.refused_leads
        (Or.inr ⟨p.sinkAsked, hsil, le_refl _, Nat.lt_succ_self _⟩) (Ports.standsAfter_sink hsil)
  · rw [show p.nextSink = some _ from if_neg hsil]
    cases p.sinkAnswers.head?.getD (Config.sinkDraw p.sinkAsked) with
    | ok =>
      exact hrest.after (p.leads_sinkTook b) rfl (Ports.meetsSilence_sinkTook b hsil) fun hst =>
        ⟨_, _, hst.of_sinkTook hsil⟩
    | ioErr =>
      refine .of_same (Res.raise_ne_waits _ _) p.leads_refused (fun hm => ?_) rfl
      exact Ports.not_meetsSilence_self rfl rfl ((Ports.meetsSilence_sinkTook b hsil).1 hm)

theorem Interacts.shadows {α : Type} {r : Ports → HostSide → Res α} (hr : Interacts r) (h : HostSide) :
    ∀ p, Shadows p (r p.answered h) (r p h) := by
  induction hr with
  | ok a s =>
    exact fun p => .of_same (Res.ok_ne_waits _ _) p.leads_answered (Ports.not_meetsSilence_self rfl rfl) rfl
  | raise e s =>
    exact fun p => .of_same (Res.raise_ne_waits _ _) p.leads_answered (Ports.not_meetsSilence_self rfl rfl) rfl
  | src s _ ih => exact onSource_shadows ih
  | sink s t b _ ih => exact onSink_shadows ih

/-! ## A step beside itself -/

/-- A helper that ends or raises gives the step its end, whatever state the step began in. -/
theorem endStep_of_ends {R : Res Unit} (hends : ∀ u, R ≠ .waits u) {last : State → State} (hlast : EndsApart last) (p : Ports) :
    ∃ v, v.ports = R.state.ports ∧ (∀ s, endStep s last R = .next v) ∧
      ∀ s, endStep s last (R.mapState fun u => { u with ports := p.silentAs u.ports }) =
        .next { v with ports := p.silentAs v.ports } := by
  have hside (u : State) : last { u with ports := p.silentAs u.ports } =
      { last u with ports := p.silentAs (last u).ports } := by
    obtain ⟨hports, hhost⟩ := hlast.sides u
    calc last { u with ports := p.silentAs u.ports } = (last u).between (p.silentAs u.ports) u.host :=
          hlast u (p.silentAs u.ports) u.host
      _ = { last u with ports := p.silentAs (last u).ports } := by
        rw [← hports, ← hhost]
        rfl
  cases R with
  | ok a u => exact ⟨last u, (hlast.sides u).1, fun _ => rfl, fun _ => congrArg Host.Outcome.next (hside u)⟩
  | raise e u =>
    exact ⟨last (u.takeError e), (hlast.sides (u.takeError e)).1, fun _ => rfl,
      fun _ => congrArg Host.Outcome.next (hside (u.takeError e))⟩
  | waits u => exact absurd rfl (hends u)

/-- A waiting block that the host can do nothing for is stuck (rule R342). -/
theorem step_of_stuck {s : State} (hw : s.waiting = true)
    (hq : s.host.queue = [] ∨ ∃ w rest, s.host.queue = .write .word 0x00 w :: rest ∧ .powerOnReset ∉ rest) :
    step s = .fault .portNeverAnswered := by
  rw [step, if_pos hw, waitingStep]
  rcases hq with hq | ⟨w, rest, hq, hno⟩ <;> rw [hq]
  have hheld : proceedsWhileWaiting s.busy (.write .word 0x00 w) = false := by simp [proceedsWhileWaiting]
  have hnone : HostOp.powerOnReset ∉ s.host.queue := by
    rw [hq, List.mem_cons]
    exact not_or.2 ⟨HostOp.noConfusion, hno⟩
  dsimp only
  rw [hheld, if_neg Bool.false_ne_true, resetOrStuck, if_neg hnone]

/-- Settles O15. -/
theorem unansweredRequestNeverEnds : Obligations.UnansweredRequestNeverEnds := by
  refine ⟨fun i s => ?_, fun s => step_of_stuck⟩
  obtain ⟨r, last, hr, hlast, hends⟩ := exec_interacts i s
  have hshadow := hr.shadows s.host s.ports
  obtain ⟨t, hports, hanswered, hheard⟩ := endStep_of_ends hshadow.ends hlast s.ports
  have hexec : exec i s = endStep s last (r s.ports s.host) := hends s.ports s.host
  refine ⟨t, (hends s.ports.answered s.host).trans (hanswered _), fun hmeets => ?waits, fun hmeets => ?answers⟩
  case waits =>
    rw [hports] at hmeets ⊢
    obtain ⟨u, m, sent, hrun, hstands, hlead⟩ := hshadow.stands hmeets
    have hsink : u.ports.sink = s.ports.sink ++ sent := by
      rcases hstands.2.2 with ⟨_, heq⟩ | ⟨_, heq⟩ <;> rw [heq] <;> rfl
    refine ⟨u.ports, m, sent, ?_, hstands, hsink ▸ hlead.bytes, hlead.src, hlead.sink⟩
    rw [hexec, hrun]
    rfl
  case answers =>
    rw [hports] at hmeets
    rw [hexec, hshadow.same hmeets]
    exact hheard s

end Sys2Proof.Machine
